-- ==== Sys2Proof/Word.lean ====
section
/-! DEFINITION. The word types of the engine: registers, bytes, register numbers, accrued flags. -/

namespace Sys2Proof

/-- A register, an address or a CSR. XLEN and FLEN are 32 or 64 (00_scope.md R7): every such value is held in 64 bits, a 32-bit
one zero-extended (DESIGN CHOICE, log 4: safe, `Xlen.norm` puts the upper half to zero wherever a register is read or written). -/
abbrev Word := BitVec 64

/-- The addressable unit (20_memory.md R151). -/
abbrev Byte := BitVec 8

/-- A 5-bit register number (10_state.md R32). -/
abbrev RegIdx := BitVec 5

/-- A set of floating-point exception flags: NV 4, DZ 3, OF 2, UF 1, NX 0 (10_state.md R62). -/
abbrev FFlags := BitVec 5

end Sys2Proof
end

