-- ==== Sys2Proof/Config.lean ====
section
/-! DEFINITION. The configuration (00_scope.md R7, R8; 92_eei_decisions.md section 1; 80_interfaces.md R818) and the free values.
The configuration is plain data: State carries it and no step changes it (10_state.md R50; log 3). -/

namespace Sys2Proof

/-- XLEN, 32 or 64 (R7; 128 is refused, D2). -/
inductive Xlen where
  | rv32
  | rv64
deriving DecidableEq, Repr

/-- XLEN as a number. -/
def Xlen.bits : Xlen → Nat
  | .rv32 => 32
  | .rv64 => 64

/-- FLEN, 0, 32 or 64 (R7; 128 is refused, D3). -/
inductive Flen where
  | f0
  | f32
  | f64
deriving DecidableEq, Repr

/-- A privilege level (10_state.md R41, 60_exceptions.md R730); the level "debug" does not exist (90_conflicts.md C4). -/
inductive Priv where
  | U
  | S
  | M
deriving DecidableEq, Repr

/-- The names of the extensions a machine may have (R7). -/
inductive Ext where
  | M | A | F | D | C | Zba | Zbb | Zbc | Zbs
deriving DecidableEq, Repr

/-- The set EXT (R7), one bit for each name. -/
structure ExtSet where
  m : Bool
  a : Bool
  f : Bool
  d : Bool
  c : Bool
  zba : Bool
  zbb : Bool
  zbc : Bool
  zbs : Bool
deriving DecidableEq, Repr

/-- Membership in EXT. -/
def ExtSet.has (e : ExtSet) : Ext → Bool
  | .M => e.m
  | .A => e.a
  | .F => e.f
  | .D => e.d
  | .C => e.c
  | .Zba => e.zba
  | .Zbb => e.zbb
  | .Zbc => e.zbc
  | .Zbs => e.zbs

/-- MISALIGNED (R7, D10). -/
inductive MisalignedMode where
  | trap
  | split
deriving DecidableEq, Repr

/-- RES_INVALIDATE_ON (R7, D11). -/
inductive InvalidateOn where
  | store
  | anyAccess
deriving DecidableEq, Repr

/-- The kind of a memory request (20_memory.md R154). -/
inductive AccessKind where
  | code
  | data
  | store
deriving DecidableEq, Repr

/-- A fault the memory layer answers with (20_memory.md R160). -/
inductive LayerFault where
  | misaligned
  | access
  | page
deriving DecidableEq, Repr

/-- What a range of virtual addresses stands for: shared RAM or a device, from a physical address on, or a fault
(20_memory.md R150, R164, R166, R167). -/
inductive LayerTarget where
  | ram (physBase : Nat)
  | device (physBase : Nat)
  | fault (f : LayerFault)
deriving DecidableEq, Repr

/-- One line of the memory layer's map (DESIGN CHOICE, log 5: 20_memory.md R167 leaves the function `layer` open; the model takes
any function of the request (R155: hart, address, width, kind, translation context) and of the state of memory that a list of such
lines describes). A field that is `none` matches every request. `memory` lists bytes of RAM by physical address: the line applies while
each holds the value given, as the entry of a table in RAM would. -/
structure LayerEntry where
  base : Nat
  size : Nat
  onCode : Bool
  onData : Bool
  onStore : Bool
  memory : List (Nat × Byte)
  hart : Option Word
  width : Option Nat
  priv : Option Priv
  satp : Option Word
  sum : Option Bool
  mxr : Option Bool
  target : LayerTarget
deriving DecidableEq, Repr

/-- The predicate SHUTDOWN_HOOK over the hart's state at an ECALL (80_interfaces.md R815, D26) as data (DESIGN CHOICE, log 13:
conditions on the registers, pc, privilege, CSRs and the reservation, closed under the connectives; and for every number `k` an
uninterpreted predicate `unknown k` of the hart's state, its translation caches left out: log 34). -/
inductive HookPred where
  | never
  | always
  | unknown (k : Nat)
  | xEq (r : RegIdx) (v : Word)
  | fEq (r : RegIdx) (v : Word)
  | vEq (r : RegIdx) (v : Nat)
  | resValid
  | resAddrEq (v : Word)
  | resSeqEq (n : Nat)
  | pcEq (v : Word)
  | privEq (p : Priv)
  | csrEq (num : BitVec 12) (v : Word)
  | and (p q : HookPred)
  | or (p q : HookPred)
  | not (p : HookPred)
deriving DecidableEq, Repr

/-- The configuration value (00_scope.md R7; 92_eei_decisions.md section 1). -/
structure Config where
  xlen : Xlen
  flen : Flen
  vlen : Nat
  ext : ExtSet
  vendorExt : Bool
  nhart : Nat
  resetVector : Word
  paWidth : Nat
  plicBase : Word
  clintBase : Word
  misaligned : MisalignedMode
  resInvalidateOn : InvalidateOn
  shutdownHook : HookPred
  satpModes : List Nat
  mvendorid : Word
  marchid : Word
  mimpid : Word
  cosimMismatchCode : Int
  layer : List LayerEntry
deriving DecidableEq, Repr

/-- The flat RAM of the default memory layer (92_eei_decisions.md section 1), over the whole space (log 5). -/
def flatRam : LayerEntry where
  base := 0
  size := 2 ^ 64
  onCode := true
  onData := true
  onStore := true
  memory := []
  hart := none
  width := none
  priv := none
  satp := none
  sum := none
  mxr := none
  target := .ram 0

/-- The machine State.reset stands for (log 3): the largest one the spec gives meaning to (00_scope.md R2) with every default of
92_eei_decisions.md section 1; the parameters without a default are DESIGN CHOICES. -/
def Config.default : Config where
  xlen := .rv64
  flen := .f64
  vlen := 0
  ext := ⟨true, true, true, true, true, true, true, true, true⟩
  vendorExt := false
  nhart := 1
  resetVector := 0x1000
  paWidth := 64
  plicBase := 0
  clintBase := 0
  misaligned := .trap
  resInvalidateOn := .store
  shutdownHook := .never
  satpModes := [0]
  mvendorid := 0
  marchid := 0
  mimpid := 0
  cosimMismatchCode := 1
  layer := [flatRam]

/-- The default machine at XLEN = 32, used by `decodeTableWord` (log 11) and by tests. -/
def Config.default32 : Config := { Config.default with xlen := .rv32 }

/-- A line a layer may have where translation is the identity: RAM and devices stand at their own addresses, and no page fault is
reported (20_memory.md R167, 60_exceptions.md R705). -/
def LayerEntry.isIdentity (e : LayerEntry) : Bool :=
  match e.target with
  | .ram p | .device p => p == e.base
  | .fault f => f != .page

/-- "With the default SATP_MODES = {0} translation is the identity and only access and misaligned faults occur" (R167). -/
def Config.layerKeepsContract (c : Config) : Bool := c.satpModes.any (· != 0) || c.layer.all LayerEntry.isIdentity

/-- The constraints between parameters (00_scope.md R8) and the ranges of single ones (R7): F needs FLEN ≥ 32; D needs F and
FLEN = 64; FLEN = 0 exactly when F is absent; FLEN = 64 exactly when D is present; VLEN is 0 or a multiple of 32; NHART ≥ 1;
SATP_MODES contains 0; COSIM_MISMATCH_CODE is nonzero; XLEN-bit parameters fit XLEN bits; the layer keeps the contract of 20_memory.md R167 (log 14). -/
def Config.valid (c : Config) : Bool :=
  (c.ext.f == (c.flen != .f0)) && (c.ext.d == (c.flen == .f64)) && (!c.ext.d || c.ext.f)
    && (c.vlen % 32 == 0) && (1 ≤ c.nhart) && c.satpModes.contains 0 && (c.cosimMismatchCode != 0)
    && (c.xlen == .rv64 || (c.resetVector.toNat < 2 ^ 32 && c.mvendorid.toNat < 2 ^ 32 && c.marchid.toNat < 2 ^ 32
      && c.mimpid.toNat < 2 ^ 32))
    && c.layerKeepsContract

/-- The free value a byte read from a device returns (20_memory.md R164; 93_implementation_defined.md row 38: "any value"), one for
each value of the counter `State.devSeq` (log 6). Nothing constrains it. -/
opaque Config.deviceByte : Nat → Byte

end Sys2Proof
end

