-- ==== Sys2Proof/Syntax.lean ====
section
/-! DEFINITION. The instructions: one constructor for each mnemonic of spec/opcode_table.json (30_encoding.md R216, R217). A field holds
exactly the bits the encoding carries: a register field of a compressed instruction with a prime is 3 bits (41_compressed.md R341);
`imm` of a branch is imm[12:1], of JAL imm[20:1], of LUI and AUIPC imm[31:12], of a compressed instruction the bits its docstring
names; `shamt` of the shifts that exist at both XLENs is 6 bits, whose top bit is 0 at XLEN = 32 (WellFormed). -/

namespace Sys2Proof

inductive Instr where
  -- 40_base_integer.md: base integer
  /-- LUI load upper immediate, R265. -/
  | lui (rd : RegIdx) (imm : BitVec 20)
  /-- AUIPC add upper immediate to pc, R266. -/
  | auipc (rd : RegIdx) (imm : BitVec 20)
  /-- JAL jump and link, R267. -/
  | jal (rd : RegIdx) (imm : BitVec 20)
  /-- JALR jump and link register, R268. -/
  | jalr (rd rs1 : RegIdx) (imm : BitVec 12)
  /-- BEQ branch if equal, R269. -/
  | beq (rs1 rs2 : RegIdx) (imm : BitVec 12)
  /-- BNE branch if not equal, R270. -/
  | bne (rs1 rs2 : RegIdx) (imm : BitVec 12)
  /-- BLT branch if less than, signed, R271. -/
  | blt (rs1 rs2 : RegIdx) (imm : BitVec 12)
  /-- BGE branch if greater or equal, signed, R272. -/
  | bge (rs1 rs2 : RegIdx) (imm : BitVec 12)
  /-- BLTU branch if less than, unsigned, R273. -/
  | bltu (rs1 rs2 : RegIdx) (imm : BitVec 12)
  /-- BGEU branch if greater or equal, unsigned, R274. -/
  | bgeu (rs1 rs2 : RegIdx) (imm : BitVec 12)
  /-- LB load byte, signed, R275. -/
  | lb (rd rs1 : RegIdx) (imm : BitVec 12)
  /-- LH load halfword, signed, R276. -/
  | lh (rd rs1 : RegIdx) (imm : BitVec 12)
  /-- LW load word, signed, R277. -/
  | lw (rd rs1 : RegIdx) (imm : BitVec 12)
  /-- LBU load byte, unsigned, R278. -/
  | lbu (rd rs1 : RegIdx) (imm : BitVec 12)
  /-- LHU load halfword, unsigned, R279. -/
  | lhu (rd rs1 : RegIdx) (imm : BitVec 12)
  /-- SB store byte, R280. -/
  | sb (rs2 rs1 : RegIdx) (imm : BitVec 12)
  /-- SH store halfword, R281. -/
  | sh (rs2 rs1 : RegIdx) (imm : BitVec 12)
  /-- SW store word, R282. -/
  | sw (rs2 rs1 : RegIdx) (imm : BitVec 12)
  /-- ADDI add immediate, R283. -/
  | addi (rd rs1 : RegIdx) (imm : BitVec 12)
  /-- SLTI set if less than immediate, signed, R284. -/
  | slti (rd rs1 : RegIdx) (imm : BitVec 12)
  /-- SLTIU set if less than immediate, unsigned, R285. -/
  | sltiu (rd rs1 : RegIdx) (imm : BitVec 12)
  /-- XORI exclusive-or immediate, R286. -/
  | xori (rd rs1 : RegIdx) (imm : BitVec 12)
  /-- ORI or immediate, R287. -/
  | ori (rd rs1 : RegIdx) (imm : BitVec 12)
  /-- ANDI and immediate, R288. -/
  | andi (rd rs1 : RegIdx) (imm : BitVec 12)
  /-- SLLI shift left logical immediate, R289. -/
  | slli (rd rs1 : RegIdx) (shamt : BitVec 6)
  /-- SRLI shift right logical immediate, R290. -/
  | srli (rd rs1 : RegIdx) (shamt : BitVec 6)
  /-- SRAI shift right arithmetic immediate, R291. -/
  | srai (rd rs1 : RegIdx) (shamt : BitVec 6)
  /-- ADD, R292. -/
  | add (rd rs1 rs2 : RegIdx)
  /-- SUB, R293. -/
  | sub (rd rs1 rs2 : RegIdx)
  /-- SLL shift left logical, R294. -/
  | sll (rd rs1 rs2 : RegIdx)
  /-- SLT set if less than, signed, R295. -/
  | slt (rd rs1 rs2 : RegIdx)
  /-- SLTU set if less than, unsigned, R296. -/
  | sltu (rd rs1 rs2 : RegIdx)
  /-- XOR, R297. -/
  | xor (rd rs1 rs2 : RegIdx)
  /-- SRL shift right logical, R298. -/
  | srl (rd rs1 rs2 : RegIdx)
  /-- SRA shift right arithmetic, R299. -/
  | sra (rd rs1 rs2 : RegIdx)
  /-- OR, R300. -/
  | or (rd rs1 rs2 : RegIdx)
  /-- AND, R301. -/
  | and (rd rs1 rs2 : RegIdx)
  /-- FENCE memory ordering fence, R302. -/
  | fence (fm pred succ : BitVec 4) (rs1 rd : RegIdx)
  /-- FENCE.I instruction-fetch fence (Zifencei), R303. -/
  | fence_i (imm : BitVec 12) (rs1 rd : RegIdx)
  /-- LWU load word, unsigned, R306. -/
  | lwu (rd rs1 : RegIdx) (imm : BitVec 12)
  /-- LD load doubleword, R307. -/
  | ld (rd rs1 : RegIdx) (imm : BitVec 12)
  /-- SD store doubleword, R308. -/
  | sd (rs2 rs1 : RegIdx) (imm : BitVec 12)
  /-- ADDIW add immediate word, R309. -/
  | addiw (rd rs1 : RegIdx) (imm : BitVec 12)
  /-- SLLIW shift left logical immediate word, R310. -/
  | slliw (rd rs1 : RegIdx) (shamt : BitVec 5)
  /-- SRLIW shift right logical immediate word, R311. -/
  | srliw (rd rs1 : RegIdx) (shamt : BitVec 5)
  /-- SRAIW shift right arithmetic immediate word, R312. -/
  | sraiw (rd rs1 : RegIdx) (shamt : BitVec 5)
  /-- ADDW add word, R313. -/
  | addw (rd rs1 rs2 : RegIdx)
  /-- SUBW subtract word, R314. -/
  | subw (rd rs1 rs2 : RegIdx)
  /-- SLLW shift left logical word, R315. -/
  | sllw (rd rs1 rs2 : RegIdx)
  /-- SRLW shift right logical word, R316. -/
  | srlw (rd rs1 rs2 : RegIdx)
  /-- SRAW shift right arithmetic word, R317. -/
  | sraw (rd rs1 rs2 : RegIdx)
  -- 41_compressed.md: compressed
  /-- C.ADDI4SPN add scaled immediate to sp, R345; imm is nzuimm[9:2]. -/
  | c_addi4spn (rd : BitVec 3) (imm : BitVec 8)
  /-- C.FLD load double to f register, R346; imm is uimm[7:3]. -/
  | c_fld (rd rs1 : BitVec 3) (imm : BitVec 5)
  /-- C.LW load word, R347; imm is uimm[6:2]. -/
  | c_lw (rd rs1 : BitVec 3) (imm : BitVec 5)
  /-- C.FLW load single to f register, R348; imm is uimm[6:2]. -/
  | c_flw (rd rs1 : BitVec 3) (imm : BitVec 5)
  /-- C.LD load doubleword, R349; imm is uimm[7:3]. -/
  | c_ld (rd rs1 : BitVec 3) (imm : BitVec 5)
  /-- C.FSD store double from f register, R350; imm is uimm[7:3]. -/
  | c_fsd (rs2 rs1 : BitVec 3) (imm : BitVec 5)
  /-- C.SW store word, R351; imm is uimm[6:2]. -/
  | c_sw (rs2 rs1 : BitVec 3) (imm : BitVec 5)
  /-- C.FSW store single from f register, R352; imm is uimm[6:2]. -/
  | c_fsw (rs2 rs1 : BitVec 3) (imm : BitVec 5)
  /-- C.SD store doubleword, R353; imm is uimm[7:3]. -/
  | c_sd (rs2 rs1 : BitVec 3) (imm : BitVec 5)
  /-- C.NOP no operation, R354; imm is imm[5:0]. -/
  | c_nop (imm : BitVec 6)
  /-- C.ADDI add immediate, R355; imm is imm[5:0]. -/
  | c_addi (rd : RegIdx) (imm : BitVec 6)
  /-- C.JAL jump and link, R356; imm is imm[11:1]. -/
  | c_jal (imm : BitVec 11)
  /-- C.ADDIW add immediate word, R357; imm is imm[5:0]. -/
  | c_addiw (rd : RegIdx) (imm : BitVec 6)
  /-- C.LI load immediate, R358; imm is imm[5:0]. -/
  | c_li (rd : RegIdx) (imm : BitVec 6)
  /-- C.ADDI16SP adjust stack pointer, R359; imm is nzimm[9:4]. -/
  | c_addi16sp (imm : BitVec 6)
  /-- C.LUI load upper immediate, R360; imm is nzimm[17:12]. -/
  | c_lui (rd : RegIdx) (imm : BitVec 6)
  /-- C.SRLI shift right logical immediate, R361. -/
  | c_srli (rd : BitVec 3) (shamt : BitVec 6)
  /-- C.SRAI shift right arithmetic immediate, R362. -/
  | c_srai (rd : BitVec 3) (shamt : BitVec 6)
  /-- C.ANDI and immediate, R363; imm is imm[5:0]. -/
  | c_andi (rd : BitVec 3) (imm : BitVec 6)
  /-- C.SUB, R364. -/
  | c_sub (rd rs2 : BitVec 3)
  /-- C.XOR, R365. -/
  | c_xor (rd rs2 : BitVec 3)
  /-- C.OR, R366. -/
  | c_or (rd rs2 : BitVec 3)
  /-- C.AND, R367. -/
  | c_and (rd rs2 : BitVec 3)
  /-- C.SUBW subtract word, R368. -/
  | c_subw (rd rs2 : BitVec 3)
  /-- C.ADDW add word, R369. -/
  | c_addw (rd rs2 : BitVec 3)
  /-- C.J jump, R370; imm is imm[11:1]. -/
  | c_j (imm : BitVec 11)
  /-- C.BEQZ branch if zero, R371; imm is imm[8:1]. -/
  | c_beqz (rs1 : BitVec 3) (imm : BitVec 8)
  /-- C.BNEZ branch if not zero, R372; imm is imm[8:1]. -/
  | c_bnez (rs1 : BitVec 3) (imm : BitVec 8)
  /-- C.SLLI shift left logical immediate, R373. -/
  | c_slli (rd : RegIdx) (shamt : BitVec 6)
  /-- C.FLDSP load double from stack, R374; imm is uimm[8:3]. -/
  | c_fldsp (rd : RegIdx) (imm : BitVec 6)
  /-- C.LWSP load word from stack, R375; imm is uimm[7:2]. -/
  | c_lwsp (rd : RegIdx) (imm : BitVec 6)
  /-- C.FLWSP load single from stack, R376; imm is uimm[7:2]. -/
  | c_flwsp (rd : RegIdx) (imm : BitVec 6)
  /-- C.LDSP load doubleword from stack, R377; imm is uimm[8:3]. -/
  | c_ldsp (rd : RegIdx) (imm : BitVec 6)
  /-- C.JR jump register, R378. -/
  | c_jr (rs1 : RegIdx)
  /-- C.MV copy register, R379. -/
  | c_mv (rd rs2 : RegIdx)
  /-- C.JALR jump and link register, R381. -/
  | c_jalr (rs1 : RegIdx)
  /-- C.ADD, R382. -/
  | c_add (rd rs2 : RegIdx)
  /-- C.FSDSP store double to stack, R383; imm is uimm[8:3]. -/
  | c_fsdsp (rs2 : RegIdx) (imm : BitVec 6)
  /-- C.SWSP store word to stack, R384; imm is uimm[7:2]. -/
  | c_swsp (rs2 : RegIdx) (imm : BitVec 6)
  /-- C.FSWSP store single to stack, R385; imm is uimm[7:2]. -/
  | c_fswsp (rs2 : RegIdx) (imm : BitVec 6)
  /-- C.SDSP store doubleword to stack, R386; imm is uimm[8:3]. -/
  | c_sdsp (rs2 : RegIdx) (imm : BitVec 6)
  -- 42_muldiv.md: multiply and divide
  /-- MUL multiply, low half, R403. -/
  | mul (rd rs1 rs2 : RegIdx)
  /-- MULH multiply high, signed × signed, R404. -/
  | mulh (rd rs1 rs2 : RegIdx)
  /-- MULHSU multiply high, signed × unsigned, R405. -/
  | mulhsu (rd rs1 rs2 : RegIdx)
  /-- MULHU multiply high, unsigned × unsigned, R406. -/
  | mulhu (rd rs1 rs2 : RegIdx)
  /-- DIV divide, signed, R407. -/
  | div (rd rs1 rs2 : RegIdx)
  /-- DIVU divide, unsigned, R408. -/
  | divu (rd rs1 rs2 : RegIdx)
  /-- REM remainder, signed, R409. -/
  | rem (rd rs1 rs2 : RegIdx)
  /-- REMU remainder, unsigned, R410. -/
  | remu (rd rs1 rs2 : RegIdx)
  /-- MULW multiply word, R411. -/
  | mulw (rd rs1 rs2 : RegIdx)
  /-- DIVW divide word, signed, R412. -/
  | divw (rd rs1 rs2 : RegIdx)
  /-- DIVUW divide word, unsigned, R413. -/
  | divuw (rd rs1 rs2 : RegIdx)
  /-- REMW remainder word, signed, R414. -/
  | remw (rd rs1 rs2 : RegIdx)
  /-- REMUW remainder word, unsigned, R415. -/
  | remuw (rd rs1 rs2 : RegIdx)
  -- 43_atomics.md: atomics
  /-- LR.W load reserved, R433. -/
  | lr_w (rd rs1 : RegIdx) (aq rl : BitVec 1)
  /-- SC.W store conditional, R434. -/
  | sc_w (rd rs1 rs2 : RegIdx) (aq rl : BitVec 1)
  /-- AMOSWAP.W atomic swap, R435. -/
  | amoswap_w (rd rs1 rs2 : RegIdx) (aq rl : BitVec 1)
  /-- AMOADD.W atomic add, R436. -/
  | amoadd_w (rd rs1 rs2 : RegIdx) (aq rl : BitVec 1)
  /-- AMOXOR.W atomic exclusive or, R437. -/
  | amoxor_w (rd rs1 rs2 : RegIdx) (aq rl : BitVec 1)
  /-- AMOAND.W atomic and, R438. -/
  | amoand_w (rd rs1 rs2 : RegIdx) (aq rl : BitVec 1)
  /-- AMOOR.W atomic or, R439. -/
  | amoor_w (rd rs1 rs2 : RegIdx) (aq rl : BitVec 1)
  /-- AMOMIN.W atomic minimum, signed, R440. -/
  | amomin_w (rd rs1 rs2 : RegIdx) (aq rl : BitVec 1)
  /-- AMOMAX.W atomic maximum, signed, R441. -/
  | amomax_w (rd rs1 rs2 : RegIdx) (aq rl : BitVec 1)
  /-- AMOMINU.W atomic minimum, unsigned, R442. -/
  | amominu_w (rd rs1 rs2 : RegIdx) (aq rl : BitVec 1)
  /-- AMOMAXU.W atomic maximum, unsigned, R443. -/
  | amomaxu_w (rd rs1 rs2 : RegIdx) (aq rl : BitVec 1)
  /-- LR.D load reserved, R444. -/
  | lr_d (rd rs1 : RegIdx) (aq rl : BitVec 1)
  /-- SC.D store conditional, R445. -/
  | sc_d (rd rs1 rs2 : RegIdx) (aq rl : BitVec 1)
  /-- AMOSWAP.D atomic swap, R446. -/
  | amoswap_d (rd rs1 rs2 : RegIdx) (aq rl : BitVec 1)
  /-- AMOADD.D atomic add, R447. -/
  | amoadd_d (rd rs1 rs2 : RegIdx) (aq rl : BitVec 1)
  /-- AMOXOR.D atomic exclusive or, R448. -/
  | amoxor_d (rd rs1 rs2 : RegIdx) (aq rl : BitVec 1)
  /-- AMOAND.D atomic and, R449. -/
  | amoand_d (rd rs1 rs2 : RegIdx) (aq rl : BitVec 1)
  /-- AMOOR.D atomic or, R450. -/
  | amoor_d (rd rs1 rs2 : RegIdx) (aq rl : BitVec 1)
  /-- AMOMIN.D atomic minimum, signed, R451. -/
  | amomin_d (rd rs1 rs2 : RegIdx) (aq rl : BitVec 1)
  /-- AMOMAX.D atomic maximum, signed, R452. -/
  | amomax_d (rd rs1 rs2 : RegIdx) (aq rl : BitVec 1)
  /-- AMOMINU.D atomic minimum, unsigned, R453. -/
  | amominu_d (rd rs1 rs2 : RegIdx) (aq rl : BitVec 1)
  /-- AMOMAXU.D atomic maximum, unsigned, R454. -/
  | amomaxu_d (rd rs1 rs2 : RegIdx) (aq rl : BitVec 1)
  -- 44_float_single.md: single precision
  /-- FLW load single, R470. -/
  | flw (rd rs1 : RegIdx) (imm : BitVec 12)
  /-- FSW store single, R471. -/
  | fsw (rs2 rs1 : RegIdx) (imm : BitVec 12)
  /-- FMADD.S fused multiply-add, R472. -/
  | fmadd_s (rd rs1 rs2 rs3 : RegIdx) (rm : BitVec 3)
  /-- FMSUB.S fused multiply-subtract, R473. -/
  | fmsub_s (rd rs1 rs2 rs3 : RegIdx) (rm : BitVec 3)
  /-- FNMSUB.S negated fused multiply-subtract, R474. -/
  | fnmsub_s (rd rs1 rs2 rs3 : RegIdx) (rm : BitVec 3)
  /-- FNMADD.S negated fused multiply-add, R475. -/
  | fnmadd_s (rd rs1 rs2 rs3 : RegIdx) (rm : BitVec 3)
  /-- FADD.S add, R476. -/
  | fadd_s (rd rs1 rs2 : RegIdx) (rm : BitVec 3)
  /-- FSUB.S subtract, R477. -/
  | fsub_s (rd rs1 rs2 : RegIdx) (rm : BitVec 3)
  /-- FMUL.S multiply, R478. -/
  | fmul_s (rd rs1 rs2 : RegIdx) (rm : BitVec 3)
  /-- FDIV.S divide, R479. -/
  | fdiv_s (rd rs1 rs2 : RegIdx) (rm : BitVec 3)
  /-- FSQRT.S square root, R480. -/
  | fsqrt_s (rd rs1 : RegIdx) (rm : BitVec 3)
  /-- FSGNJ.S sign inject, R481. -/
  | fsgnj_s (rd rs1 rs2 : RegIdx)
  /-- FSGNJN.S sign inject negated, R482. -/
  | fsgnjn_s (rd rs1 rs2 : RegIdx)
  /-- FSGNJX.S sign inject exclusive-or, R483. -/
  | fsgnjx_s (rd rs1 rs2 : RegIdx)
  /-- FMIN.S minimum, R484. -/
  | fmin_s (rd rs1 rs2 : RegIdx)
  /-- FMAX.S maximum, R485. -/
  | fmax_s (rd rs1 rs2 : RegIdx)
  /-- FCVT.W.S convert to signed word, R486. -/
  | fcvt_w_s (rd rs1 : RegIdx) (rm : BitVec 3)
  /-- FCVT.WU.S convert to unsigned word, R487. -/
  | fcvt_wu_s (rd rs1 : RegIdx) (rm : BitVec 3)
  /-- FMV.X.W move bits to integer register, R488. -/
  | fmv_x_w (rd rs1 : RegIdx)
  /-- FEQ.S equal, R489. -/
  | feq_s (rd rs1 rs2 : RegIdx)
  /-- FLT.S less than, R490. -/
  | flt_s (rd rs1 rs2 : RegIdx)
  /-- FLE.S less or equal, R491. -/
  | fle_s (rd rs1 rs2 : RegIdx)
  /-- FCLASS.S classify, R492. -/
  | fclass_s (rd rs1 : RegIdx)
  /-- FCVT.S.W convert from signed word, R493. -/
  | fcvt_s_w (rd rs1 : RegIdx) (rm : BitVec 3)
  /-- FCVT.S.WU convert from unsigned word, R494. -/
  | fcvt_s_wu (rd rs1 : RegIdx) (rm : BitVec 3)
  /-- FMV.W.X move bits from integer register, R495. -/
  | fmv_w_x (rd rs1 : RegIdx)
  /-- FCVT.L.S convert to signed doubleword, R496. -/
  | fcvt_l_s (rd rs1 : RegIdx) (rm : BitVec 3)
  /-- FCVT.LU.S convert to unsigned doubleword, R497. -/
  | fcvt_lu_s (rd rs1 : RegIdx) (rm : BitVec 3)
  /-- FCVT.S.L convert from signed doubleword, R498. -/
  | fcvt_s_l (rd rs1 : RegIdx) (rm : BitVec 3)
  /-- FCVT.S.LU convert from unsigned doubleword, R499. -/
  | fcvt_s_lu (rd rs1 : RegIdx) (rm : BitVec 3)
  -- 45_float_double.md: double precision
  /-- FLD load double, R522. -/
  | fld (rd rs1 : RegIdx) (imm : BitVec 12)
  /-- FSD store double, R523. -/
  | fsd (rs2 rs1 : RegIdx) (imm : BitVec 12)
  /-- FMADD.D fused multiply-add, R524. -/
  | fmadd_d (rd rs1 rs2 rs3 : RegIdx) (rm : BitVec 3)
  /-- FMSUB.D fused multiply-subtract, R525. -/
  | fmsub_d (rd rs1 rs2 rs3 : RegIdx) (rm : BitVec 3)
  /-- FNMSUB.D negated fused multiply-subtract, R526. -/
  | fnmsub_d (rd rs1 rs2 rs3 : RegIdx) (rm : BitVec 3)
  /-- FNMADD.D negated fused multiply-add, R527. -/
  | fnmadd_d (rd rs1 rs2 rs3 : RegIdx) (rm : BitVec 3)
  /-- FADD.D add, R528. -/
  | fadd_d (rd rs1 rs2 : RegIdx) (rm : BitVec 3)
  /-- FSUB.D subtract, R529. -/
  | fsub_d (rd rs1 rs2 : RegIdx) (rm : BitVec 3)
  /-- FMUL.D multiply, R530. -/
  | fmul_d (rd rs1 rs2 : RegIdx) (rm : BitVec 3)
  /-- FDIV.D divide, R531. -/
  | fdiv_d (rd rs1 rs2 : RegIdx) (rm : BitVec 3)
  /-- FSQRT.D square root, R532. -/
  | fsqrt_d (rd rs1 : RegIdx) (rm : BitVec 3)
  /-- FSGNJ.D sign inject, R533. -/
  | fsgnj_d (rd rs1 rs2 : RegIdx)
  /-- FSGNJN.D sign inject negated, R534. -/
  | fsgnjn_d (rd rs1 rs2 : RegIdx)
  /-- FSGNJX.D sign inject exclusive-or, R535. -/
  | fsgnjx_d (rd rs1 rs2 : RegIdx)
  /-- FMIN.D minimum, R536. -/
  | fmin_d (rd rs1 rs2 : RegIdx)
  /-- FMAX.D maximum, R537. -/
  | fmax_d (rd rs1 rs2 : RegIdx)
  /-- FCVT.S.D convert double to single, R538. -/
  | fcvt_s_d (rd rs1 : RegIdx) (rm : BitVec 3)
  /-- FCVT.D.S convert single to double, R539. -/
  | fcvt_d_s (rd rs1 : RegIdx) (rm : BitVec 3)
  /-- FEQ.D equal, R540. -/
  | feq_d (rd rs1 rs2 : RegIdx)
  /-- FLT.D less than, R541. -/
  | flt_d (rd rs1 rs2 : RegIdx)
  /-- FLE.D less or equal, R542. -/
  | fle_d (rd rs1 rs2 : RegIdx)
  /-- FCLASS.D classify, R543. -/
  | fclass_d (rd rs1 : RegIdx)
  /-- FCVT.W.D convert to signed word, R544. -/
  | fcvt_w_d (rd rs1 : RegIdx) (rm : BitVec 3)
  /-- FCVT.WU.D convert to unsigned word, R545. -/
  | fcvt_wu_d (rd rs1 : RegIdx) (rm : BitVec 3)
  /-- FCVT.D.W convert from signed word, R546. -/
  | fcvt_d_w (rd rs1 : RegIdx) (rm : BitVec 3)
  /-- FCVT.D.WU convert from unsigned word, R547. -/
  | fcvt_d_wu (rd rs1 : RegIdx) (rm : BitVec 3)
  /-- FCVT.L.D convert to signed doubleword, R548. -/
  | fcvt_l_d (rd rs1 : RegIdx) (rm : BitVec 3)
  /-- FCVT.LU.D convert to unsigned doubleword, R549. -/
  | fcvt_lu_d (rd rs1 : RegIdx) (rm : BitVec 3)
  /-- FMV.X.D move bits to integer register, R550. -/
  | fmv_x_d (rd rs1 : RegIdx)
  /-- FCVT.D.L convert from signed doubleword, R551. -/
  | fcvt_d_l (rd rs1 : RegIdx) (rm : BitVec 3)
  /-- FCVT.D.LU convert from unsigned doubleword, R552. -/
  | fcvt_d_lu (rd rs1 : RegIdx) (rm : BitVec 3)
  /-- FMV.D.X move bits from integer register, R553. -/
  | fmv_d_x (rd rs1 : RegIdx)
  -- 46_bitmanip.md: bit manipulation
  /-- SH1ADD shift left by 1 and add, R572. -/
  | sh1add (rd rs1 rs2 : RegIdx)
  /-- SH2ADD shift left by 2 and add, R573. -/
  | sh2add (rd rs1 rs2 : RegIdx)
  /-- SH3ADD shift left by 3 and add, R574. -/
  | sh3add (rd rs1 rs2 : RegIdx)
  /-- ADD.UW add unsigned word, R575. -/
  | add_uw (rd rs1 rs2 : RegIdx)
  /-- SH1ADD.UW shift unsigned word left by 1 and add, R576. -/
  | sh1add_uw (rd rs1 rs2 : RegIdx)
  /-- SH2ADD.UW shift unsigned word left by 2 and add, R577. -/
  | sh2add_uw (rd rs1 rs2 : RegIdx)
  /-- SH3ADD.UW shift unsigned word left by 3 and add, R578. -/
  | sh3add_uw (rd rs1 rs2 : RegIdx)
  /-- SLLI.UW shift unsigned word left by immediate, R579. -/
  | slli_uw (rd rs1 : RegIdx) (shamt : BitVec 6)
  /-- ANDN and with inverted operand, R580. -/
  | andn (rd rs1 rs2 : RegIdx)
  /-- ORN or with inverted operand, R581. -/
  | orn (rd rs1 rs2 : RegIdx)
  /-- XNOR exclusive nor, R582. -/
  | xnor (rd rs1 rs2 : RegIdx)
  /-- CLZ count leading zeros, R583. -/
  | clz (rd rs1 : RegIdx)
  /-- CTZ count trailing zeros, R584. -/
  | ctz (rd rs1 : RegIdx)
  /-- CPOP population count, R585. -/
  | cpop (rd rs1 : RegIdx)
  /-- CLZW count leading zeros in word, R586. -/
  | clzw (rd rs1 : RegIdx)
  /-- CTZW count trailing zeros in word, R587. -/
  | ctzw (rd rs1 : RegIdx)
  /-- CPOPW population count of word, R588. -/
  | cpopw (rd rs1 : RegIdx)
  /-- MAX maximum, signed, R589. -/
  | max (rd rs1 rs2 : RegIdx)
  /-- MAXU maximum, unsigned, R590. -/
  | maxu (rd rs1 rs2 : RegIdx)
  /-- MIN minimum, signed, R591. -/
  | min (rd rs1 rs2 : RegIdx)
  /-- MINU minimum, unsigned, R592. -/
  | minu (rd rs1 rs2 : RegIdx)
  /-- SEXT.B sign-extend byte, R593. -/
  | sext_b (rd rs1 : RegIdx)
  /-- SEXT.H sign-extend halfword, R594. -/
  | sext_h (rd rs1 : RegIdx)
  /-- ZEXT.H zero-extend halfword, R595. -/
  | zext_h (rd rs1 : RegIdx)
  /-- ROL rotate left, R596. -/
  | rol (rd rs1 rs2 : RegIdx)
  /-- ROR rotate right, R597. -/
  | ror (rd rs1 rs2 : RegIdx)
  /-- RORI rotate right by immediate, R598. -/
  | rori (rd rs1 : RegIdx) (shamt : BitVec 6)
  /-- ROLW rotate word left, R599. -/
  | rolw (rd rs1 rs2 : RegIdx)
  /-- RORW rotate word right, R600. -/
  | rorw (rd rs1 rs2 : RegIdx)
  /-- RORIW rotate word right by immediate, R601. -/
  | roriw (rd rs1 : RegIdx) (shamt : BitVec 5)
  /-- ORC.B or-combine within bytes, R602. -/
  | orc_b (rd rs1 : RegIdx)
  /-- REV8 byte-reverse register, R603. -/
  | rev8 (rd rs1 : RegIdx)
  /-- CLMUL carry-less multiply, low half, R604. -/
  | clmul (rd rs1 rs2 : RegIdx)
  /-- CLMULH carry-less multiply, high half, R605. -/
  | clmulh (rd rs1 rs2 : RegIdx)
  /-- CLMULR carry-less multiply, reversed, R606. -/
  | clmulr (rd rs1 rs2 : RegIdx)
  /-- BCLR clear bit, R607. -/
  | bclr (rd rs1 rs2 : RegIdx)
  /-- BCLRI clear bit, immediate index, R608. -/
  | bclri (rd rs1 : RegIdx) (shamt : BitVec 6)
  /-- BEXT extract bit, R609. -/
  | bext (rd rs1 rs2 : RegIdx)
  /-- BEXTI extract bit, immediate index, R610. -/
  | bexti (rd rs1 : RegIdx) (shamt : BitVec 6)
  /-- BINV invert bit, R611. -/
  | binv (rd rs1 rs2 : RegIdx)
  /-- BINVI invert bit, immediate index, R612. -/
  | binvi (rd rs1 : RegIdx) (shamt : BitVec 6)
  /-- BSET set bit, R613. -/
  | bset (rd rs1 rs2 : RegIdx)
  /-- BSETI set bit, immediate index, R614. -/
  | bseti (rd rs1 : RegIdx) (shamt : BitVec 6)
  -- 47_system_csr.md: CSR and privileged
  /-- CSRRW atomic read and write CSR, R632. -/
  | csrrw (rd : RegIdx) (csr : BitVec 12) (rs1 : RegIdx)
  /-- CSRRS atomic read and set bits in CSR, R633. -/
  | csrrs (rd : RegIdx) (csr : BitVec 12) (rs1 : RegIdx)
  /-- CSRRC atomic read and clear bits in CSR, R634. -/
  | csrrc (rd : RegIdx) (csr : BitVec 12) (rs1 : RegIdx)
  /-- CSRRWI atomic read and write CSR, immediate, R635. -/
  | csrrwi (rd : RegIdx) (csr : BitVec 12) (uimm : BitVec 5)
  /-- CSRRSI atomic read and set bits in CSR, immediate, R636. -/
  | csrrsi (rd : RegIdx) (csr : BitVec 12) (uimm : BitVec 5)
  /-- CSRRCI atomic read and clear bits in CSR, immediate, R637. -/
  | csrrci (rd : RegIdx) (csr : BitVec 12) (uimm : BitVec 5)
  /-- SFENCE.VMA supervisor address-translation fence, R644. -/
  | sfence_vma (rs1 rs2 : RegIdx)
  -- the instructions without a field, of all families (last: Lean numbers constructors with fields up to 243 only)
  /-- ECALL environment call, R304. -/
  | ecall
  /-- EBREAK breakpoint, R305. -/
  | ebreak
  /-- C.EBREAK breakpoint, R380. -/
  | c_ebreak
  /-- MRET return from a machine-mode trap, R640. -/
  | mret
  /-- SRET return from a supervisor-mode trap, R641. -/
  | sret
  /-- WFI wait for interrupt, R642. -/
  | wfi
deriving DecidableEq, Repr

end Sys2Proof
end

