-- ==== Sys2Proof/WellFormed.lean ====
section
/-! DEFINITION. Which instructions a machine has (30_encoding.md R209: the Needs line of every rule) and which field values their
encodings admit (R204: the constraints of spec/opcode_table.json). -/

namespace Sys2Proof

/-- The XLENs at which an instruction's rows exist, and the extensions its rows need (R209). -/
structure Needs where
  rv32 : Bool
  rv64 : Bool
  exts : List Ext
deriving DecidableEq, Repr

/-- The Needs line of every instruction rule. -/
def Instr.needs : Instr → Needs
  | .lui .. | .auipc .. | .jal .. | .jalr .. | .beq .. | .bne .. | .blt .. | .bge .. | .bltu .. | .bgeu .. | .lb ..
  | .lh .. | .lw .. | .lbu .. | .lhu .. | .sb .. | .sh .. | .sw .. | .addi .. | .slti .. | .sltiu .. | .xori ..
  | .ori .. | .andi .. | .slli .. | .srli .. | .srai .. | .add .. | .sub .. | .sll .. | .slt .. | .sltu .. | .xor ..
  | .srl .. | .sra .. | .or .. | .and .. | .fence .. | .fence_i .. | .ecall | .ebreak | .csrrw .. | .csrrs ..
  | .csrrc .. | .csrrwi .. | .csrrsi .. | .csrrci .. | .mret | .sret | .wfi | .sfence_vma ..
    => ⟨true, true, []⟩
  | .lwu .. | .ld .. | .sd .. | .addiw .. | .slliw .. | .srliw .. | .sraiw .. | .addw .. | .subw .. | .sllw ..
  | .srlw .. | .sraw ..
    => ⟨false, true, []⟩
  | .c_addi4spn .. | .c_lw .. | .c_sw .. | .c_nop .. | .c_addi .. | .c_li .. | .c_addi16sp .. | .c_lui ..
  | .c_srli .. | .c_srai .. | .c_andi .. | .c_sub .. | .c_xor .. | .c_or .. | .c_and .. | .c_j .. | .c_beqz ..
  | .c_bnez .. | .c_slli .. | .c_lwsp .. | .c_jr .. | .c_mv .. | .c_ebreak | .c_jalr .. | .c_add .. | .c_swsp ..
    => ⟨true, true, [.C]⟩
  | .c_fld .. | .c_fsd .. | .c_fldsp .. | .c_fsdsp ..
    => ⟨true, true, [.C, .D]⟩
  | .c_flw .. | .c_fsw .. | .c_flwsp .. | .c_fswsp ..
    => ⟨true, false, [.C, .F]⟩
  | .c_ld .. | .c_sd .. | .c_addiw .. | .c_subw .. | .c_addw .. | .c_ldsp .. | .c_sdsp ..
    => ⟨false, true, [.C]⟩
  | .c_jal ..
    => ⟨true, false, [.C]⟩
  | .mul .. | .mulh .. | .mulhsu .. | .mulhu .. | .div .. | .divu .. | .rem .. | .remu ..
    => ⟨true, true, [.M]⟩
  | .mulw .. | .divw .. | .divuw .. | .remw .. | .remuw ..
    => ⟨false, true, [.M]⟩
  | .lr_w .. | .sc_w .. | .amoswap_w .. | .amoadd_w .. | .amoxor_w .. | .amoand_w .. | .amoor_w .. | .amomin_w ..
  | .amomax_w .. | .amominu_w .. | .amomaxu_w ..
    => ⟨true, true, [.A]⟩
  | .lr_d .. | .sc_d .. | .amoswap_d .. | .amoadd_d .. | .amoxor_d .. | .amoand_d .. | .amoor_d .. | .amomin_d ..
  | .amomax_d .. | .amominu_d .. | .amomaxu_d ..
    => ⟨false, true, [.A]⟩
  | .flw .. | .fsw .. | .fmadd_s .. | .fmsub_s .. | .fnmsub_s .. | .fnmadd_s .. | .fadd_s .. | .fsub_s ..
  | .fmul_s .. | .fdiv_s .. | .fsqrt_s .. | .fsgnj_s .. | .fsgnjn_s .. | .fsgnjx_s .. | .fmin_s .. | .fmax_s ..
  | .fcvt_w_s .. | .fcvt_wu_s .. | .fmv_x_w .. | .feq_s .. | .flt_s .. | .fle_s .. | .fclass_s .. | .fcvt_s_w ..
  | .fcvt_s_wu .. | .fmv_w_x ..
    => ⟨true, true, [.F]⟩
  | .fcvt_l_s .. | .fcvt_lu_s .. | .fcvt_s_l .. | .fcvt_s_lu ..
    => ⟨false, true, [.F]⟩
  | .fld .. | .fsd .. | .fmadd_d .. | .fmsub_d .. | .fnmsub_d .. | .fnmadd_d .. | .fadd_d .. | .fsub_d ..
  | .fmul_d .. | .fdiv_d .. | .fsqrt_d .. | .fsgnj_d .. | .fsgnjn_d .. | .fsgnjx_d .. | .fmin_d .. | .fmax_d ..
  | .fcvt_s_d .. | .fcvt_d_s .. | .feq_d .. | .flt_d .. | .fle_d .. | .fclass_d .. | .fcvt_w_d .. | .fcvt_wu_d ..
  | .fcvt_d_w .. | .fcvt_d_wu ..
    => ⟨true, true, [.D]⟩
  | .fcvt_l_d .. | .fcvt_lu_d .. | .fmv_x_d .. | .fcvt_d_l .. | .fcvt_d_lu .. | .fmv_d_x ..
    => ⟨false, true, [.D]⟩
  | .sh1add .. | .sh2add .. | .sh3add ..
    => ⟨true, true, [.Zba]⟩
  | .add_uw .. | .sh1add_uw .. | .sh2add_uw .. | .sh3add_uw .. | .slli_uw ..
    => ⟨false, true, [.Zba]⟩
  | .andn .. | .orn .. | .xnor .. | .clz .. | .ctz .. | .cpop .. | .max .. | .maxu .. | .min .. | .minu ..
  | .sext_b .. | .sext_h .. | .zext_h .. | .rol .. | .ror .. | .rori .. | .orc_b .. | .rev8 ..
    => ⟨true, true, [.Zbb]⟩
  | .clzw .. | .ctzw .. | .cpopw .. | .rolw .. | .rorw .. | .roriw ..
    => ⟨false, true, [.Zbb]⟩
  | .clmul .. | .clmulh .. | .clmulr ..
    => ⟨true, true, [.Zbc]⟩
  | .bclr .. | .bclri .. | .bext .. | .bexti .. | .binv .. | .binvi .. | .bset .. | .bseti ..
    => ⟨true, true, [.Zbs]⟩

/-- The machine has the instruction: XLEN is in its list and its extensions are in EXT (R209). -/
def Instr.availableIn (c : Config) (i : Instr) : Bool :=
  (match c.xlen with
    | .rv32 => i.needs.rv32
    | .rv64 => i.needs.rv64)
    && i.needs.exts.all c.ext.has

/-- A static rounding mode the rows admit: not 5 and not 6 (44_float_single.md R461). -/
def rmEncodable (rm : BitVec 3) : Bool := rm != 5#3 && rm != 6#3

/-- A 6-bit shift amount at this XLEN: below 32 at XLEN = 32 (40_base_integer.md R289). -/
def shamtEncodable (xl : Xlen) (shamt : BitVec 6) : Bool :=
  match xl with
  | .rv32 => !shamt.getLsbD 5
  | .rv64 => true

/-- The field values the rows admit (R204, the column `constraints`; R207 for `shamt[5]` at XLEN = 32). -/
def Instr.fieldsOk (xl : Xlen) : Instr → Bool
  | .lui .. | .auipc .. | .jal .. | .jalr .. | .beq .. | .bne .. | .blt .. | .bge .. | .bltu .. | .bgeu .. | .lb ..
  | .lh .. | .lw .. | .lbu .. | .lhu .. | .sb .. | .sh .. | .sw .. | .addi .. | .slti .. | .sltiu .. | .xori ..
  | .ori .. | .andi .. | .add .. | .sub .. | .sll .. | .slt .. | .sltu .. | .xor .. | .srl .. | .sra .. | .or ..
  | .and .. | .fence .. | .fence_i .. | .ecall | .ebreak | .lwu .. | .ld .. | .sd .. | .addiw .. | .slliw ..
  | .srliw .. | .sraiw .. | .addw .. | .subw .. | .sllw .. | .srlw .. | .sraw .. | .c_fld .. | .c_lw .. | .c_flw ..
  | .c_ld .. | .c_fsd .. | .c_sw .. | .c_fsw .. | .c_sd .. | .c_nop .. | .c_jal .. | .c_li .. | .c_andi ..
  | .c_sub .. | .c_xor .. | .c_or .. | .c_and .. | .c_subw .. | .c_addw .. | .c_j .. | .c_beqz .. | .c_bnez ..
  | .c_fldsp .. | .c_flwsp .. | .c_ebreak | .c_fsdsp .. | .c_swsp .. | .c_fswsp .. | .c_sdsp .. | .mul .. | .mulh ..
  | .mulhsu .. | .mulhu .. | .div .. | .divu .. | .rem .. | .remu .. | .mulw .. | .divw .. | .divuw .. | .remw ..
  | .remuw .. | .lr_w .. | .sc_w .. | .amoswap_w .. | .amoadd_w .. | .amoxor_w .. | .amoand_w .. | .amoor_w ..
  | .amomin_w .. | .amomax_w .. | .amominu_w .. | .amomaxu_w .. | .lr_d .. | .sc_d .. | .amoswap_d .. | .amoadd_d ..
  | .amoxor_d .. | .amoand_d .. | .amoor_d .. | .amomin_d .. | .amomax_d .. | .amominu_d .. | .amomaxu_d .. | .flw ..
  | .fsw .. | .fsgnj_s .. | .fsgnjn_s .. | .fsgnjx_s .. | .fmin_s .. | .fmax_s .. | .fmv_x_w .. | .feq_s ..
  | .flt_s .. | .fle_s .. | .fclass_s .. | .fmv_w_x .. | .fld .. | .fsd .. | .fsgnj_d .. | .fsgnjn_d ..
  | .fsgnjx_d .. | .fmin_d .. | .fmax_d .. | .feq_d .. | .flt_d .. | .fle_d .. | .fclass_d .. | .fmv_x_d ..
  | .fmv_d_x .. | .sh1add .. | .sh2add .. | .sh3add .. | .add_uw .. | .sh1add_uw .. | .sh2add_uw .. | .sh3add_uw ..
  | .slli_uw .. | .andn .. | .orn .. | .xnor .. | .clz .. | .ctz .. | .cpop .. | .clzw .. | .ctzw .. | .cpopw ..
  | .max .. | .maxu .. | .min .. | .minu .. | .sext_b .. | .sext_h .. | .zext_h .. | .rol .. | .ror .. | .rolw ..
  | .rorw .. | .roriw .. | .orc_b .. | .rev8 .. | .clmul .. | .clmulh .. | .clmulr .. | .bclr .. | .bext ..
  | .binv .. | .bset .. | .csrrw .. | .csrrs .. | .csrrc .. | .csrrwi .. | .csrrsi .. | .csrrci .. | .mret | .sret
  | .wfi | .sfence_vma ..
    => true
  | .slli _ _ shamt | .srli _ _ shamt | .srai _ _ shamt | .c_srli _ shamt | .c_srai _ shamt | .c_slli _ shamt
  | .rori _ _ shamt | .bclri _ _ shamt | .bexti _ _ shamt | .binvi _ _ shamt | .bseti _ _ shamt
    => shamtEncodable xl shamt
  | .c_addi4spn _ imm
    => imm != 0#8
  | .c_addi rd _ | .c_addiw rd _ | .c_lwsp rd _ | .c_ldsp rd _
    => rd != 0#5
  | .c_addi16sp imm
    => imm != 0#6
  | .c_lui rd imm
    => rd != 2#5 && imm != 0#6
  | .c_jr rs1 | .c_jalr rs1
    => rs1 != 0#5
  | .c_mv _ rs2 | .c_add _ rs2
    => rs2 != 0#5
  | .fmadd_s _ _ _ _ rm | .fmsub_s _ _ _ _ rm | .fnmsub_s _ _ _ _ rm | .fnmadd_s _ _ _ _ rm | .fadd_s _ _ _ rm
  | .fsub_s _ _ _ rm | .fmul_s _ _ _ rm | .fdiv_s _ _ _ rm | .fsqrt_s _ _ rm | .fcvt_w_s _ _ rm | .fcvt_wu_s _ _ rm
  | .fcvt_s_w _ _ rm | .fcvt_s_wu _ _ rm | .fcvt_l_s _ _ rm | .fcvt_lu_s _ _ rm | .fcvt_s_l _ _ rm
  | .fcvt_s_lu _ _ rm | .fmadd_d _ _ _ _ rm | .fmsub_d _ _ _ _ rm | .fnmsub_d _ _ _ _ rm | .fnmadd_d _ _ _ _ rm
  | .fadd_d _ _ _ rm | .fsub_d _ _ _ rm | .fmul_d _ _ _ rm | .fdiv_d _ _ _ rm | .fsqrt_d _ _ rm | .fcvt_s_d _ _ rm
  | .fcvt_d_s _ _ rm | .fcvt_w_d _ _ rm | .fcvt_wu_d _ _ rm | .fcvt_d_w _ _ rm | .fcvt_d_wu _ _ rm | .fcvt_l_d _ _ rm
  | .fcvt_lu_d _ _ rm | .fcvt_d_l _ _ rm | .fcvt_d_lu _ _ rm
    => rmEncodable rm

/-- The instruction is one of this machine and every field has a value its encoding admits. -/
def Instr.wellFormed (c : Config) (i : Instr) : Bool := i.availableIn c && i.fieldsOk c.xlen

end Sys2Proof
end

