-- ==== Sys2Proof/Decode.lean ====
section
/-! DEFINITION. The decoder, total on 16-bit parcels and 32-bit words, and after it the encoder (30_encoding.md; the Encoding lines of
40_base_integer.md to 47_system_csr.md). A word is first split into the fields of its format (R201, R206); the decoder matches on the
fixed fields and the encoder puts the fields back, both from the same lines of the spec. -/

namespace Sys2Proof

/-- A fetched instruction: one 16-bit parcel or a 32-bit word (R200). -/
inductive Insn where
  | c (parcel : BitVec 16)
  | w (word : BitVec 32)
deriving DecidableEq, Repr

/-- `ilen` in bytes (00_scope.md R10). -/
def Insn.len : Insn → Nat
  | .c _ => 2
  | .w _ => 4

/-- The fetched word zero-extended, as the trap value of an illegal instruction holds it (R207). -/
def Insn.zext : Insn → Word
  | .c p => p.setWidth 64
  | .w v => v.setWidth 64

/-! ## Fields of 32-bit words -/

/-- The fields every 32-bit format is built from (R201): bits 31:25, 24:20, 19:15, 14:12, 11:7, 6:0. -/
structure Fields32 where
  f7 : BitVec 7
  rs2 : BitVec 5
  rs1 : BitVec 5
  f3 : BitVec 3
  rd : BitVec 5
  op : BitVec 7
deriving DecidableEq, Repr

/-- Split a word into its fields. -/
def fields32 (v : BitVec 32) : Fields32 where
  f7 := v.extractLsb' 25 7
  rs2 := v.extractLsb' 20 5
  rs1 := v.extractLsb' 15 5
  f3 := v.extractLsb' 12 3
  rd := v.extractLsb' 7 5
  op := v.extractLsb' 0 7

/-- Put the fields of a word together. -/
def Fields32.word (f : Fields32) : BitVec 32 := f.f7 ++ f.rs2 ++ f.rs1 ++ f.f3 ++ f.rd ++ f.op

/-- `funct6` and the shift amount of format I-shift64. -/
def Fields32.f6 (f : Fields32) : BitVec 6 := f.f7.extractLsb' 1 6
def Fields32.shamt (f : Fields32) : BitVec 6 := f.f7.extractLsb' 0 1 ++ f.rs2

/-- imm[11:0] of format I (R202), and the CSR number. -/
def Fields32.immI (f : Fields32) : BitVec 12 := f.f7 ++ f.rs2

/-- imm[11:0] of format S (R202). -/
def Fields32.immS (f : Fields32) : BitVec 12 := f.f7 ++ f.rd

/-- imm[12:1] of format B (R202): instruction bits 31, 7, 30:25, 11:8. -/
def Fields32.immB (f : Fields32) : BitVec 12 :=
  f.f7.extractLsb' 6 1 ++ f.rd.extractLsb' 0 1 ++ f.f7.extractLsb' 0 6 ++ f.rd.extractLsb' 1 4

/-- imm[31:12] of format U (R202). -/
def Fields32.immU (f : Fields32) : BitVec 20 := f.f7 ++ f.rs2 ++ f.rs1 ++ f.f3

/-- imm[20:1] of format J (R202): instruction bits 31, 19:12, 20, 30:21. -/
def Fields32.immJ (f : Fields32) : BitVec 20 :=
  f.f7.extractLsb' 6 1 ++ f.rs1 ++ f.f3 ++ f.rs2.extractLsb' 0 1 ++ f.f7.extractLsb' 0 6 ++ f.rs2.extractLsb' 1 4

/-- `aq`, `rl` and `funct5` of format A; `fmt` and `rs3` of format R4; `fm`, `pred` and `succ` of format FENCE (R201). -/
def Fields32.aq (f : Fields32) : BitVec 1 := f.f7.extractLsb' 1 1
def Fields32.rl (f : Fields32) : BitVec 1 := f.f7.extractLsb' 0 1
def Fields32.f5 (f : Fields32) : BitVec 5 := f.f7.extractLsb' 2 5
def Fields32.fmt (f : Fields32) : BitVec 2 := f.f7.extractLsb' 0 2
def Fields32.rs3 (f : Fields32) : BitVec 5 := f.f7.extractLsb' 2 5
def Fields32.fm (f : Fields32) : BitVec 4 := f.f7.extractLsb' 3 4
def Fields32.pred (f : Fields32) : BitVec 4 := f.f7.extractLsb' 0 3 ++ f.rs2.extractLsb' 4 1
def Fields32.succ (f : Fields32) : BitVec 4 := f.rs2.extractLsb' 0 4

/-! ## Fields of 16-bit parcels -/

/-- The fields every 16-bit format is built from (R206): bits 15:13, 12, 11:10, 9:7, 6:5, 4:2, 1:0. -/
structure Fields16 where
  f3 : BitVec 3
  b12 : BitVec 1
  hi : BitVec 2
  r1 : BitVec 3
  mid : BitVec 2
  r2 : BitVec 3
  op : BitVec 2
deriving DecidableEq, Repr

/-- Split a parcel into its fields. -/
def fields16 (p : BitVec 16) : Fields16 where
  f3 := p.extractLsb' 13 3
  b12 := p.extractLsb' 12 1
  hi := p.extractLsb' 10 2
  r1 := p.extractLsb' 7 3
  mid := p.extractLsb' 5 2
  r2 := p.extractLsb' 2 3
  op := p.extractLsb' 0 2

/-- Put the fields of a parcel together. -/
def Fields16.parcel (f : Fields16) : BitVec 16 := f.f3 ++ f.b12 ++ f.hi ++ f.r1 ++ f.mid ++ f.r2 ++ f.op

/-- The 5-bit register fields: bits 11:7 and bits 6:2 (R206). -/
def Fields16.rd (f : Fields16) : BitVec 5 := f.hi ++ f.r1
def Fields16.rs2 (f : Fields16) : BitVec 5 := f.mid ++ f.r2

/-- imm[5:0] of format CI, and the 6-bit shift amounts: bit 12, bits 6:2. -/
def Fields16.immCI (f : Fields16) : BitVec 6 := f.b12 ++ f.mid ++ f.r2

/-- nzuimm[9:2] of C.ADDI4SPN (41_compressed.md R345): bits 12:5 hold 5:4, 9:6, 2, 3. -/
def Fields16.immCIW (f : Fields16) : BitVec 8 :=
  f.hi.extractLsb' 0 1 ++ f.r1 ++ f.b12 ++ f.hi.extractLsb' 1 1 ++ f.mid.extractLsb' 0 1 ++ f.mid.extractLsb' 1 1

/-- uimm[6:2] of the word loads and stores (R347): bits 12:10 hold 5:3, bits 6:5 hold 2, 6. -/
def Fields16.immCLW (f : Fields16) : BitVec 5 := f.mid.extractLsb' 0 1 ++ f.b12 ++ f.hi ++ f.mid.extractLsb' 1 1

/-- uimm[7:3] of the doubleword loads and stores (R349): bits 12:10 hold 5:3, bits 6:5 hold 7:6. -/
def Fields16.immCLD (f : Fields16) : BitVec 5 := f.mid ++ f.b12 ++ f.hi

/-- imm[11:1] of format CJ (R370): bits 12:2 hold 11, 4, 9:8, 10, 6, 7, 3:1, 5. -/
def Fields16.immCJ (f : Fields16) : BitVec 11 :=
  f.b12 ++ f.r1.extractLsb' 1 1 ++ f.hi.extractLsb' 0 1 ++ f.r1.extractLsb' 2 1 ++ f.mid.extractLsb' 1 1
    ++ f.r1.extractLsb' 0 1 ++ f.r2.extractLsb' 0 1 ++ f.hi.extractLsb' 1 1 ++ f.mid.extractLsb' 0 1
    ++ f.r2.extractLsb' 1 2

/-- imm[8:1] of the compressed branches (R371): bits 12:10 hold 8, 4:3, bits 6:2 hold 7:6, 2:1, 5. -/
def Fields16.immCB (f : Fields16) : BitVec 8 :=
  f.b12 ++ f.mid ++ f.r2.extractLsb' 0 1 ++ f.hi ++ f.r2.extractLsb' 1 2

/-- nzimm[9:4] of C.ADDI16SP (R359): bit 12 holds 9, bits 6:2 hold 4, 6, 8:7, 5. -/
def Fields16.immC16 (f : Fields16) : BitVec 6 :=
  f.b12 ++ f.r2.extractLsb' 1 2 ++ f.mid.extractLsb' 0 1 ++ f.r2.extractLsb' 0 1 ++ f.mid.extractLsb' 1 1

/-- uimm[7:2] of the word loads from the stack (R375): bit 12 holds 5, bits 6:2 hold 4:2, 7:6. -/
def Fields16.immLWSP (f : Fields16) : BitVec 6 := f.r2.extractLsb' 0 2 ++ f.b12 ++ f.mid ++ f.r2.extractLsb' 2 1

/-- uimm[8:3] of the doubleword loads from the stack (R377): bit 12 holds 5, bits 6:2 hold 4:3, 8:6. -/
def Fields16.immLDSP (f : Fields16) : BitVec 6 := f.r2 ++ f.b12 ++ f.mid

/-- uimm[7:2] of the word stores to the stack (R384): bits 12:7 hold 5:2, 7:6. -/
def Fields16.immSWSP (f : Fields16) : BitVec 6 := f.r1.extractLsb' 0 2 ++ f.b12 ++ f.hi ++ f.r1.extractLsb' 2 1

/-- uimm[8:3] of the doubleword stores to the stack (R386): bits 12:7 hold 5:3, 8:6. -/
def Fields16.immSDSP (f : Fields16) : BitVec 6 := f.r1 ++ f.b12 ++ f.hi

/-! ## The decoder, one function a major opcode (R205, R217) -/

/-- Major opcode 0x03, LOAD. -/
def decodeLoad (f : Fields32) : Option Instr :=
  match f.f3 with
  | 0#3 => some (.lb f.rd f.rs1 f.immI)
  | 1#3 => some (.lh f.rd f.rs1 f.immI)
  | 2#3 => some (.lw f.rd f.rs1 f.immI)
  | 4#3 => some (.lbu f.rd f.rs1 f.immI)
  | 5#3 => some (.lhu f.rd f.rs1 f.immI)
  | 6#3 => some (.lwu f.rd f.rs1 f.immI)
  | 3#3 => some (.ld f.rd f.rs1 f.immI)
  | _ => none

/-- Major opcode 0x07, LOAD-FP. -/
def decodeLoadFp (f : Fields32) : Option Instr :=
  match f.f3 with
  | 2#3 => some (.flw f.rd f.rs1 f.immI)
  | 3#3 => some (.fld f.rd f.rs1 f.immI)
  | _ => none

/-- Major opcode 0x0F, MISC-MEM. -/
def decodeMiscMem (f : Fields32) : Option Instr :=
  match f.f3 with
  | 0#3 => some (.fence f.fm f.pred f.succ f.rs1 f.rd)
  | 1#3 => some (.fence_i f.immI f.rs1 f.rd)
  | _ => none

/-- Major opcode 0x13, OP-IMM. The rows with `rs2` fixed need all twelve bits 31:20 (46_bitmanip.md R570, R602, R603). -/
def decodeOpImm (xl : Xlen) (f : Fields32) : Option Instr :=
  match f.f3 with
  | 0#3 => some (.addi f.rd f.rs1 f.immI)
  | 1#3 =>
    match f.f6 with
    | 0x00#6 => some (.slli f.rd f.rs1 f.shamt)
    | 0x0a#6 => some (.bseti f.rd f.rs1 f.shamt)
    | 0x12#6 => some (.bclri f.rd f.rs1 f.shamt)
    | 0x1a#6 => some (.binvi f.rd f.rs1 f.shamt)
    | 0x18#6 =>
      match f.shamt with
      | 0x00#6 => some (.clz f.rd f.rs1)
      | 0x01#6 => some (.ctz f.rd f.rs1)
      | 0x02#6 => some (.cpop f.rd f.rs1)
      | 0x04#6 => some (.sext_b f.rd f.rs1)
      | 0x05#6 => some (.sext_h f.rd f.rs1)
      | _ => none
    | _ => none
  | 2#3 => some (.slti f.rd f.rs1 f.immI)
  | 3#3 => some (.sltiu f.rd f.rs1 f.immI)
  | 4#3 => some (.xori f.rd f.rs1 f.immI)
  | 5#3 =>
    match f.f6 with
    | 0x00#6 => some (.srli f.rd f.rs1 f.shamt)
    | 0x10#6 => some (.srai f.rd f.rs1 f.shamt)
    | 0x12#6 => some (.bexti f.rd f.rs1 f.shamt)
    | 0x18#6 => some (.rori f.rd f.rs1 f.shamt)
    | 0x0a#6 =>
      match f.shamt with
      | 0x07#6 => some (.orc_b f.rd f.rs1)
      | _ => none
    | 0x1a#6 =>
      match xl, f.shamt with
      | .rv32, 0x18#6 => some (.rev8 f.rd f.rs1)
      | .rv64, 0x38#6 => some (.rev8 f.rd f.rs1)
      | _, _ => none
    | _ => none
  | 6#3 => some (.ori f.rd f.rs1 f.immI)
  | 7#3 => some (.andi f.rd f.rs1 f.immI)
  | _ => none

/-- Major opcode 0x1B, OP-IMM-32. -/
def decodeOpImm32 (f : Fields32) : Option Instr :=
  match f.f3 with
  | 0#3 => some (.addiw f.rd f.rs1 f.immI)
  | 1#3 =>
    match f.f7 with
    | 0x00#7 => some (.slliw f.rd f.rs1 f.rs2)
    | 0x04#7 => some (.slli_uw f.rd f.rs1 f.shamt)
    | 0x05#7 => some (.slli_uw f.rd f.rs1 f.shamt)
    | 0x30#7 =>
      match f.rs2 with
      | 0x00#5 => some (.clzw f.rd f.rs1)
      | 0x01#5 => some (.ctzw f.rd f.rs1)
      | 0x02#5 => some (.cpopw f.rd f.rs1)
      | _ => none
    | _ => none
  | 5#3 =>
    match f.f7 with
    | 0x00#7 => some (.srliw f.rd f.rs1 f.rs2)
    | 0x20#7 => some (.sraiw f.rd f.rs1 f.rs2)
    | 0x30#7 => some (.roriw f.rd f.rs1 f.rs2)
    | _ => none
  | _ => none

/-- Major opcode 0x23, STORE. -/
def decodeStore (f : Fields32) : Option Instr :=
  match f.f3 with
  | 0#3 => some (.sb f.rs2 f.rs1 f.immS)
  | 1#3 => some (.sh f.rs2 f.rs1 f.immS)
  | 2#3 => some (.sw f.rs2 f.rs1 f.immS)
  | 3#3 => some (.sd f.rs2 f.rs1 f.immS)
  | _ => none

/-- Major opcode 0x27, STORE-FP. -/
def decodeStoreFp (f : Fields32) : Option Instr :=
  match f.f3 with
  | 2#3 => some (.fsw f.rs2 f.rs1 f.immS)
  | 3#3 => some (.fsd f.rs2 f.rs1 f.immS)
  | _ => none

/-- Major opcode 0x2F, AMO; LR needs a zero `rs2` field (43_atomics.md R432). -/
def decodeAmo (f : Fields32) : Option Instr :=
  match f.f3, f.f5 with
  | 2#3, 0x02#5 => if f.rs2 = 0#5 then some (.lr_w f.rd f.rs1 f.aq f.rl) else none
  | 2#3, 0x03#5 => some (.sc_w f.rd f.rs1 f.rs2 f.aq f.rl)
  | 2#3, 0x01#5 => some (.amoswap_w f.rd f.rs1 f.rs2 f.aq f.rl)
  | 2#3, 0x00#5 => some (.amoadd_w f.rd f.rs1 f.rs2 f.aq f.rl)
  | 2#3, 0x04#5 => some (.amoxor_w f.rd f.rs1 f.rs2 f.aq f.rl)
  | 2#3, 0x0c#5 => some (.amoand_w f.rd f.rs1 f.rs2 f.aq f.rl)
  | 2#3, 0x08#5 => some (.amoor_w f.rd f.rs1 f.rs2 f.aq f.rl)
  | 2#3, 0x10#5 => some (.amomin_w f.rd f.rs1 f.rs2 f.aq f.rl)
  | 2#3, 0x14#5 => some (.amomax_w f.rd f.rs1 f.rs2 f.aq f.rl)
  | 2#3, 0x18#5 => some (.amominu_w f.rd f.rs1 f.rs2 f.aq f.rl)
  | 2#3, 0x1c#5 => some (.amomaxu_w f.rd f.rs1 f.rs2 f.aq f.rl)
  | 3#3, 0x02#5 => if f.rs2 = 0#5 then some (.lr_d f.rd f.rs1 f.aq f.rl) else none
  | 3#3, 0x03#5 => some (.sc_d f.rd f.rs1 f.rs2 f.aq f.rl)
  | 3#3, 0x01#5 => some (.amoswap_d f.rd f.rs1 f.rs2 f.aq f.rl)
  | 3#3, 0x00#5 => some (.amoadd_d f.rd f.rs1 f.rs2 f.aq f.rl)
  | 3#3, 0x04#5 => some (.amoxor_d f.rd f.rs1 f.rs2 f.aq f.rl)
  | 3#3, 0x0c#5 => some (.amoand_d f.rd f.rs1 f.rs2 f.aq f.rl)
  | 3#3, 0x08#5 => some (.amoor_d f.rd f.rs1 f.rs2 f.aq f.rl)
  | 3#3, 0x10#5 => some (.amomin_d f.rd f.rs1 f.rs2 f.aq f.rl)
  | 3#3, 0x14#5 => some (.amomax_d f.rd f.rs1 f.rs2 f.aq f.rl)
  | 3#3, 0x18#5 => some (.amominu_d f.rd f.rs1 f.rs2 f.aq f.rl)
  | 3#3, 0x1c#5 => some (.amomaxu_d f.rd f.rs1 f.rs2 f.aq f.rl)
  | _, _ => none

/-- Major opcode 0x33, OP; ZEXT.H is here at XLEN = 32 and needs a zero `rs2` field (46_bitmanip.md R595). -/
def decodeOp (xl : Xlen) (f : Fields32) : Option Instr :=
  match f.f3, f.f7 with
  | 0#3, 0x00#7 => some (.add f.rd f.rs1 f.rs2)
  | 0#3, 0x01#7 => some (.mul f.rd f.rs1 f.rs2)
  | 0#3, 0x20#7 => some (.sub f.rd f.rs1 f.rs2)
  | 1#3, 0x00#7 => some (.sll f.rd f.rs1 f.rs2)
  | 1#3, 0x01#7 => some (.mulh f.rd f.rs1 f.rs2)
  | 1#3, 0x05#7 => some (.clmul f.rd f.rs1 f.rs2)
  | 1#3, 0x14#7 => some (.bset f.rd f.rs1 f.rs2)
  | 1#3, 0x24#7 => some (.bclr f.rd f.rs1 f.rs2)
  | 1#3, 0x30#7 => some (.rol f.rd f.rs1 f.rs2)
  | 1#3, 0x34#7 => some (.binv f.rd f.rs1 f.rs2)
  | 2#3, 0x00#7 => some (.slt f.rd f.rs1 f.rs2)
  | 2#3, 0x01#7 => some (.mulhsu f.rd f.rs1 f.rs2)
  | 2#3, 0x05#7 => some (.clmulr f.rd f.rs1 f.rs2)
  | 2#3, 0x10#7 => some (.sh1add f.rd f.rs1 f.rs2)
  | 3#3, 0x00#7 => some (.sltu f.rd f.rs1 f.rs2)
  | 3#3, 0x01#7 => some (.mulhu f.rd f.rs1 f.rs2)
  | 3#3, 0x05#7 => some (.clmulh f.rd f.rs1 f.rs2)
  | 4#3, 0x00#7 => some (.xor f.rd f.rs1 f.rs2)
  | 4#3, 0x01#7 => some (.div f.rd f.rs1 f.rs2)
  | 4#3, 0x04#7 => if xl = .rv32 ∧ f.rs2 = 0#5 then some (.zext_h f.rd f.rs1) else none
  | 4#3, 0x05#7 => some (.min f.rd f.rs1 f.rs2)
  | 4#3, 0x10#7 => some (.sh2add f.rd f.rs1 f.rs2)
  | 4#3, 0x20#7 => some (.xnor f.rd f.rs1 f.rs2)
  | 5#3, 0x00#7 => some (.srl f.rd f.rs1 f.rs2)
  | 5#3, 0x01#7 => some (.divu f.rd f.rs1 f.rs2)
  | 5#3, 0x05#7 => some (.minu f.rd f.rs1 f.rs2)
  | 5#3, 0x20#7 => some (.sra f.rd f.rs1 f.rs2)
  | 5#3, 0x24#7 => some (.bext f.rd f.rs1 f.rs2)
  | 5#3, 0x30#7 => some (.ror f.rd f.rs1 f.rs2)
  | 6#3, 0x00#7 => some (.or f.rd f.rs1 f.rs2)
  | 6#3, 0x01#7 => some (.rem f.rd f.rs1 f.rs2)
  | 6#3, 0x05#7 => some (.max f.rd f.rs1 f.rs2)
  | 6#3, 0x10#7 => some (.sh3add f.rd f.rs1 f.rs2)
  | 6#3, 0x20#7 => some (.orn f.rd f.rs1 f.rs2)
  | 7#3, 0x00#7 => some (.and f.rd f.rs1 f.rs2)
  | 7#3, 0x01#7 => some (.remu f.rd f.rs1 f.rs2)
  | 7#3, 0x05#7 => some (.maxu f.rd f.rs1 f.rs2)
  | 7#3, 0x20#7 => some (.andn f.rd f.rs1 f.rs2)
  | _, _ => none

/-- Major opcode 0x3B, OP-32; ZEXT.H is here at XLEN = 64 and needs a zero `rs2` field (46_bitmanip.md R595). -/
def decodeOp32 (xl : Xlen) (f : Fields32) : Option Instr :=
  match f.f3, f.f7 with
  | 0#3, 0x00#7 => some (.addw f.rd f.rs1 f.rs2)
  | 0#3, 0x01#7 => some (.mulw f.rd f.rs1 f.rs2)
  | 0#3, 0x04#7 => some (.add_uw f.rd f.rs1 f.rs2)
  | 0#3, 0x20#7 => some (.subw f.rd f.rs1 f.rs2)
  | 1#3, 0x00#7 => some (.sllw f.rd f.rs1 f.rs2)
  | 1#3, 0x30#7 => some (.rolw f.rd f.rs1 f.rs2)
  | 2#3, 0x10#7 => some (.sh1add_uw f.rd f.rs1 f.rs2)
  | 4#3, 0x01#7 => some (.divw f.rd f.rs1 f.rs2)
  | 4#3, 0x04#7 => if xl = .rv64 ∧ f.rs2 = 0#5 then some (.zext_h f.rd f.rs1) else none
  | 4#3, 0x10#7 => some (.sh2add_uw f.rd f.rs1 f.rs2)
  | 5#3, 0x00#7 => some (.srlw f.rd f.rs1 f.rs2)
  | 5#3, 0x01#7 => some (.divuw f.rd f.rs1 f.rs2)
  | 5#3, 0x20#7 => some (.sraw f.rd f.rs1 f.rs2)
  | 5#3, 0x30#7 => some (.rorw f.rd f.rs1 f.rs2)
  | 6#3, 0x01#7 => some (.remw f.rd f.rs1 f.rs2)
  | 6#3, 0x10#7 => some (.sh3add_uw f.rd f.rs1 f.rs2)
  | 7#3, 0x01#7 => some (.remuw f.rd f.rs1 f.rs2)
  | _, _ => none

/-- Major opcodes 0x43, 0x47, 0x4B, 0x4F: the fused forms, by opcode and `fmt`. -/
def decodeFused (f : Fields32) : Option Instr :=
  match f.op, f.fmt with
  | 0x43#7, 0#2 => some (.fmadd_s f.rd f.rs1 f.rs2 f.rs3 f.f3)
  | 0x47#7, 0#2 => some (.fmsub_s f.rd f.rs1 f.rs2 f.rs3 f.f3)
  | 0x4b#7, 0#2 => some (.fnmsub_s f.rd f.rs1 f.rs2 f.rs3 f.f3)
  | 0x4f#7, 0#2 => some (.fnmadd_s f.rd f.rs1 f.rs2 f.rs3 f.f3)
  | 0x43#7, 1#2 => some (.fmadd_d f.rd f.rs1 f.rs2 f.rs3 f.f3)
  | 0x47#7, 1#2 => some (.fmsub_d f.rd f.rs1 f.rs2 f.rs3 f.f3)
  | 0x4b#7, 1#2 => some (.fnmsub_d f.rd f.rs1 f.rs2 f.rs3 f.f3)
  | 0x4f#7, 1#2 => some (.fnmadd_d f.rd f.rs1 f.rs2 f.rs3 f.f3)
  | _, _ => none

/-- Major opcode 0x53, OP-FP, by `funct7`, then `funct3` or the fixed `rs2` field; where `funct3` is `rm` it is a field. -/
def decodeOpFp (f : Fields32) : Option Instr :=
  match f.f7 with
  | 0x00#7 => some (.fadd_s f.rd f.rs1 f.rs2 f.f3)
  | 0x01#7 => some (.fadd_d f.rd f.rs1 f.rs2 f.f3)
  | 0x04#7 => some (.fsub_s f.rd f.rs1 f.rs2 f.f3)
  | 0x05#7 => some (.fsub_d f.rd f.rs1 f.rs2 f.f3)
  | 0x08#7 => some (.fmul_s f.rd f.rs1 f.rs2 f.f3)
  | 0x09#7 => some (.fmul_d f.rd f.rs1 f.rs2 f.f3)
  | 0x0c#7 => some (.fdiv_s f.rd f.rs1 f.rs2 f.f3)
  | 0x0d#7 => some (.fdiv_d f.rd f.rs1 f.rs2 f.f3)
  | 0x10#7 =>
    match f.f3 with
    | 0#3 => some (.fsgnj_s f.rd f.rs1 f.rs2)
    | 1#3 => some (.fsgnjn_s f.rd f.rs1 f.rs2)
    | 2#3 => some (.fsgnjx_s f.rd f.rs1 f.rs2)
    | _ => none
  | 0x11#7 =>
    match f.f3 with
    | 0#3 => some (.fsgnj_d f.rd f.rs1 f.rs2)
    | 1#3 => some (.fsgnjn_d f.rd f.rs1 f.rs2)
    | 2#3 => some (.fsgnjx_d f.rd f.rs1 f.rs2)
    | _ => none
  | 0x14#7 =>
    match f.f3 with
    | 0#3 => some (.fmin_s f.rd f.rs1 f.rs2)
    | 1#3 => some (.fmax_s f.rd f.rs1 f.rs2)
    | _ => none
  | 0x15#7 =>
    match f.f3 with
    | 0#3 => some (.fmin_d f.rd f.rs1 f.rs2)
    | 1#3 => some (.fmax_d f.rd f.rs1 f.rs2)
    | _ => none
  | 0x20#7 =>
    match f.rs2 with
    | 0x01#5 => some (.fcvt_s_d f.rd f.rs1 f.f3)
    | _ => none
  | 0x21#7 =>
    match f.rs2 with
    | 0x00#5 => some (.fcvt_d_s f.rd f.rs1 f.f3)
    | _ => none
  | 0x2c#7 =>
    match f.rs2 with
    | 0x00#5 => some (.fsqrt_s f.rd f.rs1 f.f3)
    | _ => none
  | 0x2d#7 =>
    match f.rs2 with
    | 0x00#5 => some (.fsqrt_d f.rd f.rs1 f.f3)
    | _ => none
  | 0x50#7 =>
    match f.f3 with
    | 2#3 => some (.feq_s f.rd f.rs1 f.rs2)
    | 1#3 => some (.flt_s f.rd f.rs1 f.rs2)
    | 0#3 => some (.fle_s f.rd f.rs1 f.rs2)
    | _ => none
  | 0x51#7 =>
    match f.f3 with
    | 2#3 => some (.feq_d f.rd f.rs1 f.rs2)
    | 1#3 => some (.flt_d f.rd f.rs1 f.rs2)
    | 0#3 => some (.fle_d f.rd f.rs1 f.rs2)
    | _ => none
  | 0x60#7 =>
    match f.rs2 with
    | 0x00#5 => some (.fcvt_w_s f.rd f.rs1 f.f3)
    | 0x01#5 => some (.fcvt_wu_s f.rd f.rs1 f.f3)
    | 0x02#5 => some (.fcvt_l_s f.rd f.rs1 f.f3)
    | 0x03#5 => some (.fcvt_lu_s f.rd f.rs1 f.f3)
    | _ => none
  | 0x61#7 =>
    match f.rs2 with
    | 0x00#5 => some (.fcvt_w_d f.rd f.rs1 f.f3)
    | 0x01#5 => some (.fcvt_wu_d f.rd f.rs1 f.f3)
    | 0x02#5 => some (.fcvt_l_d f.rd f.rs1 f.f3)
    | 0x03#5 => some (.fcvt_lu_d f.rd f.rs1 f.f3)
    | _ => none
  | 0x68#7 =>
    match f.rs2 with
    | 0x00#5 => some (.fcvt_s_w f.rd f.rs1 f.f3)
    | 0x01#5 => some (.fcvt_s_wu f.rd f.rs1 f.f3)
    | 0x02#5 => some (.fcvt_s_l f.rd f.rs1 f.f3)
    | 0x03#5 => some (.fcvt_s_lu f.rd f.rs1 f.f3)
    | _ => none
  | 0x69#7 =>
    match f.rs2 with
    | 0x00#5 => some (.fcvt_d_w f.rd f.rs1 f.f3)
    | 0x01#5 => some (.fcvt_d_wu f.rd f.rs1 f.f3)
    | 0x02#5 => some (.fcvt_d_l f.rd f.rs1 f.f3)
    | 0x03#5 => some (.fcvt_d_lu f.rd f.rs1 f.f3)
    | _ => none
  | 0x70#7 =>
    match f.rs2, f.f3 with
    | 0x00#5, 0#3 => some (.fmv_x_w f.rd f.rs1)
    | 0x00#5, 1#3 => some (.fclass_s f.rd f.rs1)
    | _, _ => none
  | 0x71#7 =>
    match f.rs2, f.f3 with
    | 0x00#5, 1#3 => some (.fclass_d f.rd f.rs1)
    | 0x00#5, 0#3 => some (.fmv_x_d f.rd f.rs1)
    | _, _ => none
  | 0x78#7 =>
    match f.rs2, f.f3 with
    | 0x00#5, 0#3 => some (.fmv_w_x f.rd f.rs1)
    | _, _ => none
  | 0x79#7 =>
    match f.rs2, f.f3 with
    | 0x00#5, 0#3 => some (.fmv_d_x f.rd f.rs1)
    | _, _ => none
  | _ => none

/-- Major opcode 0x63, BRANCH. -/
def decodeBranch (f : Fields32) : Option Instr :=
  match f.f3 with
  | 0#3 => some (.beq f.rs1 f.rs2 f.immB)
  | 1#3 => some (.bne f.rs1 f.rs2 f.immB)
  | 4#3 => some (.blt f.rs1 f.rs2 f.immB)
  | 5#3 => some (.bge f.rs1 f.rs2 f.immB)
  | 6#3 => some (.bltu f.rs1 f.rs2 f.immB)
  | 7#3 => some (.bgeu f.rs1 f.rs2 f.immB)
  | _ => none

/-- Major opcode 0x73, SYSTEM (47_system_csr.md R630): under `funct3` = 000 every bit must match. -/
def decodeSystem (f : Fields32) : Option Instr :=
  match f.f3 with
  | 0#3 =>
    match f.f7, f.rs2, f.rs1, f.rd with
    | 0x00#7, 0x00#5, 0x00#5, 0x00#5 => some .ecall
    | 0x00#7, 0x01#5, 0x00#5, 0x00#5 => some .ebreak
    | 0x08#7, 0x02#5, 0x00#5, 0x00#5 => some .sret
    | 0x08#7, 0x05#5, 0x00#5, 0x00#5 => some .wfi
    | 0x18#7, 0x02#5, 0x00#5, 0x00#5 => some .mret
    | 0x09#7, _, _, 0x00#5 => some (.sfence_vma f.rs1 f.rs2)
    | _, _, _, _ => none
  | 1#3 => some (.csrrw f.rd f.immI f.rs1)
  | 2#3 => some (.csrrs f.rd f.immI f.rs1)
  | 3#3 => some (.csrrc f.rd f.immI f.rs1)
  | 5#3 => some (.csrrwi f.rd f.immI f.rs1)
  | 6#3 => some (.csrrsi f.rd f.immI f.rs1)
  | 7#3 => some (.csrrci f.rd f.immI f.rs1)
  | _ => none

/-- A 32-bit word: by major opcode (R204, R205). -/
def decode32 (xl : Xlen) (f : Fields32) : Option Instr :=
  match f.op with
  | 0x03#7 => decodeLoad f
  | 0x07#7 => decodeLoadFp f
  | 0x0f#7 => decodeMiscMem f
  | 0x13#7 => decodeOpImm xl f
  | 0x17#7 => some (.auipc f.rd f.immU)
  | 0x1b#7 => decodeOpImm32 f
  | 0x23#7 => decodeStore f
  | 0x27#7 => decodeStoreFp f
  | 0x2f#7 => decodeAmo f
  | 0x33#7 => decodeOp xl f
  | 0x37#7 => some (.lui f.rd f.immU)
  | 0x3b#7 => decodeOp32 xl f
  | 0x43#7 | 0x47#7 | 0x4b#7 | 0x4f#7 => decodeFused f
  | 0x53#7 => decodeOpFp f
  | 0x63#7 => decodeBranch f
  | 0x67#7 => if f.f3 = 0#3 then some (.jalr f.rd f.rs1 f.immI) else none
  | 0x6f#7 => some (.jal f.rd f.immJ)
  | 0x73#7 => decodeSystem f
  | _ => none

/-- Quadrant 0 of the 16-bit parcels (41_compressed.md section 2). -/
def decodeQuadrant0 (xl : Xlen) (f : Fields16) : Option Instr :=
  match f.f3 with
  | 0#3 => some (.c_addi4spn f.r2 f.immCIW)
  | 1#3 => some (.c_fld f.r2 f.r1 f.immCLD)
  | 2#3 => some (.c_lw f.r2 f.r1 f.immCLW)
  | 3#3 =>
    match xl with
    | .rv32 => some (.c_flw f.r2 f.r1 f.immCLW)
    | .rv64 => some (.c_ld f.r2 f.r1 f.immCLD)
  | 5#3 => some (.c_fsd f.r2 f.r1 f.immCLD)
  | 6#3 => some (.c_sw f.r2 f.r1 f.immCLW)
  | 7#3 =>
    match xl with
    | .rv32 => some (.c_fsw f.r2 f.r1 f.immCLW)
    | .rv64 => some (.c_sd f.r2 f.r1 f.immCLD)
  | _ => none

/-- Quadrant 1 of the 16-bit parcels (41_compressed.md section 3). -/
def decodeQuadrant1 (xl : Xlen) (f : Fields16) : Option Instr :=
  match f.f3 with
  | 0#3 => if f.rd = 0#5 then some (.c_nop f.immCI) else some (.c_addi f.rd f.immCI)
  | 1#3 =>
    match xl with
    | .rv32 => some (.c_jal f.immCJ)
    | .rv64 => some (.c_addiw f.rd f.immCI)
  | 2#3 => some (.c_li f.rd f.immCI)
  | 3#3 => if f.rd = 2#5 then some (.c_addi16sp f.immC16) else some (.c_lui f.rd f.immCI)
  | 4#3 =>
    match f.hi with
    | 0#2 => some (.c_srli f.r1 f.immCI)
    | 1#2 => some (.c_srai f.r1 f.immCI)
    | 2#2 => some (.c_andi f.r1 f.immCI)
    | _ =>
      match f.b12, f.mid with
      | 0#1, 0#2 => some (.c_sub f.r1 f.r2)
      | 0#1, 1#2 => some (.c_xor f.r1 f.r2)
      | 0#1, 2#2 => some (.c_or f.r1 f.r2)
      | 0#1, 3#2 => some (.c_and f.r1 f.r2)
      | 1#1, 0#2 => some (.c_subw f.r1 f.r2)
      | 1#1, 1#2 => some (.c_addw f.r1 f.r2)
      | _, _ => none
  | 5#3 => some (.c_j f.immCJ)
  | 6#3 => some (.c_beqz f.r1 f.immCB)
  | _ => some (.c_bnez f.r1 f.immCB)

/-- Quadrant 2 of the 16-bit parcels (41_compressed.md section 4). -/
def decodeQuadrant2 (xl : Xlen) (f : Fields16) : Option Instr :=
  match f.f3 with
  | 0#3 => some (.c_slli f.rd f.immCI)
  | 1#3 => some (.c_fldsp f.rd f.immLDSP)
  | 2#3 => some (.c_lwsp f.rd f.immLWSP)
  | 3#3 =>
    match xl with
    | .rv32 => some (.c_flwsp f.rd f.immLWSP)
    | .rv64 => some (.c_ldsp f.rd f.immLDSP)
  | 4#3 =>
    if f.b12 = 0#1 then
      if f.rs2 = 0#5 then some (.c_jr f.rd) else some (.c_mv f.rd f.rs2)
    else if f.rs2 = 0#5 then
      if f.rd = 0#5 then some .c_ebreak else some (.c_jalr f.rd)
    else some (.c_add f.rd f.rs2)
  | 5#3 => some (.c_fsdsp f.rs2 f.immSDSP)
  | 6#3 => some (.c_swsp f.rs2 f.immSWSP)
  | _ =>
    match xl with
    | .rv32 => some (.c_fswsp f.rs2 f.immSWSP)
    | .rv64 => some (.c_sdsp f.rs2 f.immSDSP)

/-- A 16-bit parcel: by quadrant (R206). -/
def decode16 (xl : Xlen) (f : Fields16) : Option Instr :=
  match f.op with
  | 0#2 => decodeQuadrant0 xl f
  | 1#2 => decodeQuadrant1 xl f
  | 2#2 => decodeQuadrant2 xl f
  | _ => none

/-- The pattern a word has, before the Needs and Constraints of its row are asked for. -/
def decodePattern (xl : Xlen) : Insn → Option Instr
  | .c p => decode16 xl (fields16 p)
  | .w v => decode32 xl (fields32 v)

/-- The row of the table a fetched word selects under this configuration, or none: then the word is illegal (R204, R207, R209). -/
def decode (c : Config) (n : Insn) : Option Instr :=
  match decodePattern c.xlen n with
  | some i => if i.wellFormed c then some i else none
  | none => none

/-- The vector encodings (R208, 48_vector_custom.md R660): major opcode 0x57, and 0x07 and 0x27 with a vector width. -/
def Insn.isVector : Insn → Bool
  | .c _ => false
  | .w v =>
    match (fields32 v).op with
    | 0x57#7 => true
    | 0x07#7 | 0x27#7 =>
      match (fields32 v).f3 with
      | 0#3 | 5#3 | 6#3 | 7#3 => true
      | _ => false
    | _ => false

/-! ## The encoder -/

def encR (f7 : BitVec 7) (f3 : BitVec 3) (op : BitVec 7) (rd rs1 rs2 : RegIdx) : Insn :=
  .w (Fields32.word ⟨f7, rs2, rs1, f3, rd, op⟩)

def encI (f3 : BitVec 3) (op : BitVec 7) (rd rs1 : RegIdx) (imm : BitVec 12) : Insn :=
  .w (Fields32.word ⟨imm.extractLsb' 5 7, imm.extractLsb' 0 5, rs1, f3, rd, op⟩)

def encS (f3 : BitVec 3) (op : BitVec 7) (rs2 rs1 : RegIdx) (imm : BitVec 12) : Insn :=
  .w (Fields32.word ⟨imm.extractLsb' 5 7, rs2, rs1, f3, imm.extractLsb' 0 5, op⟩)

def encB (f3 : BitVec 3) (rs1 rs2 : RegIdx) (imm : BitVec 12) : Insn :=
  .w (Fields32.word ⟨imm.extractLsb' 11 1 ++ imm.extractLsb' 4 6, rs2, rs1, f3,
    imm.extractLsb' 0 4 ++ imm.extractLsb' 10 1, 0x63#7⟩)

def encU (op : BitVec 7) (rd : RegIdx) (imm : BitVec 20) : Insn :=
  .w (Fields32.word ⟨imm.extractLsb' 13 7, imm.extractLsb' 8 5, imm.extractLsb' 3 5, imm.extractLsb' 0 3, rd, op⟩)

def encJ (rd : RegIdx) (imm : BitVec 20) : Insn :=
  .w (Fields32.word ⟨imm.extractLsb' 19 1 ++ imm.extractLsb' 4 6, imm.extractLsb' 0 4 ++ imm.extractLsb' 10 1,
    imm.extractLsb' 14 5, imm.extractLsb' 11 3, rd, 0x6f#7⟩)

/-- Format I-shift64; at XLEN = 32 the top bit of a well-formed shift amount is 0 and this is format I-shift32. -/
def encShift (f6 : BitVec 6) (f3 : BitVec 3) (op : BitVec 7) (rd rs1 : RegIdx) (shamt : BitVec 6) : Insn :=
  .w (Fields32.word ⟨f6 ++ shamt.extractLsb' 5 1, shamt.extractLsb' 0 5, rs1, f3, rd, op⟩)

def encAmo (f5 : BitVec 5) (f3 : BitVec 3) (rd rs1 rs2 : RegIdx) (aq rl : BitVec 1) : Insn :=
  .w (Fields32.word ⟨f5 ++ aq ++ rl, rs2, rs1, f3, rd, 0x2f#7⟩)

def encR4 (fmt : BitVec 2) (op : BitVec 7) (rd rs1 rs2 rs3 : RegIdx) (rm : BitVec 3) : Insn :=
  .w (Fields32.word ⟨rs3 ++ fmt, rs2, rs1, rm, rd, op⟩)

def encFence (fm pred succ : BitVec 4) (rs1 rd : RegIdx) : Insn :=
  .w (Fields32.word ⟨fm ++ pred.extractLsb' 1 3, pred.extractLsb' 0 1 ++ succ, rs1, 0#3, rd, 0x0f#7⟩)

def encCIW (f3 : BitVec 3) (rd : BitVec 3) (imm : BitVec 8) : Insn :=
  .c (Fields16.parcel ⟨f3, imm.extractLsb' 3 1, imm.extractLsb' 2 1 ++ imm.extractLsb' 7 1, imm.extractLsb' 4 3,
    imm.extractLsb' 0 1 ++ imm.extractLsb' 1 1, rd, 0#2⟩)

/-- Formats CL and CS with a word offset; `r2` is rd' of a load, rs2' of a store. -/
def encCLW (f3 : BitVec 3) (r2 rs1 : BitVec 3) (imm : BitVec 5) : Insn :=
  .c (Fields16.parcel ⟨f3, imm.extractLsb' 3 1, imm.extractLsb' 1 2, rs1, imm.extractLsb' 0 1 ++ imm.extractLsb' 4 1, r2,
    0#2⟩)

/-- Formats CL and CS with a doubleword offset. -/
def encCLD (f3 : BitVec 3) (r2 rs1 : BitVec 3) (imm : BitVec 5) : Insn :=
  .c (Fields16.parcel ⟨f3, imm.extractLsb' 2 1, imm.extractLsb' 0 2, rs1, imm.extractLsb' 3 2, r2, 0#2⟩)

/-- Format CI with a plain 6-bit immediate. -/
def encCI (f3 : BitVec 3) (op : BitVec 2) (rd : RegIdx) (imm : BitVec 6) : Insn :=
  .c (Fields16.parcel ⟨f3, imm.extractLsb' 5 1, rd.extractLsb' 3 2, rd.extractLsb' 0 3, imm.extractLsb' 3 2,
    imm.extractLsb' 0 3, op⟩)

/-- Format CB with a 6-bit immediate and a 2-bit function field in bits 11:10. -/
def encCBI (f2 : BitVec 2) (rd : BitVec 3) (imm : BitVec 6) : Insn :=
  .c (Fields16.parcel ⟨4#3, imm.extractLsb' 5 1, f2, rd, imm.extractLsb' 3 2, imm.extractLsb' 0 3, 1#2⟩)

def encCA (b12 : BitVec 1) (f2 : BitVec 2) (rd rs2 : BitVec 3) : Insn :=
  .c (Fields16.parcel ⟨4#3, b12, 3#2, rd, f2, rs2, 1#2⟩)

def encCJ (f3 : BitVec 3) (imm : BitVec 11) : Insn :=
  .c (Fields16.parcel ⟨f3, imm.extractLsb' 10 1, imm.extractLsb' 3 1 ++ imm.extractLsb' 8 1,
    imm.extractLsb' 7 1 ++ imm.extractLsb' 9 1 ++ imm.extractLsb' 5 1, imm.extractLsb' 6 1 ++ imm.extractLsb' 2 1,
    imm.extractLsb' 0 2 ++ imm.extractLsb' 4 1, 1#2⟩)

def encCB (f3 : BitVec 3) (rs1 : BitVec 3) (imm : BitVec 8) : Insn :=
  .c (Fields16.parcel ⟨f3, imm.extractLsb' 7 1, imm.extractLsb' 2 2, rs1, imm.extractLsb' 5 2,
    imm.extractLsb' 0 2 ++ imm.extractLsb' 4 1, 1#2⟩)

def encC16 (imm : BitVec 6) : Insn :=
  .c (Fields16.parcel ⟨3#3, imm.extractLsb' 5 1, 0#2, 2#3, imm.extractLsb' 0 1 ++ imm.extractLsb' 2 1,
    imm.extractLsb' 3 2 ++ imm.extractLsb' 1 1, 1#2⟩)

def encLWSP (f3 : BitVec 3) (rd : RegIdx) (imm : BitVec 6) : Insn :=
  .c (Fields16.parcel ⟨f3, imm.extractLsb' 3 1, rd.extractLsb' 3 2, rd.extractLsb' 0 3, imm.extractLsb' 1 2,
    imm.extractLsb' 0 1 ++ imm.extractLsb' 4 2, 2#2⟩)

def encLDSP (f3 : BitVec 3) (rd : RegIdx) (imm : BitVec 6) : Insn :=
  .c (Fields16.parcel ⟨f3, imm.extractLsb' 2 1, rd.extractLsb' 3 2, rd.extractLsb' 0 3, imm.extractLsb' 0 2,
    imm.extractLsb' 3 3, 2#2⟩)

def encSWSP (f3 : BitVec 3) (rs2 : RegIdx) (imm : BitVec 6) : Insn :=
  .c (Fields16.parcel ⟨f3, imm.extractLsb' 3 1, imm.extractLsb' 1 2, imm.extractLsb' 0 1 ++ imm.extractLsb' 4 2,
    rs2.extractLsb' 3 2, rs2.extractLsb' 0 3, 2#2⟩)

def encSDSP (f3 : BitVec 3) (rs2 : RegIdx) (imm : BitVec 6) : Insn :=
  .c (Fields16.parcel ⟨f3, imm.extractLsb' 2 1, imm.extractLsb' 0 2, imm.extractLsb' 3 3, rs2.extractLsb' 3 2,
    rs2.extractLsb' 0 3, 2#2⟩)

/-- Format CR. -/
def encCR (b12 : BitVec 1) (rd rs2 : RegIdx) : Insn :=
  .c (Fields16.parcel ⟨4#3, b12, rd.extractLsb' 3 2, rd.extractLsb' 0 3, rs2.extractLsb' 3 2, rs2.extractLsb' 0 3, 2#2⟩)

/-- The word of an instruction (the Encoding line of its rule). Only ZEXT.H and REV8 have an encoding that depends on XLEN. -/
def encode (xl : Xlen) : Instr → Insn
  | .lui rd imm => encU 0x37#7 rd imm
  | .auipc rd imm => encU 0x17#7 rd imm
  | .jal rd imm => encJ rd imm
  | .jalr rd rs1 imm => encI 0#3 0x67#7 rd rs1 imm
  | .beq rs1 rs2 imm => encB 0#3 rs1 rs2 imm
  | .bne rs1 rs2 imm => encB 1#3 rs1 rs2 imm
  | .blt rs1 rs2 imm => encB 4#3 rs1 rs2 imm
  | .bge rs1 rs2 imm => encB 5#3 rs1 rs2 imm
  | .bltu rs1 rs2 imm => encB 6#3 rs1 rs2 imm
  | .bgeu rs1 rs2 imm => encB 7#3 rs1 rs2 imm
  | .lb rd rs1 imm => encI 0#3 0x03#7 rd rs1 imm
  | .lh rd rs1 imm => encI 1#3 0x03#7 rd rs1 imm
  | .lw rd rs1 imm => encI 2#3 0x03#7 rd rs1 imm
  | .lbu rd rs1 imm => encI 4#3 0x03#7 rd rs1 imm
  | .lhu rd rs1 imm => encI 5#3 0x03#7 rd rs1 imm
  | .sb rs2 rs1 imm => encS 0#3 0x23#7 rs2 rs1 imm
  | .sh rs2 rs1 imm => encS 1#3 0x23#7 rs2 rs1 imm
  | .sw rs2 rs1 imm => encS 2#3 0x23#7 rs2 rs1 imm
  | .addi rd rs1 imm => encI 0#3 0x13#7 rd rs1 imm
  | .slti rd rs1 imm => encI 2#3 0x13#7 rd rs1 imm
  | .sltiu rd rs1 imm => encI 3#3 0x13#7 rd rs1 imm
  | .xori rd rs1 imm => encI 4#3 0x13#7 rd rs1 imm
  | .ori rd rs1 imm => encI 6#3 0x13#7 rd rs1 imm
  | .andi rd rs1 imm => encI 7#3 0x13#7 rd rs1 imm
  | .slli rd rs1 shamt => encShift 0x00#6 1#3 0x13#7 rd rs1 shamt
  | .srli rd rs1 shamt => encShift 0x00#6 5#3 0x13#7 rd rs1 shamt
  | .srai rd rs1 shamt => encShift 0x10#6 5#3 0x13#7 rd rs1 shamt
  | .add rd rs1 rs2 => encR 0x00#7 0#3 0x33#7 rd rs1 rs2
  | .sub rd rs1 rs2 => encR 0x20#7 0#3 0x33#7 rd rs1 rs2
  | .sll rd rs1 rs2 => encR 0x00#7 1#3 0x33#7 rd rs1 rs2
  | .slt rd rs1 rs2 => encR 0x00#7 2#3 0x33#7 rd rs1 rs2
  | .sltu rd rs1 rs2 => encR 0x00#7 3#3 0x33#7 rd rs1 rs2
  | .xor rd rs1 rs2 => encR 0x00#7 4#3 0x33#7 rd rs1 rs2
  | .srl rd rs1 rs2 => encR 0x00#7 5#3 0x33#7 rd rs1 rs2
  | .sra rd rs1 rs2 => encR 0x20#7 5#3 0x33#7 rd rs1 rs2
  | .or rd rs1 rs2 => encR 0x00#7 6#3 0x33#7 rd rs1 rs2
  | .and rd rs1 rs2 => encR 0x00#7 7#3 0x33#7 rd rs1 rs2
  | .fence fm pred succ rs1 rd => encFence fm pred succ rs1 rd
  | .fence_i imm rs1 rd => encI 1#3 0x0f#7 rd rs1 imm
  | .ecall => encI 0#3 0x73#7 0#5 0#5 0x000#12
  | .ebreak => encI 0#3 0x73#7 0#5 0#5 0x001#12
  | .lwu rd rs1 imm => encI 6#3 0x03#7 rd rs1 imm
  | .ld rd rs1 imm => encI 3#3 0x03#7 rd rs1 imm
  | .sd rs2 rs1 imm => encS 3#3 0x23#7 rs2 rs1 imm
  | .addiw rd rs1 imm => encI 0#3 0x1b#7 rd rs1 imm
  | .slliw rd rs1 shamt => encR 0x00#7 1#3 0x1b#7 rd rs1 shamt
  | .srliw rd rs1 shamt => encR 0x00#7 5#3 0x1b#7 rd rs1 shamt
  | .sraiw rd rs1 shamt => encR 0x20#7 5#3 0x1b#7 rd rs1 shamt
  | .addw rd rs1 rs2 => encR 0x00#7 0#3 0x3b#7 rd rs1 rs2
  | .subw rd rs1 rs2 => encR 0x20#7 0#3 0x3b#7 rd rs1 rs2
  | .sllw rd rs1 rs2 => encR 0x00#7 1#3 0x3b#7 rd rs1 rs2
  | .srlw rd rs1 rs2 => encR 0x00#7 5#3 0x3b#7 rd rs1 rs2
  | .sraw rd rs1 rs2 => encR 0x20#7 5#3 0x3b#7 rd rs1 rs2
  | .c_addi4spn rd imm => encCIW 0#3 rd imm
  | .c_fld rd rs1 imm => encCLD 1#3 rd rs1 imm
  | .c_lw rd rs1 imm => encCLW 2#3 rd rs1 imm
  | .c_flw rd rs1 imm => encCLW 3#3 rd rs1 imm
  | .c_ld rd rs1 imm => encCLD 3#3 rd rs1 imm
  | .c_fsd rs2 rs1 imm => encCLD 5#3 rs2 rs1 imm
  | .c_sw rs2 rs1 imm => encCLW 6#3 rs2 rs1 imm
  | .c_fsw rs2 rs1 imm => encCLW 7#3 rs2 rs1 imm
  | .c_sd rs2 rs1 imm => encCLD 7#3 rs2 rs1 imm
  | .c_nop imm => encCI 0#3 1#2 0#5 imm
  | .c_addi rd imm => encCI 0#3 1#2 rd imm
  | .c_jal imm => encCJ 1#3 imm
  | .c_addiw rd imm => encCI 1#3 1#2 rd imm
  | .c_li rd imm => encCI 2#3 1#2 rd imm
  | .c_addi16sp imm => encC16 imm
  | .c_lui rd imm => encCI 3#3 1#2 rd imm
  | .c_srli rd shamt => encCBI 0#2 rd shamt
  | .c_srai rd shamt => encCBI 1#2 rd shamt
  | .c_andi rd imm => encCBI 2#2 rd imm
  | .c_sub rd rs2 => encCA 0#1 0#2 rd rs2
  | .c_xor rd rs2 => encCA 0#1 1#2 rd rs2
  | .c_or rd rs2 => encCA 0#1 2#2 rd rs2
  | .c_and rd rs2 => encCA 0#1 3#2 rd rs2
  | .c_subw rd rs2 => encCA 1#1 0#2 rd rs2
  | .c_addw rd rs2 => encCA 1#1 1#2 rd rs2
  | .c_j imm => encCJ 5#3 imm
  | .c_beqz rs1 imm => encCB 6#3 rs1 imm
  | .c_bnez rs1 imm => encCB 7#3 rs1 imm
  | .c_slli rd shamt => encCI 0#3 2#2 rd shamt
  | .c_fldsp rd imm => encLDSP 1#3 rd imm
  | .c_lwsp rd imm => encLWSP 2#3 rd imm
  | .c_flwsp rd imm => encLWSP 3#3 rd imm
  | .c_ldsp rd imm => encLDSP 3#3 rd imm
  | .c_jr rs1 => encCR 0#1 rs1 0#5
  | .c_mv rd rs2 => encCR 0#1 rd rs2
  | .c_ebreak => encCR 1#1 0#5 0#5
  | .c_jalr rs1 => encCR 1#1 rs1 0#5
  | .c_add rd rs2 => encCR 1#1 rd rs2
  | .c_fsdsp rs2 imm => encSDSP 5#3 rs2 imm
  | .c_swsp rs2 imm => encSWSP 6#3 rs2 imm
  | .c_fswsp rs2 imm => encSWSP 7#3 rs2 imm
  | .c_sdsp rs2 imm => encSDSP 7#3 rs2 imm
  | .mul rd rs1 rs2 => encR 0x01#7 0#3 0x33#7 rd rs1 rs2
  | .mulh rd rs1 rs2 => encR 0x01#7 1#3 0x33#7 rd rs1 rs2
  | .mulhsu rd rs1 rs2 => encR 0x01#7 2#3 0x33#7 rd rs1 rs2
  | .mulhu rd rs1 rs2 => encR 0x01#7 3#3 0x33#7 rd rs1 rs2
  | .div rd rs1 rs2 => encR 0x01#7 4#3 0x33#7 rd rs1 rs2
  | .divu rd rs1 rs2 => encR 0x01#7 5#3 0x33#7 rd rs1 rs2
  | .rem rd rs1 rs2 => encR 0x01#7 6#3 0x33#7 rd rs1 rs2
  | .remu rd rs1 rs2 => encR 0x01#7 7#3 0x33#7 rd rs1 rs2
  | .mulw rd rs1 rs2 => encR 0x01#7 0#3 0x3b#7 rd rs1 rs2
  | .divw rd rs1 rs2 => encR 0x01#7 4#3 0x3b#7 rd rs1 rs2
  | .divuw rd rs1 rs2 => encR 0x01#7 5#3 0x3b#7 rd rs1 rs2
  | .remw rd rs1 rs2 => encR 0x01#7 6#3 0x3b#7 rd rs1 rs2
  | .remuw rd rs1 rs2 => encR 0x01#7 7#3 0x3b#7 rd rs1 rs2
  | .lr_w rd rs1 aq rl => encAmo 0x02#5 2#3 rd rs1 0#5 aq rl
  | .sc_w rd rs1 rs2 aq rl => encAmo 0x03#5 2#3 rd rs1 rs2 aq rl
  | .amoswap_w rd rs1 rs2 aq rl => encAmo 0x01#5 2#3 rd rs1 rs2 aq rl
  | .amoadd_w rd rs1 rs2 aq rl => encAmo 0x00#5 2#3 rd rs1 rs2 aq rl
  | .amoxor_w rd rs1 rs2 aq rl => encAmo 0x04#5 2#3 rd rs1 rs2 aq rl
  | .amoand_w rd rs1 rs2 aq rl => encAmo 0x0c#5 2#3 rd rs1 rs2 aq rl
  | .amoor_w rd rs1 rs2 aq rl => encAmo 0x08#5 2#3 rd rs1 rs2 aq rl
  | .amomin_w rd rs1 rs2 aq rl => encAmo 0x10#5 2#3 rd rs1 rs2 aq rl
  | .amomax_w rd rs1 rs2 aq rl => encAmo 0x14#5 2#3 rd rs1 rs2 aq rl
  | .amominu_w rd rs1 rs2 aq rl => encAmo 0x18#5 2#3 rd rs1 rs2 aq rl
  | .amomaxu_w rd rs1 rs2 aq rl => encAmo 0x1c#5 2#3 rd rs1 rs2 aq rl
  | .lr_d rd rs1 aq rl => encAmo 0x02#5 3#3 rd rs1 0#5 aq rl
  | .sc_d rd rs1 rs2 aq rl => encAmo 0x03#5 3#3 rd rs1 rs2 aq rl
  | .amoswap_d rd rs1 rs2 aq rl => encAmo 0x01#5 3#3 rd rs1 rs2 aq rl
  | .amoadd_d rd rs1 rs2 aq rl => encAmo 0x00#5 3#3 rd rs1 rs2 aq rl
  | .amoxor_d rd rs1 rs2 aq rl => encAmo 0x04#5 3#3 rd rs1 rs2 aq rl
  | .amoand_d rd rs1 rs2 aq rl => encAmo 0x0c#5 3#3 rd rs1 rs2 aq rl
  | .amoor_d rd rs1 rs2 aq rl => encAmo 0x08#5 3#3 rd rs1 rs2 aq rl
  | .amomin_d rd rs1 rs2 aq rl => encAmo 0x10#5 3#3 rd rs1 rs2 aq rl
  | .amomax_d rd rs1 rs2 aq rl => encAmo 0x14#5 3#3 rd rs1 rs2 aq rl
  | .amominu_d rd rs1 rs2 aq rl => encAmo 0x18#5 3#3 rd rs1 rs2 aq rl
  | .amomaxu_d rd rs1 rs2 aq rl => encAmo 0x1c#5 3#3 rd rs1 rs2 aq rl
  | .flw rd rs1 imm => encI 2#3 0x07#7 rd rs1 imm
  | .fsw rs2 rs1 imm => encS 2#3 0x27#7 rs2 rs1 imm
  | .fmadd_s rd rs1 rs2 rs3 rm => encR4 0#2 0x43#7 rd rs1 rs2 rs3 rm
  | .fmsub_s rd rs1 rs2 rs3 rm => encR4 0#2 0x47#7 rd rs1 rs2 rs3 rm
  | .fnmsub_s rd rs1 rs2 rs3 rm => encR4 0#2 0x4b#7 rd rs1 rs2 rs3 rm
  | .fnmadd_s rd rs1 rs2 rs3 rm => encR4 0#2 0x4f#7 rd rs1 rs2 rs3 rm
  | .fadd_s rd rs1 rs2 rm => encR 0x00#7 rm 0x53#7 rd rs1 rs2
  | .fsub_s rd rs1 rs2 rm => encR 0x04#7 rm 0x53#7 rd rs1 rs2
  | .fmul_s rd rs1 rs2 rm => encR 0x08#7 rm 0x53#7 rd rs1 rs2
  | .fdiv_s rd rs1 rs2 rm => encR 0x0c#7 rm 0x53#7 rd rs1 rs2
  | .fsqrt_s rd rs1 rm => encR 0x2c#7 rm 0x53#7 rd rs1 0x00#5
  | .fsgnj_s rd rs1 rs2 => encR 0x10#7 0#3 0x53#7 rd rs1 rs2
  | .fsgnjn_s rd rs1 rs2 => encR 0x10#7 1#3 0x53#7 rd rs1 rs2
  | .fsgnjx_s rd rs1 rs2 => encR 0x10#7 2#3 0x53#7 rd rs1 rs2
  | .fmin_s rd rs1 rs2 => encR 0x14#7 0#3 0x53#7 rd rs1 rs2
  | .fmax_s rd rs1 rs2 => encR 0x14#7 1#3 0x53#7 rd rs1 rs2
  | .fcvt_w_s rd rs1 rm => encR 0x60#7 rm 0x53#7 rd rs1 0x00#5
  | .fcvt_wu_s rd rs1 rm => encR 0x60#7 rm 0x53#7 rd rs1 0x01#5
  | .fmv_x_w rd rs1 => encR 0x70#7 0#3 0x53#7 rd rs1 0x00#5
  | .feq_s rd rs1 rs2 => encR 0x50#7 2#3 0x53#7 rd rs1 rs2
  | .flt_s rd rs1 rs2 => encR 0x50#7 1#3 0x53#7 rd rs1 rs2
  | .fle_s rd rs1 rs2 => encR 0x50#7 0#3 0x53#7 rd rs1 rs2
  | .fclass_s rd rs1 => encR 0x70#7 1#3 0x53#7 rd rs1 0x00#5
  | .fcvt_s_w rd rs1 rm => encR 0x68#7 rm 0x53#7 rd rs1 0x00#5
  | .fcvt_s_wu rd rs1 rm => encR 0x68#7 rm 0x53#7 rd rs1 0x01#5
  | .fmv_w_x rd rs1 => encR 0x78#7 0#3 0x53#7 rd rs1 0x00#5
  | .fcvt_l_s rd rs1 rm => encR 0x60#7 rm 0x53#7 rd rs1 0x02#5
  | .fcvt_lu_s rd rs1 rm => encR 0x60#7 rm 0x53#7 rd rs1 0x03#5
  | .fcvt_s_l rd rs1 rm => encR 0x68#7 rm 0x53#7 rd rs1 0x02#5
  | .fcvt_s_lu rd rs1 rm => encR 0x68#7 rm 0x53#7 rd rs1 0x03#5
  | .fld rd rs1 imm => encI 3#3 0x07#7 rd rs1 imm
  | .fsd rs2 rs1 imm => encS 3#3 0x27#7 rs2 rs1 imm
  | .fmadd_d rd rs1 rs2 rs3 rm => encR4 1#2 0x43#7 rd rs1 rs2 rs3 rm
  | .fmsub_d rd rs1 rs2 rs3 rm => encR4 1#2 0x47#7 rd rs1 rs2 rs3 rm
  | .fnmsub_d rd rs1 rs2 rs3 rm => encR4 1#2 0x4b#7 rd rs1 rs2 rs3 rm
  | .fnmadd_d rd rs1 rs2 rs3 rm => encR4 1#2 0x4f#7 rd rs1 rs2 rs3 rm
  | .fadd_d rd rs1 rs2 rm => encR 0x01#7 rm 0x53#7 rd rs1 rs2
  | .fsub_d rd rs1 rs2 rm => encR 0x05#7 rm 0x53#7 rd rs1 rs2
  | .fmul_d rd rs1 rs2 rm => encR 0x09#7 rm 0x53#7 rd rs1 rs2
  | .fdiv_d rd rs1 rs2 rm => encR 0x0d#7 rm 0x53#7 rd rs1 rs2
  | .fsqrt_d rd rs1 rm => encR 0x2d#7 rm 0x53#7 rd rs1 0x00#5
  | .fsgnj_d rd rs1 rs2 => encR 0x11#7 0#3 0x53#7 rd rs1 rs2
  | .fsgnjn_d rd rs1 rs2 => encR 0x11#7 1#3 0x53#7 rd rs1 rs2
  | .fsgnjx_d rd rs1 rs2 => encR 0x11#7 2#3 0x53#7 rd rs1 rs2
  | .fmin_d rd rs1 rs2 => encR 0x15#7 0#3 0x53#7 rd rs1 rs2
  | .fmax_d rd rs1 rs2 => encR 0x15#7 1#3 0x53#7 rd rs1 rs2
  | .fcvt_s_d rd rs1 rm => encR 0x20#7 rm 0x53#7 rd rs1 0x01#5
  | .fcvt_d_s rd rs1 rm => encR 0x21#7 rm 0x53#7 rd rs1 0x00#5
  | .feq_d rd rs1 rs2 => encR 0x51#7 2#3 0x53#7 rd rs1 rs2
  | .flt_d rd rs1 rs2 => encR 0x51#7 1#3 0x53#7 rd rs1 rs2
  | .fle_d rd rs1 rs2 => encR 0x51#7 0#3 0x53#7 rd rs1 rs2
  | .fclass_d rd rs1 => encR 0x71#7 1#3 0x53#7 rd rs1 0x00#5
  | .fcvt_w_d rd rs1 rm => encR 0x61#7 rm 0x53#7 rd rs1 0x00#5
  | .fcvt_wu_d rd rs1 rm => encR 0x61#7 rm 0x53#7 rd rs1 0x01#5
  | .fcvt_d_w rd rs1 rm => encR 0x69#7 rm 0x53#7 rd rs1 0x00#5
  | .fcvt_d_wu rd rs1 rm => encR 0x69#7 rm 0x53#7 rd rs1 0x01#5
  | .fcvt_l_d rd rs1 rm => encR 0x61#7 rm 0x53#7 rd rs1 0x02#5
  | .fcvt_lu_d rd rs1 rm => encR 0x61#7 rm 0x53#7 rd rs1 0x03#5
  | .fmv_x_d rd rs1 => encR 0x71#7 0#3 0x53#7 rd rs1 0x00#5
  | .fcvt_d_l rd rs1 rm => encR 0x69#7 rm 0x53#7 rd rs1 0x02#5
  | .fcvt_d_lu rd rs1 rm => encR 0x69#7 rm 0x53#7 rd rs1 0x03#5
  | .fmv_d_x rd rs1 => encR 0x79#7 0#3 0x53#7 rd rs1 0x00#5
  | .sh1add rd rs1 rs2 => encR 0x10#7 2#3 0x33#7 rd rs1 rs2
  | .sh2add rd rs1 rs2 => encR 0x10#7 4#3 0x33#7 rd rs1 rs2
  | .sh3add rd rs1 rs2 => encR 0x10#7 6#3 0x33#7 rd rs1 rs2
  | .add_uw rd rs1 rs2 => encR 0x04#7 0#3 0x3b#7 rd rs1 rs2
  | .sh1add_uw rd rs1 rs2 => encR 0x10#7 2#3 0x3b#7 rd rs1 rs2
  | .sh2add_uw rd rs1 rs2 => encR 0x10#7 4#3 0x3b#7 rd rs1 rs2
  | .sh3add_uw rd rs1 rs2 => encR 0x10#7 6#3 0x3b#7 rd rs1 rs2
  | .slli_uw rd rs1 shamt => encShift 0x02#6 1#3 0x1b#7 rd rs1 shamt
  | .andn rd rs1 rs2 => encR 0x20#7 7#3 0x33#7 rd rs1 rs2
  | .orn rd rs1 rs2 => encR 0x20#7 6#3 0x33#7 rd rs1 rs2
  | .xnor rd rs1 rs2 => encR 0x20#7 4#3 0x33#7 rd rs1 rs2
  | .clz rd rs1 => encI 1#3 0x13#7 rd rs1 0x600#12
  | .ctz rd rs1 => encI 1#3 0x13#7 rd rs1 0x601#12
  | .cpop rd rs1 => encI 1#3 0x13#7 rd rs1 0x602#12
  | .clzw rd rs1 => encI 1#3 0x1b#7 rd rs1 0x600#12
  | .ctzw rd rs1 => encI 1#3 0x1b#7 rd rs1 0x601#12
  | .cpopw rd rs1 => encI 1#3 0x1b#7 rd rs1 0x602#12
  | .max rd rs1 rs2 => encR 0x05#7 6#3 0x33#7 rd rs1 rs2
  | .maxu rd rs1 rs2 => encR 0x05#7 7#3 0x33#7 rd rs1 rs2
  | .min rd rs1 rs2 => encR 0x05#7 4#3 0x33#7 rd rs1 rs2
  | .minu rd rs1 rs2 => encR 0x05#7 5#3 0x33#7 rd rs1 rs2
  | .sext_b rd rs1 => encI 1#3 0x13#7 rd rs1 0x604#12
  | .sext_h rd rs1 => encI 1#3 0x13#7 rd rs1 0x605#12
  | .zext_h rd rs1 => match xl with
    | .rv32 => encR 0x04#7 4#3 0x33#7 rd rs1 0#5
    | .rv64 => encR 0x04#7 4#3 0x3b#7 rd rs1 0#5
  | .rol rd rs1 rs2 => encR 0x30#7 1#3 0x33#7 rd rs1 rs2
  | .ror rd rs1 rs2 => encR 0x30#7 5#3 0x33#7 rd rs1 rs2
  | .rori rd rs1 shamt => encShift 0x18#6 5#3 0x13#7 rd rs1 shamt
  | .rolw rd rs1 rs2 => encR 0x30#7 1#3 0x3b#7 rd rs1 rs2
  | .rorw rd rs1 rs2 => encR 0x30#7 5#3 0x3b#7 rd rs1 rs2
  | .roriw rd rs1 shamt => encR 0x30#7 5#3 0x1b#7 rd rs1 shamt
  | .orc_b rd rs1 => encI 5#3 0x13#7 rd rs1 0x287#12
  | .rev8 rd rs1 => match xl with
    | .rv32 => encI 5#3 0x13#7 rd rs1 0x698#12
    | .rv64 => encI 5#3 0x13#7 rd rs1 0x6b8#12
  | .clmul rd rs1 rs2 => encR 0x05#7 1#3 0x33#7 rd rs1 rs2
  | .clmulh rd rs1 rs2 => encR 0x05#7 3#3 0x33#7 rd rs1 rs2
  | .clmulr rd rs1 rs2 => encR 0x05#7 2#3 0x33#7 rd rs1 rs2
  | .bclr rd rs1 rs2 => encR 0x24#7 1#3 0x33#7 rd rs1 rs2
  | .bclri rd rs1 shamt => encShift 0x12#6 1#3 0x13#7 rd rs1 shamt
  | .bext rd rs1 rs2 => encR 0x24#7 5#3 0x33#7 rd rs1 rs2
  | .bexti rd rs1 shamt => encShift 0x12#6 5#3 0x13#7 rd rs1 shamt
  | .binv rd rs1 rs2 => encR 0x34#7 1#3 0x33#7 rd rs1 rs2
  | .binvi rd rs1 shamt => encShift 0x1a#6 1#3 0x13#7 rd rs1 shamt
  | .bset rd rs1 rs2 => encR 0x14#7 1#3 0x33#7 rd rs1 rs2
  | .bseti rd rs1 shamt => encShift 0x0a#6 1#3 0x13#7 rd rs1 shamt
  | .csrrw rd csr rs1 => encI 1#3 0x73#7 rd rs1 csr
  | .csrrs rd csr rs1 => encI 2#3 0x73#7 rd rs1 csr
  | .csrrc rd csr rs1 => encI 3#3 0x73#7 rd rs1 csr
  | .csrrwi rd csr uimm => encI 5#3 0x73#7 rd uimm csr
  | .csrrsi rd csr uimm => encI 6#3 0x73#7 rd uimm csr
  | .csrrci rd csr uimm => encI 7#3 0x73#7 rd uimm csr
  | .mret => encI 0#3 0x73#7 0#5 0#5 0x302#12
  | .sret => encI 0#3 0x73#7 0#5 0#5 0x102#12
  | .wfi => encI 0#3 0x73#7 0#5 0#5 0x105#12
  | .sfence_vma rs1 rs2 => encR 0x09#7 0#3 0x73#7 0#5 rs1 rs2

/-- The trap value an illegal-instruction exception of this instruction records: its word zero-extended (60_exceptions.md R706). -/
def Instr.tval (xl : Xlen) (i : Instr) : Word := (encode xl i).zext

/-- The instruction word whose table bits are `w` (spec/opcode_table.json numbers bit 0 as the least significant of the first
parcel): a 16-bit parcel unless its two low bits are 11 (R200). -/
def insnOfTable (w : Nat) : Insn :=
  if w % 4 = 3 then .w (BitVec.ofNat 32 w) else .c (BitVec.ofNat 16 w)

/-- What the decoder reads from an instruction whose bits are `w`, numbered as the opcode table numbers them. The table holds the rows
of both XLENs: the word is read by the default machine at XLEN = 64 and, where that one has no such row, at XLEN = 32 (DESIGN
CHOICE, log 11). -/
def decodeTableWord (nbits w : Nat) : Option Instr :=
  let n := insnOfTable (w % 2 ^ nbits)
  match decode Config.default n with
  | some i => some i
  | none => decode Config.default32 n

end Sys2Proof
end

