-- ==== Sys2Proof/Machine/State.lean ====
section
/-! DEFINITION. The state of the machine (10_state.md), the reasons a step can stop, and the state after reset
(70_reset_and_hazards.md R770). Every line of INVENTORY.md's '## State' is a field here. -/

namespace Sys2Proof.Machine

/-- Why a step ends in a fault: the machine has no such step. -/
inductive Fault where
  /-- Raised by `step` when the configuration breaks a constraint of 00_scope.md R8: "A machine with an invalid configuration has no
  initial state and takes no step" (R771). Safe: no claim about such a machine can be proved from it. -/
  | configurationError
deriving DecidableEq, Repr

/-- Why a step is refused: the spec gives the word no meaning (00_scope.md R6). -/
inductive Refusal where
  /-- Answered by an arm of `exec` for an instruction whose meaning has not been written. Safe. -/
  | notModelled (mnemonic : String)
  /-- Answered by `step` for a vector encoding when VLEN > 0 and mstatus.VS ≠ 0 (30_encoding.md R208, 48_vector_custom.md R660:
  "refused"). Safe. -/
  | vectorEncoding
  /-- Answered by `step` for a configuration with VENDOR_EXT = true (48_vector_custom.md R662: "refused as a whole"). Safe. -/
  | vendorExtension
deriving DecidableEq, Repr

/-- The registers of 10_state.md section 7 that have storage of their own, each of XLEN bits where no width is given here. -/
structure Csrs where
  mstatus : Word
  medeleg : Word
  mideleg : Word
  mie : Word
  mip : Word
  mtvec : Word
  stvec : Word
  mscratch : Word
  sscratch : Word
  mepc : Word
  sepc : Word
  mcause : Word
  scause : Word
  mtval : Word
  stval : Word
  satp : Word
  mcounteren : BitVec 32
  scounteren : BitVec 32
  fcsr : BitVec 8
deriving DecidableEq, Repr

/-- One entry of a translation cache (R47): `size` bytes from virtual address `vbase` stand at physical address `pbase`. No rule
reads an entry: the layer translates at every access (93_implementation_defined.md row 27; log 7). -/
structure TlbEntry where
  vbase : Nat
  pbase : Nat
  size : Nat
deriving DecidableEq, Repr

/-- One hart: its architectural registers and its bookkeeping (10_state.md; 60_exceptions.md R740). -/
@[ext]
structure Hart where
  x : Vector Word 32
  f : Vector Word 32
  v : Vector Nat 32
  pc : Word
  priv : Priv
  pendingException : Int
  pendingTval : Word
  pendingInterrupt : Int
  mcycle : Word
  minstret : Word
  resValid : Bool
  resAddr : Word
  resSeq : Nat
  powerDown : Bool
  csr : Csrs
  hartid : Word
  tlbCode : List TlbEntry
  tlbData : List TlbEntry
  tlbStore : List TlbEntry
deriving DecidableEq, Repr

/-- The predicates on hart state that SHUTDOWN_HOOK may be and no other atom of `HookPred` says (80_interfaces.md R815 leaves the predicate
open; log 13). Nothing constrains them; `evalHook` applies them to a hart whose translation caches are taken out. -/
opaque Config.unknownHook : Nat → Hart → Bool

/-- The six interrupt sources (60_exceptions.md R710). -/
inductive IrqSource where
  | ssi | msi | sti | mti | sei | mei
deriving DecidableEq, Repr

/-- The position of a source in `mip` and `mie`, and its cause number (R710). -/
def IrqSource.bit : IrqSource → Nat
  | .ssi => 1
  | .msi => 3
  | .sti => 5
  | .mti => 7
  | .sei => 9
  | .mei => 11

/-- What the world outside may do between two steps (80_interfaces.md R816; the driver's choice of hart R812; the layer's filling of a
translation cache R811). Held in State as a queue (log 9). -/
inductive Input where
  | mip (hartid : Word) (source : IrqSource) (value : Bool)
  | time (t : Word)
  | writeRam (pa : Nat) (bytes : List Byte)
  | switchHart (hartid : Word)
  | cacheFill (hartid : Word) (kind : AccessKind) (entry : TlbEntry)
deriving DecidableEq, Repr

/-- The outcome of a step (60_exceptions.md R700). -/
inductive StepOutcome where
  | retired
  | trapped
  | idle
deriving DecidableEq, Repr

/-- The control-transfer classes (80_interfaces.md R813). -/
inductive TransferClass where
  | sequential
  | branchTaken
  | branchNotTaken
  | jump
  | call
  | ret
  | retAndCall
  | trap
deriving DecidableEq, Repr

/-- The most-recently-written register and its new value (10_state.md R49, 80_interfaces.md R814); x0 counts as none. -/
inductive Written where
  | none
  | x (r : RegIdx) (value : Word)
  | f (r : RegIdx) (value : Word)
deriving DecidableEq, Repr

/-- One access of the trace record: the request, and whether the layer routed it to a device. -/
structure Access where
  kind : AccessKind
  addr : Word
  bytes : Nat
  value : Word
  device : Bool
deriving DecidableEq, Repr

/-- The trace record of a step (80_interfaces.md R814) and its outcome; the transient scalars of 10_state.md R49 are in it. The model's
own field: no rule reads it back (log 18). -/
structure Report where
  outcome : StepOutcome
  hart : Word
  priv : Priv
  pc : Word
  insn : Option Insn
  written : Written
  accesses : List Access
  cls : TransferClass
  jumpRegs : Option (RegIdx × RegIdx)
  nextPc : Word
  trap : Option (Bool × Nat × Word)
deriving DecidableEq, Repr

/-- The whole machine: the hart that steps (its fields inherited), the parked harts, what harts share, and the model's own fields
`inputs`, `devSeq`, `out`. -/
@[ext]
structure State extends Hart where
  cfg : Config
  mem : List Host.Cell
  memSeq : Nat
  timeIn : Word
  others : List Hart
  terminate : Bool
  inputs : List (List Input)
  devSeq : Nat
  out : Report
deriving DecidableEq, Repr

/-- `mstatus` after reset: UXL = SXL = 2 at XLEN = 64, otherwise 0 (10_state.md R52, R80). -/
def mstatusReset : Xlen → Word
  | .rv32 => 0
  | .rv64 => 0x0000000A00000000

/-- The registers with storage after reset (R80). -/
def Csrs.reset (xl : Xlen) : Csrs where
  mstatus := mstatusReset xl
  medeleg := 0
  mideleg := 0
  mie := 0
  mip := 0
  mtvec := 0
  stvec := 0
  mscratch := 0
  sscratch := 0
  mepc := 0
  sepc := 0
  mcause := 0
  scause := 0
  mtval := 0
  stval := 0
  satp := 0
  mcounteren := 0
  scounteren := 0
  fcsr := 0

/-- A hart after reset (R770, R80). x1..x31, f, v, `resAddr` and `resSeq` are unspecified there: DESIGN CHOICE 0, log 1 (unsafe). -/
def Hart.reset (c : Config) (id : Word) : Hart where
  x := Vector.replicate 32 0
  f := Vector.replicate 32 0
  v := Vector.replicate 32 0
  pc := c.resetVector
  priv := .M
  pendingException := -1
  pendingTval := 0
  pendingInterrupt := -1
  mcycle := 0
  minstret := 0
  resValid := false
  resAddr := 0
  resSeq := 0
  powerDown := false
  csr := Csrs.reset c.xlen
  hartid := id
  tlbCode := []
  tlbData := []
  tlbStore := []

/-- The report before the first step. -/
def Report.empty : Report where
  outcome := .idle
  hart := 0
  priv := .M
  pc := 0
  insn := none
  written := .none
  accesses := []
  cls := .sequential
  jumpRegs := none
  nextPc := 0
  trap := none

/-- The machine of a configuration after reset (R770): its NHART harts, all at RESET_VECTOR in M mode with identities 0, 1, …
(60_exceptions.md R740), nothing in memory (log 2). An identity is kept modulo 2^64, and mhartid shows its low XLEN bits: of a HARTID that XLEN bits
cannot hold, which an NHART above 2^XLEN would give, the spec does not speak (DESIGN CHOICE, log 33). -/
def State.resetOf (c : Config) : State where
  toHart := Hart.reset c 0
  cfg := c
  mem := []
  memSeq := 0
  timeIn := 0
  others := (List.range (c.nhart - 1)).map fun k => Hart.reset c (BitVec.ofNat 64 (k + 1))
  terminate := false
  inputs := []
  devSeq := 0
  out := Report.empty

/-- The machine after reset, for the default configuration (log 3). -/
def State.reset : State := State.resetOf Config.default

end Sys2Proof.Machine
end

