-- ==== Sys2Proof/Machine/Operands.lean ====
section
/-! DEFINITION. Operands: XLEN-wide arithmetic on 64-bit words, immediates, the register files, effective addresses, and the boxing of
single-precision values (00_scope.md R9, R10; 10_state.md R30 to R37; 30_encoding.md R202). -/

namespace Sys2Proof

/-! ## XLEN-bit values (R9) -/

/-- `trunc_XLEN` as a 64-bit word: the upper half is zero at XLEN = 32 (log 4). -/
def Xlen.norm (xl : Xlen) (v : Word) : Word :=
  match xl with
  | .rv32 => (v.setWidth 32).setWidth 64
  | .rv64 => v

/-- `s(v)`: the XLEN-bit value as a signed integer. -/
def Xlen.toInt (xl : Xlen) (v : Word) : Int :=
  match xl with
  | .rv32 => (v.setWidth 32).toInt
  | .rv64 => v.toInt

/-- `u(v)`: the XLEN-bit value as an unsigned integer. -/
def Xlen.toNat (xl : Xlen) (v : Word) : Nat :=
  match xl with
  | .rv32 => (v.setWidth 32).toNat
  | .rv64 => v.toNat

/-- A one-operand function on XLEN bits. -/
def Xlen.lift1 (xl : Xlen) (f : (w : Nat) → BitVec w → BitVec w) (a : Word) : Word :=
  match xl with
  | .rv32 => (f 32 (a.setWidth 32)).setWidth 64
  | .rv64 => f 64 a

/-- A two-operand function on XLEN bits. -/
def Xlen.lift2 (xl : Xlen) (f : (w : Nat) → BitVec w → BitVec w → BitVec w) (a b : Word) : Word :=
  match xl with
  | .rv32 => (f 32 (a.setWidth 32) (b.setWidth 32)).setWidth 64
  | .rv64 => f 64 a b

/-- A shift amount reduced as 40_base_integer.md R262 says: the low 5 bits at XLEN = 32, the low 6 at XLEN = 64. -/
def Xlen.amount (xl : Xlen) (v : Word) : Nat :=
  match xl with
  | .rv32 => v.toNat % 32
  | .rv64 => v.toNat % 64

/-- The amount of a word shift or rotate: the low 5 bits whatever XLEN is (R262, 46_bitmanip.md R571). -/
def amount32 (v : Word) : Nat := v.toNat % 32

/-- The low 32 bits of a register, the operand of a word form (R261). -/
def low32 (v : Word) : BitVec 32 := v.setWidth 32

/-- `sext_XLEN` of a w-bit value. -/
def Xlen.sext (xl : Xlen) {w : Nat} (v : BitVec w) : Word := xl.norm (v.signExtend 64)

/-- `zext_XLEN` of a w-bit value. -/
def Xlen.zext (xl : Xlen) {w : Nat} (v : BitVec w) : Word := xl.norm (v.setWidth 64)

/-- The value 1 or 0 a comparison writes (R261). -/
def boolWord (b : Bool) : Word := if b then 1 else 0

/-! ## Immediates (30_encoding.md R202, 41_compressed.md R342) -/

/-- An immediate whose lowest `z` bits the encoding does not carry, sign-extended to XLEN. -/
def Xlen.immS (xl : Xlen) {w : Nat} (z : Nat) (imm : BitVec w) : Word := xl.sext (imm ++ 0#z)

/-- An immediate whose lowest `z` bits the encoding does not carry, zero-extended to XLEN. -/
def Xlen.immU (xl : Xlen) {w : Nat} (z : Nat) (imm : BitVec w) : Word := xl.zext (imm ++ 0#z)

/-- The register a 3-bit field of a compressed instruction names: 8 + field (10_state.md R32, 41_compressed.md R341). -/
def creg (r : BitVec 3) : RegIdx := 1#2 ++ r

/-! ## FLEN-bit values -/

/-- The bits FLEN keeps of a word (R36). -/
def Flen.norm (fl : Flen) (v : Word) : Word :=
  match fl with
  | .f0 => 0
  | .f32 => (v.setWidth 32).setWidth 64
  | .f64 => v

/-- `box(r)` (R37): a single-precision result as the register holds it. -/
def Flen.box (fl : Flen) (r : BitVec 32) : Word :=
  match fl with
  | .f64 => 0xFFFFFFFF#32 ++ r
  | _ => r.setWidth 64

namespace Machine

/-- The width of integer registers. -/
def State.xlen (s : State) : Xlen := s.cfg.xlen

/-! ## Integer registers -/

/-- `x[i]` (10_state.md R30, R31): x0 reads 0. -/
def State.getX (s : State) (i : RegIdx) : Word :=
  if i = 0#5 then 0 else s.cfg.xlen.norm (s.x[i.toNat]'i.isLt)

/-- `x[i] <- v` at retire (R31): a write to x0 is discarded. The trace record notes the register (80_interfaces.md R814). -/
def State.setX (s : State) (i : RegIdx) (v : Word) : State :=
  if i = 0#5 then s
  else
    { s with
      x := s.x.set i.toNat (s.cfg.xlen.norm v) i.isLt
      out := { s.out with written := .x i (s.cfg.xlen.norm v) } }

/-- `x[rs1] + sext_XLEN(imm)` modulo 2^XLEN, the only effective address (40_base_integer.md R263). -/
def State.effAddr (s : State) (base : RegIdx) (offset : Word) : Word := s.cfg.xlen.norm (s.getX base + offset)

/-! ## Floating-point registers -/

/-- `f[i]`, FLEN bits. -/
def State.getF (s : State) (i : RegIdx) : Word := s.cfg.flen.norm (s.f[i.toNat]'i.isLt)

/-- The binary32 operand `S(f[i])` (10_state.md R37, 44_float_single.md R469): at FLEN = 64 a register whose upper half is not all
ones reads as the canonical NaN. -/
def State.getS (s : State) (i : RegIdx) : Word :=
  match s.cfg.flen with
  | .f64 =>
    if (s.getF i).extractLsb' 32 32 = 0xFFFFFFFF#32 then ((s.getF i).setWidth 32).setWidth 64 else 0x7FC00000
  | _ => s.getF i

end Machine

end Sys2Proof
end

