-- ==== Sys2Proof/Machine/Flags.lean ====
section
/-! DEFINITION. Status: the accrued floating-point flags of fcsr, the fields of mstatus, and when FS becomes dirty (10_state.md R38,
R39, R52, R62, R77; 44_float_single.md R461, R469). Integer instructions write no flag (R77). -/

namespace Sys2Proof.Machine

/-! ## The five flags (R62) -/

def flagNV : FFlags := 16
def flagDZ : FFlags := 8
def flagOF : FFlags := 4
def flagUF : FFlags := 2
def flagNX : FFlags := 1

/-- A flag when a condition holds. -/
def flagIf (b : Bool) (f : FFlags) : FFlags := if b then f else 0

/-! ## Fields of mstatus (R52) -/

/-- Bit `i` of a register. -/
def getBit (i : Nat) (m : Word) : Bool := m.getLsbD i

/-- A register with bit `i` replaced. -/
def setBit (i : Nat) (b : Bool) (m : Word) : Word :=
  if b then m ||| (1#64 <<< i) else m &&& ~~~(1#64 <<< i)

/-- A 2-bit field at position `i`. -/
def getField2 (i : Nat) (m : Word) : BitVec 2 := m.extractLsb' i 2

/-- A register with the 2-bit field at position `i` replaced. -/
def setField2 (i : Nat) (v : BitVec 2) (m : Word) : Word :=
  (m &&& ~~~(3#64 <<< i)) ||| ((v.setWidth 64) <<< i)

/-- Positions of the fields of mstatus (R52). -/
def posSIE : Nat := 1
def posMIE : Nat := 3
def posSPIE : Nat := 5
def posMPIE : Nat := 7
def posSPP : Nat := 8
def posVS : Nat := 9
def posMPP : Nat := 11
def posFS : Nat := 13
def posXS : Nat := 15
def posMPRV : Nat := 17
def posSUM : Nat := 18
def posMXR : Nat := 19
def posTVM : Nat := 20
def posTW : Nat := 21
def posTSR : Nat := 22

/-- The encoding of a privilege level: U = 0, S = 1, M = 3 (R41). -/
def privBits : Priv → BitVec 2
  | .U => 0
  | .S => 1
  | .M => 3

/-- The level an encoding names. The value 2 is no level of this machine: no write stores it in MPP (R52) and no other field holds it;
read as M (DESIGN CHOICE, log 16: unreachable). -/
def privOfBits (b : BitVec 2) : Priv :=
  match b with
  | 0 => .U
  | 1 => .S
  | _ => .M

/-- FS of an mstatus value. -/
def fieldFS (m : Word) : BitVec 2 := getField2 posFS m

/-- VS of an mstatus value. -/
def fieldVS (m : Word) : BitVec 2 := getField2 posVS m

/-- The privilege MPP names. -/
def fieldMPP (m : Word) : Priv := privOfBits (getField2 posMPP m)

/-! ## Gating and accrual -/

/-- Floating-point operations are legal (R38): FLEN > 0 and mstatus.FS ≠ 0. -/
def State.fpEnabled (s : State) : Bool := s.cfg.flen != .f0 && fieldFS s.csr.mstatus != 0#2

/-- `mstatus.FS <- 3` (R39). -/
def State.dirtyFS (s : State) : State :=
  { s with csr := { s.csr with mstatus := setField2 posFS 3#2 s.csr.mstatus } }

/-- `fcsr.fflags <- fcsr.fflags | flags` at retire; a nonzero set makes FS dirty (R39, R469). -/
def State.accrue (s : State) (fl : FFlags) : State :=
  if fl = 0#5 then s
  else ({ s with csr := { s.csr with fcsr := s.csr.fcsr ||| fl.setWidth 8 } }).dirtyFS

/-- `f[i] <- v` at retire, which makes FS dirty (R36, R39); the trace record notes the register with its FLEN-bit value (R469). -/
def State.setF (s : State) (i : RegIdx) (v : Word) : State :=
  ({ s with
      f := s.f.set i.toNat (s.cfg.flen.norm v) i.isLt
      out := { s.out with written := .f i (s.cfg.flen.norm v) } }).dirtyFS

/-- The dynamic rounding mode `fcsr.frm` (R62). -/
def State.frm (s : State) : BitVec 3 := s.csr.fcsr.extractLsb' 5 3

/-! ## Rounding modes (44_float_single.md R461) -/

inductive RoundMode where
  | rne | rtz | rdn | rup | rmm
deriving DecidableEq, Repr

/-- The mode a 3-bit code names; 5, 6 and 7 name none. -/
def RoundMode.ofCode (c : BitVec 3) : Option RoundMode :=
  match c with
  | 0 => some .rne
  | 1 => some .rtz
  | 2 => some .rdn
  | 3 => some .rup
  | 4 => some .rmm
  | _ => none

/-- The effective rounding mode `rm*`: 7 means `fcsr.frm`; none means the instruction is illegal. -/
def State.roundMode (s : State) (rm : BitVec 3) : Option RoundMode :=
  if rm = 7#3 then RoundMode.ofCode s.frm else RoundMode.ofCode rm

end Sys2Proof.Machine
end

