-- ==== Sys2Proof/Machine/Memory.lean ====
section
/-! DEFINITION. Memory (20_memory.md): the bytes of shared RAM in one canonical form, the memory layer's answer to a request
(80_interfaces.md R811), and the engine's access primitives MemRead, MemWrite, Fetch16 and the read-modify-write of an AMO. -/

namespace Sys2Proof.Machine

/-! ## Bytes of RAM by physical address -/

/-- What an address that is not listed reads as (DESIGN CHOICE, log 2: unsafe; 70_reset_and_hazards.md R770 makes the initial memory an
input). -/
def unlistedByte : Byte := 0

/-- One byte of RAM. -/
def Memory.read : List Host.Cell → Nat → Byte
  | [], _ => unlistedByte
  | (b, v) :: m, a => if a = b then v else Memory.read m a

/-- One byte of RAM replaced; the list stays in canonical form. -/
def Memory.write : List Host.Cell → Nat → Byte → List Host.Cell
  | [], a, v => if v = unlistedByte then [] else [(a, v)]
  | (b, w) :: m, a, v =>
    if a < b then (if v = unlistedByte then (b, w) :: m else (a, v) :: (b, w) :: m)
    else if a = b then (if v = unlistedByte then m else (a, v) :: m)
    else (b, w) :: Memory.write m a v

/-- Addresses rise strictly from `lo` on and no entry equals what an unlisted address reads as. -/
def Memory.wfFrom (lo : Nat) : List Host.Cell → Bool
  | [] => true
  | (a, v) :: m => (lo ≤ a) && (v != unlistedByte) && Memory.wfFrom (a + 1) m

/-- The canonical form of memory. -/
def Memory.wf (m : List Host.Cell) : Bool := Memory.wfFrom 0 m

/-- Bytes written at consecutive physical addresses. -/
def Memory.writeBytes (m : List Host.Cell) (a : Nat) : List Byte → List Host.Cell
  | [] => m
  | b :: bs => Memory.writeBytes (Memory.write m a b) (a + 1) bs

/-! ## The memory layer (80_interfaces.md R811, 20_memory.md R155, R160, R167; log 5) -/

/-- What the engine passes with a request beside the address: the hart, the kind, the width in bytes, and the translation context (R155). -/
structure Request where
  hart : Word
  kind : AccessKind
  width : Nat
  privEff : Priv
  satp : Word
  sum : Bool
  mxr : Bool
deriving DecidableEq, Repr

/-- The request of this hart for an access of a kind and width: MPRV replaces the privilege for data and store accesses (R155). -/
def State.request (s : State) (kind : AccessKind) (width : Nat) : Request where
  hart := s.hartid
  kind := kind
  width := width
  privEff :=
    match kind with
    | .code => s.priv
    | _ => if getBit posMPRV s.csr.mstatus then fieldMPP s.csr.mstatus else s.priv
  satp := s.csr.satp
  sum := getBit posSUM s.csr.mstatus
  mxr := getBit posMXR s.csr.mstatus

/-- A field of a map line matches when it is absent or equal. -/
def fieldMatches {α : Type} [DecidableEq α] (pattern : Option α) (v : α) : Bool :=
  match pattern with
  | none => true
  | some p => p = v

/-- A line of the map applies to the byte at address `a` of a request, in a state of memory. -/
def LayerEntry.covers (e : LayerEntry) (mem : List Host.Cell) (q : Request) (a : Nat) : Bool :=
  (match q.kind with
    | .code => e.onCode
    | .data => e.onData
    | .store => e.onStore)
    && (e.base ≤ a) && (a < e.base + e.size)
    && fieldMatches e.hart q.hart && fieldMatches e.width q.width
    && fieldMatches e.priv q.privEff && fieldMatches e.satp q.satp
    && fieldMatches e.sum q.sum && fieldMatches e.mxr q.mxr
    && e.memory.all fun c => Memory.read mem c.1 == c.2

/-- Where one byte of a request goes: a physical address (R150) that holds RAM or belongs to a device (R166). -/
inductive Place where
  | ram (p : Nat)
  | device (p : Nat)
deriving DecidableEq, Repr

/-- The physical address of a place. -/
def Place.addr : Place → Nat
  | .ram p => p
  | .device p => p

/-- The place belongs to a device. -/
def Place.isDevice : Place → Bool
  | .ram _ => false
  | .device _ => true

/-- Where one byte of a request goes. An address no line covers, or whose physical address PA_WIDTH bits cannot hold, is an access
fault (93_implementation_defined.md row 37). It is a function of the request and of memory and writes nothing: no translation updates a
page-table bit in RAM (91_not_in_source.md N14 leaves that open: DESIGN CHOICE, log 32). A line of the map may answer misaligned to any request, one of
a single byte and a fetch included (DEDUCED, log 35). -/
def translate (c : Config) (mem : List Host.Cell) (q : Request) (a : Nat) : Except LayerFault Place :=
  match c.layer.find? fun e => LayerEntry.covers e mem q a with
  | none => .error .access
  | some e =>
    match e.target with
    | .fault flt => .error flt
    | .device p => if p + (a - e.base) < 2 ^ c.paWidth then .ok (.device (p + (a - e.base))) else .error .access
    | .ram p => if p + (a - e.base) < 2 ^ c.paWidth then .ok (.ram (p + (a - e.base))) else .error .access

/-- Where `n` consecutive bytes go, the byte at the lowest address first; one fault for all of them (R167). The addresses are taken
modulo 2^XLEN (R151). -/
def resolve (c : Config) (mem : List Host.Cell) (q : Request) (a : Word) : Nat → Except LayerFault (List Place)
  | 0 => .ok []
  | n + 1 =>
    match translate c mem q (c.xlen.norm a).toNat with
    | .error flt => .error flt
    | .ok t =>
      match resolve c mem q (a + 1) n with
      | .error flt => .error flt
      | .ok ts => .ok (t :: ts)

/-- The layer's answer to one request of `n` bytes at `a` by this hart: where its bytes are, or one fault (R155, R160, R167). -/
def State.places (s : State) (kind : AccessKind) (a : Word) (n : Nat) : Except LayerFault (List Place) :=
  resolve s.cfg s.mem (s.request kind n) a n

/-- The value at resolved places, little-endian (R152), and the device counter after it: a byte of a device is a free value (R164,
93_implementation_defined.md row 38; log 6). -/
def loadFrom (mem : List Host.Cell) (dev : Nat) : List Place → Word × Nat
  | [] => (0, dev)
  | .ram p :: ts =>
    let r := loadFrom mem dev ts
    (r.1 <<< 8 ||| (Memory.read mem p).setWidth 64, r.2)
  | .device _ :: ts =>
    let r := loadFrom mem (dev + 1) ts
    (r.1 <<< 8 ||| (Config.deviceByte dev).setWidth 64, r.2)

/-- A value stored at resolved places, little-endian. A byte for a device changes no RAM. -/
def storeTo (mem : List Host.Cell) (v : Word) : List Place → List Host.Cell
  | [] => mem
  | .ram p :: ts => storeTo (Memory.write mem p (v.setWidth 8)) (v >>> 8) ts
  | .device _ :: ts => storeTo mem (v >>> 8) ts

/-- The request reaches a device. -/
def anyDevice (ts : List Place) : Bool := ts.any Place.isDevice

/-- The entry of a translation cache meets one of the written places, RAM or device. -/
def TlbEntry.meets (e : TlbEntry) (ts : List Place) : Bool :=
  ts.any fun t => (e.pbase ≤ t.addr) && (t.addr < e.pbase + e.size)

/-- A store drops the entries of the other harts' caches for the written range (10_state.md R47, 20_memory.md R173; a range of physical
addresses: PRESUMED, log 7). -/
def Hart.dropRange (h : Hart) (ts : List Place) : Hart :=
  { h with
    tlbCode := h.tlbCode.filter fun e => !e.meets ts
    tlbData := h.tlbData.filter fun e => !e.meets ts
    tlbStore := h.tlbStore.filter fun e => !e.meets ts }

/-- This hart's three translation caches emptied: `flush_all` (R811). -/
def State.flushAll (s : State) : State := { s with tlbCode := [], tlbData := [], tlbStore := [] }

/-- This hart's code cache emptied: `flush_code` (R811). -/
def State.flushCode (s : State) : State := { s with tlbCode := [] }

/-- An access added to the trace record (80_interfaces.md R814). -/
def State.logAccess (s : State) (kind : AccessKind) (a : Word) (n : Nat) (v : Word) (device : Bool) : State :=
  { s with out := { s.out with
      accesses := s.out.accesses ++
        [{ kind := kind, addr := s.cfg.xlen.norm a, bytes := n, value := v, device := device }] } }

/-- The low `n` bytes of a word. -/
def lowBytes (n : Nat) (v : Word) : Word := v &&& BitVec.ofNat 64 (2 ^ (8 * n) - 1)

/-- `layer.read_u{8n}`. -/
def layerRead (s : State) (kind : AccessKind) (a : Word) (n : Nat) : Except LayerFault (Word × State) :=
  match s.places kind a n with
  | .error flt => .error flt
  | .ok ts =>
    let r := loadFrom s.mem s.devSeq ts
    .ok (r.1, ({ s with devSeq := r.2 }).logAccess kind a n r.1 (anyDevice ts))

/-- `layer.write_u{8n}`. -/
def layerWrite (s : State) (a : Word) (n : Nat) (v : Word) : Except LayerFault State :=
  match s.places .store a n with
  | .error flt => .error flt
  | .ok ts =>
    .ok (({ s with
      mem := storeTo s.mem v ts
      others := s.others.map fun h => Hart.dropRange h ts }).logAccess .store a n (lowBytes n v) (anyDevice ts))

/-! ## The engine's primitives (20_memory.md section 2) -/

/-- The exception a layer fault becomes (R160, 60_exceptions.md R705), whatever the width: a byte access that the layer calls misaligned raises 4
or 6, though 40_base_integer.md R275 and R280 say that LB and SB are never misaligned (DEDUCED, log 35). -/
def faultCause (kind : AccessKind) (flt : LayerFault) : Nat :=
  match flt, kind with
  | .misaligned, .code => 0
  | .misaligned, .data => 4
  | .misaligned, .store => 6
  | .access, .code => 1
  | .access, .data => 5
  | .access, .store => 7
  | .page, .code => 12
  | .page, .data => 13
  | .page, .store => 15

/-- The result of an access: it is performed, or it raises a cause with a trap value. The state of a raise keeps what the bytes before
the faulting one have done (R157, 60_exceptions.md R703). -/
inductive MemResult (α : Type) where
  | ok (v : α) (s : State)
  | raise (cause : Nat) (tval : Word) (s : State)
deriving DecidableEq, Repr

/-- The address is a multiple of the access width. -/
def aligned (xl : Xlen) (a : Word) (n : Nat) : Bool := xl.toNat a % n == 0

/-- `mem_seq` advanced. -/
def State.bumpSeq (s : State) : State := { s with memSeq := s.memSeq + 1 }

/-- A performed read advances `mem_seq` only under RES_INVALIDATE_ON = any_access (R156, R161). -/
def State.bumpSeqOnRead (s : State) : State :=
  match s.cfg.resInvalidateOn with
  | .store => s
  | .anyAccess => s.bumpSeq

/-- A read that the layer is asked for once: an aligned one, or one byte of a split one (R156). -/
def memReadOnce (s : State) (a : Word) (n : Nat) : MemResult Word :=
  match layerRead s .data a n with
  | .error flt => .raise (faultCause .data flt) (s.cfg.xlen.norm a) s
  | .ok (v, t) => .ok v t.bumpSeqOnRead

/-- The bytes of a split misaligned read in ascending order (R156). -/
def memReadSplit (s : State) (a : Word) : Nat → MemResult Word
  | 0 => .ok 0 s
  | n + 1 =>
    match memReadOnce s a 1 with
    | .raise c t s' => .raise c t s'
    | .ok lo s' =>
      match memReadSplit s' (a + 1) n with
      | .raise c t s'' => .raise c t s''
      | .ok hi s'' => .ok (hi <<< 8 ||| lo) s''

/-- `MemRead(a, n)` (R156). -/
def memRead (s : State) (a : Word) (n : Nat) : MemResult Word :=
  if aligned s.cfg.xlen a n then memReadOnce s a n
  else
    match s.cfg.misaligned with
    | .trap => .raise 4 (s.cfg.xlen.norm a) s
    | .split => memReadSplit s a n

/-- A write that the layer is asked for once (R157). -/
def memWriteOnce (s : State) (a : Word) (n : Nat) (v : Word) : MemResult Unit :=
  match layerWrite s a n v with
  | .error flt => .raise (faultCause .store flt) (s.cfg.xlen.norm a) s
  | .ok t => .ok () t.bumpSeq

/-- The bytes of a split misaligned write in ascending order; a byte that faults leaves those before it written (R157). -/
def memWriteSplit (s : State) (a : Word) (v : Word) : Nat → MemResult Unit
  | 0 => .ok () s
  | n + 1 =>
    match memWriteOnce s a 1 v with
    | .raise c t s' => .raise c t s'
    | .ok () s' => memWriteSplit s' (a + 1) (v >>> 8) n

/-- `MemWrite(a, n, v)` (R157). -/
def memWrite (s : State) (a : Word) (n : Nat) (v : Word) : MemResult Unit :=
  if aligned s.cfg.xlen a n then memWriteOnce s a n v
  else
    match s.cfg.misaligned with
    | .trap => .raise 6 (s.cfg.xlen.norm a) s
    | .split => memWriteSplit s a v n

/-- The read-modify-write of an AMO: one `store`-kind access of n bytes (20_memory.md R154, 43_atomics.md R431); answers the old
value. The alignment check stands before it (R426). -/
def memAmo (s : State) (a : Word) (n : Nat) (op : Word → Word) : MemResult Word :=
  match layerRead s .store a n with
  | .error flt => .raise (faultCause .store flt) (s.cfg.xlen.norm a) s
  | .ok (old, t) =>
    match layerWrite t a n (op old) with
    | .error flt => .raise (faultCause .store flt) (s.cfg.xlen.norm a) s
    | .ok u => .ok old u.bumpSeq

/-- `Fetch16(a)` (R158). -/
def fetch16 (s : State) (a : Word) : MemResult (BitVec 16) :=
  match layerRead s .code a 2 with
  | .error flt => .raise (faultCause .code flt) (s.cfg.xlen.norm a) s
  | .ok (v, t) => .ok (v.setWidth 16) t

/-- pc is where an instruction may stand: even with C, a multiple of 4 without (R159, R162). -/
def State.pcAligned (s : State) : Bool :=
  if s.cfg.ext.c then s.pc.extractLsb' 0 1 == 0#1 else s.pc.extractLsb' 0 2 == 0#2

/-- The fetch of the instruction at pc (R159): alignment, then the first parcel, then the second. Without C a parcel whose low bits are
not 11 is illegal at once (30_encoding.md R203). -/
def fetch (s : State) : MemResult Insn :=
  if s.pcAligned then
    match fetch16 s s.pc with
    | .raise c t s' => .raise c t s'
    | .ok lo s' =>
      if lo.extractLsb' 0 2 = 3#2 then
        match fetch16 s' (s.pc + 2) with
        | .raise c t s'' => .raise c t s''
        | .ok hi s'' => .ok (.w (hi ++ lo)) s''
      else if s.cfg.ext.c then .ok (.c lo) s'
      else .raise 2 (s.cfg.xlen.zext lo) s'
  else .raise 0 (s.cfg.xlen.norm s.pc) s

end Sys2Proof.Machine
end

