-- ==== Sys2Proof/Machine/Csr.lean ====
section
/-! DEFINITION. The control and status registers: which numbers exist (10_state.md R51), who may access them (47_system_csr.md R631),
and the read and write function of each (R638, with 10_state.md R52 to R76). -/

namespace Sys2Proof.Machine

/-- The registers of the table of R51. -/
inductive CsrName where
  | fflags | frm | fcsr
  | cycle | time | instret | cycleh | timeh | instreth
  | sstatus | sie | stvec | scounteren | sscratch | sepc | scause | stval | sip | satp
  | mvendorid | marchid | mimpid | mhartid
  | mstatus | misa | medeleg | mideleg | mie | mtvec | mcounteren | mscratch | mepc | mcause | mtval | mip
  | mcycle | minstret | mcycleh | minstreth
deriving DecidableEq, Repr

/-- The register a 12-bit number names (R51). -/
def CsrName.ofNum (n : BitVec 12) : Option CsrName :=
  match n with
  | 0x001 => some .fflags
  | 0x002 => some .frm
  | 0x003 => some .fcsr
  | 0xC00 => some .cycle
  | 0xC01 => some .time
  | 0xC02 => some .instret
  | 0xC80 => some .cycleh
  | 0xC81 => some .timeh
  | 0xC82 => some .instreth
  | 0x100 => some .sstatus
  | 0x104 => some .sie
  | 0x105 => some .stvec
  | 0x106 => some .scounteren
  | 0x140 => some .sscratch
  | 0x141 => some .sepc
  | 0x142 => some .scause
  | 0x143 => some .stval
  | 0x144 => some .sip
  | 0x180 => some .satp
  | 0xF11 => some .mvendorid
  | 0xF12 => some .marchid
  | 0xF13 => some .mimpid
  | 0xF14 => some .mhartid
  | 0x300 => some .mstatus
  | 0x301 => some .misa
  | 0x302 => some .medeleg
  | 0x303 => some .mideleg
  | 0x304 => some .mie
  | 0x305 => some .mtvec
  | 0x306 => some .mcounteren
  | 0x340 => some .mscratch
  | 0x341 => some .mepc
  | 0x342 => some .mcause
  | 0x343 => some .mtval
  | 0x344 => some .mip
  | 0xB00 => some .mcycle
  | 0xB02 => some .minstret
  | 0xB80 => some .mcycleh
  | 0xB82 => some .minstreth
  | _ => none

/-- The column "exists when" of R51. -/
def CsrName.present (c : Config) : CsrName → Bool
  | .fflags | .frm | .fcsr => c.flen != .f0
  | .cycleh | .timeh | .instreth | .mcycleh | .minstreth => c.xlen == .rv32
  | .cycle | .time | .instret | .sstatus | .sie | .stvec | .scounteren | .sscratch | .sepc | .scause | .stval | .sip
  | .satp | .mvendorid | .marchid | .mimpid | .mhartid | .mstatus | .misa | .medeleg | .mideleg | .mie | .mtvec
  | .mcounteren | .mscratch | .mepc | .mcause | .mtval | .mip | .mcycle | .minstret => true

/-- The register a number names in this machine. -/
def lookupCsr (c : Config) (n : BitVec 12) : Option CsrName :=
  match CsrName.ofNum n with
  | some r => if r.present c then some r else none
  | none => none

/-! ## Access check (R631) -/

/-- The lowest level that may access a CSR number, bits 9:8; 2 is treated as M. -/
def csrLevel (n : BitVec 12) : Priv := privOfBits (n.extractLsb' 8 2)

/-- A CSR number of the read-only range: bits 11:10 are 11. -/
def csrReadOnly (n : BitVec 12) : Bool := n.extractLsb' 10 2 == 3#2

/-- Privilege levels compared as numbers. -/
def privGe (p q : Priv) : Bool := (privBits q).toNat ≤ (privBits p).toNat

/-- The bit of mcounteren and scounteren that gates a counter. -/
def counterBit : CsrName → Option Nat
  | .cycle | .cycleh => some 0
  | .time | .timeh => some 1
  | .instret | .instreth => some 2
  | _ => none

/-- Check 6 of R631: a counter is readable at this level. -/
def State.counterOk (s : State) (r : CsrName) : Bool :=
  match counterBit r with
  | none => true
  | some b =>
    (s.priv == .M || s.csr.mcounteren.getLsbD b) && (s.priv != .U || s.csr.scounteren.getLsbD b)

/-- Checks 2 to 6 of R631 on a register that exists. -/
def State.csrAllowed (s : State) (n : BitVec 12) (r : CsrName) (writes : Bool) : Bool :=
  privGe s.priv (csrLevel n)
    && !(writes && csrReadOnly n)
    && (match r with
        | .fflags | .frm | .fcsr => fieldFS s.csr.mstatus != 0#2
        | .satp => !(s.priv == .S && getBit posTVM s.csr.mstatus)
        | _ => true)
    && s.counterOk r

/-- The register an access reaches when every check of R631 holds; none: the access is illegal. -/
def State.csrAccess (s : State) (n : BitVec 12) (writes : Bool) : Option CsrName :=
  match lookupCsr s.cfg n with
  | some r => if s.csrAllowed n r writes then some r else none
  | none => none

/-! ## Fields and masks (R52, R53, R54) -/

/-- The bits of mstatus this machine implements: `0x007E7FAA`, FS only when FLEN > 0, VS only when VLEN > 0. -/
def mstatusMask (c : Config) : Word :=
  0x007E19AA ||| (if c.flen = .f0 then 0 else 0x6000) ||| (if c.vlen = 0 then 0 else 0x600)

/-- SD: 1 when FS, VS or XS is 3, in bit XLEN-1; computed at read. -/
def sdBit (xl : Xlen) (m : Word) : Word :=
  if getField2 posFS m = 3#2 || getField2 posVS m = 3#2 || getField2 posXS m = 3#2 then
    (match xl with
      | .rv32 => 0x80000000
      | .rv64 => 0x8000000000000000)
  else 0

/-- `mstatus` as it reads: the stored bits, UXL = SXL = 2 at XLEN = 64, SD computed. -/
def mstatusRead (c : Config) (m : Word) : Word :=
  let stored := m &&& mstatusMask c
  stored ||| mstatusReset c.xlen ||| sdBit c.xlen stored

/-- A write of `v` to the bits of `mask` of mstatus: MPP = 2 is not stored, the rest of the register is kept. -/
def mstatusWrite (c : Config) (mask m v : Word) : Word :=
  let writable := mask &&& mstatusMask c &&& (if getField2 posMPP v = 2#2 then ~~~0x1800 else ~~~0)
  (m &&& ~~~writable) ||| (v &&& writable)

/-- SMASK (R53): the bits of mstatus that sstatus shows. -/
def sstatusMask (xl : Xlen) : Word :=
  match xl with
  | .rv32 => 0x800DE722
  | .rv64 => 0x80000003000DE722

/-- `misa` (R54): MXL and one bit per letter. -/
def misaValue (c : Config) : Word :=
  (match c.xlen with
    | .rv32 => 0x40000000
    | .rv64 => 0x8000000000000000)
    ||| 0x00140100
    ||| (if c.ext.a then 0x1 else 0) ||| (if c.ext.c then 0x4 else 0) ||| (if c.ext.d then 0x8 else 0)
    ||| (if c.ext.f then 0x20 else 0) ||| (if c.ext.m then 0x1000 else 0)

/-- Bits of a register replaced under a mask. -/
def maskedWrite (mask old v : Word) : Word := (old &&& ~~~mask) ||| (v &&& mask)

/-- What a write of mepc or sepc stores (R65). -/
def epcMask (c : Config) (v : Word) : Word := if c.ext.c then v &&& ~~~1 else v &&& ~~~3

/-- MODE of a satp value (R69). -/
def satpMode (xl : Xlen) (v : Word) : Nat :=
  match xl with
  | .rv32 => (v.extractLsb' 31 1).toNat
  | .rv64 => (v.extractLsb' 60 4).toNat

/-- MODE and PPN of a satp value, ASID 0 (R69). -/
def satpStored (xl : Xlen) (v : Word) : Word :=
  match xl with
  | .rv32 => v &&& 0x803FFFFF
  | .rv64 => v &&& 0xF0000FFFFFFFFFFF

/-- The half of a 64-bit counter a CSR shows: all of it at XLEN = 64, its low word at XLEN = 32. -/
def counterLow (xl : Xlen) (c : Word) : Word := xl.norm c

/-- The high word of a 64-bit counter, the `h` registers (XLEN = 32). -/
def counterHigh (c : Word) : Word := c >>> 32

/-- A counter after a write of its low part. -/
def setCounterLow (xl : Xlen) (c v : Word) : Word :=
  match xl with
  | .rv32 => c.extractLsb' 32 32 ++ v.setWidth 32
  | .rv64 => v

/-- A counter after a write of its high word. -/
def setCounterHigh (c v : Word) : Word := v.setWidth 32 ++ c.setWidth 32

/-! ## csr_read and csr_write (R638) -/

/-- `csr_read`, XLEN bits. -/
def State.readCsr (s : State) (r : CsrName) : Word :=
  let xl := s.cfg.xlen
  xl.norm (match r with
    | .fflags => (s.csr.fcsr.extractLsb' 0 5).setWidth 64
    | .frm => (s.csr.fcsr.extractLsb' 5 3).setWidth 64
    | .fcsr => s.csr.fcsr.setWidth 64
    | .cycle => counterLow xl s.mcycle
    | .time => counterLow xl s.timeIn
    | .instret => counterLow xl s.minstret
    | .cycleh => counterHigh s.mcycle
    | .timeh => counterHigh s.timeIn
    | .instreth => counterHigh s.minstret
    | .sstatus => mstatusRead s.cfg s.csr.mstatus &&& sstatusMask xl
    | .sie => s.csr.mie &&& s.csr.mideleg
    | .stvec => s.csr.stvec
    | .scounteren => s.csr.scounteren.setWidth 64
    | .sscratch => s.csr.sscratch
    | .sepc => s.csr.sepc
    | .scause => s.csr.scause
    | .stval => s.csr.stval
    | .sip => s.csr.mip &&& s.csr.mideleg
    | .satp => s.csr.satp
    | .mvendorid => s.cfg.mvendorid
    | .marchid => s.cfg.marchid
    | .mimpid => s.cfg.mimpid
    | .mhartid => s.hartid
    | .mstatus => mstatusRead s.cfg s.csr.mstatus
    | .misa => misaValue s.cfg
    | .medeleg => s.csr.medeleg
    | .mideleg => s.csr.mideleg
    | .mie => s.csr.mie
    | .mtvec => s.csr.mtvec
    | .mcounteren => s.csr.mcounteren.setWidth 64
    | .mscratch => s.csr.mscratch
    | .mepc => s.csr.mepc
    | .mcause => s.csr.mcause
    | .mtval => s.csr.mtval
    | .mip => s.csr.mip
    | .mcycle => counterLow xl s.mcycle
    | .minstret => counterLow xl s.minstret
    | .mcycleh => counterHigh s.mcycle
    | .minstreth => counterHigh s.minstret)

/-- `csr_write` with what else it does (R638, R645): fflags, frm and fcsr make FS dirty, an accepted satp empties the caches. -/
def State.writeCsr (s : State) (r : CsrName) (value : Word) : State :=
  let v := s.cfg.xlen.norm value
  match r with
  | .fflags => ({ s with csr := { s.csr with fcsr := s.csr.fcsr.extractLsb' 5 3 ++ v.setWidth 5 } }).dirtyFS
  | .frm => ({ s with csr := { s.csr with fcsr := v.setWidth 3 ++ s.csr.fcsr.extractLsb' 0 5 } }).dirtyFS
  | .fcsr => ({ s with csr := { s.csr with fcsr := v.setWidth 8 } }).dirtyFS
  | .sstatus => { s with csr := { s.csr with mstatus := mstatusWrite s.cfg 0x000C6722 s.csr.mstatus v } }
  | .sie => { s with csr := { s.csr with mie := maskedWrite (s.csr.mideleg &&& 0x222) s.csr.mie v } }
  | .stvec => { s with csr := { s.csr with stvec := v &&& ~~~2 } }
  | .scounteren => { s with csr := { s.csr with scounteren := v.setWidth 32 &&& 7 } }
  | .sscratch => { s with csr := { s.csr with sscratch := v } }
  | .sepc => { s with csr := { s.csr with sepc := epcMask s.cfg v } }
  | .scause => { s with csr := { s.csr with scause := v } }
  | .stval => { s with csr := { s.csr with stval := v } }
  | .sip => { s with csr := { s.csr with mip := maskedWrite (s.csr.mideleg &&& 0x002) s.csr.mip v } }
  | .satp =>
    if s.cfg.satpModes.contains (satpMode s.cfg.xlen v) then
      ({ s with csr := { s.csr with satp := satpStored s.cfg.xlen v } }).flushAll
    else s
  | .mstatus => { s with csr := { s.csr with mstatus := mstatusWrite s.cfg 0x007E7FAA s.csr.mstatus v } }
  | .misa => s
  | .medeleg => { s with csr := { s.csr with medeleg := v &&& 0xB3FF } }
  | .mideleg => { s with csr := { s.csr with mideleg := v &&& 0x222 } }
  | .mie => { s with csr := { s.csr with mie := v &&& 0xAAA } }
  | .mtvec => { s with csr := { s.csr with mtvec := v &&& ~~~2 } }
  | .mcounteren => { s with csr := { s.csr with mcounteren := v.setWidth 32 &&& 7 } }
  | .mscratch => { s with csr := { s.csr with mscratch := v } }
  | .mepc => { s with csr := { s.csr with mepc := epcMask s.cfg v } }
  | .mcause => { s with csr := { s.csr with mcause := v } }
  | .mtval => { s with csr := { s.csr with mtval := v } }
  | .mip => { s with csr := { s.csr with mip := maskedWrite 0x222 s.csr.mip v } }
  | .mcycle => { s with mcycle := setCounterLow s.cfg.xlen s.mcycle v }
  | .minstret => { s with minstret := setCounterLow s.cfg.xlen s.minstret v }
  | .mcycleh => { s with mcycle := setCounterHigh s.mcycle v }
  | .minstreth => { s with minstret := setCounterHigh s.minstret v }
  | .cycle | .time | .instret | .cycleh | .timeh | .instreth | .mvendorid | .marchid | .mimpid | .mhartid => s

/-- The write sets the counter `mcycle`, so this instruction's retire does not advance it (10_state.md R44). -/
def CsrName.setsCycle : CsrName → Bool
  | .mcycle | .mcycleh => true
  | _ => false

/-- The write sets the counter `minstret`. -/
def CsrName.setsInstret : CsrName → Bool
  | .minstret | .minstreth => true
  | _ => false

/-! ## The shutdown predicate (80_interfaces.md R815; log 13) -/

/-- The hart's state as `SHUTDOWN_HOOK` may read it: all but the translation caches, which are hidden state of the memory layer that the engine
never reads and that never change what a step does (10_state.md R47, 70_reset_and_hazards.md R791; DEDUCED, log 34). -/
def Hart.withoutCaches (h : Hart) : Hart := { h with tlbCode := [], tlbData := [], tlbStore := [] }

/-- `SHUTDOWN_HOOK` at a state. A CSR is read as csr_read reads it; a number that names no register satisfies no equation. -/
def evalHook (s : State) : HookPred → Bool
  | .never => false
  | .always => true
  | .unknown k => Config.unknownHook k s.toHart.withoutCaches
  | .xEq r v => s.getX r == v
  | .fEq r v => s.getF r == v
  | .vEq r v => s.v[r.toNat]'r.isLt == v
  | .resValid => s.resValid
  | .resAddrEq v => s.resAddr == v
  | .resSeqEq n => s.resSeq == n
  | .pcEq v => s.pc == v
  | .privEq p => s.priv == p
  | .csrEq n v =>
    match lookupCsr s.cfg n with
    | some r => s.readCsr r == v
    | none => false
  | .and p q => evalHook s p && evalHook s q
  | .or p q => evalHook s p || evalHook s q
  | .not p => !evalHook s p

end Sys2Proof.Machine
end

