-- ==== Sys2Proof/Machine/Ops.lean ====
section
/-! DEFINITION. The shared operations of a step: retire (60_exceptions.md R701), raise and trap entry (R702, R719, R720), the returns
from a trap (47_system_csr.md R640, R641), interrupt selection (R712), the platform's inputs (80_interfaces.md R816), and the control
transfers with their classes (R813). -/

namespace Sys2Proof.Machine

/-- The outcome type of every meaning. -/
abbrev StepResult := Host.Outcome State Fault Refusal

/-! ## Retire (R701) -/

/-- pc, the class and the next pc of a retired instruction. -/
def State.goTo (s : State) (next : Word) (cls : TransferClass) (regs : Option (RegIdx × RegIdx)) : State :=
  { s with
    pc := s.cfg.xlen.norm next
    out := { s.out with
      outcome := .retired
      cls := cls
      jumpRegs := regs
      nextPc := s.cfg.xlen.norm next } }

/-- `mcycle` and `minstret` advance by one, each only where its flag says so (10_state.md R44). -/
def State.count (s : State) (cycle instret : Bool) : State :=
  { s with
    mcycle := if cycle then s.mcycle + 1 else s.mcycle
    minstret := if instret then s.minstret + 1 else s.minstret }

/-- Retire an instruction that transfers control. -/
def retireTo (s : State) (next : Word) (cls : TransferClass) (regs : Option (RegIdx × RegIdx)) : StepResult :=
  .next ((s.goTo next cls regs).count true true)

/-- Retire an instruction of `len` bytes that does not transfer control: pc advances by `len` (10_state.md R34). -/
def retire (s : State) (len : Word) : StepResult := retireTo s (s.pc + len) .sequential none

/-- `x[rd] <- v; retire`. -/
def retireX (s : State) (len : Word) (rd : RegIdx) (v : Word) : StepResult := retire (s.setX rd v) len

/-- `f[rd] <- v; flags accrue; retire`. -/
def retireF (s : State) (len : Word) (rd : RegIdx) (v : Word) (fl : FFlags) : StepResult :=
  retire ((s.setF rd v).accrue fl) len

/-- `x[rd] <- v; flags accrue; retire`. -/
def retireXF (s : State) (len : Word) (rd : RegIdx) (v : Word) (fl : FFlags) : StepResult :=
  retire ((s.setX rd v).accrue fl) len

/-! ## Trap entry (R719, R720) -/

/-- The level a trap goes to (R719): S when it occurs below M and its delegation bit is set, otherwise M. -/
def trapTarget (s : State) (interrupt : Bool) (code : Nat) : Priv :=
  if s.priv != .M && (if interrupt then getBit code s.csr.mideleg else getBit code s.csr.medeleg) then .S else .M

/-- The cause register's value: the Interrupt bit XLEN-1 and the code (10_state.md R66). -/
def causeWord (xl : Xlen) (interrupt : Bool) (code : Nat) : Word :=
  let c := BitVec.ofNat 64 code
  if interrupt then
    (match xl with
      | .rv32 => 0x80000000 ||| c
      | .rv64 => 0x8000000000000000 ||| c)
  else c

/-- Where a trap-vector register sends a trap (10_state.md R63, R720): the base, or base + 4·code for an interrupt in vectored mode. -/
def vectorTarget (tvec : Word) (interrupt : Bool) (code : Nat) : Word :=
  let base := tvec &&& ~~~3
  if interrupt && getBit 0 tvec then base + BitVec.ofNat 64 (4 * code) else base

/-- What mstatus becomes on entry to M: MPIE <- MIE, MIE <- 0, MPP <- priv. -/
def enterM (p : Priv) (m : Word) : Word :=
  setField2 posMPP (privBits p) (setBit posMIE false (setBit posMPIE (getBit posMIE m) m))

/-- What mstatus becomes on entry to S: SPIE <- SIE, SIE <- 0, SPP <- (priv = S). -/
def enterS (p : Priv) (m : Word) : Word :=
  setBit posSPP (p == .S) (setBit posSIE false (setBit posSPIE (getBit posSIE m) m))

/-- The registers trap entry writes, with epc taken from `s.pc` (R720). -/
def trapRegisters (s : State) (interrupt : Bool) (code : Nat) (tval : Word) : State :=
  match trapTarget s interrupt code with
  | .S =>
    { s with
      csr := { s.csr with
        sepc := s.cfg.xlen.norm (s.pc &&& ~~~1)
        scause := causeWord s.cfg.xlen interrupt code
        stval := s.cfg.xlen.norm tval
        mstatus := enterS s.priv s.csr.mstatus }
      priv := .S
      pc := s.cfg.xlen.norm (vectorTarget s.csr.stvec interrupt code) }
  | _ =>
    { s with
      csr := { s.csr with
        mepc := s.cfg.xlen.norm (s.pc &&& ~~~1)
        mcause := causeWord s.cfg.xlen interrupt code
        mtval := s.cfg.xlen.norm tval
        mstatus := enterM s.priv s.csr.mstatus }
      priv := .M
      pc := s.cfg.xlen.norm (vectorTarget s.csr.mtvec interrupt code) }

/-- `trap_entry` (R720): the trap registers and pc, then both pending fields back to -1; the record of a Trapped step (R814). -/
def trapEntry (s : State) (interrupt : Bool) (code : Nat) (tval : Word) : State :=
  let t := trapRegisters s interrupt code tval
  { t with
    pendingException := -1
    pendingInterrupt := -1
    out := { t.out with
      outcome := .trapped
      written := .none
      cls := .trap
      jumpRegs := none
      nextPc := t.pc
      trap := some (interrupt, code, s.cfg.xlen.norm tval) } }

/-- `raise E(t)` (R702): the pending fields are set and the trap is taken in the same step. The caller passes the state before any
register write, with what memory accesses have already done (R703). `pendingTval` keeps the value (DEDUCED, log 12). -/
def raise (s : State) (code : Nat) (tval : Word) : StepResult :=
  .next (trapEntry { s with pendingException := code, pendingTval := s.cfg.xlen.norm tval } false code tval)

/-- IllegalInstruction of a decoded instruction: cause 2, tval its word zero-extended (R705, R706). -/
def raiseIllegal (s : State) (i : Instr) : StepResult := raise s 2 (i.tval s.cfg.xlen)

/-- Continue with the value of a memory access, or raise what it raised. -/
def MemResult.andThen {α : Type} (r : MemResult α) (k : α → State → StepResult) : StepResult :=
  match r with
  | .ok v s => k v s
  | .raise c t s => Sys2Proof.Machine.raise s c t

/-! ## Interrupts (R710 to R713) -/

/-- Pending and enabled sources (R712). -/
def State.pendEnabled (s : State) : Word := s.csr.mip &&& s.csr.mie

/-- The first source of a set in priority order 11, 3, 7, 9, 1, 5 (R712). -/
def firstOf (set : Word) : Option Nat := [11, 3, 7, 9, 1, 5].find? fun i => getBit i set

/-- The sets `m_set` and `s_set` of R712. -/
def State.machineSet (s : State) : Word :=
  if s.priv != .M || getBit posMIE s.csr.mstatus then s.pendEnabled &&& ~~~s.csr.mideleg else 0
def State.supervisorSet (s : State) : Word :=
  if s.priv == .U || (s.priv == .S && getBit posSIE s.csr.mstatus) then s.pendEnabled &&& s.csr.mideleg else 0

/-- `select_interrupt` (R712): machine-destined interrupts first. -/
def selectInterrupt (s : State) : Option Nat :=
  match firstOf s.machineSet with
  | some i => some i
  | none => firstOf s.supervisorSet

/-- An interrupt taken at a step boundary (R700 line 2). -/
def takeInterrupt (s : State) (i : Nat) : State := trapEntry { s with pendingInterrupt := i } true i 0

/-! ## Returns (R640, R641, R722) -/

/-- What mstatus becomes at MRET: MIE <- MPIE, MPIE <- 1, MPP <- U. -/
def leaveM (m : Word) : Word :=
  setField2 posMPP 0#2 (setBit posMPIE true (setBit posMIE (getBit posMPIE m) m))

/-- What mstatus becomes at SRET: SIE <- SPIE, SPIE <- 1, SPP <- 0. -/
def leaveS (m : Word) : Word :=
  setBit posSPP false (setBit posSPIE true (setBit posSIE (getBit posSPIE m) m))

/-- The registers MRET writes; MPRV is kept. -/
def returnM (s : State) : State :=
  { s with csr := { s.csr with mstatus := leaveM s.csr.mstatus }, priv := fieldMPP s.csr.mstatus }

/-- The registers SRET writes; MPRV is kept. -/
def returnS (s : State) : State :=
  { s with
    csr := { s.csr with mstatus := leaveS s.csr.mstatus }
    priv := if getBit posSPP s.csr.mstatus then .S else .U }

/-! ## Control transfer (40_base_integer.md R264, 80_interfaces.md R813) -/

/-- The link registers x1 and x5. -/
def isLink (r : RegIdx) : Bool := r == 1#5 || r == 5#5

/-- The class of JAL by its rd. -/
def jalClass (rd : RegIdx) : TransferClass := if isLink rd then .call else .jump

/-- The class of JALR by the hint table of R813. -/
def jalrClass (rd rs1 : RegIdx) : TransferClass :=
  if isLink rd then
    (if isLink rs1 && rd != rs1 then .retAndCall else .call)
  else if isLink rs1 then .ret
  else .jump

/-- `x[rd] <- pc + len; pc <- pc + offset`. The record's rs1 of a jump that has none is x0 (80_interfaces.md R813 is silent there: DESIGN
CHOICE, log 29). -/
def jumpAndLink (s : State) (len : Word) (rd : RegIdx) (offset : Word) : StepResult :=
  retireTo (s.setX rd (s.pc + len)) (s.pc + offset) (jalClass rd) (some (rd, 0#5))

/-- `t <- (x[rs1] + offset) & ~1; x[rd] <- pc + len; pc <- t`. -/
def jumpAndLinkReg (s : State) (len : Word) (rd rs1 : RegIdx) (offset : Word) : StepResult :=
  retireTo (s.setX rd (s.pc + len)) ((s.getX rs1 + offset) &&& ~~~1) (jalrClass rd rs1) (some (rd, rs1))

/-- `if cond then pc <- pc + offset`. -/
def branch (s : State) (len : Word) (cond : Bool) (offset : Word) : StepResult :=
  if cond then retireTo s (s.pc + offset) .branchTaken none
  else retireTo s (s.pc + len) .branchNotTaken none

/-! ## Loads and stores (40_base_integer.md R263) -/

/-- Load n bytes at base + offset, widen, write an x register. -/
def loadX (s : State) (len : Word) (rd rs1 : RegIdx) (offset : Word) (n : Nat) (widen : Word → Word) : StepResult :=
  (memRead s (s.effAddr rs1 offset) n).andThen fun v t => retireX t len rd (widen v)

/-- Store the low n bytes of a value at base + offset. -/
def storeX (s : State) (len : Word) (rs1 : RegIdx) (offset : Word) (n : Nat) (v : Word) : StepResult :=
  (memWrite s (s.effAddr rs1 offset) n v).andThen fun _ t => retire t len

/-! ## Inputs (80_interfaces.md R816, R812; log 9) -/

/-- One hart after an action addressed to it. -/
def Hart.onInput (h : Hart) : Input → Hart
  | .mip id src v => if h.hartid = id then { h with csr := { h.csr with mip := setBit src.bit v h.csr.mip } } else h
  | .cacheFill id kind e =>
    if h.hartid = id then
      (match kind with
        | .code => { h with tlbCode := e :: h.tlbCode }
        | .data => { h with tlbData := e :: h.tlbData }
        | .store => { h with tlbStore := e :: h.tlbStore })
    else h
  | .time _ | .writeRam _ _ | .switchHart _ => h

/-- Change which hart steps: the hart of that identity becomes the active one and the active one is parked in its place. -/
def switchTo (active : Hart) (id : Word) : List Hart → Option (Hart × List Hart)
  | [] => none
  | h :: hs =>
    if h.hartid = id then some (h, active :: hs)
    else match switchTo active id hs with
      | some (g, rest) => some (g, h :: rest)
      | none => none

/-- One action of the world outside. `time_in` never decreases; a write to RAM advances `mem_seq` by one (R161, R816). -/
def applyInput (s : State) (a : Input) : State :=
  let s := { s with toHart := Hart.onInput s.toHart a, others := s.others.map fun h => Hart.onInput h a }
  match a with
  | .time t => if s.timeIn.toNat ≤ t.toNat then { s with timeIn := t } else s
  | .writeRam pa bytes => { s with mem := Memory.writeBytes s.mem pa bytes, memSeq := s.memSeq + 1 }
  | .switchHart id =>
    match switchTo s.toHart id s.others with
    | some (h, rest) => { s with toHart := h, others := rest }
    | none => s
  | .mip _ _ _ | .cacheFill _ _ _ => s

/-- The actions that come before this step, in order. -/
def takeInputs (s : State) : State :=
  match s.inputs with
  | [] => s
  | acts :: rest => acts.foldl applyInput { s with inputs := rest }

/-- The trace record opened for a step: hart, privilege and pc before it (R814). -/
def openReport (s : State) : State :=
  { s with out := { Report.empty with
      hart := s.hartid, priv := s.priv, pc := s.cfg.xlen.norm s.pc, nextPc := s.cfg.xlen.norm s.pc } }

/-- The fetched word noted in the record. -/
def noteInsn (s : State) (n : Insn) : State := { s with out := { s.out with insn := some n } }

/-! ## Power-down (R711) -/

/-- The hart is powered down and nothing wakes it: the step is Idle. -/
def State.asleep (s : State) : Bool := s.powerDown && s.pendEnabled == 0

/-- `power_down <- 0`. -/
def State.wake (s : State) : State := { s with powerDown := false }

/-! ## Words without a row (30_encoding.md R207, R208) -/

/-- A vector encoding the machine refuses: VLEN > 0 and mstatus.VS ≠ 0 (48_vector_custom.md R660). -/
def State.refusesVector (s : State) (n : Insn) : Bool :=
  n.isVector && s.cfg.vlen != 0 && fieldVS s.csr.mstatus != 0#2

/-- IllegalInstruction of a word that selects no row: cause 2, tval the word zero-extended. -/
def raiseUndecoded (s : State) (n : Insn) : StepResult := raise s 2 n.zext

/-! ## Placing an instruction (log 10, log 11) -/

/-- The machine with a word stored, in memory's byte order, where the two parcels of the fetch at pc are read. -/
def placeWord (s : State) (v : BitVec 32) : State :=
  match resolve s.cfg s.mem (s.request .code 2) s.pc 4 with
  | .ok ts => { s with mem := storeTo s.mem (v.setWidth 64) ts }
  | .error _ => s

/-- The XLEN at which a table word is an instruction: this machine's, or 32 for a row that only XLEN = 32 has. -/
def xlenOfWord (c : Config) (n : Insn) : Xlen :=
  match decode c n, decode { c with xlen := .rv32 } n with
  | none, some _ => .rv32
  | _, _ => c.xlen

end Sys2Proof.Machine
end

