-- ==== Sys2Proof/Machine/Atomics.lean ====
section
/-! DEFINITION. Atomic memory instructions (43_atomics.md). One definition per instruction. -/

namespace Sys2Proof.Machine

/-! ## The reservation (R426 to R430) -/

/-- LR of n bytes (R426, R427): alignment first, then the load, then the reservation with the counter as the load left it. -/
def loadReserved (s : State) (rd rs1 : RegIdx) (n : Nat) : StepResult :=
  if aligned s.cfg.xlen (s.getX rs1) n then
    (memRead s (s.getX rs1) n).andThen fun v t =>
      retireX { t with resValid := true, resAddr := s.getX rs1, resSeq := t.memSeq } 4 rd
        (if n = 4 then s.cfg.xlen.sext (v.setWidth 32) else v)
  else raise s 4 (s.getX rs1)

/-- The reservation holds for an address (R428). -/
def State.reserved (s : State) (a : Word) : Bool := s.resValid && s.resAddr == a && s.resSeq == s.memSeq

/-- SC of n bytes (R426, R428): alignment, then the reservation, then on success only the write; any completed SC drops the reservation. -/
def storeConditional (s : State) (rd rs1 : RegIdx) (n : Nat) (v : Word) : StepResult :=
  if aligned s.cfg.xlen (s.getX rs1) n then
    if s.reserved (s.getX rs1) then
      (memWrite s (s.getX rs1) n v).andThen fun _ t => retireX { t with resValid := false } 4 rd 0
    else retireX { s with resValid := false } 4 rd 1
  else raise s 6 (s.getX rs1)

/-! ## Fetch-and-op (R431, R432) -/

/-- An AMO of n bytes (R431): `x[rd] <- sext_XLEN(old)`, memory gets `op(old, x[rs2])`. -/
def fetchAndOp (s : State) (rd rs1 : RegIdx) (n : Nat) (op : BitVec (8 * n) → BitVec (8 * n) → BitVec (8 * n)) (src : Word) :
    StepResult :=
  if aligned s.cfg.xlen (s.getX rs1) n then
    (memAmo s (s.getX rs1) n fun old => (op (old.setWidth (8 * n)) (src.setWidth (8 * n))).setWidth 64).andThen
      fun old t => retireX t 4 rd (s.cfg.xlen.sext (old.setWidth (8 * n)))
  else raise s 6 (s.getX rs1)

/-- The operations of R432 on W bits. -/
def amoSwap (w : Nat) (_old src : BitVec w) : BitVec w := src
def amoAdd (w : Nat) (old src : BitVec w) : BitVec w := old + src
def amoXor (w : Nat) (old src : BitVec w) : BitVec w := old ^^^ src
def amoAnd (w : Nat) (old src : BitVec w) : BitVec w := old &&& src
def amoOr (w : Nat) (old src : BitVec w) : BitVec w := old ||| src
def amoMin (w : Nat) (old src : BitVec w) : BitVec w := if old.toInt < src.toInt then old else src
def amoMax (w : Nat) (old src : BitVec w) : BitVec w := if src.toInt < old.toInt then old else src
def amoMinU (w : Nat) (old src : BitVec w) : BitVec w := if old.toNat < src.toNat then old else src
def amoMaxU (w : Nat) (old src : BitVec w) : BitVec w := if src.toNat < old.toNat then old else src

/-- LR.W load reserved (R433). -/
def execLrW (rd rs1 : RegIdx) (_aq _rl : BitVec 1) (s : State) : StepResult := loadReserved s rd rs1 4

/-- SC.W store conditional (R434). -/
def execScW (rd rs1 rs2 : RegIdx) (_aq _rl : BitVec 1) (s : State) : StepResult :=
  storeConditional s rd rs1 4 (s.getX rs2)

/-- AMOSWAP.W atomic swap (R435). -/
def execAmoswapW (rd rs1 rs2 : RegIdx) (_aq _rl : BitVec 1) (s : State) : StepResult :=
  fetchAndOp s rd rs1 4 (amoSwap 32) (s.getX rs2)

/-- AMOADD.W atomic add (R436). -/
def execAmoaddW (rd rs1 rs2 : RegIdx) (_aq _rl : BitVec 1) (s : State) : StepResult :=
  fetchAndOp s rd rs1 4 (amoAdd 32) (s.getX rs2)

/-- AMOXOR.W atomic exclusive or (R437). -/
def execAmoxorW (rd rs1 rs2 : RegIdx) (_aq _rl : BitVec 1) (s : State) : StepResult :=
  fetchAndOp s rd rs1 4 (amoXor 32) (s.getX rs2)

/-- AMOAND.W atomic and (R438). -/
def execAmoandW (rd rs1 rs2 : RegIdx) (_aq _rl : BitVec 1) (s : State) : StepResult :=
  fetchAndOp s rd rs1 4 (amoAnd 32) (s.getX rs2)

/-- AMOOR.W atomic or (R439). -/
def execAmoorW (rd rs1 rs2 : RegIdx) (_aq _rl : BitVec 1) (s : State) : StepResult :=
  fetchAndOp s rd rs1 4 (amoOr 32) (s.getX rs2)

/-- AMOMIN.W atomic minimum, signed (R440). -/
def execAmominW (rd rs1 rs2 : RegIdx) (_aq _rl : BitVec 1) (s : State) : StepResult :=
  fetchAndOp s rd rs1 4 (amoMin 32) (s.getX rs2)

/-- AMOMAX.W atomic maximum, signed (R441). -/
def execAmomaxW (rd rs1 rs2 : RegIdx) (_aq _rl : BitVec 1) (s : State) : StepResult :=
  fetchAndOp s rd rs1 4 (amoMax 32) (s.getX rs2)

/-- AMOMINU.W atomic minimum, unsigned (R442). -/
def execAmominuW (rd rs1 rs2 : RegIdx) (_aq _rl : BitVec 1) (s : State) : StepResult :=
  fetchAndOp s rd rs1 4 (amoMinU 32) (s.getX rs2)

/-- AMOMAXU.W atomic maximum, unsigned (R443). -/
def execAmomaxuW (rd rs1 rs2 : RegIdx) (_aq _rl : BitVec 1) (s : State) : StepResult :=
  fetchAndOp s rd rs1 4 (amoMaxU 32) (s.getX rs2)

/-- LR.D load reserved (R444). -/
def execLrD (rd rs1 : RegIdx) (_aq _rl : BitVec 1) (s : State) : StepResult := loadReserved s rd rs1 8

/-- SC.D store conditional (R445). -/
def execScD (rd rs1 rs2 : RegIdx) (_aq _rl : BitVec 1) (s : State) : StepResult :=
  storeConditional s rd rs1 8 (s.getX rs2)

/-- AMOSWAP.D atomic swap (R446). -/
def execAmoswapD (rd rs1 rs2 : RegIdx) (_aq _rl : BitVec 1) (s : State) : StepResult :=
  fetchAndOp s rd rs1 8 (amoSwap 64) (s.getX rs2)

/-- AMOADD.D atomic add (R447). -/
def execAmoaddD (rd rs1 rs2 : RegIdx) (_aq _rl : BitVec 1) (s : State) : StepResult :=
  fetchAndOp s rd rs1 8 (amoAdd 64) (s.getX rs2)

/-- AMOXOR.D atomic exclusive or (R448). -/
def execAmoxorD (rd rs1 rs2 : RegIdx) (_aq _rl : BitVec 1) (s : State) : StepResult :=
  fetchAndOp s rd rs1 8 (amoXor 64) (s.getX rs2)

/-- AMOAND.D atomic and (R449). -/
def execAmoandD (rd rs1 rs2 : RegIdx) (_aq _rl : BitVec 1) (s : State) : StepResult :=
  fetchAndOp s rd rs1 8 (amoAnd 64) (s.getX rs2)

/-- AMOOR.D atomic or (R450). -/
def execAmoorD (rd rs1 rs2 : RegIdx) (_aq _rl : BitVec 1) (s : State) : StepResult :=
  fetchAndOp s rd rs1 8 (amoOr 64) (s.getX rs2)

/-- AMOMIN.D atomic minimum, signed (R451). -/
def execAmominD (rd rs1 rs2 : RegIdx) (_aq _rl : BitVec 1) (s : State) : StepResult :=
  fetchAndOp s rd rs1 8 (amoMin 64) (s.getX rs2)

/-- AMOMAX.D atomic maximum, signed (R452). -/
def execAmomaxD (rd rs1 rs2 : RegIdx) (_aq _rl : BitVec 1) (s : State) : StepResult :=
  fetchAndOp s rd rs1 8 (amoMax 64) (s.getX rs2)

/-- AMOMINU.D atomic minimum, unsigned (R453). -/
def execAmominuD (rd rs1 rs2 : RegIdx) (_aq _rl : BitVec 1) (s : State) : StepResult :=
  fetchAndOp s rd rs1 8 (amoMinU 64) (s.getX rs2)

/-- AMOMAXU.D atomic maximum, unsigned (R454). -/
def execAmomaxuD (rd rs1 rs2 : RegIdx) (_aq _rl : BitVec 1) (s : State) : StepResult :=
  fetchAndOp s rd rs1 8 (amoMaxU 64) (s.getX rs2)

end Sys2Proof.Machine
end

