-- ==== Sys2Proof/Machine/Arith.lean ====
section
/-! DEFINITION. The arithmetic helpers (49_arith_helpers.md; 46_bitmanip.md R571), each "the same algorithm instantiated" at widths 32 and
64 (R670), and the structures of R674 and R676 to R678 as definitions of their own, for the refinement statements of R679. -/

namespace Sys2Proof.Machine

/-! ## Division (R673) -/

/-- `div_N`: rounded toward zero; all ones by zero; MIN by -1 is MIN. -/
def divS (w : Nat) (a b : BitVec w) : BitVec w :=
  if b = 0#w then BitVec.allOnes w else BitVec.ofInt w (Int.tdiv a.toInt b.toInt)

/-- `divu_N`. -/
def divU (w : Nat) (a b : BitVec w) : BitVec w :=
  if b = 0#w then BitVec.allOnes w else BitVec.ofNat w (a.toNat / b.toNat)

/-- `rem_N`: the sign of the dividend; the dividend by zero; 0 for MIN by -1. -/
def remS (w : Nat) (a b : BitVec w) : BitVec w :=
  if b = 0#w then a else BitVec.ofInt w (Int.tmod a.toInt b.toInt)

/-- `remu_N`. -/
def remU (w : Nat) (a b : BitVec w) : BitVec w :=
  if b = 0#w then a else BitVec.ofNat w (a.toNat % b.toNat)

/-! ## Multiplication (42_muldiv.md R401, R674) -/

/-- The low half of the product. -/
def mulLow (w : Nat) (a b : BitVec w) : BitVec w := BitVec.ofInt w (a.toInt * b.toInt)

/-- `mulh_N`: bits 2N-1:N of the exact signed product. -/
def mulhSS (w : Nat) (a b : BitVec w) : BitVec w := BitVec.ofInt w ((a.toInt * b.toInt) / (2 ^ w : Nat))

/-- `mulhsu_N`: the first operand signed, the second unsigned. -/
def mulhSU (w : Nat) (a b : BitVec w) : BitVec w := BitVec.ofInt w ((a.toInt * b.toNat) / (2 ^ w : Nat))

/-- `mulhu_N`. -/
def mulhUU (w : Nat) (a b : BitVec w) : BitVec w := BitVec.ofNat w ((a.toNat * b.toNat) / 2 ^ w)

/-! ## Shifts and rotates (R672, R571); the amount is already below the width -/

def shiftL (n : Nat) (w : Nat) (a : BitVec w) : BitVec w := a <<< n
def shiftRL (n : Nat) (w : Nat) (a : BitVec w) : BitVec w := a >>> n
def shiftRA (n : Nat) (w : Nat) (a : BitVec w) : BitVec w := a.sshiftRight n

/-- `rol(v, n)`: v for n = 0. -/
def rotL (n : Nat) (w : Nat) (a : BitVec w) : BitVec w := if n = 0 then a else a <<< n ||| a >>> (w - n)

/-- `ror(v, n)`: v for n = 0. -/
def rotR (n : Nat) (w : Nat) (a : BitVec w) : BitVec w := if n = 0 then a else a >>> n ||| a <<< (w - n)

/-! ## Bit counts (R571) -/

/-- The number of consecutive positions, from the first of the list on, whose bit is 0. -/
def zeroRun {w : Nat} (a : BitVec w) : List Nat → Nat
  | [] => 0
  | i :: is => if a.getLsbD i then 0 else zeroRun a is + 1

/-- `clz`: 0 bits above the highest 1 bit, the width for 0. -/
def countLeadingZeros (w : Nat) (a : BitVec w) : BitVec w := BitVec.ofNat w (zeroRun a (List.range w).reverse)

/-- `ctz`: 0 bits below the lowest 1 bit, the width for 0. -/
def countTrailingZeros (w : Nat) (a : BitVec w) : BitVec w := BitVec.ofNat w (zeroRun a (List.range w))

/-- `cpop`: the number of 1 bits. -/
def popCount (w : Nat) (a : BitVec w) : BitVec w :=
  BitVec.ofNat w ((List.range w).filter fun i => a.getLsbD i).length

/-! ## Carry-less multiplication (R571) -/

/-- The 2W-bit exclusive-or over all i with `b[i] = 1` of `a << i`. -/
def clmulFull (w : Nat) (a b : BitVec w) : BitVec (2 * w) :=
  (List.range w).foldl (fun acc i => if b.getLsbD i then acc ^^^ (a.setWidth (2 * w) <<< i) else acc) 0#(2 * w)

def clmulLow (w : Nat) (a b : BitVec w) : BitVec w := (clmulFull w a b).setWidth w
def clmulHigh (w : Nat) (a b : BitVec w) : BitVec w := (clmulFull w a b).extractLsb' w w
def clmulRev (w : Nat) (a b : BitVec w) : BitVec w := (clmulFull w a b).extractLsb' (w - 1) w

/-! ## Bytes (R571) -/

/-- Byte `i` of a value. -/
def byteOf {w : Nat} (a : BitVec w) (i : Nat) : Byte := a.extractLsb' (8 * i) 8

/-- A value from its bytes, the first one lowest. -/
def ofBytes (w : Nat) : List Byte → BitVec w
  | [] => 0#w
  | b :: bs => ofBytes w bs <<< 8 ||| b.setWidth w

/-- `orc_b`: each nonzero byte becomes 0xFF. -/
def orcB (w : Nat) (a : BitVec w) : BitVec w :=
  ofBytes w ((List.range (w / 8)).map fun i => if byteOf a i = 0#8 then 0x00#8 else 0xFF#8)

/-- `rev8`: the bytes in reverse order. -/
def rev8 (w : Nat) (a : BitVec w) : BitVec w := ofBytes w ((List.range (w / 8)).reverse.map fun i => byteOf a i)

/-! ## Single bits (46_bitmanip.md R607 to R614) -/

def bitClear (n : Nat) (w : Nat) (a : BitVec w) : BitVec w := a &&& ~~~(1#w <<< n)
def bitExtract (n : Nat) (w : Nat) (a : BitVec w) : BitVec w := (a >>> n) &&& 1#w
def bitInvert (n : Nat) (w : Nat) (a : BitVec w) : BitVec w := a ^^^ (1#w <<< n)
def bitSet (n : Nat) (w : Nat) (a : BitVec w) : BitVec w := a ||| (1#w <<< n)

/-! ## The half-word decomposition of multiply-high (R674) -/

/-- The two halves `hi` and `lo` R674 computes from four partial products, at width 2h. -/
def halfwordMul (h : Nat) (a b : BitVec (2 * h)) : BitVec (2 * h) × BitVec (2 * h) :=
  let m : BitVec (2 * h) := BitVec.ofNat (2 * h) (2 ^ h - 1)
  let a0 := a &&& m
  let a1 := a >>> h
  let b0 := b &&& m
  let b1 := b >>> h
  let p00 := a0 * b0
  let p01 := a0 * b1
  let p10 := a1 * b0
  let p11 := a1 * b1
  let mid := (p00 >>> h) + (p01 &&& m) + (p10 &&& m)
  (p11 + (p01 >>> h) + (p10 >>> h) + (mid >>> h), (mid <<< h) ||| (p00 &&& m))

/-- MULH from the unsigned halves (R674). -/
def halfwordMulh (h : Nat) (a b : BitVec (2 * h)) : BitVec (2 * h) :=
  (halfwordMul h a b).1 - (if a.msb then b else 0) - (if b.msb then a else 0)

/-- MULHSU from the unsigned halves (R674). -/
def halfwordMulhsu (h : Nat) (a b : BitVec (2 * h)) : BitVec (2 * h) :=
  (halfwordMul h a b).1 - (if a.msb then b else 0)

/-! ## Carry lookahead (R676) -/

/-- The carry into position `i`: `c_(i+1) = g_i | (p_i & c_i)`. -/
def rippleCarry {w : Nat} (a b : BitVec w) (c0 : Bool) : Nat → Bool
  | 0 => c0
  | i + 1 =>
    (a.getLsbD i && b.getLsbD i) || ((a.getLsbD i != b.getLsbD i) && rippleCarry a b c0 i)

/-- The group generate and propagate signals of `k` positions from `lo` on. -/
def groupGP {w : Nat} (a b : BitVec w) (lo : Nat) : Nat → Bool × Bool
  | 0 => (false, true)
  | k + 1 =>
    let gp := groupGP a b lo k
    let g := a.getLsbD (lo + k) && b.getLsbD (lo + k)
    let p := a.getLsbD (lo + k) != b.getLsbD (lo + k)
    (g || (p && gp.1), p && gp.2)

/-- The carry out of a group: `c_k = G | (P & c_0)`. -/
def groupCarry {w : Nat} (a b : BitVec w) (lo k : Nat) (c : Bool) : Bool :=
  (groupGP a b lo k).1 || ((groupGP a b lo k).2 && c)

/-- The sum bits `s_i = p_i ^ c_i`, low `n` positions, as a number. -/
def sumBits {w : Nat} (a b : BitVec w) (c0 : Bool) : Nat → Nat
  | 0 => 0
  | n + 1 =>
    sumBits a b c0 n + (if (a.getLsbD n != b.getLsbD n) != rippleCarry a b c0 n then 2 ^ n else 0)

/-! ## Booth recoding, radix 4 (R677) -/

/-- A bit of the multiplier as an integer; position 0 here stands for `b_(-1) = 0`. -/
def boothBit {w : Nat} (b : BitVec w) : Nat → Int
  | 0 => 0
  | i + 1 => if b.getLsbD i then 1 else 0

/-- The digit `d_j = -2·b_(2j+1) + b_(2j) + b_(2j-1)`. -/
def boothDigit {w : Nat} (b : BitVec w) (j : Nat) : Int :=
  -2 * boothBit b (2 * j + 2) + boothBit b (2 * j + 1) + boothBit b (2 * j)

/-- The sum of the first `n` partial products `d_j · A · 4^j`. -/
def boothSum {w : Nat} (b : BitVec w) (x : Int) : Nat → Int
  | 0 => 0
  | n + 1 => boothSum b x n + boothDigit b n * x * (4 : Int) ^ n

/-! ## Wallace reduction (R678) -/

/-- A 3:2 compressor. -/
def compress {w : Nat} (x y z : BitVec w) : BitVec w × BitVec w :=
  (x ^^^ y ^^^ z, ((x &&& y) ||| (x &&& z) ||| (y &&& z)) <<< 1)

/-- One layer: the vectors in groups of three, each group compressed to two. -/
def compressLayer {w : Nat} : List (BitVec w) → List (BitVec w)
  | x :: y :: z :: rest => (compress x y z).1 :: (compress x y z).2 :: compressLayer rest
  | short => short

/-- `n` layers. -/
def wallaceLayers {w : Nat} : Nat → List (BitVec w) → List (BitVec w)
  | 0, vs => vs
  | n + 1, vs => wallaceLayers n (compressLayer vs)

/-- The adder of R676 on the two vectors that remain. -/
def finalAdd {w : Nat} : List (BitVec w) → BitVec w
  | x :: y :: _ => BitVec.ofNat w (sumBits x y false w)
  | [x] => x
  | [] => 0#w

/-- The tree: layers until at most two vectors remain, then the adder. -/
def wallaceTree {w : Nat} (vs : List (BitVec w)) : BitVec w := finalAdd (wallaceLayers vs.length vs)

/-- An operand as an integer, and at width 2N, with the signedness it is given. -/
def operandInt {w : Nat} (signed : Bool) (a : BitVec w) : Int := if signed then a.toInt else a.toNat
def operandWide {w : Nat} (signed : Bool) (a : BitVec w) : BitVec (2 * w) :=
  if signed then a.signExtend (2 * w) else a.setWidth (2 * w)

/-- The plain partial products `a · b_i · 2^i` at width 2N; the top one counts negatively when `b` is signed. -/
def plainProducts (w : Nat) (signedA signedB : Bool) (a b : BitVec w) : List (BitVec (2 * w)) :=
  (List.range w).map fun i =>
    let p := if b.getLsbD i then operandWide signedA a <<< i else 0#(2 * w)
    if signedB && i + 1 == w then -p else p

/-- The partial products `d_j · A · 4^j` of R677 at width 2N, one more for an unsigned multiplier. -/
def boothProducts (h : Nat) (signedA signedB : Bool) (a b : BitVec (2 * h)) : List (BitVec (2 * (2 * h))) :=
  (List.range (if signedB then h else h + 1)).map fun j =>
    BitVec.ofInt (2 * (2 * h)) (boothDigit b j * operandInt signedA a * (4 : Int) ^ j)

end Sys2Proof.Machine
end

