-- ==== Sys2Proof/Machine/BaseInteger.lean ====
section
/-! DEFINITION. The base integer instructions, Zifencei, ECALL and EBREAK (40_base_integer.md). One definition per instruction. -/

namespace Sys2Proof.Machine

/-- The ECALL the shutdown predicate holds of (R304; 80_interfaces.md R815): nothing changes but the terminate signal and the record. -/
def terminated (s : State) : State := { s with terminate := true, out := { s.out with outcome := .idle } }

/-- LUI load upper immediate (R265). -/
def execLui (rd : RegIdx) (imm : BitVec 20) (s : State) : StepResult := retireX s 4 rd (s.cfg.xlen.immS 12 imm)

/-- AUIPC add upper immediate to pc (R266). -/
def execAuipc (rd : RegIdx) (imm : BitVec 20) (s : State) : StepResult := retireX s 4 rd (s.pc + s.cfg.xlen.immS 12 imm)

/-- JAL jump and link (R267). -/
def execJal (rd : RegIdx) (imm : BitVec 20) (s : State) : StepResult := jumpAndLink s 4 rd (s.cfg.xlen.immS 1 imm)

/-- JALR jump and link register (R268). -/
def execJalr (rd rs1 : RegIdx) (imm : BitVec 12) (s : State) : StepResult :=
  jumpAndLinkReg s 4 rd rs1 (s.cfg.xlen.immS 0 imm)

/-- BEQ branch if equal (R269). -/
def execBeq (rs1 rs2 : RegIdx) (imm : BitVec 12) (s : State) : StepResult :=
  branch s 4 (s.getX rs1 == s.getX rs2) (s.cfg.xlen.immS 1 imm)

/-- BNE branch if not equal (R270). -/
def execBne (rs1 rs2 : RegIdx) (imm : BitVec 12) (s : State) : StepResult :=
  branch s 4 (s.getX rs1 != s.getX rs2) (s.cfg.xlen.immS 1 imm)

/-- BLT branch if less than, signed (R271). -/
def execBlt (rs1 rs2 : RegIdx) (imm : BitVec 12) (s : State) : StepResult :=
  branch s 4 (s.cfg.xlen.toInt (s.getX rs1) < s.cfg.xlen.toInt (s.getX rs2)) (s.cfg.xlen.immS 1 imm)

/-- BGE branch if greater or equal, signed (R272). -/
def execBge (rs1 rs2 : RegIdx) (imm : BitVec 12) (s : State) : StepResult :=
  branch s 4 (s.cfg.xlen.toInt (s.getX rs2) ≤ s.cfg.xlen.toInt (s.getX rs1)) (s.cfg.xlen.immS 1 imm)

/-- BLTU branch if less than, unsigned (R273). -/
def execBltu (rs1 rs2 : RegIdx) (imm : BitVec 12) (s : State) : StepResult :=
  branch s 4 (s.cfg.xlen.toNat (s.getX rs1) < s.cfg.xlen.toNat (s.getX rs2)) (s.cfg.xlen.immS 1 imm)

/-- BGEU branch if greater or equal, unsigned (R274). -/
def execBgeu (rs1 rs2 : RegIdx) (imm : BitVec 12) (s : State) : StepResult :=
  branch s 4 (s.cfg.xlen.toNat (s.getX rs2) ≤ s.cfg.xlen.toNat (s.getX rs1)) (s.cfg.xlen.immS 1 imm)

/-- LB load byte, signed (R275). -/
def execLb (rd rs1 : RegIdx) (imm : BitVec 12) (s : State) : StepResult :=
  loadX s 4 rd rs1 (s.cfg.xlen.immS 0 imm) 1 fun v => s.cfg.xlen.sext (v.setWidth 8)

/-- LH load halfword, signed (R276). -/
def execLh (rd rs1 : RegIdx) (imm : BitVec 12) (s : State) : StepResult :=
  loadX s 4 rd rs1 (s.cfg.xlen.immS 0 imm) 2 fun v => s.cfg.xlen.sext (v.setWidth 16)

/-- LW load word, signed (R277). -/
def execLw (rd rs1 : RegIdx) (imm : BitVec 12) (s : State) : StepResult :=
  loadX s 4 rd rs1 (s.cfg.xlen.immS 0 imm) 4 fun v => s.cfg.xlen.sext (v.setWidth 32)

/-- LBU load byte, unsigned (R278). -/
def execLbu (rd rs1 : RegIdx) (imm : BitVec 12) (s : State) : StepResult :=
  loadX s 4 rd rs1 (s.cfg.xlen.immS 0 imm) 1 fun v => s.cfg.xlen.zext (v.setWidth 8)

/-- LHU load halfword, unsigned (R279). -/
def execLhu (rd rs1 : RegIdx) (imm : BitVec 12) (s : State) : StepResult :=
  loadX s 4 rd rs1 (s.cfg.xlen.immS 0 imm) 2 fun v => s.cfg.xlen.zext (v.setWidth 16)

/-- SB store byte (R280). -/
def execSb (rs2 rs1 : RegIdx) (imm : BitVec 12) (s : State) : StepResult :=
  storeX s 4 rs1 (s.cfg.xlen.immS 0 imm) 1 (s.getX rs2)

/-- SH store halfword (R281). -/
def execSh (rs2 rs1 : RegIdx) (imm : BitVec 12) (s : State) : StepResult :=
  storeX s 4 rs1 (s.cfg.xlen.immS 0 imm) 2 (s.getX rs2)

/-- SW store word (R282). -/
def execSw (rs2 rs1 : RegIdx) (imm : BitVec 12) (s : State) : StepResult :=
  storeX s 4 rs1 (s.cfg.xlen.immS 0 imm) 4 (s.getX rs2)

/-- ADDI add immediate (R283). -/
def execAddi (rd rs1 : RegIdx) (imm : BitVec 12) (s : State) : StepResult :=
  retireX s 4 rd (s.getX rs1 + s.cfg.xlen.immS 0 imm)

/-- SLTI set if less than immediate, signed (R284). -/
def execSlti (rd rs1 : RegIdx) (imm : BitVec 12) (s : State) : StepResult :=
  retireX s 4 rd (boolWord (s.cfg.xlen.toInt (s.getX rs1) < s.cfg.xlen.toInt (s.cfg.xlen.immS 0 imm)))

/-- SLTIU set if less than immediate, unsigned (R285). -/
def execSltiu (rd rs1 : RegIdx) (imm : BitVec 12) (s : State) : StepResult :=
  retireX s 4 rd (boolWord (s.cfg.xlen.toNat (s.getX rs1) < s.cfg.xlen.toNat (s.cfg.xlen.immS 0 imm)))

/-- XORI exclusive-or immediate (R286). -/
def execXori (rd rs1 : RegIdx) (imm : BitVec 12) (s : State) : StepResult :=
  retireX s 4 rd (s.getX rs1 ^^^ s.cfg.xlen.immS 0 imm)

/-- ORI or immediate (R287). -/
def execOri (rd rs1 : RegIdx) (imm : BitVec 12) (s : State) : StepResult :=
  retireX s 4 rd (s.getX rs1 ||| s.cfg.xlen.immS 0 imm)

/-- ANDI and immediate (R288). -/
def execAndi (rd rs1 : RegIdx) (imm : BitVec 12) (s : State) : StepResult :=
  retireX s 4 rd (s.getX rs1 &&& s.cfg.xlen.immS 0 imm)

/-- SLLI shift left logical immediate (R289). -/
def execSlli (rd rs1 : RegIdx) (shamt : BitVec 6) (s : State) : StepResult :=
  retireX s 4 rd (s.cfg.xlen.lift1 (shiftL shamt.toNat) (s.getX rs1))

/-- SRLI shift right logical immediate (R290). -/
def execSrli (rd rs1 : RegIdx) (shamt : BitVec 6) (s : State) : StepResult :=
  retireX s 4 rd (s.cfg.xlen.lift1 (shiftRL shamt.toNat) (s.getX rs1))

/-- SRAI shift right arithmetic immediate (R291). -/
def execSrai (rd rs1 : RegIdx) (shamt : BitVec 6) (s : State) : StepResult :=
  retireX s 4 rd (s.cfg.xlen.lift1 (shiftRA shamt.toNat) (s.getX rs1))

/-- ADD (R292). -/
def execAdd (rd rs1 rs2 : RegIdx) (s : State) : StepResult := retireX s 4 rd (s.getX rs1 + s.getX rs2)

/-- SUB (R293). -/
def execSub (rd rs1 rs2 : RegIdx) (s : State) : StepResult := retireX s 4 rd (s.getX rs1 - s.getX rs2)

/-- SLL shift left logical (R294). -/
def execSll (rd rs1 rs2 : RegIdx) (s : State) : StepResult :=
  retireX s 4 rd (s.cfg.xlen.lift1 (shiftL (s.cfg.xlen.amount (s.getX rs2))) (s.getX rs1))

/-- SLT set if less than, signed (R295). -/
def execSlt (rd rs1 rs2 : RegIdx) (s : State) : StepResult :=
  retireX s 4 rd (boolWord (s.cfg.xlen.toInt (s.getX rs1) < s.cfg.xlen.toInt (s.getX rs2)))

/-- SLTU set if less than, unsigned (R296). -/
def execSltu (rd rs1 rs2 : RegIdx) (s : State) : StepResult :=
  retireX s 4 rd (boolWord (s.cfg.xlen.toNat (s.getX rs1) < s.cfg.xlen.toNat (s.getX rs2)))

/-- XOR (R297). -/
def execXor (rd rs1 rs2 : RegIdx) (s : State) : StepResult := retireX s 4 rd (s.getX rs1 ^^^ s.getX rs2)

/-- SRL shift right logical (R298). -/
def execSrl (rd rs1 rs2 : RegIdx) (s : State) : StepResult :=
  retireX s 4 rd (s.cfg.xlen.lift1 (shiftRL (s.cfg.xlen.amount (s.getX rs2))) (s.getX rs1))

/-- SRA shift right arithmetic (R299). -/
def execSra (rd rs1 rs2 : RegIdx) (s : State) : StepResult :=
  retireX s 4 rd (s.cfg.xlen.lift1 (shiftRA (s.cfg.xlen.amount (s.getX rs2))) (s.getX rs1))

/-- OR (R300). -/
def execOr (rd rs1 rs2 : RegIdx) (s : State) : StepResult := retireX s 4 rd (s.getX rs1 ||| s.getX rs2)

/-- AND (R301). -/
def execAnd (rd rs1 rs2 : RegIdx) (s : State) : StepResult := retireX s 4 rd (s.getX rs1 &&& s.getX rs2)

/-- FENCE memory ordering fence (R302). -/
def execFence (_fm _pred _succ : BitVec 4) (_rs1 _rd : RegIdx) (s : State) : StepResult := retire s 4

/-- FENCE.I instruction-fetch fence (Zifencei) (R303). -/
def execFenceI (_imm : BitVec 12) (_rs1 _rd : RegIdx) (s : State) : StepResult := retire s.flushCode 4

/-- ECALL environment call (R304). -/
def execEcall (s : State) : StepResult :=
  if evalHook s s.cfg.shutdownHook then .next (terminated s)
  else raise s (match s.priv with
    | .U => 8
    | .S => 9
    | .M => 11) 0

/-- EBREAK breakpoint (R305). -/
def execEbreak (s : State) : StepResult := raise s 3 s.pc

/-- LWU load word, unsigned (R306). -/
def execLwu (rd rs1 : RegIdx) (imm : BitVec 12) (s : State) : StepResult :=
  loadX s 4 rd rs1 (s.cfg.xlen.immS 0 imm) 4 fun v => s.cfg.xlen.zext (v.setWidth 32)

/-- LD load doubleword (R307). -/
def execLd (rd rs1 : RegIdx) (imm : BitVec 12) (s : State) : StepResult :=
  loadX s 4 rd rs1 (s.cfg.xlen.immS 0 imm) 8 fun v => s.cfg.xlen.zext (v.setWidth 64)

/-- SD store doubleword (R308). -/
def execSd (rs2 rs1 : RegIdx) (imm : BitVec 12) (s : State) : StepResult :=
  storeX s 4 rs1 (s.cfg.xlen.immS 0 imm) 8 (s.getX rs2)

/-- ADDIW add immediate word (R309). -/
def execAddiw (rd rs1 : RegIdx) (imm : BitVec 12) (s : State) : StepResult :=
  retireX s 4 rd (s.cfg.xlen.sext (low32 (s.getX rs1) + imm.signExtend 32))

/-- SLLIW shift left logical immediate word (R310). -/
def execSlliw (rd rs1 : RegIdx) (shamt : BitVec 5) (s : State) : StepResult :=
  retireX s 4 rd (s.cfg.xlen.sext (shiftL shamt.toNat 32 (low32 (s.getX rs1))))

/-- SRLIW shift right logical immediate word (R311). -/
def execSrliw (rd rs1 : RegIdx) (shamt : BitVec 5) (s : State) : StepResult :=
  retireX s 4 rd (s.cfg.xlen.sext (shiftRL shamt.toNat 32 (low32 (s.getX rs1))))

/-- SRAIW shift right arithmetic immediate word (R312). -/
def execSraiw (rd rs1 : RegIdx) (shamt : BitVec 5) (s : State) : StepResult :=
  retireX s 4 rd (s.cfg.xlen.sext (shiftRA shamt.toNat 32 (low32 (s.getX rs1))))

/-- ADDW add word (R313). -/
def execAddw (rd rs1 rs2 : RegIdx) (s : State) : StepResult :=
  retireX s 4 rd (s.cfg.xlen.sext (low32 (s.getX rs1) + low32 (s.getX rs2)))

/-- SUBW subtract word (R314). -/
def execSubw (rd rs1 rs2 : RegIdx) (s : State) : StepResult :=
  retireX s 4 rd (s.cfg.xlen.sext (low32 (s.getX rs1) - low32 (s.getX rs2)))

/-- SLLW shift left logical word (R315). -/
def execSllw (rd rs1 rs2 : RegIdx) (s : State) : StepResult :=
  retireX s 4 rd (s.cfg.xlen.sext (shiftL (amount32 (s.getX rs2)) 32 (low32 (s.getX rs1))))

/-- SRLW shift right logical word (R316). -/
def execSrlw (rd rs1 rs2 : RegIdx) (s : State) : StepResult :=
  retireX s 4 rd (s.cfg.xlen.sext (shiftRL (amount32 (s.getX rs2)) 32 (low32 (s.getX rs1))))

/-- SRAW shift right arithmetic word (R317). -/
def execSraw (rd rs1 rs2 : RegIdx) (s : State) : StepResult :=
  retireX s 4 rd (s.cfg.xlen.sext (shiftRA (amount32 (s.getX rs2)) 32 (low32 (s.getX rs1))))

end Sys2Proof.Machine
end

