-- ==== Sys2Proof/Machine/Bitmanip.lean ====
section
/-! DEFINITION. Bit manipulation (46_bitmanip.md). One definition per instruction. -/

namespace Sys2Proof.Machine

/-- SH1ADD shift left by 1 and add (R572). -/
def execSh1add (rd rs1 rs2 : RegIdx) (s : State) : StepResult := retireX s 4 rd (s.getX rs2 + s.getX rs1 <<< 1)

/-- SH2ADD shift left by 2 and add (R573). -/
def execSh2add (rd rs1 rs2 : RegIdx) (s : State) : StepResult := retireX s 4 rd (s.getX rs2 + s.getX rs1 <<< 2)

/-- SH3ADD shift left by 3 and add (R574). -/
def execSh3add (rd rs1 rs2 : RegIdx) (s : State) : StepResult := retireX s 4 rd (s.getX rs2 + s.getX rs1 <<< 3)

/-- ADD.UW add unsigned word (R575). -/
def execAddUw (rd rs1 rs2 : RegIdx) (s : State) : StepResult :=
  retireX s 4 rd (s.getX rs2 + (low32 (s.getX rs1)).setWidth 64)

/-- SH1ADD.UW shift unsigned word left by 1 and add (R576). -/
def execSh1addUw (rd rs1 rs2 : RegIdx) (s : State) : StepResult :=
  retireX s 4 rd (s.getX rs2 + (low32 (s.getX rs1)).setWidth 64 <<< 1)

/-- SH2ADD.UW shift unsigned word left by 2 and add (R577). -/
def execSh2addUw (rd rs1 rs2 : RegIdx) (s : State) : StepResult :=
  retireX s 4 rd (s.getX rs2 + (low32 (s.getX rs1)).setWidth 64 <<< 2)

/-- SH3ADD.UW shift unsigned word left by 3 and add (R578). -/
def execSh3addUw (rd rs1 rs2 : RegIdx) (s : State) : StepResult :=
  retireX s 4 rd (s.getX rs2 + (low32 (s.getX rs1)).setWidth 64 <<< 3)

/-- SLLI.UW shift unsigned word left by immediate (R579). -/
def execSlliUw (rd rs1 : RegIdx) (shamt : BitVec 6) (s : State) : StepResult :=
  retireX s 4 rd ((low32 (s.getX rs1)).setWidth 64 <<< shamt.toNat)

/-- ANDN and with inverted operand (R580). -/
def execAndn (rd rs1 rs2 : RegIdx) (s : State) : StepResult := retireX s 4 rd (s.getX rs1 &&& ~~~s.getX rs2)

/-- ORN or with inverted operand (R581). -/
def execOrn (rd rs1 rs2 : RegIdx) (s : State) : StepResult := retireX s 4 rd (s.getX rs1 ||| ~~~s.getX rs2)

/-- XNOR exclusive nor (R582). -/
def execXnor (rd rs1 rs2 : RegIdx) (s : State) : StepResult := retireX s 4 rd (~~~(s.getX rs1 ^^^ s.getX rs2))

/-- CLZ count leading zeros (R583). -/
def execClz (rd rs1 : RegIdx) (s : State) : StepResult :=
  retireX s 4 rd (s.cfg.xlen.lift1 countLeadingZeros (s.getX rs1))

/-- CTZ count trailing zeros (R584). -/
def execCtz (rd rs1 : RegIdx) (s : State) : StepResult :=
  retireX s 4 rd (s.cfg.xlen.lift1 countTrailingZeros (s.getX rs1))

/-- CPOP population count (R585). -/
def execCpop (rd rs1 : RegIdx) (s : State) : StepResult := retireX s 4 rd (s.cfg.xlen.lift1 popCount (s.getX rs1))

/-- CLZW count leading zeros in word (R586). -/
def execClzw (rd rs1 : RegIdx) (s : State) : StepResult :=
  retireX s 4 rd (s.cfg.xlen.zext (countLeadingZeros 32 (low32 (s.getX rs1))))

/-- CTZW count trailing zeros in word (R587). -/
def execCtzw (rd rs1 : RegIdx) (s : State) : StepResult :=
  retireX s 4 rd (s.cfg.xlen.zext (countTrailingZeros 32 (low32 (s.getX rs1))))

/-- CPOPW population count of word (R588). -/
def execCpopw (rd rs1 : RegIdx) (s : State) : StepResult :=
  retireX s 4 rd (s.cfg.xlen.zext (popCount 32 (low32 (s.getX rs1))))

/-- MAX maximum, signed (R589). -/
def execMax (rd rs1 rs2 : RegIdx) (s : State) : StepResult :=
  retireX s 4 rd (if s.cfg.xlen.toInt (s.getX rs2) < s.cfg.xlen.toInt (s.getX rs1) then s.getX rs1 else s.getX rs2)

/-- MAXU maximum, unsigned (R590). -/
def execMaxu (rd rs1 rs2 : RegIdx) (s : State) : StepResult :=
  retireX s 4 rd (if s.cfg.xlen.toNat (s.getX rs2) < s.cfg.xlen.toNat (s.getX rs1) then s.getX rs1 else s.getX rs2)

/-- MIN minimum, signed (R591). -/
def execMin (rd rs1 rs2 : RegIdx) (s : State) : StepResult :=
  retireX s 4 rd (if s.cfg.xlen.toInt (s.getX rs1) < s.cfg.xlen.toInt (s.getX rs2) then s.getX rs1 else s.getX rs2)

/-- MINU minimum, unsigned (R592). -/
def execMinu (rd rs1 rs2 : RegIdx) (s : State) : StepResult :=
  retireX s 4 rd (if s.cfg.xlen.toNat (s.getX rs1) < s.cfg.xlen.toNat (s.getX rs2) then s.getX rs1 else s.getX rs2)

/-- SEXT.B sign-extend byte (R593). -/
def execSextB (rd rs1 : RegIdx) (s : State) : StepResult := retireX s 4 rd (s.cfg.xlen.sext ((s.getX rs1).setWidth 8))

/-- SEXT.H sign-extend halfword (R594). -/
def execSextH (rd rs1 : RegIdx) (s : State) : StepResult := retireX s 4 rd (s.cfg.xlen.sext ((s.getX rs1).setWidth 16))

/-- ZEXT.H zero-extend halfword (R595). -/
def execZextH (rd rs1 : RegIdx) (s : State) : StepResult := retireX s 4 rd (s.cfg.xlen.zext ((s.getX rs1).setWidth 16))

/-- ROL rotate left (R596). -/
def execRol (rd rs1 rs2 : RegIdx) (s : State) : StepResult :=
  retireX s 4 rd (s.cfg.xlen.lift1 (rotL (s.cfg.xlen.amount (s.getX rs2))) (s.getX rs1))

/-- ROR rotate right (R597). -/
def execRor (rd rs1 rs2 : RegIdx) (s : State) : StepResult :=
  retireX s 4 rd (s.cfg.xlen.lift1 (rotR (s.cfg.xlen.amount (s.getX rs2))) (s.getX rs1))

/-- RORI rotate right by immediate (R598). -/
def execRori (rd rs1 : RegIdx) (shamt : BitVec 6) (s : State) : StepResult :=
  retireX s 4 rd (s.cfg.xlen.lift1 (rotR shamt.toNat) (s.getX rs1))

/-- ROLW rotate word left (R599). -/
def execRolw (rd rs1 rs2 : RegIdx) (s : State) : StepResult :=
  retireX s 4 rd (s.cfg.xlen.sext (rotL (amount32 (s.getX rs2)) 32 (low32 (s.getX rs1))))

/-- RORW rotate word right (R600). -/
def execRorw (rd rs1 rs2 : RegIdx) (s : State) : StepResult :=
  retireX s 4 rd (s.cfg.xlen.sext (rotR (amount32 (s.getX rs2)) 32 (low32 (s.getX rs1))))

/-- RORIW rotate word right by immediate (R601). -/
def execRoriw (rd rs1 : RegIdx) (shamt : BitVec 5) (s : State) : StepResult :=
  retireX s 4 rd (s.cfg.xlen.sext (rotR shamt.toNat 32 (low32 (s.getX rs1))))

/-- ORC.B or-combine within bytes (R602). -/
def execOrcB (rd rs1 : RegIdx) (s : State) : StepResult := retireX s 4 rd (s.cfg.xlen.lift1 orcB (s.getX rs1))

/-- REV8 byte-reverse register (R603). -/
def execRev8 (rd rs1 : RegIdx) (s : State) : StepResult := retireX s 4 rd (s.cfg.xlen.lift1 rev8 (s.getX rs1))

/-- CLMUL carry-less multiply, low half (R604). -/
def execClmul (rd rs1 rs2 : RegIdx) (s : State) : StepResult :=
  retireX s 4 rd (s.cfg.xlen.lift2 clmulLow (s.getX rs1) (s.getX rs2))

/-- CLMULH carry-less multiply, high half (R605). -/
def execClmulh (rd rs1 rs2 : RegIdx) (s : State) : StepResult :=
  retireX s 4 rd (s.cfg.xlen.lift2 clmulHigh (s.getX rs1) (s.getX rs2))

/-- CLMULR carry-less multiply, reversed (R606). -/
def execClmulr (rd rs1 rs2 : RegIdx) (s : State) : StepResult :=
  retireX s 4 rd (s.cfg.xlen.lift2 clmulRev (s.getX rs1) (s.getX rs2))

/-- BCLR clear bit (R607). -/
def execBclr (rd rs1 rs2 : RegIdx) (s : State) : StepResult :=
  retireX s 4 rd (s.cfg.xlen.lift1 (bitClear (s.cfg.xlen.amount (s.getX rs2))) (s.getX rs1))

/-- BCLRI clear bit, immediate index (R608). -/
def execBclri (rd rs1 : RegIdx) (shamt : BitVec 6) (s : State) : StepResult :=
  retireX s 4 rd (s.cfg.xlen.lift1 (bitClear shamt.toNat) (s.getX rs1))

/-- BEXT extract bit (R609). -/
def execBext (rd rs1 rs2 : RegIdx) (s : State) : StepResult :=
  retireX s 4 rd (s.cfg.xlen.lift1 (bitExtract (s.cfg.xlen.amount (s.getX rs2))) (s.getX rs1))

/-- BEXTI extract bit, immediate index (R610). -/
def execBexti (rd rs1 : RegIdx) (shamt : BitVec 6) (s : State) : StepResult :=
  retireX s 4 rd (s.cfg.xlen.lift1 (bitExtract shamt.toNat) (s.getX rs1))

/-- BINV invert bit (R611). -/
def execBinv (rd rs1 rs2 : RegIdx) (s : State) : StepResult :=
  retireX s 4 rd (s.cfg.xlen.lift1 (bitInvert (s.cfg.xlen.amount (s.getX rs2))) (s.getX rs1))

/-- BINVI invert bit, immediate index (R612). -/
def execBinvi (rd rs1 : RegIdx) (shamt : BitVec 6) (s : State) : StepResult :=
  retireX s 4 rd (s.cfg.xlen.lift1 (bitInvert shamt.toNat) (s.getX rs1))

/-- BSET set bit (R613). -/
def execBset (rd rs1 rs2 : RegIdx) (s : State) : StepResult :=
  retireX s 4 rd (s.cfg.xlen.lift1 (bitSet (s.cfg.xlen.amount (s.getX rs2))) (s.getX rs1))

/-- BSETI set bit, immediate index (R614). -/
def execBseti (rd rs1 : RegIdx) (shamt : BitVec 6) (s : State) : StepResult :=
  retireX s 4 rd (s.cfg.xlen.lift1 (bitSet shamt.toNat) (s.getX rs1))

end Sys2Proof.Machine
end

