-- ==== Sys2Proof/Machine/Float.lean ====
section
/-! DEFINITION. The floating-point arithmetic layer (44_float_single.md R462 to R468; 45_float_double.md R521). A value is an exact
dyadic number, an infinity or a NaN; every operation computes exactly and rounds once. A binary32 pattern is held zero-extended in a
64-bit word. -/

namespace Sys2Proof.Machine

/-! ## Formats (R462) -/

/-- binary32 and binary64. -/
inductive FFmt where
  | s
  | d
deriving DecidableEq, Repr

/-- E, the number of exponent bits. -/
def FFmt.expBits : FFmt → Nat
  | .s => 8
  | .d => 11

/-- M, the number of fraction bits. -/
def FFmt.fracBits : FFmt → Nat
  | .s => 23
  | .d => 52

/-- The position of the sign bit, E + M. -/
def FFmt.signPos (fmt : FFmt) : Nat := fmt.expBits + fmt.fracBits

/-- B = 2^(E-1) - 1, which is also emax. -/
def FFmt.bias (fmt : FFmt) : Nat := 2 ^ (fmt.expBits - 1) - 1

/-- emin = 1 - B. -/
def FFmt.emin (fmt : FFmt) : Int := 1 - (fmt.bias : Int)

/-- The largest exponent field, 2^E - 1. -/
def FFmt.expMax (fmt : FFmt) : Nat := 2 ^ fmt.expBits - 1

/-- The canonical NaN. -/
def FFmt.canonicalNaN : FFmt → Word
  | .s => 0x7FC00000
  | .d => 0x7FF8000000000000

/-- A pattern from its sign and its magnitude (the exponent and fraction bits as one number). -/
def FFmt.pattern (fmt : FFmt) (sign : Bool) (magnitude : Nat) : Word :=
  BitVec.ofNat 64 (magnitude + (if sign then 2 ^ fmt.signPos else 0))

/-- Infinity, zero and the largest finite value of a sign. -/
def FFmt.inf (fmt : FFmt) (sign : Bool) : Word := fmt.pattern sign (fmt.expMax * 2 ^ fmt.fracBits)
def FFmt.zero (fmt : FFmt) (sign : Bool) : Word := fmt.pattern sign 0
def FFmt.maxFinite (fmt : FFmt) (sign : Bool) : Word := fmt.pattern sign (fmt.expMax * 2 ^ fmt.fracBits - 1)

/-- The sign bit, exponent field and fraction field of a pattern. -/
def FFmt.signOf (fmt : FFmt) (b : Word) : Bool := b.getLsbD fmt.signPos
def FFmt.expOf (fmt : FFmt) (b : Word) : Nat := b.toNat / 2 ^ fmt.fracBits % 2 ^ fmt.expBits
def FFmt.fracOf (fmt : FFmt) (b : Word) : Nat := b.toNat % 2 ^ fmt.fracBits

/-- What a pattern denotes: `(-1)^sign × mant × 2^exp`, an infinity, or a NaN. -/
inductive FVal where
  | num (sign : Bool) (mant : Nat) (exp : Int)
  | inf (sign : Bool)
  | nan (signaling : Bool)
deriving DecidableEq, Repr

/-- The value table of R462. -/
def FFmt.unpack (fmt : FFmt) (b : Word) : FVal :=
  let e := fmt.expOf b
  let m := fmt.fracOf b
  let s := fmt.signOf b
  if e = fmt.expMax then
    (if m = 0 then .inf s else .nan (m < 2 ^ (fmt.fracBits - 1)))
  else if e = 0 then .num s m (fmt.emin - fmt.fracBits)
  else .num s (2 ^ fmt.fracBits + m) (e - fmt.bias - fmt.fracBits)

def FVal.isNaN : FVal → Bool
  | .nan _ => true
  | _ => false

def FVal.isSignaling : FVal → Bool
  | .nan q => q
  | _ => false

/-- A value with its sign flipped when the flag holds. -/
def FVal.negIf (v : FVal) (neg : Bool) : FVal :=
  match v with
  | .num s m e => .num (s != neg) m e
  | .inf s => .inf (s != neg)
  | .nan q => .nan q

/-! ## Rounding (R463) -/

/-- A pattern (or an integer result) and the flags an operation sets. -/
structure FResult where
  bits : Word
  flags : FFlags
deriving DecidableEq, Repr

/-- The case table `up` of R463: the magnitude is n + r/d with 0 ≤ r < d; does it round up to n + 1? -/
def roundUp (rm : RoundMode) (sign : Bool) (n r d : Nat) : Bool :=
  match rm with
  | .rne => d < 2 * r || (2 * r == d && n % 2 == 1)
  | .rtz => false
  | .rdn => sign && 0 < r
  | .rup => !sign && 0 < r
  | .rmm => d ≤ 2 * r

/-- n + r/d rounded to an integer. -/
def roundNat (rm : RoundMode) (sign : Bool) (n r d : Nat) : Nat :=
  n + (if roundUp rm sign n r d then 1 else 0)

/-- p/q in units of 2^t, as a fraction. -/
def inUnits (p q : Nat) (t : Int) : Nat × Nat := (p * 2 ^ (-t).toNat, q * 2 ^ t.toNat)

/-- floor(log2(p/q)) for positive p and q. -/
def floorLog2 (p q : Nat) : Int :=
  let e : Int := (Nat.log2 p : Int) - Nat.log2 q
  let u := inUnits p q e
  if u.2 ≤ u.1 then e else e - 1

/-- Overflow of R463: infinity under the modes that round away from zero on that side, otherwise the largest finite value. -/
def overflowResult (fmt : FFmt) (sign : Bool) (rm : RoundMode) : Word :=
  match rm with
  | .rne | .rmm => fmt.inf sign
  | .rdn => if sign then fmt.inf sign else fmt.maxFinite sign
  | .rup => if sign then fmt.maxFinite sign else fmt.inf sign
  | .rtz => fmt.maxFinite sign

/-- `Round(fmt, x, rm)` for x of the given sign and magnitude p/q, p and q positive. The pattern's magnitude field of n·2^t is
(t + M - emin)·2^M + n, for normal and subnormal results alike (DEDUCED from the table of R462, log 24). -/
def roundRat (fmt : FFmt) (sign : Bool) (p q : Nat) (rm : RoundMode) : FResult :=
  let e := floorLog2 p q
  let t := max e fmt.emin - fmt.fracBits
  let u := inUnits p q t
  let n := u.1 / u.2
  let r := u.1 % u.2
  let rounded := roundNat rm sign n r u.2
  -- tininess: rounded with the exponent unbounded below, and still below 2^emin
  let u' := inUnits p q (e - fmt.fracBits)
  let n' := roundNat rm sign (u'.1 / u'.2) (u'.1 % u'.2) u'.2
  let tiny := e < fmt.emin && n' < 2 ^ (fmt.fracBits + (fmt.emin - e).toNat)
  let magnitude := (t + fmt.fracBits - fmt.emin).toNat * 2 ^ fmt.fracBits + rounded
  if fmt.expMax * 2 ^ fmt.fracBits ≤ magnitude then
    { bits := overflowResult fmt sign rm, flags := flagOF ||| flagNX }
  else
    { bits := fmt.pattern sign magnitude
      flags := flagIf (r != 0) flagNX ||| flagIf (tiny && r != 0) flagUF }

/-- `Round` of a nonzero integer multiple of a power of two. -/
def roundDyadic (fmt : FFmt) (sign : Bool) (m : Nat) (e : Int) (rm : RoundMode) : FResult :=
  roundRat fmt sign (m * 2 ^ e.toNat) (2 ^ (-e).toNat) rm

/-! ## Special results (R464, R465) -/

/-- The canonical NaN with NV. -/
def invalid (fmt : FFmt) : FResult := { bits := fmt.canonicalNaN, flags := flagNV }

/-- The canonical NaN; NV for a signaling operand. -/
def nanResult (fmt : FFmt) (signaling : Bool) : FResult :=
  { bits := fmt.canonicalNaN, flags := flagIf signaling flagNV }

/-- A result that sets no flag. -/
def exactly (b : Word) : FResult := { bits := b, flags := 0 }

/-- The sign of an exact zero sum: the common sign of two zero operands, otherwise + except under RDN. -/
def zeroSumSign (rm : RoundMode) (s1 s2 : Bool) (bothZero : Bool) : Bool :=
  if bothZero && s1 == s2 then s1 else rm == .rdn

/-- A signed multiple of 2^e as an integer, for an exponent not above its own. -/
def scaled (s : Bool) (m : Nat) (ex e : Int) : Int :=
  let v : Int := m * 2 ^ (ex - e).toNat
  if s then -v else v

/-- The exact sum of two finite values, rounded once. -/
def addFinite (fmt : FFmt) (rm : RoundMode) (s1 : Bool) (m1 : Nat) (e1 : Int) (s2 : Bool) (m2 : Nat) (e2 : Int) : FResult :=
  let e := min e1 e2
  let z := scaled s1 m1 e1 e + scaled s2 m2 e2 e
  if z = 0 then exactly (fmt.zero (zeroSumSign rm s1 s2 (m1 == 0 && m2 == 0)))
  else roundDyadic fmt (z < 0) z.natAbs e rm

/-! ## Arithmetic (R465) -/

/-- `fadd`. -/
def fAdd (fmt : FFmt) (rm : RoundMode) (a b : FVal) : FResult :=
  match a, b with
  | .nan q, v => nanResult fmt (q || v.isSignaling)
  | v, .nan q => nanResult fmt (q || v.isSignaling)
  | .inf s, .inf s' => if s = s' then exactly (fmt.inf s) else invalid fmt
  | .inf s, .num .. => exactly (fmt.inf s)
  | .num .., .inf s => exactly (fmt.inf s)
  | .num s1 m1 e1, .num s2 m2 e2 => addFinite fmt rm s1 m1 e1 s2 m2 e2

/-- `fsub(a, b) = fadd(a, -b)`. -/
def fSub (fmt : FFmt) (rm : RoundMode) (a b : FVal) : FResult := fAdd fmt rm a (b.negIf true)

/-- `fmul`. -/
def fMul (fmt : FFmt) (rm : RoundMode) (a b : FVal) : FResult :=
  match a, b with
  | .nan q, v => nanResult fmt (q || v.isSignaling)
  | v, .nan q => nanResult fmt (q || v.isSignaling)
  | .inf s, .inf s' => exactly (fmt.inf (s != s'))
  | .inf s, .num s' m _ => if m = 0 then invalid fmt else exactly (fmt.inf (s != s'))
  | .num s m _, .inf s' => if m = 0 then invalid fmt else exactly (fmt.inf (s != s'))
  | .num s1 m1 e1, .num s2 m2 e2 =>
    if m1 = 0 || m2 = 0 then exactly (fmt.zero (s1 != s2))
    else roundDyadic fmt (s1 != s2) (m1 * m2) (e1 + e2) rm

/-- `fdiv`; DZ for a finite nonzero value by zero (R464). -/
def fDiv (fmt : FFmt) (rm : RoundMode) (a b : FVal) : FResult :=
  match a, b with
  | .nan q, v => nanResult fmt (q || v.isSignaling)
  | v, .nan q => nanResult fmt (q || v.isSignaling)
  | .inf _, .inf _ => invalid fmt
  | .inf s, .num s' _ _ => exactly (fmt.inf (s != s'))
  | .num s _ _, .inf s' => exactly (fmt.zero (s != s'))
  | .num s1 m1 e1, .num s2 m2 e2 =>
    if m2 = 0 then
      (if m1 = 0 then invalid fmt else { bits := fmt.inf (s1 != s2), flags := flagDZ })
    else if m1 = 0 then exactly (fmt.zero (s1 != s2))
    else
      let u := inUnits m1 m2 (e2 - e1)
      roundRat fmt (s1 != s2) u.1 u.2 rm

/-- floor(sqrt(n)) for n < 4^k, one bit of the root a step. -/
def isqrt (n : Nat) : Nat → Nat → Nat
  | 0, root => root
  | k + 1, root => if (root + 2 ^ k) * (root + 2 ^ k) ≤ n then isqrt n k (root + 2 ^ k) else isqrt n k root

/-- The root of m·2^e as a fraction of 2^x that rounds as the exact root does: 60 bits below the operand's own, and half a unit more when
the root is not exact (DEDUCED, log 17: R463 asks for a rational number; no rounding boundary lies between the two). -/
def sqrtProxy (m : Nat) (e : Int) : Nat × Int :=
  let odd := e % 2 != 0
  let m' := (if odd then 2 * m else m) * 4 ^ 60
  let e' := (if odd then e - 1 else e) / 2 - 60
  let r := isqrt m' 96 0
  (2 * r + (if r * r = m' then 0 else 1), e' - 1)

/-- `fsqrt`. -/
def fSqrt (fmt : FFmt) (rm : RoundMode) (a : FVal) : FResult :=
  match a with
  | .nan q => nanResult fmt q
  | .inf s => if s then invalid fmt else exactly (fmt.inf false)
  | .num s m e =>
    if m = 0 then exactly (fmt.zero s)
    else if s then invalid fmt
    else
      let p := sqrtProxy m e
      roundDyadic fmt false p.1 p.2 rm

/-- The product of two values is an infinity: its sign. -/
def infiniteProduct (a b : FVal) : Option Bool :=
  match a, b with
  | .inf s1, .inf s2 | .inf s1, .num s2 _ _ | .num s1 _ _, .inf s2 => some (s1 != s2)
  | _, _ => none

/-- The product is 0 × inf. -/
def zeroTimesInf (a b : FVal) : Bool :=
  match a, b with
  | .inf _, .num _ m _ | .num _ m _, .inf _ => m == 0
  | _, _ => false

/-- The fused forms: `(±(a × b)) ± c` computed exactly and rounded once (R465). 0 × inf is invalid whatever the addend (R464). -/
def fMulAdd (fmt : FFmt) (rm : RoundMode) (negProduct negAddend : Bool) (a b c : FVal) : FResult :=
  if zeroTimesInf a b then invalid fmt
  else if a.isNaN || b.isNaN || c.isNaN then nanResult fmt (a.isSignaling || b.isSignaling || c.isSignaling)
  else
    match infiniteProduct a b, c.negIf negAddend with
    | some sp, .inf s => if (sp != negProduct) = s then exactly (fmt.inf s) else invalid fmt
    | some sp, _ => exactly (fmt.inf (sp != negProduct))
    | none, .inf s => exactly (fmt.inf s)
    | none, v =>
      match a, b, v with
      | .num s1 m1 e1, .num s2 m2 e2, .num s3 m3 e3 =>
        addFinite fmt rm ((s1 != s2) != negProduct) (m1 * m2) (e1 + e2) s3 m3 e3
      | _, _, _ => invalid fmt

/-! ## Comparisons, minimum, maximum (R466, R467) -/

/-- a < b for two values that are no NaN; -0 is not less than +0. -/
def fLess (a b : FVal) : Bool :=
  match a, b with
  | .inf s, .inf s' => s && !s'
  | .inf s, _ => s
  | _, .inf s => !s
  | .num s1 m1 e1, .num s2 m2 e2 => scaled s1 m1 e1 (min e1 e2) < scaled s2 m2 e2 (min e1 e2)
  | _, _ => false

/-- a = b for two values that are no NaN; -0 equals +0. -/
def fSame (a b : FVal) : Bool := !fLess a b && !fLess b a

/-- `feq`: NV for a signaling operand only. -/
def fEq (a b : FVal) : Bool × FFlags :=
  if a.isNaN || b.isNaN then (false, flagIf (a.isSignaling || b.isSignaling) flagNV) else (fSame a b, 0)

/-- `flt`: NV for any NaN. -/
def fLt (a b : FVal) : Bool × FFlags :=
  if a.isNaN || b.isNaN then (false, flagNV) else (fLess a b, 0)

/-- `fle`: NV for any NaN. -/
def fLe (a b : FVal) : Bool × FFlags :=
  if a.isNaN || b.isNaN then (false, flagNV) else (!fLess b a, 0)

/-- `fmin` on patterns: a NaN gives the other operand, -0 is smaller than +0. -/
def fMin (fmt : FFmt) (x y : Word) : FResult :=
  let a := fmt.unpack x
  let b := fmt.unpack y
  let flags := flagIf (a.isSignaling || b.isSignaling) flagNV
  let bits :=
    if a.isNaN && b.isNaN then fmt.canonicalNaN
    else if a.isNaN then y
    else if b.isNaN then x
    else if fLess a b || (fSame a b && fmt.signOf x) then x
    else y
  { bits := bits, flags := flags }

/-- `fmax` on patterns. -/
def fMax (fmt : FFmt) (x y : Word) : FResult :=
  let a := fmt.unpack x
  let b := fmt.unpack y
  let flags := flagIf (a.isSignaling || b.isSignaling) flagNV
  let bits :=
    if a.isNaN && b.isNaN then fmt.canonicalNaN
    else if a.isNaN then y
    else if b.isNaN then x
    else if fLess b a || (fSame a b && !fmt.signOf x) then x
    else y
  { bits := bits, flags := flags }

/-! ## Sign injection and classification (R466) -/

/-- A pattern with its sign replaced. -/
def withSign (fmt : FFmt) (sign : Bool) (x : Word) : Word := setBit fmt.signPos sign x

/-- `fclass`: one bit of ten. -/
def fClass (fmt : FFmt) (x : Word) : Word :=
  let s := fmt.signOf x
  match fmt.unpack x with
  | .nan signaling => if signaling then 0x100 else 0x200
  | .inf s => if s then 0x001 else 0x080
  | .num _ m _ =>
    if m = 0 then (if s then 0x008 else 0x010)
    else if m < 2 ^ fmt.fracBits then (if s then 0x004 else 0x020)
    else (if s then 0x002 else 0x040)

/-! ## Conversions (R468) -/

/-- The range of an integer target. -/
def intLo (signed : Bool) (w : Nat) : Int := if signed then -(2 ^ (w - 1) : Nat) else 0
def intHi (signed : Bool) (w : Nat) : Int := if signed then (2 ^ (w - 1) : Nat) - 1 else (2 ^ w : Nat) - 1

/-- Float to integer: rounded by the mode, saturated with NV outside the range. R468 disagrees with itself on -1/2 to an unsigned target under
RMM: its steps give n = -1 and so 0 with NV, its sentence says 0 with NX; the steps are taken (DEDUCED, log 31). -/
def toInteger (rm : RoundMode) (signed : Bool) (w : Nat) (v : FVal) : BitVec w × FFlags :=
  match v with
  | .nan _ => (BitVec.ofInt w (intHi signed w), flagNV)
  | .inf s => (BitVec.ofInt w (if s then intLo signed w else intHi signed w), flagNV)
  | .num s m e =>
    let p := m * 2 ^ e.toNat
    let q := 2 ^ (-e).toNat
    let magnitude := roundNat rm s (p / q) (p % q) q
    let n : Int := if s then -(magnitude : Int) else magnitude
    if intHi signed w < n then (BitVec.ofInt w (intHi signed w), flagNV)
    else if n < intLo signed w then (BitVec.ofInt w (intLo signed w), flagNV)
    else (BitVec.ofInt w n, flagIf (p % q != 0) flagNX)

/-- Integer to float: 0 gives +0. -/
def ofInteger (fmt : FFmt) (rm : RoundMode) (n : Int) : FResult :=
  if n = 0 then exactly (fmt.zero false) else roundDyadic fmt (n < 0) n.natAbs 0 rm

/-- Float to float of another format: infinities and zeros map to themselves, a NaN to the canonical NaN. -/
def convert (fmt : FFmt) (rm : RoundMode) (v : FVal) : FResult :=
  match v with
  | .nan q => nanResult fmt q
  | .inf s => exactly (fmt.inf s)
  | .num s m e => if m = 0 then exactly (fmt.zero s) else roundDyadic fmt s m e rm

end Sys2Proof.Machine
end

