-- ==== Sys2Proof/Machine/FloatOps.lean ====
section
/-! DEFINITION. What the floating-point instructions share: the FS and rounding-mode gates, operands, results, loads and stores
(44_float_single.md R460, R461, R469; 45_float_double.md R520, R521). -/

namespace Sys2Proof.Machine

/-- The FS gate (R460, 10_state.md R38): illegal before any operand is read. -/
def fpGate (s : State) (i : Instr) (k : StepResult) : StepResult := if s.fpEnabled then k else raiseIllegal s i

/-- The FS gate and the rounding-mode check (R461): illegal when either fails. -/
def fpRounded (s : State) (i : Instr) (rm : BitVec 3) (k : RoundMode → StepResult) : StepResult :=
  if s.fpEnabled then
    match s.roundMode rm with
    | some r => k r
    | none => raiseIllegal s i
  else raiseIllegal s i

/-- The value of a single-precision operand. -/
def State.valS (s : State) (i : RegIdx) : FVal := FFmt.unpack .s (s.getS i)

/-- The value of a double-precision operand: the whole register (R521). -/
def State.valD (s : State) (i : RegIdx) : FVal := FFmt.unpack .d (s.getF i)

/-- `f[rd] <- box(r); flags |= ...; retire`. -/
def writeS (s : State) (rd : RegIdx) (r : FResult) : StepResult :=
  retireF s 4 rd (s.cfg.flen.box (r.bits.setWidth 32)) r.flags

/-- `f[rd] <- r; flags |= ...; retire`. -/
def writeD (s : State) (rd : RegIdx) (r : FResult) : StepResult := retireF s 4 rd r.bits r.flags

/-- A comparison result in an x register. -/
def writeCompare (s : State) (rd : RegIdx) (r : Bool × FFlags) : StepResult := retireXF s 4 rd (boolWord r.1) r.2

/-- An integer result in an x register: a 32-bit one is sign-extended, the unsigned forms too (R468). -/
def writeInteger (s : State) (rd : RegIdx) {w : Nat} (r : BitVec w × FFlags) : StepResult :=
  retireXF s 4 rd (s.cfg.xlen.sext r.1) r.2

/-- A single-precision load (R470): the bits are boxed and not interpreted. -/
def loadS (s : State) (i : Instr) (len : Word) (rd rs1 : RegIdx) (offset : Word) : StepResult :=
  fpGate s i <| (memRead s (s.effAddr rs1 offset) 4).andThen fun v t =>
    retireF t len rd (t.cfg.flen.box (v.setWidth 32)) 0

/-- A double-precision load (45_float_double.md R522): one 64-bit access at either XLEN. -/
def loadD (s : State) (i : Instr) (len : Word) (rd rs1 : RegIdx) (offset : Word) : StepResult :=
  fpGate s i <| (memRead s (s.effAddr rs1 offset) 8).andThen fun v t => retireF t len rd v 0

/-- A floating-point store of the low n bytes of f[rs2], whatever the upper half holds (R471, R523); FS is not changed. -/
def storeF (s : State) (i : Instr) (len : Word) (rs1 : RegIdx) (offset : Word) (n : Nat) (rs2 : RegIdx) : StepResult :=
  fpGate s i <| storeX s len rs1 offset n (s.getF rs2)

end Sys2Proof.Machine
end

