-- ==== Sys2Proof/Machine/Compressed.lean ====
section
/-! DEFINITION. The compressed instructions (41_compressed.md): each the operation of one 32-bit instruction with ilen = 2 (R342). One definition per instruction. -/

namespace Sys2Proof.Machine

/-- C.ADDI4SPN add scaled immediate to sp (R345). -/
def execCAddi4spn (rd : BitVec 3) (imm : BitVec 8) (s : State) : StepResult :=
  retireX s 2 (creg rd) (s.getX 2#5 + s.cfg.xlen.immU 2 imm)

/-- C.FLD load double to f register (R346). -/
def execCFld (rd rs1 : BitVec 3) (imm : BitVec 5) (s : State) : StepResult :=
  loadD s (Instr.c_fld rd rs1 imm) 2 (creg rd) (creg rs1) (s.cfg.xlen.immU 3 imm)

/-- C.LW load word (R347). -/
def execCLw (rd rs1 : BitVec 3) (imm : BitVec 5) (s : State) : StepResult :=
  loadX s 2 (creg rd) (creg rs1) (s.cfg.xlen.immU 2 imm) 4 fun v => s.cfg.xlen.sext (v.setWidth 32)

/-- C.FLW load single to f register (R348). -/
def execCFlw (rd rs1 : BitVec 3) (imm : BitVec 5) (s : State) : StepResult :=
  loadS s (Instr.c_flw rd rs1 imm) 2 (creg rd) (creg rs1) (s.cfg.xlen.immU 2 imm)

/-- C.LD load doubleword (R349). -/
def execCLd (rd rs1 : BitVec 3) (imm : BitVec 5) (s : State) : StepResult :=
  loadX s 2 (creg rd) (creg rs1) (s.cfg.xlen.immU 3 imm) 8 fun v => s.cfg.xlen.zext (v.setWidth 64)

/-- C.FSD store double from f register (R350). -/
def execCFsd (rs2 rs1 : BitVec 3) (imm : BitVec 5) (s : State) : StepResult :=
  storeF s (Instr.c_fsd rs2 rs1 imm) 2 (creg rs1) (s.cfg.xlen.immU 3 imm) 8 (creg rs2)

/-- C.SW store word (R351). -/
def execCSw (rs2 rs1 : BitVec 3) (imm : BitVec 5) (s : State) : StepResult :=
  storeX s 2 (creg rs1) (s.cfg.xlen.immU 2 imm) 4 (s.getX (creg rs2))

/-- C.FSW store single from f register (R352). -/
def execCFsw (rs2 rs1 : BitVec 3) (imm : BitVec 5) (s : State) : StepResult :=
  storeF s (Instr.c_fsw rs2 rs1 imm) 2 (creg rs1) (s.cfg.xlen.immU 2 imm) 4 (creg rs2)

/-- C.SD store doubleword (R353). -/
def execCSd (rs2 rs1 : BitVec 3) (imm : BitVec 5) (s : State) : StepResult :=
  storeX s 2 (creg rs1) (s.cfg.xlen.immU 3 imm) 8 (s.getX (creg rs2))

/-- C.NOP no operation (R354). -/
def execCNop (_imm : BitVec 6) (s : State) : StepResult := retire s 2

/-- C.ADDI add immediate (R355). -/
def execCAddi (rd : RegIdx) (imm : BitVec 6) (s : State) : StepResult :=
  retireX s 2 rd (s.getX rd + s.cfg.xlen.immS 0 imm)

/-- C.JAL jump and link (R356). -/
def execCJal (imm : BitVec 11) (s : State) : StepResult := jumpAndLink s 2 1#5 (s.cfg.xlen.immS 1 imm)

/-- C.ADDIW add immediate word (R357). -/
def execCAddiw (rd : RegIdx) (imm : BitVec 6) (s : State) : StepResult :=
  retireX s 2 rd (s.cfg.xlen.sext (low32 (s.getX rd) + imm.signExtend 32))

/-- C.LI load immediate (R358). -/
def execCLi (rd : RegIdx) (imm : BitVec 6) (s : State) : StepResult := retireX s 2 rd (s.cfg.xlen.immS 0 imm)

/-- C.ADDI16SP adjust stack pointer (R359). -/
def execCAddi16sp (imm : BitVec 6) (s : State) : StepResult := retireX s 2 2#5 (s.getX 2#5 + s.cfg.xlen.immS 4 imm)

/-- C.LUI load upper immediate (R360). -/
def execCLui (rd : RegIdx) (imm : BitVec 6) (s : State) : StepResult := retireX s 2 rd (s.cfg.xlen.immS 12 imm)

/-- C.SRLI shift right logical immediate (R361). -/
def execCSrli (rd : BitVec 3) (shamt : BitVec 6) (s : State) : StepResult :=
  retireX s 2 (creg rd) (s.cfg.xlen.lift1 (shiftRL shamt.toNat) (s.getX (creg rd)))

/-- C.SRAI shift right arithmetic immediate (R362). -/
def execCSrai (rd : BitVec 3) (shamt : BitVec 6) (s : State) : StepResult :=
  retireX s 2 (creg rd) (s.cfg.xlen.lift1 (shiftRA shamt.toNat) (s.getX (creg rd)))

/-- C.ANDI and immediate (R363). -/
def execCAndi (rd : BitVec 3) (imm : BitVec 6) (s : State) : StepResult :=
  retireX s 2 (creg rd) (s.getX (creg rd) &&& s.cfg.xlen.immS 0 imm)

/-- C.SUB (R364). -/
def execCSub (rd rs2 : BitVec 3) (s : State) : StepResult :=
  retireX s 2 (creg rd) (s.getX (creg rd) - s.getX (creg rs2))

/-- C.XOR (R365). -/
def execCXor (rd rs2 : BitVec 3) (s : State) : StepResult :=
  retireX s 2 (creg rd) (s.getX (creg rd) ^^^ s.getX (creg rs2))

/-- C.OR (R366). -/
def execCOr (rd rs2 : BitVec 3) (s : State) : StepResult :=
  retireX s 2 (creg rd) (s.getX (creg rd) ||| s.getX (creg rs2))

/-- C.AND (R367). -/
def execCAnd (rd rs2 : BitVec 3) (s : State) : StepResult :=
  retireX s 2 (creg rd) (s.getX (creg rd) &&& s.getX (creg rs2))

/-- C.SUBW subtract word (R368). -/
def execCSubw (rd rs2 : BitVec 3) (s : State) : StepResult :=
  retireX s 2 (creg rd) (s.cfg.xlen.sext (low32 (s.getX (creg rd)) - low32 (s.getX (creg rs2))))

/-- C.ADDW add word (R369). -/
def execCAddw (rd rs2 : BitVec 3) (s : State) : StepResult :=
  retireX s 2 (creg rd) (s.cfg.xlen.sext (low32 (s.getX (creg rd)) + low32 (s.getX (creg rs2))))

/-- C.J jump (R370). -/
def execCJ (imm : BitVec 11) (s : State) : StepResult := jumpAndLink s 2 0#5 (s.cfg.xlen.immS 1 imm)

/-- C.BEQZ branch if zero (R371). -/
def execCBeqz (rs1 : BitVec 3) (imm : BitVec 8) (s : State) : StepResult :=
  branch s 2 (s.getX (creg rs1) == 0) (s.cfg.xlen.immS 1 imm)

/-- C.BNEZ branch if not zero (R372). -/
def execCBnez (rs1 : BitVec 3) (imm : BitVec 8) (s : State) : StepResult :=
  branch s 2 (s.getX (creg rs1) != 0) (s.cfg.xlen.immS 1 imm)

/-- C.SLLI shift left logical immediate (R373). -/
def execCSlli (rd : RegIdx) (shamt : BitVec 6) (s : State) : StepResult :=
  retireX s 2 rd (s.cfg.xlen.lift1 (shiftL shamt.toNat) (s.getX rd))

/-- C.FLDSP load double from stack (R374). -/
def execCFldsp (rd : RegIdx) (imm : BitVec 6) (s : State) : StepResult :=
  loadD s (Instr.c_fldsp rd imm) 2 rd 2#5 (s.cfg.xlen.immU 3 imm)

/-- C.LWSP load word from stack (R375). -/
def execCLwsp (rd : RegIdx) (imm : BitVec 6) (s : State) : StepResult :=
  loadX s 2 rd 2#5 (s.cfg.xlen.immU 2 imm) 4 fun v => s.cfg.xlen.sext (v.setWidth 32)

/-- C.FLWSP load single from stack (R376). -/
def execCFlwsp (rd : RegIdx) (imm : BitVec 6) (s : State) : StepResult :=
  loadS s (Instr.c_flwsp rd imm) 2 rd 2#5 (s.cfg.xlen.immU 2 imm)

/-- C.LDSP load doubleword from stack (R377). -/
def execCLdsp (rd : RegIdx) (imm : BitVec 6) (s : State) : StepResult :=
  loadX s 2 rd 2#5 (s.cfg.xlen.immU 3 imm) 8 fun v => s.cfg.xlen.zext (v.setWidth 64)

/-- C.JR jump register (R378). -/
def execCJr (rs1 : RegIdx) (s : State) : StepResult := jumpAndLinkReg s 2 0#5 rs1 0

/-- C.MV copy register (R379). -/
def execCMv (rd rs2 : RegIdx) (s : State) : StepResult := retireX s 2 rd (s.getX rs2)

/-- C.EBREAK breakpoint (R380). -/
def execCEbreak (s : State) : StepResult := raise s 3 s.pc

/-- C.JALR jump and link register (R381). -/
def execCJalr (rs1 : RegIdx) (s : State) : StepResult := jumpAndLinkReg s 2 1#5 rs1 0

/-- C.ADD (R382). -/
def execCAdd (rd rs2 : RegIdx) (s : State) : StepResult := retireX s 2 rd (s.getX rd + s.getX rs2)

/-- C.FSDSP store double to stack (R383). -/
def execCFsdsp (rs2 : RegIdx) (imm : BitVec 6) (s : State) : StepResult :=
  storeF s (Instr.c_fsdsp rs2 imm) 2 2#5 (s.cfg.xlen.immU 3 imm) 8 rs2

/-- C.SWSP store word to stack (R384). -/
def execCSwsp (rs2 : RegIdx) (imm : BitVec 6) (s : State) : StepResult :=
  storeX s 2 2#5 (s.cfg.xlen.immU 2 imm) 4 (s.getX rs2)

/-- C.FSWSP store single to stack (R385). -/
def execCFswsp (rs2 : RegIdx) (imm : BitVec 6) (s : State) : StepResult :=
  storeF s (Instr.c_fswsp rs2 imm) 2 2#5 (s.cfg.xlen.immU 2 imm) 4 rs2

/-- C.SDSP store doubleword to stack (R386). -/
def execCSdsp (rs2 : RegIdx) (imm : BitVec 6) (s : State) : StepResult :=
  storeX s 2 2#5 (s.cfg.xlen.immU 3 imm) 8 (s.getX rs2)

end Sys2Proof.Machine
end

