-- ==== Sys2Proof/Machine/FloatDouble.lean ====
section
/-! DEFINITION. Double-precision instructions (45_float_double.md). One definition per instruction. -/

namespace Sys2Proof.Machine

/-- FLD load double (R522). -/
def execFld (rd rs1 : RegIdx) (imm : BitVec 12) (s : State) : StepResult :=
  loadD s (Instr.fld rd rs1 imm) 4 rd rs1 (s.cfg.xlen.immS 0 imm)

/-- FSD store double (R523). -/
def execFsd (rs2 rs1 : RegIdx) (imm : BitVec 12) (s : State) : StepResult :=
  storeF s (Instr.fsd rs2 rs1 imm) 4 rs1 (s.cfg.xlen.immS 0 imm) 8 rs2

/-- FMADD.D fused multiply-add (R524). -/
def execFmaddD (rd rs1 rs2 rs3 : RegIdx) (rm : BitVec 3) (s : State) : StepResult :=
  fpRounded s (Instr.fmadd_d rd rs1 rs2 rs3 rm) rm fun r =>
    writeD s rd (fMulAdd .d r false false (s.valD rs1) (s.valD rs2) (s.valD rs3))

/-- FMSUB.D fused multiply-subtract (R525). -/
def execFmsubD (rd rs1 rs2 rs3 : RegIdx) (rm : BitVec 3) (s : State) : StepResult :=
  fpRounded s (Instr.fmsub_d rd rs1 rs2 rs3 rm) rm fun r =>
    writeD s rd (fMulAdd .d r false true (s.valD rs1) (s.valD rs2) (s.valD rs3))

/-- FNMSUB.D negated fused multiply-subtract (R526). -/
def execFnmsubD (rd rs1 rs2 rs3 : RegIdx) (rm : BitVec 3) (s : State) : StepResult :=
  fpRounded s (Instr.fnmsub_d rd rs1 rs2 rs3 rm) rm fun r =>
    writeD s rd (fMulAdd .d r true false (s.valD rs1) (s.valD rs2) (s.valD rs3))

/-- FNMADD.D negated fused multiply-add (R527). -/
def execFnmaddD (rd rs1 rs2 rs3 : RegIdx) (rm : BitVec 3) (s : State) : StepResult :=
  fpRounded s (Instr.fnmadd_d rd rs1 rs2 rs3 rm) rm fun r =>
    writeD s rd (fMulAdd .d r true true (s.valD rs1) (s.valD rs2) (s.valD rs3))

/-- FADD.D add (R528). -/
def execFaddD (rd rs1 rs2 : RegIdx) (rm : BitVec 3) (s : State) : StepResult :=
  fpRounded s (Instr.fadd_d rd rs1 rs2 rm) rm fun r =>
    writeD s rd (fAdd .d r (s.valD rs1) (s.valD rs2))

/-- FSUB.D subtract (R529). -/
def execFsubD (rd rs1 rs2 : RegIdx) (rm : BitVec 3) (s : State) : StepResult :=
  fpRounded s (Instr.fsub_d rd rs1 rs2 rm) rm fun r =>
    writeD s rd (fSub .d r (s.valD rs1) (s.valD rs2))

/-- FMUL.D multiply (R530). -/
def execFmulD (rd rs1 rs2 : RegIdx) (rm : BitVec 3) (s : State) : StepResult :=
  fpRounded s (Instr.fmul_d rd rs1 rs2 rm) rm fun r =>
    writeD s rd (fMul .d r (s.valD rs1) (s.valD rs2))

/-- FDIV.D divide (R531). -/
def execFdivD (rd rs1 rs2 : RegIdx) (rm : BitVec 3) (s : State) : StepResult :=
  fpRounded s (Instr.fdiv_d rd rs1 rs2 rm) rm fun r =>
    writeD s rd (fDiv .d r (s.valD rs1) (s.valD rs2))

/-- FSQRT.D square root (R532). -/
def execFsqrtD (rd rs1 : RegIdx) (rm : BitVec 3) (s : State) : StepResult :=
  fpRounded s (Instr.fsqrt_d rd rs1 rm) rm fun r => writeD s rd (fSqrt .d r (s.valD rs1))

/-- FSGNJ.D sign inject (R533). -/
def execFsgnjD (rd rs1 rs2 : RegIdx) (s : State) : StepResult :=
  fpGate s (Instr.fsgnj_d rd rs1 rs2) <|
    writeD s rd (exactly (withSign .d (FFmt.signOf .d (s.getF rs2)) (s.getF rs1)))

/-- FSGNJN.D sign inject negated (R534). -/
def execFsgnjnD (rd rs1 rs2 : RegIdx) (s : State) : StepResult :=
  fpGate s (Instr.fsgnjn_d rd rs1 rs2) <|
    writeD s rd (exactly (withSign .d (!FFmt.signOf .d (s.getF rs2)) (s.getF rs1)))

/-- FSGNJX.D sign inject exclusive-or (R535). -/
def execFsgnjxD (rd rs1 rs2 : RegIdx) (s : State) : StepResult :=
  fpGate s (Instr.fsgnjx_d rd rs1 rs2) <|
    writeD s rd (exactly (withSign .d (FFmt.signOf .d (s.getF rs1) != FFmt.signOf .d (s.getF rs2)) (s.getF rs1)))

/-- FMIN.D minimum (R536). -/
def execFminD (rd rs1 rs2 : RegIdx) (s : State) : StepResult :=
  fpGate s (Instr.fmin_d rd rs1 rs2) <| writeD s rd (fMin .d (s.getF rs1) (s.getF rs2))

/-- FMAX.D maximum (R537). -/
def execFmaxD (rd rs1 rs2 : RegIdx) (s : State) : StepResult :=
  fpGate s (Instr.fmax_d rd rs1 rs2) <| writeD s rd (fMax .d (s.getF rs1) (s.getF rs2))

/-- FCVT.S.D convert double to single (R538). -/
def execFcvtSD (rd rs1 : RegIdx) (rm : BitVec 3) (s : State) : StepResult :=
  fpRounded s (Instr.fcvt_s_d rd rs1 rm) rm fun r => writeS s rd (convert .s r (s.valD rs1))

/-- FCVT.D.S convert single to double (R539). -/
def execFcvtDS (rd rs1 : RegIdx) (rm : BitVec 3) (s : State) : StepResult :=
  fpRounded s (Instr.fcvt_d_s rd rs1 rm) rm fun r => writeD s rd (convert .d r (s.valS rs1))

/-- FEQ.D equal (R540). -/
def execFeqD (rd rs1 rs2 : RegIdx) (s : State) : StepResult :=
  fpGate s (Instr.feq_d rd rs1 rs2) <| writeCompare s rd (fEq (s.valD rs1) (s.valD rs2))

/-- FLT.D less than (R541). -/
def execFltD (rd rs1 rs2 : RegIdx) (s : State) : StepResult :=
  fpGate s (Instr.flt_d rd rs1 rs2) <| writeCompare s rd (fLt (s.valD rs1) (s.valD rs2))

/-- FLE.D less or equal (R542). -/
def execFleD (rd rs1 rs2 : RegIdx) (s : State) : StepResult :=
  fpGate s (Instr.fle_d rd rs1 rs2) <| writeCompare s rd (fLe (s.valD rs1) (s.valD rs2))

/-- FCLASS.D classify (R543). -/
def execFclassD (rd rs1 : RegIdx) (s : State) : StepResult :=
  fpGate s (Instr.fclass_d rd rs1) <| retireX s 4 rd (fClass .d (s.getF rs1))

/-- FCVT.W.D convert to signed word (R544). -/
def execFcvtWD (rd rs1 : RegIdx) (rm : BitVec 3) (s : State) : StepResult :=
  fpRounded s (Instr.fcvt_w_d rd rs1 rm) rm fun r => writeInteger s rd (toInteger r true 32 (s.valD rs1))

/-- FCVT.WU.D convert to unsigned word (R545). -/
def execFcvtWuD (rd rs1 : RegIdx) (rm : BitVec 3) (s : State) : StepResult :=
  fpRounded s (Instr.fcvt_wu_d rd rs1 rm) rm fun r => writeInteger s rd (toInteger r false 32 (s.valD rs1))

/-- FCVT.D.W convert from signed word (R546). -/
def execFcvtDW (rd rs1 : RegIdx) (rm : BitVec 3) (s : State) : StepResult :=
  fpRounded s (Instr.fcvt_d_w rd rs1 rm) rm fun r => writeD s rd (ofInteger .d r ((s.getX rs1).setWidth 32).toInt)

/-- FCVT.D.WU convert from unsigned word (R547). -/
def execFcvtDWu (rd rs1 : RegIdx) (rm : BitVec 3) (s : State) : StepResult :=
  fpRounded s (Instr.fcvt_d_wu rd rs1 rm) rm fun r => writeD s rd (ofInteger .d r ((s.getX rs1).setWidth 32).toNat)

/-- FCVT.L.D convert to signed doubleword (R548). -/
def execFcvtLD (rd rs1 : RegIdx) (rm : BitVec 3) (s : State) : StepResult :=
  fpRounded s (Instr.fcvt_l_d rd rs1 rm) rm fun r => writeInteger s rd (toInteger r true 64 (s.valD rs1))

/-- FCVT.LU.D convert to unsigned doubleword (R549). -/
def execFcvtLuD (rd rs1 : RegIdx) (rm : BitVec 3) (s : State) : StepResult :=
  fpRounded s (Instr.fcvt_lu_d rd rs1 rm) rm fun r => writeInteger s rd (toInteger r false 64 (s.valD rs1))

/-- FMV.X.D move bits to integer register (R550). -/
def execFmvXD (rd rs1 : RegIdx) (s : State) : StepResult :=
  fpGate s (Instr.fmv_x_d rd rs1) <| retireX s 4 rd (s.getF rs1)

/-- FCVT.D.L convert from signed doubleword (R551). -/
def execFcvtDL (rd rs1 : RegIdx) (rm : BitVec 3) (s : State) : StepResult :=
  fpRounded s (Instr.fcvt_d_l rd rs1 rm) rm fun r => writeD s rd (ofInteger .d r ((s.getX rs1).setWidth 64).toInt)

/-- FCVT.D.LU convert from unsigned doubleword (R552). -/
def execFcvtDLu (rd rs1 : RegIdx) (rm : BitVec 3) (s : State) : StepResult :=
  fpRounded s (Instr.fcvt_d_lu rd rs1 rm) rm fun r => writeD s rd (ofInteger .d r ((s.getX rs1).setWidth 64).toNat)

/-- FMV.D.X move bits from integer register (R553). -/
def execFmvDX (rd rs1 : RegIdx) (s : State) : StepResult :=
  fpGate s (Instr.fmv_d_x rd rs1) <| writeD s rd (exactly (s.getX rs1))

end Sys2Proof.Machine
end

