-- ==== Sys2Proof/Machine/FloatSingle.lean ====
section
/-! DEFINITION. Single-precision instructions (44_float_single.md). One definition per instruction. -/

namespace Sys2Proof.Machine

/-- FLW load single (R470). -/
def execFlw (rd rs1 : RegIdx) (imm : BitVec 12) (s : State) : StepResult :=
  loadS s (Instr.flw rd rs1 imm) 4 rd rs1 (s.cfg.xlen.immS 0 imm)

/-- FSW store single (R471). -/
def execFsw (rs2 rs1 : RegIdx) (imm : BitVec 12) (s : State) : StepResult :=
  storeF s (Instr.fsw rs2 rs1 imm) 4 rs1 (s.cfg.xlen.immS 0 imm) 4 rs2

/-- FMADD.S fused multiply-add (R472). -/
def execFmaddS (rd rs1 rs2 rs3 : RegIdx) (rm : BitVec 3) (s : State) : StepResult :=
  fpRounded s (Instr.fmadd_s rd rs1 rs2 rs3 rm) rm fun r =>
    writeS s rd (fMulAdd .s r false false (s.valS rs1) (s.valS rs2) (s.valS rs3))

/-- FMSUB.S fused multiply-subtract (R473). -/
def execFmsubS (rd rs1 rs2 rs3 : RegIdx) (rm : BitVec 3) (s : State) : StepResult :=
  fpRounded s (Instr.fmsub_s rd rs1 rs2 rs3 rm) rm fun r =>
    writeS s rd (fMulAdd .s r false true (s.valS rs1) (s.valS rs2) (s.valS rs3))

/-- FNMSUB.S negated fused multiply-subtract (R474). -/
def execFnmsubS (rd rs1 rs2 rs3 : RegIdx) (rm : BitVec 3) (s : State) : StepResult :=
  fpRounded s (Instr.fnmsub_s rd rs1 rs2 rs3 rm) rm fun r =>
    writeS s rd (fMulAdd .s r true false (s.valS rs1) (s.valS rs2) (s.valS rs3))

/-- FNMADD.S negated fused multiply-add (R475). -/
def execFnmaddS (rd rs1 rs2 rs3 : RegIdx) (rm : BitVec 3) (s : State) : StepResult :=
  fpRounded s (Instr.fnmadd_s rd rs1 rs2 rs3 rm) rm fun r =>
    writeS s rd (fMulAdd .s r true true (s.valS rs1) (s.valS rs2) (s.valS rs3))

/-- FADD.S add (R476). -/
def execFaddS (rd rs1 rs2 : RegIdx) (rm : BitVec 3) (s : State) : StepResult :=
  fpRounded s (Instr.fadd_s rd rs1 rs2 rm) rm fun r =>
    writeS s rd (fAdd .s r (s.valS rs1) (s.valS rs2))

/-- FSUB.S subtract (R477). -/
def execFsubS (rd rs1 rs2 : RegIdx) (rm : BitVec 3) (s : State) : StepResult :=
  fpRounded s (Instr.fsub_s rd rs1 rs2 rm) rm fun r =>
    writeS s rd (fSub .s r (s.valS rs1) (s.valS rs2))

/-- FMUL.S multiply (R478). -/
def execFmulS (rd rs1 rs2 : RegIdx) (rm : BitVec 3) (s : State) : StepResult :=
  fpRounded s (Instr.fmul_s rd rs1 rs2 rm) rm fun r =>
    writeS s rd (fMul .s r (s.valS rs1) (s.valS rs2))

/-- FDIV.S divide (R479). -/
def execFdivS (rd rs1 rs2 : RegIdx) (rm : BitVec 3) (s : State) : StepResult :=
  fpRounded s (Instr.fdiv_s rd rs1 rs2 rm) rm fun r =>
    writeS s rd (fDiv .s r (s.valS rs1) (s.valS rs2))

/-- FSQRT.S square root (R480). -/
def execFsqrtS (rd rs1 : RegIdx) (rm : BitVec 3) (s : State) : StepResult :=
  fpRounded s (Instr.fsqrt_s rd rs1 rm) rm fun r => writeS s rd (fSqrt .s r (s.valS rs1))

/-- FSGNJ.S sign inject (R481). -/
def execFsgnjS (rd rs1 rs2 : RegIdx) (s : State) : StepResult :=
  fpGate s (Instr.fsgnj_s rd rs1 rs2) <|
    writeS s rd (exactly (withSign .s (FFmt.signOf .s (s.getS rs2)) (s.getS rs1)))

/-- FSGNJN.S sign inject negated (R482). -/
def execFsgnjnS (rd rs1 rs2 : RegIdx) (s : State) : StepResult :=
  fpGate s (Instr.fsgnjn_s rd rs1 rs2) <|
    writeS s rd (exactly (withSign .s (!FFmt.signOf .s (s.getS rs2)) (s.getS rs1)))

/-- FSGNJX.S sign inject exclusive-or (R483). -/
def execFsgnjxS (rd rs1 rs2 : RegIdx) (s : State) : StepResult :=
  fpGate s (Instr.fsgnjx_s rd rs1 rs2) <|
    writeS s rd (exactly (withSign .s (FFmt.signOf .s (s.getS rs1) != FFmt.signOf .s (s.getS rs2)) (s.getS rs1)))

/-- FMIN.S minimum (R484). -/
def execFminS (rd rs1 rs2 : RegIdx) (s : State) : StepResult :=
  fpGate s (Instr.fmin_s rd rs1 rs2) <| writeS s rd (fMin .s (s.getS rs1) (s.getS rs2))

/-- FMAX.S maximum (R485). -/
def execFmaxS (rd rs1 rs2 : RegIdx) (s : State) : StepResult :=
  fpGate s (Instr.fmax_s rd rs1 rs2) <| writeS s rd (fMax .s (s.getS rs1) (s.getS rs2))

/-- FCVT.W.S convert to signed word (R486). -/
def execFcvtWS (rd rs1 : RegIdx) (rm : BitVec 3) (s : State) : StepResult :=
  fpRounded s (Instr.fcvt_w_s rd rs1 rm) rm fun r => writeInteger s rd (toInteger r true 32 (s.valS rs1))

/-- FCVT.WU.S convert to unsigned word (R487). -/
def execFcvtWuS (rd rs1 : RegIdx) (rm : BitVec 3) (s : State) : StepResult :=
  fpRounded s (Instr.fcvt_wu_s rd rs1 rm) rm fun r => writeInteger s rd (toInteger r false 32 (s.valS rs1))

/-- FMV.X.W move bits to integer register (R488). -/
def execFmvXW (rd rs1 : RegIdx) (s : State) : StepResult :=
  fpGate s (Instr.fmv_x_w rd rs1) <| retireX s 4 rd (s.cfg.xlen.sext (low32 (s.getF rs1)))

/-- FEQ.S equal (R489). -/
def execFeqS (rd rs1 rs2 : RegIdx) (s : State) : StepResult :=
  fpGate s (Instr.feq_s rd rs1 rs2) <| writeCompare s rd (fEq (s.valS rs1) (s.valS rs2))

/-- FLT.S less than (R490). -/
def execFltS (rd rs1 rs2 : RegIdx) (s : State) : StepResult :=
  fpGate s (Instr.flt_s rd rs1 rs2) <| writeCompare s rd (fLt (s.valS rs1) (s.valS rs2))

/-- FLE.S less or equal (R491). -/
def execFleS (rd rs1 rs2 : RegIdx) (s : State) : StepResult :=
  fpGate s (Instr.fle_s rd rs1 rs2) <| writeCompare s rd (fLe (s.valS rs1) (s.valS rs2))

/-- FCLASS.S classify (R492). -/
def execFclassS (rd rs1 : RegIdx) (s : State) : StepResult :=
  fpGate s (Instr.fclass_s rd rs1) <| retireX s 4 rd (fClass .s (s.getS rs1))

/-- FCVT.S.W convert from signed word (R493). -/
def execFcvtSW (rd rs1 : RegIdx) (rm : BitVec 3) (s : State) : StepResult :=
  fpRounded s (Instr.fcvt_s_w rd rs1 rm) rm fun r => writeS s rd (ofInteger .s r ((s.getX rs1).setWidth 32).toInt)

/-- FCVT.S.WU convert from unsigned word (R494). -/
def execFcvtSWu (rd rs1 : RegIdx) (rm : BitVec 3) (s : State) : StepResult :=
  fpRounded s (Instr.fcvt_s_wu rd rs1 rm) rm fun r => writeS s rd (ofInteger .s r ((s.getX rs1).setWidth 32).toNat)

/-- FMV.W.X move bits from integer register (R495). -/
def execFmvWX (rd rs1 : RegIdx) (s : State) : StepResult :=
  fpGate s (Instr.fmv_w_x rd rs1) <| writeS s rd (exactly (s.getX rs1))

/-- FCVT.L.S convert to signed doubleword (R496). -/
def execFcvtLS (rd rs1 : RegIdx) (rm : BitVec 3) (s : State) : StepResult :=
  fpRounded s (Instr.fcvt_l_s rd rs1 rm) rm fun r => writeInteger s rd (toInteger r true 64 (s.valS rs1))

/-- FCVT.LU.S convert to unsigned doubleword (R497). -/
def execFcvtLuS (rd rs1 : RegIdx) (rm : BitVec 3) (s : State) : StepResult :=
  fpRounded s (Instr.fcvt_lu_s rd rs1 rm) rm fun r => writeInteger s rd (toInteger r false 64 (s.valS rs1))

/-- FCVT.S.L convert from signed doubleword (R498). -/
def execFcvtSL (rd rs1 : RegIdx) (rm : BitVec 3) (s : State) : StepResult :=
  fpRounded s (Instr.fcvt_s_l rd rs1 rm) rm fun r => writeS s rd (ofInteger .s r ((s.getX rs1).setWidth 64).toInt)

/-- FCVT.S.LU convert from unsigned doubleword (R499). -/
def execFcvtSLu (rd rs1 : RegIdx) (rm : BitVec 3) (s : State) : StepResult :=
  fpRounded s (Instr.fcvt_s_lu rd rs1 rm) rm fun r => writeS s rd (ofInteger .s r ((s.getX rs1).setWidth 64).toNat)

end Sys2Proof.Machine
end

