-- ==== Sys2Proof/Machine/MulDiv.lean ====
section
/-! DEFINITION. Multiply and divide (42_muldiv.md). One definition per instruction. -/

namespace Sys2Proof.Machine

/-- MUL multiply, low half (R403). -/
def execMul (rd rs1 rs2 : RegIdx) (s : State) : StepResult :=
  retireX s 4 rd (s.cfg.xlen.lift2 mulLow (s.getX rs1) (s.getX rs2))

/-- MULH multiply high, signed × signed (R404). -/
def execMulh (rd rs1 rs2 : RegIdx) (s : State) : StepResult :=
  retireX s 4 rd (s.cfg.xlen.lift2 mulhSS (s.getX rs1) (s.getX rs2))

/-- MULHSU multiply high, signed × unsigned (R405). -/
def execMulhsu (rd rs1 rs2 : RegIdx) (s : State) : StepResult :=
  retireX s 4 rd (s.cfg.xlen.lift2 mulhSU (s.getX rs1) (s.getX rs2))

/-- MULHU multiply high, unsigned × unsigned (R406). -/
def execMulhu (rd rs1 rs2 : RegIdx) (s : State) : StepResult :=
  retireX s 4 rd (s.cfg.xlen.lift2 mulhUU (s.getX rs1) (s.getX rs2))

/-- DIV divide, signed (R407). -/
def execDiv (rd rs1 rs2 : RegIdx) (s : State) : StepResult :=
  retireX s 4 rd (s.cfg.xlen.lift2 divS (s.getX rs1) (s.getX rs2))

/-- DIVU divide, unsigned (R408). -/
def execDivu (rd rs1 rs2 : RegIdx) (s : State) : StepResult :=
  retireX s 4 rd (s.cfg.xlen.lift2 divU (s.getX rs1) (s.getX rs2))

/-- REM remainder, signed (R409). -/
def execRem (rd rs1 rs2 : RegIdx) (s : State) : StepResult :=
  retireX s 4 rd (s.cfg.xlen.lift2 remS (s.getX rs1) (s.getX rs2))

/-- REMU remainder, unsigned (R410). -/
def execRemu (rd rs1 rs2 : RegIdx) (s : State) : StepResult :=
  retireX s 4 rd (s.cfg.xlen.lift2 remU (s.getX rs1) (s.getX rs2))

/-- MULW multiply word (R411). -/
def execMulw (rd rs1 rs2 : RegIdx) (s : State) : StepResult :=
  retireX s 4 rd (s.cfg.xlen.sext (mulLow 32 (low32 (s.getX rs1)) (low32 (s.getX rs2))))

/-- DIVW divide word, signed (R412). -/
def execDivw (rd rs1 rs2 : RegIdx) (s : State) : StepResult :=
  retireX s 4 rd (s.cfg.xlen.sext (divS 32 (low32 (s.getX rs1)) (low32 (s.getX rs2))))

/-- DIVUW divide word, unsigned (R413). -/
def execDivuw (rd rs1 rs2 : RegIdx) (s : State) : StepResult :=
  retireX s 4 rd (s.cfg.xlen.sext (divU 32 (low32 (s.getX rs1)) (low32 (s.getX rs2))))

/-- REMW remainder word, signed (R414). -/
def execRemw (rd rs1 rs2 : RegIdx) (s : State) : StepResult :=
  retireX s 4 rd (s.cfg.xlen.sext (remS 32 (low32 (s.getX rs1)) (low32 (s.getX rs2))))

/-- REMUW remainder word, unsigned (R415). -/
def execRemuw (rd rs1 rs2 : RegIdx) (s : State) : StepResult :=
  retireX s 4 rd (s.cfg.xlen.sext (remU 32 (low32 (s.getX rs1)) (low32 (s.getX rs2))))

end Sys2Proof.Machine
end

