-- ==== Sys2Proof/Machine/System.lean ====
section
/-! DEFINITION. CSR access and privileged instructions (47_system_csr.md). One definition per instruction. -/

namespace Sys2Proof.Machine

/-- The common operation of the six CSR instructions (R639): the access check, the old value, the write, `x[rd] <- old`, and a retire that
does not advance a counter this instruction has written (10_state.md R44). -/
def csrOp (s : State) (i : Instr) (n : BitVec 12) (writes : Bool) (rd : RegIdx) (new : Word → Word) : StepResult :=
  match s.csrAccess n writes with
  | none => raiseIllegal s i
  | some r =>
    let old := s.readCsr r
    let t := if writes then s.writeCsr r (new old) else s
    .next (((t.setX rd old).goTo (s.pc + 4) .sequential none).count (!(writes && r.setsCycle)) (!(writes && r.setsInstret)))

/-- CSRRW atomic read and write CSR (R632). -/
def execCsrrw (rd : RegIdx) (csr : BitVec 12) (rs1 : RegIdx) (s : State) : StepResult :=
  csrOp s (Instr.csrrw rd csr rs1) csr true rd fun _ => s.getX rs1

/-- CSRRS atomic read and set bits in CSR (R633). -/
def execCsrrs (rd : RegIdx) (csr : BitVec 12) (rs1 : RegIdx) (s : State) : StepResult :=
  csrOp s (Instr.csrrs rd csr rs1) csr (rs1 != 0#5) rd fun old => old ||| s.getX rs1

/-- CSRRC atomic read and clear bits in CSR (R634). -/
def execCsrrc (rd : RegIdx) (csr : BitVec 12) (rs1 : RegIdx) (s : State) : StepResult :=
  csrOp s (Instr.csrrc rd csr rs1) csr (rs1 != 0#5) rd fun old => old &&& ~~~s.getX rs1

/-- CSRRWI atomic read and write CSR, immediate (R635). -/
def execCsrrwi (rd : RegIdx) (csr : BitVec 12) (uimm : BitVec 5) (s : State) : StepResult :=
  csrOp s (Instr.csrrwi rd csr uimm) csr true rd fun _ => uimm.setWidth 64

/-- CSRRSI atomic read and set bits in CSR, immediate (R636). -/
def execCsrrsi (rd : RegIdx) (csr : BitVec 12) (uimm : BitVec 5) (s : State) : StepResult :=
  csrOp s (Instr.csrrsi rd csr uimm) csr (uimm != 0#5) rd fun old => old ||| uimm.setWidth 64

/-- CSRRCI atomic read and clear bits in CSR, immediate (R637). -/
def execCsrrci (rd : RegIdx) (csr : BitVec 12) (uimm : BitVec 5) (s : State) : StepResult :=
  csrOp s (Instr.csrrci rd csr uimm) csr (uimm != 0#5) rd fun old => old &&& ~~~(uimm.setWidth 64)

/-- MRET return from a machine-mode trap (R640). The record of this jump carries no register numbers (80_interfaces.md R813 is silent for the
returns: DESIGN CHOICE, log 29). -/
def execMret (s : State) : StepResult :=
  if s.priv != .M then raiseIllegal s Instr.mret
  else retireTo (returnM s) s.csr.mepc .jump none

/-- SRET return from a supervisor-mode trap (R641); no register numbers in the record (DESIGN CHOICE, log 29). -/
def execSret (s : State) : StepResult :=
  if s.priv == .U || (s.priv == .S && getBit posTSR s.csr.mstatus) then raiseIllegal s Instr.sret
  else retireTo (returnS s) s.csr.sepc .jump none

/-- WFI wait for interrupt (R642). -/
def execWfi (s : State) : StepResult :=
  if s.priv != .M && getBit posTW s.csr.mstatus then raiseIllegal s Instr.wfi
  else retire { s with powerDown := true } 4

/-- SFENCE.VMA supervisor address-translation fence (R644). -/
def execSfenceVma (rs1 rs2 : RegIdx) (s : State) : StepResult :=
  if s.priv == .U || (s.priv == .S && getBit posTVM s.csr.mstatus) then raiseIllegal s (Instr.sfence_vma rs1 rs2)
  else retire s.flushAll 4

end Sys2Proof.Machine
end

