-- ==== Sys2Proof/Machine/Dispatch.lean ====
section
/-! DEFINITION. The dispatch: one arm per constructor of Instr, each one direct call of its meaning. -/

namespace Sys2Proof.Machine

def exec (i : Instr) (s : State) : Host.Outcome State Fault Refusal :=
  match i with
  | .lui rd imm => Sys2Proof.Machine.execLui rd imm s
  | .auipc rd imm => Sys2Proof.Machine.execAuipc rd imm s
  | .jal rd imm => Sys2Proof.Machine.execJal rd imm s
  | .jalr rd rs1 imm => Sys2Proof.Machine.execJalr rd rs1 imm s
  | .beq rs1 rs2 imm => Sys2Proof.Machine.execBeq rs1 rs2 imm s
  | .bne rs1 rs2 imm => Sys2Proof.Machine.execBne rs1 rs2 imm s
  | .blt rs1 rs2 imm => Sys2Proof.Machine.execBlt rs1 rs2 imm s
  | .bge rs1 rs2 imm => Sys2Proof.Machine.execBge rs1 rs2 imm s
  | .bltu rs1 rs2 imm => Sys2Proof.Machine.execBltu rs1 rs2 imm s
  | .bgeu rs1 rs2 imm => Sys2Proof.Machine.execBgeu rs1 rs2 imm s
  | .lb rd rs1 imm => Sys2Proof.Machine.execLb rd rs1 imm s
  | .lh rd rs1 imm => Sys2Proof.Machine.execLh rd rs1 imm s
  | .lw rd rs1 imm => Sys2Proof.Machine.execLw rd rs1 imm s
  | .lbu rd rs1 imm => Sys2Proof.Machine.execLbu rd rs1 imm s
  | .lhu rd rs1 imm => Sys2Proof.Machine.execLhu rd rs1 imm s
  | .sb rs2 rs1 imm => Sys2Proof.Machine.execSb rs2 rs1 imm s
  | .sh rs2 rs1 imm => Sys2Proof.Machine.execSh rs2 rs1 imm s
  | .sw rs2 rs1 imm => Sys2Proof.Machine.execSw rs2 rs1 imm s
  | .addi rd rs1 imm => Sys2Proof.Machine.execAddi rd rs1 imm s
  | .slti rd rs1 imm => Sys2Proof.Machine.execSlti rd rs1 imm s
  | .sltiu rd rs1 imm => Sys2Proof.Machine.execSltiu rd rs1 imm s
  | .xori rd rs1 imm => Sys2Proof.Machine.execXori rd rs1 imm s
  | .ori rd rs1 imm => Sys2Proof.Machine.execOri rd rs1 imm s
  | .andi rd rs1 imm => Sys2Proof.Machine.execAndi rd rs1 imm s
  | .slli rd rs1 shamt => Sys2Proof.Machine.execSlli rd rs1 shamt s
  | .srli rd rs1 shamt => Sys2Proof.Machine.execSrli rd rs1 shamt s
  | .srai rd rs1 shamt => Sys2Proof.Machine.execSrai rd rs1 shamt s
  | .add rd rs1 rs2 => Sys2Proof.Machine.execAdd rd rs1 rs2 s
  | .sub rd rs1 rs2 => Sys2Proof.Machine.execSub rd rs1 rs2 s
  | .sll rd rs1 rs2 => Sys2Proof.Machine.execSll rd rs1 rs2 s
  | .slt rd rs1 rs2 => Sys2Proof.Machine.execSlt rd rs1 rs2 s
  | .sltu rd rs1 rs2 => Sys2Proof.Machine.execSltu rd rs1 rs2 s
  | .xor rd rs1 rs2 => Sys2Proof.Machine.execXor rd rs1 rs2 s
  | .srl rd rs1 rs2 => Sys2Proof.Machine.execSrl rd rs1 rs2 s
  | .sra rd rs1 rs2 => Sys2Proof.Machine.execSra rd rs1 rs2 s
  | .or rd rs1 rs2 => Sys2Proof.Machine.execOr rd rs1 rs2 s
  | .and rd rs1 rs2 => Sys2Proof.Machine.execAnd rd rs1 rs2 s
  | .fence fm pred succ rs1 rd => Sys2Proof.Machine.execFence fm pred succ rs1 rd s
  | .fence_i imm rs1 rd => Sys2Proof.Machine.execFenceI imm rs1 rd s
  | .lwu rd rs1 imm => Sys2Proof.Machine.execLwu rd rs1 imm s
  | .ld rd rs1 imm => Sys2Proof.Machine.execLd rd rs1 imm s
  | .sd rs2 rs1 imm => Sys2Proof.Machine.execSd rs2 rs1 imm s
  | .addiw rd rs1 imm => Sys2Proof.Machine.execAddiw rd rs1 imm s
  | .slliw rd rs1 shamt => Sys2Proof.Machine.execSlliw rd rs1 shamt s
  | .srliw rd rs1 shamt => Sys2Proof.Machine.execSrliw rd rs1 shamt s
  | .sraiw rd rs1 shamt => Sys2Proof.Machine.execSraiw rd rs1 shamt s
  | .addw rd rs1 rs2 => Sys2Proof.Machine.execAddw rd rs1 rs2 s
  | .subw rd rs1 rs2 => Sys2Proof.Machine.execSubw rd rs1 rs2 s
  | .sllw rd rs1 rs2 => Sys2Proof.Machine.execSllw rd rs1 rs2 s
  | .srlw rd rs1 rs2 => Sys2Proof.Machine.execSrlw rd rs1 rs2 s
  | .sraw rd rs1 rs2 => Sys2Proof.Machine.execSraw rd rs1 rs2 s
  | .c_addi4spn rd imm => Sys2Proof.Machine.execCAddi4spn rd imm s
  | .c_fld rd rs1 imm => Sys2Proof.Machine.execCFld rd rs1 imm s
  | .c_lw rd rs1 imm => Sys2Proof.Machine.execCLw rd rs1 imm s
  | .c_flw rd rs1 imm => Sys2Proof.Machine.execCFlw rd rs1 imm s
  | .c_ld rd rs1 imm => Sys2Proof.Machine.execCLd rd rs1 imm s
  | .c_fsd rs2 rs1 imm => Sys2Proof.Machine.execCFsd rs2 rs1 imm s
  | .c_sw rs2 rs1 imm => Sys2Proof.Machine.execCSw rs2 rs1 imm s
  | .c_fsw rs2 rs1 imm => Sys2Proof.Machine.execCFsw rs2 rs1 imm s
  | .c_sd rs2 rs1 imm => Sys2Proof.Machine.execCSd rs2 rs1 imm s
  | .c_nop imm => Sys2Proof.Machine.execCNop imm s
  | .c_addi rd imm => Sys2Proof.Machine.execCAddi rd imm s
  | .c_jal imm => Sys2Proof.Machine.execCJal imm s
  | .c_addiw rd imm => Sys2Proof.Machine.execCAddiw rd imm s
  | .c_li rd imm => Sys2Proof.Machine.execCLi rd imm s
  | .c_addi16sp imm => Sys2Proof.Machine.execCAddi16sp imm s
  | .c_lui rd imm => Sys2Proof.Machine.execCLui rd imm s
  | .c_srli rd shamt => Sys2Proof.Machine.execCSrli rd shamt s
  | .c_srai rd shamt => Sys2Proof.Machine.execCSrai rd shamt s
  | .c_andi rd imm => Sys2Proof.Machine.execCAndi rd imm s
  | .c_sub rd rs2 => Sys2Proof.Machine.execCSub rd rs2 s
  | .c_xor rd rs2 => Sys2Proof.Machine.execCXor rd rs2 s
  | .c_or rd rs2 => Sys2Proof.Machine.execCOr rd rs2 s
  | .c_and rd rs2 => Sys2Proof.Machine.execCAnd rd rs2 s
  | .c_subw rd rs2 => Sys2Proof.Machine.execCSubw rd rs2 s
  | .c_addw rd rs2 => Sys2Proof.Machine.execCAddw rd rs2 s
  | .c_j imm => Sys2Proof.Machine.execCJ imm s
  | .c_beqz rs1 imm => Sys2Proof.Machine.execCBeqz rs1 imm s
  | .c_bnez rs1 imm => Sys2Proof.Machine.execCBnez rs1 imm s
  | .c_slli rd shamt => Sys2Proof.Machine.execCSlli rd shamt s
  | .c_fldsp rd imm => Sys2Proof.Machine.execCFldsp rd imm s
  | .c_lwsp rd imm => Sys2Proof.Machine.execCLwsp rd imm s
  | .c_flwsp rd imm => Sys2Proof.Machine.execCFlwsp rd imm s
  | .c_ldsp rd imm => Sys2Proof.Machine.execCLdsp rd imm s
  | .c_jr rs1 => Sys2Proof.Machine.execCJr rs1 s
  | .c_mv rd rs2 => Sys2Proof.Machine.execCMv rd rs2 s
  | .c_jalr rs1 => Sys2Proof.Machine.execCJalr rs1 s
  | .c_add rd rs2 => Sys2Proof.Machine.execCAdd rd rs2 s
  | .c_fsdsp rs2 imm => Sys2Proof.Machine.execCFsdsp rs2 imm s
  | .c_swsp rs2 imm => Sys2Proof.Machine.execCSwsp rs2 imm s
  | .c_fswsp rs2 imm => Sys2Proof.Machine.execCFswsp rs2 imm s
  | .c_sdsp rs2 imm => Sys2Proof.Machine.execCSdsp rs2 imm s
  | .mul rd rs1 rs2 => Sys2Proof.Machine.execMul rd rs1 rs2 s
  | .mulh rd rs1 rs2 => Sys2Proof.Machine.execMulh rd rs1 rs2 s
  | .mulhsu rd rs1 rs2 => Sys2Proof.Machine.execMulhsu rd rs1 rs2 s
  | .mulhu rd rs1 rs2 => Sys2Proof.Machine.execMulhu rd rs1 rs2 s
  | .div rd rs1 rs2 => Sys2Proof.Machine.execDiv rd rs1 rs2 s
  | .divu rd rs1 rs2 => Sys2Proof.Machine.execDivu rd rs1 rs2 s
  | .rem rd rs1 rs2 => Sys2Proof.Machine.execRem rd rs1 rs2 s
  | .remu rd rs1 rs2 => Sys2Proof.Machine.execRemu rd rs1 rs2 s
  | .mulw rd rs1 rs2 => Sys2Proof.Machine.execMulw rd rs1 rs2 s
  | .divw rd rs1 rs2 => Sys2Proof.Machine.execDivw rd rs1 rs2 s
  | .divuw rd rs1 rs2 => Sys2Proof.Machine.execDivuw rd rs1 rs2 s
  | .remw rd rs1 rs2 => Sys2Proof.Machine.execRemw rd rs1 rs2 s
  | .remuw rd rs1 rs2 => Sys2Proof.Machine.execRemuw rd rs1 rs2 s
  | .lr_w rd rs1 aq rl => Sys2Proof.Machine.execLrW rd rs1 aq rl s
  | .sc_w rd rs1 rs2 aq rl => Sys2Proof.Machine.execScW rd rs1 rs2 aq rl s
  | .amoswap_w rd rs1 rs2 aq rl => Sys2Proof.Machine.execAmoswapW rd rs1 rs2 aq rl s
  | .amoadd_w rd rs1 rs2 aq rl => Sys2Proof.Machine.execAmoaddW rd rs1 rs2 aq rl s
  | .amoxor_w rd rs1 rs2 aq rl => Sys2Proof.Machine.execAmoxorW rd rs1 rs2 aq rl s
  | .amoand_w rd rs1 rs2 aq rl => Sys2Proof.Machine.execAmoandW rd rs1 rs2 aq rl s
  | .amoor_w rd rs1 rs2 aq rl => Sys2Proof.Machine.execAmoorW rd rs1 rs2 aq rl s
  | .amomin_w rd rs1 rs2 aq rl => Sys2Proof.Machine.execAmominW rd rs1 rs2 aq rl s
  | .amomax_w rd rs1 rs2 aq rl => Sys2Proof.Machine.execAmomaxW rd rs1 rs2 aq rl s
  | .amominu_w rd rs1 rs2 aq rl => Sys2Proof.Machine.execAmominuW rd rs1 rs2 aq rl s
  | .amomaxu_w rd rs1 rs2 aq rl => Sys2Proof.Machine.execAmomaxuW rd rs1 rs2 aq rl s
  | .lr_d rd rs1 aq rl => Sys2Proof.Machine.execLrD rd rs1 aq rl s
  | .sc_d rd rs1 rs2 aq rl => Sys2Proof.Machine.execScD rd rs1 rs2 aq rl s
  | .amoswap_d rd rs1 rs2 aq rl => Sys2Proof.Machine.execAmoswapD rd rs1 rs2 aq rl s
  | .amoadd_d rd rs1 rs2 aq rl => Sys2Proof.Machine.execAmoaddD rd rs1 rs2 aq rl s
  | .amoxor_d rd rs1 rs2 aq rl => Sys2Proof.Machine.execAmoxorD rd rs1 rs2 aq rl s
  | .amoand_d rd rs1 rs2 aq rl => Sys2Proof.Machine.execAmoandD rd rs1 rs2 aq rl s
  | .amoor_d rd rs1 rs2 aq rl => Sys2Proof.Machine.execAmoorD rd rs1 rs2 aq rl s
  | .amomin_d rd rs1 rs2 aq rl => Sys2Proof.Machine.execAmominD rd rs1 rs2 aq rl s
  | .amomax_d rd rs1 rs2 aq rl => Sys2Proof.Machine.execAmomaxD rd rs1 rs2 aq rl s
  | .amominu_d rd rs1 rs2 aq rl => Sys2Proof.Machine.execAmominuD rd rs1 rs2 aq rl s
  | .amomaxu_d rd rs1 rs2 aq rl => Sys2Proof.Machine.execAmomaxuD rd rs1 rs2 aq rl s
  | .flw rd rs1 imm => Sys2Proof.Machine.execFlw rd rs1 imm s
  | .fsw rs2 rs1 imm => Sys2Proof.Machine.execFsw rs2 rs1 imm s
  | .fmadd_s rd rs1 rs2 rs3 rm => Sys2Proof.Machine.execFmaddS rd rs1 rs2 rs3 rm s
  | .fmsub_s rd rs1 rs2 rs3 rm => Sys2Proof.Machine.execFmsubS rd rs1 rs2 rs3 rm s
  | .fnmsub_s rd rs1 rs2 rs3 rm => Sys2Proof.Machine.execFnmsubS rd rs1 rs2 rs3 rm s
  | .fnmadd_s rd rs1 rs2 rs3 rm => Sys2Proof.Machine.execFnmaddS rd rs1 rs2 rs3 rm s
  | .fadd_s rd rs1 rs2 rm => Sys2Proof.Machine.execFaddS rd rs1 rs2 rm s
  | .fsub_s rd rs1 rs2 rm => Sys2Proof.Machine.execFsubS rd rs1 rs2 rm s
  | .fmul_s rd rs1 rs2 rm => Sys2Proof.Machine.execFmulS rd rs1 rs2 rm s
  | .fdiv_s rd rs1 rs2 rm => Sys2Proof.Machine.execFdivS rd rs1 rs2 rm s
  | .fsqrt_s rd rs1 rm => Sys2Proof.Machine.execFsqrtS rd rs1 rm s
  | .fsgnj_s rd rs1 rs2 => Sys2Proof.Machine.execFsgnjS rd rs1 rs2 s
  | .fsgnjn_s rd rs1 rs2 => Sys2Proof.Machine.execFsgnjnS rd rs1 rs2 s
  | .fsgnjx_s rd rs1 rs2 => Sys2Proof.Machine.execFsgnjxS rd rs1 rs2 s
  | .fmin_s rd rs1 rs2 => Sys2Proof.Machine.execFminS rd rs1 rs2 s
  | .fmax_s rd rs1 rs2 => Sys2Proof.Machine.execFmaxS rd rs1 rs2 s
  | .fcvt_w_s rd rs1 rm => Sys2Proof.Machine.execFcvtWS rd rs1 rm s
  | .fcvt_wu_s rd rs1 rm => Sys2Proof.Machine.execFcvtWuS rd rs1 rm s
  | .fmv_x_w rd rs1 => Sys2Proof.Machine.execFmvXW rd rs1 s
  | .feq_s rd rs1 rs2 => Sys2Proof.Machine.execFeqS rd rs1 rs2 s
  | .flt_s rd rs1 rs2 => Sys2Proof.Machine.execFltS rd rs1 rs2 s
  | .fle_s rd rs1 rs2 => Sys2Proof.Machine.execFleS rd rs1 rs2 s
  | .fclass_s rd rs1 => Sys2Proof.Machine.execFclassS rd rs1 s
  | .fcvt_s_w rd rs1 rm => Sys2Proof.Machine.execFcvtSW rd rs1 rm s
  | .fcvt_s_wu rd rs1 rm => Sys2Proof.Machine.execFcvtSWu rd rs1 rm s
  | .fmv_w_x rd rs1 => Sys2Proof.Machine.execFmvWX rd rs1 s
  | .fcvt_l_s rd rs1 rm => Sys2Proof.Machine.execFcvtLS rd rs1 rm s
  | .fcvt_lu_s rd rs1 rm => Sys2Proof.Machine.execFcvtLuS rd rs1 rm s
  | .fcvt_s_l rd rs1 rm => Sys2Proof.Machine.execFcvtSL rd rs1 rm s
  | .fcvt_s_lu rd rs1 rm => Sys2Proof.Machine.execFcvtSLu rd rs1 rm s
  | .fld rd rs1 imm => Sys2Proof.Machine.execFld rd rs1 imm s
  | .fsd rs2 rs1 imm => Sys2Proof.Machine.execFsd rs2 rs1 imm s
  | .fmadd_d rd rs1 rs2 rs3 rm => Sys2Proof.Machine.execFmaddD rd rs1 rs2 rs3 rm s
  | .fmsub_d rd rs1 rs2 rs3 rm => Sys2Proof.Machine.execFmsubD rd rs1 rs2 rs3 rm s
  | .fnmsub_d rd rs1 rs2 rs3 rm => Sys2Proof.Machine.execFnmsubD rd rs1 rs2 rs3 rm s
  | .fnmadd_d rd rs1 rs2 rs3 rm => Sys2Proof.Machine.execFnmaddD rd rs1 rs2 rs3 rm s
  | .fadd_d rd rs1 rs2 rm => Sys2Proof.Machine.execFaddD rd rs1 rs2 rm s
  | .fsub_d rd rs1 rs2 rm => Sys2Proof.Machine.execFsubD rd rs1 rs2 rm s
  | .fmul_d rd rs1 rs2 rm => Sys2Proof.Machine.execFmulD rd rs1 rs2 rm s
  | .fdiv_d rd rs1 rs2 rm => Sys2Proof.Machine.execFdivD rd rs1 rs2 rm s
  | .fsqrt_d rd rs1 rm => Sys2Proof.Machine.execFsqrtD rd rs1 rm s
  | .fsgnj_d rd rs1 rs2 => Sys2Proof.Machine.execFsgnjD rd rs1 rs2 s
  | .fsgnjn_d rd rs1 rs2 => Sys2Proof.Machine.execFsgnjnD rd rs1 rs2 s
  | .fsgnjx_d rd rs1 rs2 => Sys2Proof.Machine.execFsgnjxD rd rs1 rs2 s
  | .fmin_d rd rs1 rs2 => Sys2Proof.Machine.execFminD rd rs1 rs2 s
  | .fmax_d rd rs1 rs2 => Sys2Proof.Machine.execFmaxD rd rs1 rs2 s
  | .fcvt_s_d rd rs1 rm => Sys2Proof.Machine.execFcvtSD rd rs1 rm s
  | .fcvt_d_s rd rs1 rm => Sys2Proof.Machine.execFcvtDS rd rs1 rm s
  | .feq_d rd rs1 rs2 => Sys2Proof.Machine.execFeqD rd rs1 rs2 s
  | .flt_d rd rs1 rs2 => Sys2Proof.Machine.execFltD rd rs1 rs2 s
  | .fle_d rd rs1 rs2 => Sys2Proof.Machine.execFleD rd rs1 rs2 s
  | .fclass_d rd rs1 => Sys2Proof.Machine.execFclassD rd rs1 s
  | .fcvt_w_d rd rs1 rm => Sys2Proof.Machine.execFcvtWD rd rs1 rm s
  | .fcvt_wu_d rd rs1 rm => Sys2Proof.Machine.execFcvtWuD rd rs1 rm s
  | .fcvt_d_w rd rs1 rm => Sys2Proof.Machine.execFcvtDW rd rs1 rm s
  | .fcvt_d_wu rd rs1 rm => Sys2Proof.Machine.execFcvtDWu rd rs1 rm s
  | .fcvt_l_d rd rs1 rm => Sys2Proof.Machine.execFcvtLD rd rs1 rm s
  | .fcvt_lu_d rd rs1 rm => Sys2Proof.Machine.execFcvtLuD rd rs1 rm s
  | .fmv_x_d rd rs1 => Sys2Proof.Machine.execFmvXD rd rs1 s
  | .fcvt_d_l rd rs1 rm => Sys2Proof.Machine.execFcvtDL rd rs1 rm s
  | .fcvt_d_lu rd rs1 rm => Sys2Proof.Machine.execFcvtDLu rd rs1 rm s
  | .fmv_d_x rd rs1 => Sys2Proof.Machine.execFmvDX rd rs1 s
  | .sh1add rd rs1 rs2 => Sys2Proof.Machine.execSh1add rd rs1 rs2 s
  | .sh2add rd rs1 rs2 => Sys2Proof.Machine.execSh2add rd rs1 rs2 s
  | .sh3add rd rs1 rs2 => Sys2Proof.Machine.execSh3add rd rs1 rs2 s
  | .add_uw rd rs1 rs2 => Sys2Proof.Machine.execAddUw rd rs1 rs2 s
  | .sh1add_uw rd rs1 rs2 => Sys2Proof.Machine.execSh1addUw rd rs1 rs2 s
  | .sh2add_uw rd rs1 rs2 => Sys2Proof.Machine.execSh2addUw rd rs1 rs2 s
  | .sh3add_uw rd rs1 rs2 => Sys2Proof.Machine.execSh3addUw rd rs1 rs2 s
  | .slli_uw rd rs1 shamt => Sys2Proof.Machine.execSlliUw rd rs1 shamt s
  | .andn rd rs1 rs2 => Sys2Proof.Machine.execAndn rd rs1 rs2 s
  | .orn rd rs1 rs2 => Sys2Proof.Machine.execOrn rd rs1 rs2 s
  | .xnor rd rs1 rs2 => Sys2Proof.Machine.execXnor rd rs1 rs2 s
  | .clz rd rs1 => Sys2Proof.Machine.execClz rd rs1 s
  | .ctz rd rs1 => Sys2Proof.Machine.execCtz rd rs1 s
  | .cpop rd rs1 => Sys2Proof.Machine.execCpop rd rs1 s
  | .clzw rd rs1 => Sys2Proof.Machine.execClzw rd rs1 s
  | .ctzw rd rs1 => Sys2Proof.Machine.execCtzw rd rs1 s
  | .cpopw rd rs1 => Sys2Proof.Machine.execCpopw rd rs1 s
  | .max rd rs1 rs2 => Sys2Proof.Machine.execMax rd rs1 rs2 s
  | .maxu rd rs1 rs2 => Sys2Proof.Machine.execMaxu rd rs1 rs2 s
  | .min rd rs1 rs2 => Sys2Proof.Machine.execMin rd rs1 rs2 s
  | .minu rd rs1 rs2 => Sys2Proof.Machine.execMinu rd rs1 rs2 s
  | .sext_b rd rs1 => Sys2Proof.Machine.execSextB rd rs1 s
  | .sext_h rd rs1 => Sys2Proof.Machine.execSextH rd rs1 s
  | .zext_h rd rs1 => Sys2Proof.Machine.execZextH rd rs1 s
  | .rol rd rs1 rs2 => Sys2Proof.Machine.execRol rd rs1 rs2 s
  | .ror rd rs1 rs2 => Sys2Proof.Machine.execRor rd rs1 rs2 s
  | .rori rd rs1 shamt => Sys2Proof.Machine.execRori rd rs1 shamt s
  | .rolw rd rs1 rs2 => Sys2Proof.Machine.execRolw rd rs1 rs2 s
  | .rorw rd rs1 rs2 => Sys2Proof.Machine.execRorw rd rs1 rs2 s
  | .roriw rd rs1 shamt => Sys2Proof.Machine.execRoriw rd rs1 shamt s
  | .orc_b rd rs1 => Sys2Proof.Machine.execOrcB rd rs1 s
  | .rev8 rd rs1 => Sys2Proof.Machine.execRev8 rd rs1 s
  | .clmul rd rs1 rs2 => Sys2Proof.Machine.execClmul rd rs1 rs2 s
  | .clmulh rd rs1 rs2 => Sys2Proof.Machine.execClmulh rd rs1 rs2 s
  | .clmulr rd rs1 rs2 => Sys2Proof.Machine.execClmulr rd rs1 rs2 s
  | .bclr rd rs1 rs2 => Sys2Proof.Machine.execBclr rd rs1 rs2 s
  | .bclri rd rs1 shamt => Sys2Proof.Machine.execBclri rd rs1 shamt s
  | .bext rd rs1 rs2 => Sys2Proof.Machine.execBext rd rs1 rs2 s
  | .bexti rd rs1 shamt => Sys2Proof.Machine.execBexti rd rs1 shamt s
  | .binv rd rs1 rs2 => Sys2Proof.Machine.execBinv rd rs1 rs2 s
  | .binvi rd rs1 shamt => Sys2Proof.Machine.execBinvi rd rs1 shamt s
  | .bset rd rs1 rs2 => Sys2Proof.Machine.execBset rd rs1 rs2 s
  | .bseti rd rs1 shamt => Sys2Proof.Machine.execBseti rd rs1 shamt s
  | .csrrw rd csr rs1 => Sys2Proof.Machine.execCsrrw rd csr rs1 s
  | .csrrs rd csr rs1 => Sys2Proof.Machine.execCsrrs rd csr rs1 s
  | .csrrc rd csr rs1 => Sys2Proof.Machine.execCsrrc rd csr rs1 s
  | .csrrwi rd csr uimm => Sys2Proof.Machine.execCsrrwi rd csr uimm s
  | .csrrsi rd csr uimm => Sys2Proof.Machine.execCsrrsi rd csr uimm s
  | .csrrci rd csr uimm => Sys2Proof.Machine.execCsrrci rd csr uimm s
  | .sfence_vma rs1 rs2 => Sys2Proof.Machine.execSfenceVma rs1 rs2 s
  | .ecall => Sys2Proof.Machine.execEcall s
  | .ebreak => Sys2Proof.Machine.execEbreak s
  | .c_ebreak => Sys2Proof.Machine.execCEbreak s
  | .mret => Sys2Proof.Machine.execMret s
  | .sret => Sys2Proof.Machine.execSret s
  | .wfi => Sys2Proof.Machine.execWfi s

end Sys2Proof.Machine
end

