-- ==== Sys2Proof/Machine/Step.lean ====
section
/-! DEFINITION. One step of the machine (60_exceptions.md R700), and how a program's word is placed where the next step fetches it. -/

namespace Sys2Proof.Machine

/-- Lines 4 to 6 of R700: select the row of the fetched word and perform it, or raise, or refuse (30_encoding.md R207, R208). -/
def stepInsn (s : State) (n : Insn) : StepResult :=
  match decode s.cfg n with
  | some i => exec i s
  | none => if s.refusesVector n then .refused .vectorEncoding else raiseUndecoded s n

/-- Lines 3 to 6 of R700: fetch, note the word in the trace record, go on. -/
def stepFetch (s : State) : StepResult :=
  match fetch s with
  | .raise c t s' => raise s' c t
  | .ok n s' => stepInsn (noteInsn s' n) n

/-- Lines 1 and 2 of R700, then the rest: power-down, interrupt selection, instruction. -/
def stepHart (s : State) : StepResult :=
  if s.asleep then .next s
  else
    match selectInterrupt s.wake with
    | some i => .next (takeInterrupt s.wake i)
    | none => stepFetch s.wake

/-- One step: the inputs that come before it, then the active hart's step. A machine with an invalid configuration has no step
(70_reset_and_hazards.md R771); one with the vendor extension is refused (48_vector_custom.md R662). -/
def step (s : State) : Host.Outcome State Fault Refusal :=
  if s.cfg.valid then
    if s.cfg.vendorExt then .refused .vendorExtension else stepHart (openReport (takeInputs s))
  else .fault .configurationError

/-- The instruction whose opcode-table bits are `w`, stored where the next step fetches (the bits above `nbits` zero); the machine at
XLEN = 32 when only that one has the row (log 10, log 11). -/
def State.withFetchWord (s : State) (nbits w : Nat) : State :=
  let v := BitVec.ofNat 32 (w % 2 ^ nbits)
  placeWord { s with cfg := { s.cfg with xlen := xlenOfWord s.cfg (insnOfTable (w % 2 ^ nbits)) } } v

end Sys2Proof.Machine
end

