-- ==== Sys2Proof/Machine/Driver.lean ====
section
/-! DEFINITION. What stands around the step: the driver's `execute` and its rounds (80_interfaces.md R812), and the co-simulation step
(R817). No rule of the engine reads them. -/

namespace Sys2Proof.Machine

/-- A write by a CSR instruction to mstatus, sstatus or misa, or WFI: after it the call returns to the driver (R812). -/
def endsBatch (i : Instr) : Bool :=
  let special (n : BitVec 12) : Bool := n == 0x300 || n == 0x100 || n == 0x301
  match i with
  | .wfi => true
  | .csrrw _ n _ | .csrrwi _ n _ => special n
  | .csrrs _ n r | .csrrc _ n r => special n && r != 0#5
  | .csrrsi _ n u | .csrrci _ n u => special n && u != 0#5
  | _ => false

/-- The instruction the last step fetched. -/
def lastInstr (s : State) : Option Instr :=
  match s.out.insn with
  | some n => decode s.cfg n
  | none => none

/-- An input that chooses a hart. -/
def Input.isSwitch : Input → Bool
  | .switchHart _ => true
  | .mip _ _ _ | .time _ | .writeRam _ _ | .cacheFill _ _ _ => false

/-- The machine whose next step is one of hart `id`: the caller's choice of hart comes last in the actions before that step, and
replaces any choice that stood among them (80_interfaces.md R812, R817: a call names its hart; log 8). -/
def State.choose (s : State) (id : Word) : State :=
  let acts := s.inputs.headD []
  { s with inputs := (acts.filter (fun a => !a.isSwitch) ++ [.switchHart id]) :: s.inputs.tail }

/-- `step(hart)` (60_exceptions.md R700). -/
def stepOf (id : Word) (s : State) : StepResult := step (s.choose id)

/-- What a call of the driver gives back: how many instructions retired, and the machine after the last step. -/
structure ExecuteResult where
  count : Nat
  final : StepResult

/-- `execute(hart, N)` (R812). -/
def execute (id : Word) : Nat → State → ExecuteResult
  | 0, s => ⟨0, .next s⟩
  | n + 1, s =>
    match stepOf id s with
    | .next t =>
      if t.out.outcome = .retired then
        if (lastInstr t).any endsBatch then ⟨1, .next t⟩
        else
          let r := execute id n t
          ⟨r.count + 1, r.final⟩
      else ⟨0, .next t⟩
    | stop => ⟨0, stop⟩

/-- One round of the driver: `execute` for each hart in turn; after a terminate signal no further hart is called (R812, R815). The counts of
the calls made, in order. -/
def driverRound (budget : Nat) : List Word → State → List Nat × StepResult
  | [], s => ([], .next s)
  | id :: ids, s =>
    if s.terminate then ([], .next s)
    else
      let r := execute id budget s
      match r.final with
      | .next t =>
        let rest := driverRound budget ids t
        (r.count :: rest.1, rest.2)
      | stop => ([r.count], stop)

/-- The keep-going flag: some call made progress or some hart is not powered down, and no terminate signal has been raised (R812). -/
def keepGoing (counts : List Nat) (s : State) : Bool :=
  (counts.any (fun n => 0 < n) || !s.powerDown || s.others.any (fun h => !h.powerDown)) && !s.terminate

/-- The harts of a machine in the order of a round: 0, 1, … (60_exceptions.md R740). -/
def hostedHarts (c : Config) : List Word := (List.range c.nhart).map (BitVec.ofNat 64)

/-- The budget of a call: 1 while fine-grained tracing is active (R812). -/
def callBudget (tracing : Bool) (budget : Nat) : Nat := if tracing then 1 else budget

/-- The driver: rounds over the hosted harts while the keep-going flag stands, at most `fuel` of them; the counts of each round (R812). -/
def driverLoop (tracing : Bool) (budget : Nat) : Nat → State → List (List Nat) × StepResult
  | 0, s => ([], .next s)
  | fuel + 1, s =>
    let r := driverRound (callBudget tracing budget) (hostedHarts s.cfg) s
    match r.2 with
    | .next t =>
      if keepGoing r.1 t then
        let rest := driverLoop tracing budget fuel t
        (r.1 :: rest.1, rest.2)
      else ([r.1], .next t)
    | stop => ([r.1], stop)

/-- A CSR whose value a design under test may have differently (R817). -/
def cosimOverridesCsr (n : BitVec 12) : Bool :=
  match CsrName.ofNum n with
  | some r =>
    (match r with
      | .cycle | .time | .instret | .cycleh | .timeh | .instreth | .mcycle | .minstret | .mcycleh | .minstreth => true
      | _ => false)
  | none => false

/-- The step read a device with a load, or read one of those CSRs: the expected value replaces the model's (R817). A load is a step whose
record holds a `data` access (log 21). -/
def cosimOverrides (s : State) : Bool :=
  s.out.accesses.any (fun a => a.kind == .data && a.device)
    || (match lastInstr s with
        | some (.csrrw _ n _) | some (.csrrs _ n _) | some (.csrrc _ n _)
        | some (.csrrwi _ n _) | some (.csrrsi _ n _) | some (.csrrci _ n _) => cosimOverridesCsr n
        | _ => false)

/-- The written register replaced by the expected value. -/
def overrideWritten (s : State) (v : Word) : State :=
  match s.out.written with
  | .none => s
  | .x r _ => s.setX r v
  | .f r _ => { s with f := s.f.set r.toNat (s.cfg.flen.norm v) r.isLt }

/-- The written value of a step, if it wrote a register. -/
def writtenValue (s : State) : Option Word :=
  match s.out.written with
  | .none => none
  | .x _ v => some v
  | .f _ v => some v

/-- The comparison of R817 on a step that answered `t`: the exit code and the machine after it. `pc0`, the pc of the hart before its step,
stands in the trace record. -/
def cosimCompare (t : State) (expectedPc expectedInsn expectedWrite : Word) : Int × State :=
  let mismatch := t.cfg.cosimMismatchCode
  if t.out.pc != expectedPc then (mismatch, t)
  else if t.out.insn.any (fun n => n.zext != expectedInsn) then (mismatch, t)
  else
    match writtenValue t with
    | none => (0, t)
    | some v =>
      if cosimOverrides t then (0, overrideWritten t expectedWrite)
      else if v != expectedWrite then (mismatch, t)
      else (0, t)

/-- `cosim_step(hart, expected_pc, expected_insn, expected_write_data, expected_status, check)` (R817); `expected_status` is ignored. What it
returns when the step itself is refused or faults the rule does not say: the mismatch code, also when `check` is false (DESIGN CHOICE,
log 30). -/
def cosimStep (hart : Word) (s : State) (expectedPc expectedInsn expectedWrite _expectedStatus : Word) (check : Bool) :
    Int × StepResult :=
  match stepOf hart s with
  | .next t =>
    if check then
      let r := cosimCompare t expectedPc expectedInsn expectedWrite
      (r.1, .next r.2)
    else (0, .next t)
  | stop => (s.cfg.cosimMismatchCode, stop)

end Sys2Proof.Machine
end

