-- ==== Sys2Proof/Safety.lean ====
section
/-! DEFINITION. What counts as a safe machine: the states a machine of the spec can be in (`Legal`) and
the words claims use for what a step leaves alone. -/

namespace Sys2Proof.Machine

/-- A register value has no bit at or above XLEN. -/
def fits (xl : Xlen) (v : Word) : Prop := xl.norm v = v

/-- Bits outside a mask are zero. -/
def within (mask v : Word) : Prop := v &&& ~~~mask = 0

/-- The registers of 10_state.md section 7 hold only what their rules let them hold. -/
structure LegalCsrs (c : Config) (r : Csrs) : Prop where
  /-- The unimplemented bits of mstatus read as after reset (R52). -/
  mstatusFixed : r.mstatus &&& ~~~mstatusMask c = mstatusReset c.xlen
  /-- MPP names a level of this machine (R52, D32). -/
  mpp : getField2 posMPP r.mstatus ≠ 2#2
  medeleg : within 0xB3FF r.medeleg
  mideleg : within 0x222 r.mideleg
  mie : within 0xAAA r.mie
  mip : within 0xAAA r.mip
  mtvec : getBit 1 r.mtvec = false ∧ fits c.xlen r.mtvec
  stvec : getBit 1 r.stvec = false ∧ fits c.xlen r.stvec
  mepc : getBit 0 r.mepc = false ∧ fits c.xlen r.mepc
  sepc : getBit 0 r.sepc = false ∧ fits c.xlen r.sepc
  mscratch : fits c.xlen r.mscratch
  sscratch : fits c.xlen r.sscratch
  mcause : fits c.xlen r.mcause
  scause : fits c.xlen r.scause
  mtval : fits c.xlen r.mtval
  stval : fits c.xlen r.stval
  /-- satp holds an accepted MODE and no ASID (R69). -/
  satp : satpStored c.xlen r.satp = r.satp ∧ c.satpModes.contains (satpMode c.xlen r.satp) = true
  mcounteren : r.mcounteren &&& ~~~7 = 0
  scounteren : r.scounteren &&& ~~~7 = 0

/-- A hart between two steps (R30 to R43, R704). -/
structure LegalHart (c : Config) (h : Hart) : Prop where
  noPendingException : h.pendingException = -1
  noPendingInterrupt : h.pendingInterrupt = -1
  x0 : h.x[0] = 0
  xWidth : ∀ i : Fin 32, fits c.xlen h.x[i]
  fWidth : ∀ i : Fin 32, c.flen.norm h.f[i] = h.f[i]
  vWidth : ∀ i : Fin 32, h.v[i] < 2 ^ c.vlen
  pcWidth : fits c.xlen h.pc
  csrs : LegalCsrs c h.csr

/-- The machine between two steps: every hart legal, memory in its canonical form. -/
structure Legal (s : State) : Prop where
  active : LegalHart s.cfg s.toHart
  parked : ∀ h ∈ s.others, LegalHart s.cfg h
  memory : Memory.wf s.mem = true

/-! ## What an instruction changes

Each structure says of the state `t` after an instruction what changed since `s`, and by its field `frame` that nothing else did: `t` is
`s` with only the named fields replaced. -/

/-- An instruction of `len` bytes that retired and wrote at most the register `x[rd]`: its value `v` modulo 2^XLEN, nothing for x0. -/
structure RetiredX (s t : State) (len : Word) (rd : RegIdx) (v : Word) : Prop where
  frame : t = { s with x := t.x, pc := t.pc, mcycle := t.mcycle, minstret := t.minstret, out := t.out }
  dest : rd ≠ 0#5 → t.x[rd.toNat]'rd.isLt = s.cfg.xlen.norm v
  kept : ∀ r : RegIdx, r ≠ rd ∨ r = 0#5 → t.x[r.toNat]'r.isLt = s.x[r.toNat]'r.isLt
  pc : t.pc = s.cfg.xlen.norm (s.pc + len)
  counters : t.mcycle = s.mcycle + 1 ∧ t.minstret = s.minstret + 1
  report : t.out.outcome = .retired ∧ t.out.cls = .sequential ∧ t.out.nextPc = t.pc

/-- An instruction that retired, transferred control to `target`, and wrote at most the link register `x[rd]`. -/
structure RetiredJump (s t : State) (target : Word) (cls : TransferClass) (rd : RegIdx) (link : Word) : Prop where
  frame : t = { s with x := t.x, pc := t.pc, mcycle := t.mcycle, minstret := t.minstret, out := t.out }
  dest : rd ≠ 0#5 → t.x[rd.toNat]'rd.isLt = s.cfg.xlen.norm link
  kept : ∀ r : RegIdx, r ≠ rd ∨ r = 0#5 → t.x[r.toNat]'r.isLt = s.x[r.toNat]'r.isLt
  pc : t.pc = s.cfg.xlen.norm target
  counters : t.mcycle = s.mcycle + 1 ∧ t.minstret = s.minstret + 1
  report : t.out.outcome = .retired ∧ t.out.cls = cls ∧ t.out.nextPc = t.pc

/-- The status after an instruction that accrued the flags `fl`: FS dirty when it wrote an f register (`dirty`) or accrued a flag. -/
def statusAfter (r : Csrs) (dirty : Bool) (fl : FFlags) : Csrs :=
  { r with
    fcsr := r.fcsr ||| fl.setWidth 8
    mstatus := if dirty || fl != 0#5 then setField2 posFS 3#2 r.mstatus else r.mstatus }

/-- An instruction that retired and wrote the register `f[rd]`: its value `v` on FLEN bits; it accrued the flags `fl`. -/
structure RetiredF (s t : State) (len : Word) (rd : RegIdx) (v : Word) (fl : FFlags) : Prop where
  frame : t = { s with
    f := t.f, pc := t.pc, mcycle := t.mcycle, minstret := t.minstret, csr := statusAfter s.csr true fl, out := t.out }
  dest : t.f[rd.toNat]'rd.isLt = s.cfg.flen.norm v
  kept : ∀ r : RegIdx, r ≠ rd → t.f[r.toNat]'r.isLt = s.f[r.toNat]'r.isLt
  pc : t.pc = s.cfg.xlen.norm (s.pc + len)
  counters : t.mcycle = s.mcycle + 1 ∧ t.minstret = s.minstret + 1
  report : t.out.outcome = .retired ∧ t.out.cls = .sequential ∧ t.out.nextPc = t.pc

/-- A floating-point instruction that retired and wrote at most `x[rd]`; it accrued the flags `fl`. -/
structure RetiredXF (s t : State) (len : Word) (rd : RegIdx) (v : Word) (fl : FFlags) : Prop where
  frame : t = { s with
    x := t.x, pc := t.pc, mcycle := t.mcycle, minstret := t.minstret, csr := statusAfter s.csr false fl, out := t.out }
  dest : rd ≠ 0#5 → t.x[rd.toNat]'rd.isLt = s.cfg.xlen.norm v
  kept : ∀ r : RegIdx, r ≠ rd ∨ r = 0#5 → t.x[r.toNat]'r.isLt = s.x[r.toNat]'r.isLt
  pc : t.pc = s.cfg.xlen.norm (s.pc + len)
  counters : t.mcycle = s.mcycle + 1 ∧ t.minstret = s.minstret + 1
  report : t.out.outcome = .retired ∧ t.out.cls = .sequential ∧ t.out.nextPc = t.pc

/-- A trap taken from `s` (60_exceptions.md R719, R720): to S when it occurs below M and is delegated, otherwise to M. -/
structure Trapped (s t : State) (interrupt : Bool) (code : Nat) (tval : Word) : Prop where
  frame : t = { s with
    priv := t.priv, pc := t.pc, csr := t.csr, pendingException := t.pendingException, pendingTval := t.pendingTval,
    pendingInterrupt := t.pendingInterrupt, out := t.out }
  level : t.priv =
    if s.priv ≠ .M ∧ getBit code (if interrupt then s.csr.mideleg else s.csr.medeleg) = true then .S else .M
  toM : t.priv = .M → t.csr = { s.csr with
      mepc := s.cfg.xlen.norm (s.pc &&& ~~~1)
      mcause := causeWord s.cfg.xlen interrupt code
      mtval := s.cfg.xlen.norm tval
      mstatus := t.csr.mstatus }
    ∧ getBit posMPIE t.csr.mstatus = getBit posMIE s.csr.mstatus ∧ getBit posMIE t.csr.mstatus = false
    ∧ getField2 posMPP t.csr.mstatus = privBits s.priv
    ∧ (∀ i, i ≠ posMIE → i ≠ posMPIE → i ≠ posMPP → i ≠ posMPP + 1 → getBit i t.csr.mstatus = getBit i s.csr.mstatus)
    ∧ t.pc = s.cfg.xlen.norm (vectorTarget s.csr.mtvec interrupt code)
  toS : t.priv = .S → t.csr = { s.csr with
      sepc := s.cfg.xlen.norm (s.pc &&& ~~~1)
      scause := causeWord s.cfg.xlen interrupt code
      stval := s.cfg.xlen.norm tval
      mstatus := t.csr.mstatus }
    ∧ getBit posSPIE t.csr.mstatus = getBit posSIE s.csr.mstatus ∧ getBit posSIE t.csr.mstatus = false
    ∧ getBit posSPP t.csr.mstatus = (s.priv == .S)
    ∧ (∀ i, i ≠ posSIE → i ≠ posSPIE → i ≠ posSPP → getBit i t.csr.mstatus = getBit i s.csr.mstatus)
    ∧ t.pc = s.cfg.xlen.norm (vectorTarget s.csr.stvec interrupt code)
  pending : t.pendingException = -1 ∧ t.pendingInterrupt = -1
  report : t.out.outcome = .trapped ∧ t.out.cls = .trap ∧ t.out.written = .none ∧ t.out.nextPc = t.pc
    ∧ t.out.trap = some (interrupt, code, s.cfg.xlen.norm tval)

/-! ## Memory as claims speak of it -/

/-- Little-endian: the first byte is the lowest (20_memory.md R152). -/
def littleEndian : List Byte → Nat
  | [] => 0
  | b :: bs => b.toNat + 256 * littleEndian bs

/-- The bytes at resolved places: bytes of RAM, and for a device the free values from `dev` on (log 6). -/
def placeBytes (mem : List Host.Cell) (dev : Nat) : List Place → List Byte
  | [] => []
  | .ram p :: ts => Memory.read mem p :: placeBytes mem dev ts
  | .device _ :: ts => Config.deviceByte dev :: placeBytes mem (dev + 1) ts

/-- The number of device bytes among resolved places. -/
def deviceCount (ts : List Place) : Nat := ts.countP Place.isDevice

/-- A read of `n` bytes at `a` that completes, its bytes at the places `ts`: aligned, the layer answers the one request; misaligned,
MISALIGNED = split and it answers a request for each byte (20_memory.md R156). -/
structure ReadCompletes (s : State) (a : Word) (n : Nat) (ts : List Place) : Prop where
  once : s.cfg.xlen.toNat a % n = 0 → s.places .data a n = .ok ts
  split : s.cfg.xlen.toNat a % n ≠ 0 → s.cfg.misaligned = .split ∧ resolve s.cfg s.mem (s.request .data 1) a n = .ok ts

/-- The state of memory in which the next byte of a split write is asked for: the bytes before it are written at the places `ts`. -/
def State.afterBytes (s : State) (v : Word) (ts : List Place) : State := { s with mem := storeTo s.mem v ts }

/-- The layer answers a request for each of the first bytes of a split write at `a`, at the places `ts`, each in the memory that the bytes
before it left (20_memory.md R157). -/
def AnswersBytes (s : State) (a v : Word) (ts : List Place) : Prop :=
  ∀ k t, ts[k]? = some t → (s.afterBytes v (ts.take k)).places .store (a + BitVec.ofNat 64 k) 1 = .ok [t]

/-- A write of the low `n` bytes of `v` at `a` that completes, at the places `ts` (20_memory.md R157). -/
structure WriteCompletes (s : State) (a v : Word) (n : Nat) (ts : List Place) : Prop where
  once : s.cfg.xlen.toNat a % n = 0 → s.places .store a n = .ok ts
  split : s.cfg.xlen.toNat a % n ≠ 0 → s.cfg.misaligned = .split ∧ ts.length = n ∧ AnswersBytes s a v ts

/-- How many requests an access of `n` bytes at `a` makes: one when aligned, one a byte when split (R156, R157). -/
def requests (s : State) (a : Word) (n : Nat) : Nat := if s.cfg.xlen.toNat a % n = 0 then 1 else n

/-- What a completed read from the places `ts` changes besides a register: `mem_seq` under RES_INVALIDATE_ON = any_access, and the
counter of device values. -/
structure ReadEffect (s t : State) (a : Word) (n : Nat) (ts : List Place) : Prop where
  seq : t.memSeq = s.memSeq + (if s.cfg.resInvalidateOn = .anyAccess then requests s a n else 0)
  dev : t.devSeq = s.devSeq + deviceCount ts

/-- What a completed write of the low `n` bytes of `v` to the places `ts` does to memory: every byte elsewhere is kept, each place
holds its byte of `v` (a later byte of the access wins where two places coincide); `mem_seq` counts the requests; the other harts lose the
cached translations of the written range (R157, R161, R173; that the range is one of physical addresses is PRESUMED, log 7; that a byte
for a device changes no RAM is log 6). -/
structure WriteEffect (s t : State) (seq : Nat) (ts : List Place) (v : Word) : Prop where
  outside : ∀ p, .ram p ∉ ts → Memory.read t.mem p = Memory.read s.mem p
  inside : ∀ k p, ts[k]? = some (.ram p) → (∀ j, k < j → ts[j]? ≠ some (.ram p)) →
    Memory.read t.mem p = v.extractLsb' (8 * k) 8
  seq : t.memSeq = s.memSeq + seq
  caches : t.others = s.others.map fun h => Hart.dropRange h ts

/-- A load of `n` bytes from the places `ts` that retired and wrote at most `x[rd]`. -/
structure Loaded (s t : State) (len : Word) (rd : RegIdx) (v : Word) (a : Word) (n : Nat) (ts : List Place) : Prop where
  frame : t = { s with
    x := t.x, pc := t.pc, mcycle := t.mcycle, minstret := t.minstret, out := t.out, memSeq := t.memSeq, devSeq := t.devSeq }
  dest : rd ≠ 0#5 → t.x[rd.toNat]'rd.isLt = s.cfg.xlen.norm v
  kept : ∀ r : RegIdx, r ≠ rd ∨ r = 0#5 → t.x[r.toNat]'r.isLt = s.x[r.toNat]'r.isLt
  pc : t.pc = s.cfg.xlen.norm (s.pc + len)
  counters : t.mcycle = s.mcycle + 1 ∧ t.minstret = s.minstret + 1
  read : ReadEffect s t a n ts
  outcome : t.out.outcome = .retired

/-- A load of `n` bytes from the places `ts` that retired and wrote `f[rd]`; FS is dirty, no flag is accrued. -/
structure LoadedF (s t : State) (len : Word) (rd : RegIdx) (v : Word) (a : Word) (n : Nat) (ts : List Place) : Prop where
  frame : t = { s with
    f := t.f, pc := t.pc, mcycle := t.mcycle, minstret := t.minstret, csr := statusAfter s.csr true 0#5, out := t.out,
    memSeq := t.memSeq, devSeq := t.devSeq }
  dest : t.f[rd.toNat]'rd.isLt = s.cfg.flen.norm v
  kept : ∀ r : RegIdx, r ≠ rd → t.f[r.toNat]'r.isLt = s.f[r.toNat]'r.isLt
  pc : t.pc = s.cfg.xlen.norm (s.pc + len)
  counters : t.mcycle = s.mcycle + 1 ∧ t.minstret = s.minstret + 1
  read : ReadEffect s t a n ts
  outcome : t.out.outcome = .retired

/-- A store of the low bytes of `v` to the places `ts` that retired. -/
structure Stored (s t : State) (len : Word) (v : Word) (a : Word) (n : Nat) (ts : List Place) : Prop where
  frame : t = { s with
    pc := t.pc, mcycle := t.mcycle, minstret := t.minstret, out := t.out, mem := t.mem, memSeq := t.memSeq,
    others := t.others }
  pc : t.pc = s.cfg.xlen.norm (s.pc + len)
  counters : t.mcycle = s.mcycle + 1 ∧ t.minstret = s.minstret + 1
  write : WriteEffect s t (requests s a n) ts v
  outcome : t.out.outcome = .retired

/-- An AMO of the places `ts` that retired: `x[rd]` gets the old value, memory the new one, in one request (43_atomics.md R431). -/
structure Swapped (s t : State) (rd : RegIdx) (old new : Word) (ts : List Place) : Prop where
  frame : t = { s with
    x := t.x, pc := t.pc, mcycle := t.mcycle, minstret := t.minstret, out := t.out, mem := t.mem, memSeq := t.memSeq,
    devSeq := t.devSeq, others := t.others }
  dest : rd ≠ 0#5 → t.x[rd.toNat]'rd.isLt = s.cfg.xlen.norm old
  kept : ∀ r : RegIdx, r ≠ rd ∨ r = 0#5 → t.x[r.toNat]'r.isLt = s.x[r.toNat]'r.isLt
  pc : t.pc = s.cfg.xlen.norm (s.pc + 4)
  counters : t.mcycle = s.mcycle + 1 ∧ t.minstret = s.minstret + 1
  write : WriteEffect s t 1 ts new
  dev : t.devSeq = s.devSeq + deviceCount ts
  outcome : t.out.outcome = .retired

/-! ## Values as claims speak of them -/

/-- The exact rational number a finite value denotes (44_float_single.md R462). -/
def FVal.toRat : FVal → Option ℚ
  | .num s m e => some ((if s then -1 else 1) * (m : ℚ) * (2 : ℚ) ^ e)
  | .inf _ => none
  | .nan _ => none

/-- The extended rational a value that is no NaN denotes (44_float_single.md R462, R467: infinities are extended numbers). -/
def FVal.toExt : FVal → Option (WithBot (WithTop ℚ))
  | .num s m e => some (((if s then -1 else 1) * (m : ℚ) * (2 : ℚ) ^ e : ℚ) : WithTop ℚ)
  | .inf s => some (if s then ⊥ else ((⊤ : WithTop ℚ) : WithBot (WithTop ℚ)))
  | .nan _ => none

/-- The natural number `m` is the non-negative `y` rounded by a mode, for a value whose sign is `neg` (the cases of 44_float_single.md R463,
each in its own words: to nearest with ties to even, toward zero, down, up, to nearest with ties away). -/
def RoundsMagnitude (rm : RoundMode) (neg : Bool) (y : ℝ) (m : ℕ) : Prop :=
  match rm with
  | .rne => |y - m| ≤ 1 / 2 ∧ (|y - m| = 1 / 2 → Even m)
  | .rtz => m = ⌊y⌋₊
  | .rdn => m = if neg then ⌈y⌉₊ else ⌊y⌋₊
  | .rup => m = if neg then ⌊y⌋₊ else ⌈y⌉₊
  | .rmm => |y - m| ≤ 1 / 2 ∧ (|y - m| = 1 / 2 → y ≤ m)

/-- An overflow under this mode and sign gives the infinity (44_float_single.md R463). -/
def overflowsToInf (rm : RoundMode) (neg : Bool) : Bool :=
  match rm with
  | .rne | .rmm => true
  | .rtz => false
  | .rdn => neg
  | .rup => !neg

/-- `res` is `Round(fmt, x, rm)` for a nonzero real `x` (44_float_single.md R463): `e` is the binary exponent of `x`, `m` its magnitude rounded in
units of the spacing there, `m'` the same with the exponent unbounded below. Either the rounded magnitude is above the largest finite value, or
the pattern has the sign of `x` and denotes that magnitude; the flags say inexact, and tiny and inexact. -/
def Rounded (fmt : FFmt) (rm : RoundMode) (x : ℝ) (res : FResult) : Prop :=
  ∃ (neg : Bool) (e : ℤ) (m m' : ℕ),
    let spacing : ℝ := 2 ^ (max e fmt.emin - fmt.fracBits)
    let spacing' : ℝ := 2 ^ (e - fmt.fracBits)
    let largest : ℝ := (2 ^ (fmt.fracBits + 1) - 1) * 2 ^ ((fmt.bias : ℤ) - fmt.fracBits)
    (neg = true ↔ x < 0) ∧ (2 : ℝ) ^ e ≤ |x| ∧ |x| < 2 ^ (e + 1)
      ∧ RoundsMagnitude rm neg (|x| / spacing) m ∧ RoundsMagnitude rm neg (|x| / spacing') m'
      ∧ (largest < m * spacing →
          res.bits = (if overflowsToInf rm neg then fmt.inf neg else fmt.maxFinite neg) ∧ res.flags = flagOF ||| flagNX)
      ∧ (m * spacing ≤ largest →
          (∃ q : ℚ, (fmt.unpack res.bits).toRat = some q ∧ (q : ℝ) = (if neg then -1 else 1) * (m * spacing))
            ∧ fmt.signOf res.bits = neg ∧ res.bits.toNat < 2 ^ (fmt.signPos + 1)
            ∧ (res.flags.getLsbD 0 = true ↔ m * spacing ≠ |x|)
            ∧ (res.flags.getLsbD 1 = true ↔ m' * spacing' < 2 ^ fmt.emin ∧ m * spacing ≠ |x|)
            ∧ res.flags.getLsbD 2 = false ∧ res.flags.getLsbD 3 = false ∧ res.flags.getLsbD 4 = false)

/-- The carry-less product bit at position `k`: the parity of the pairs of set bits whose positions add to `k` (46_bitmanip.md R571). -/
def clmulBit (a b : Word) (w k : Nat) : Bool :=
  ((List.range w).filter fun j => b.getLsbD j && decide (j ≤ k) && a.getLsbD (k - j) && decide (k - j < w)).length % 2 == 1

/-- A 32-bit result sign-extended, as the W instructions write it (40_base_integer.md R261). -/
def wrap32 (z : Int) : Word := BitVec.ofInt 64 (z.bmod (2 ^ 32))

/-- The integer `n` is the rational `q` rounded to an integer by a mode (44_float_single.md R461). -/
def RoundsTo (rm : RoundMode) (q : ℚ) (n : ℤ) : Prop :=
  match rm with
  | .rne => |q - n| ≤ 1 / 2 ∧ (|q - n| = 1 / 2 → Even n)
  | .rtz => n = if q < 0 then ⌈q⌉ else ⌊q⌋
  | .rdn => n = ⌊q⌋
  | .rup => n = ⌈q⌉
  | .rmm => |q - n| ≤ 1 / 2 ∧ (|q - n| = 1 / 2 → |q| ≤ |(n : ℚ)|)

/-! ## Families of forms -/

/-- One memory instruction: its length, its x or f register, its base register and offset, its width, and whether a load widens by sign. -/
structure MemForm where
  instr : Instr
  len : Word
  reg : RegIdx
  base : RegIdx
  offset : Int
  bytes : Nat
  signed : Bool
deriving DecidableEq, Repr

/-- The effective address of a form (40_base_integer.md R263). -/
def MemForm.address (f : MemForm) (s : State) : Word := s.cfg.xlen.norm (s.getX f.base + BitVec.ofInt 64 f.offset)

/-- The register a 3-bit field names (10_state.md R32). -/
def x8 (r : BitVec 3) : RegIdx := BitVec.ofNat 5 (8 + r.toNat)

/-- The integer loads (40_base_integer.md R275 to R279, R306, R307; 41_compressed.md R347, R349, R375, R377). -/
def integerLoads (rd rs1 : RegIdx) (cd c1 : BitVec 3) (i : BitVec 12) (i5 : BitVec 5) (i6 : BitVec 6) : List MemForm :=
  [⟨.lb rd rs1 i, 4, rd, rs1, i.toInt, 1, true⟩, ⟨.lh rd rs1 i, 4, rd, rs1, i.toInt, 2, true⟩,
   ⟨.lw rd rs1 i, 4, rd, rs1, i.toInt, 4, true⟩, ⟨.lbu rd rs1 i, 4, rd, rs1, i.toInt, 1, false⟩,
   ⟨.lhu rd rs1 i, 4, rd, rs1, i.toInt, 2, false⟩, ⟨.lwu rd rs1 i, 4, rd, rs1, i.toInt, 4, false⟩,
   ⟨.ld rd rs1 i, 4, rd, rs1, i.toInt, 8, true⟩, ⟨.c_lw cd c1 i5, 2, x8 cd, x8 c1, 4 * i5.toNat, 4, true⟩,
   ⟨.c_ld cd c1 i5, 2, x8 cd, x8 c1, 8 * i5.toNat, 8, true⟩, ⟨.c_lwsp rd i6, 2, rd, 2#5, 4 * i6.toNat, 4, true⟩,
   ⟨.c_ldsp rd i6, 2, rd, 2#5, 8 * i6.toNat, 8, true⟩]

/-- The integer stores (R280 to R282, R308; 41_compressed.md R351, R353, R384, R386). -/
def integerStores (rs2 rs1 : RegIdx) (c2 c1 : BitVec 3) (i : BitVec 12) (i5 : BitVec 5) (i6 : BitVec 6) : List MemForm :=
  [⟨.sb rs2 rs1 i, 4, rs2, rs1, i.toInt, 1, false⟩, ⟨.sh rs2 rs1 i, 4, rs2, rs1, i.toInt, 2, false⟩,
   ⟨.sw rs2 rs1 i, 4, rs2, rs1, i.toInt, 4, false⟩, ⟨.sd rs2 rs1 i, 4, rs2, rs1, i.toInt, 8, false⟩,
   ⟨.c_sw c2 c1 i5, 2, x8 c2, x8 c1, 4 * i5.toNat, 4, false⟩, ⟨.c_sd c2 c1 i5, 2, x8 c2, x8 c1, 8 * i5.toNat, 8, false⟩,
   ⟨.c_swsp rs2 i6, 2, rs2, 2#5, 4 * i6.toNat, 4, false⟩, ⟨.c_sdsp rs2 i6, 2, rs2, 2#5, 8 * i6.toNat, 8, false⟩]

/-- The floating-point loads (44_float_single.md R470; 45_float_double.md R522; 41_compressed.md R346, R348, R374, R376). -/
def floatLoads (rd rs1 : RegIdx) (cd c1 : BitVec 3) (i : BitVec 12) (i5 : BitVec 5) (i6 : BitVec 6) : List MemForm :=
  [⟨.flw rd rs1 i, 4, rd, rs1, i.toInt, 4, false⟩, ⟨.fld rd rs1 i, 4, rd, rs1, i.toInt, 8, false⟩,
   ⟨.c_flw cd c1 i5, 2, x8 cd, x8 c1, 4 * i5.toNat, 4, false⟩, ⟨.c_fld cd c1 i5, 2, x8 cd, x8 c1, 8 * i5.toNat, 8, false⟩,
   ⟨.c_flwsp rd i6, 2, rd, 2#5, 4 * i6.toNat, 4, false⟩, ⟨.c_fldsp rd i6, 2, rd, 2#5, 8 * i6.toNat, 8, false⟩]

/-- The floating-point stores (44_float_single.md R471; 45_float_double.md R523; 41_compressed.md R350, R352, R383, R385). -/
def floatStores (rs2 rs1 : RegIdx) (c2 c1 : BitVec 3) (i : BitVec 12) (i5 : BitVec 5) (i6 : BitVec 6) : List MemForm :=
  [⟨.fsw rs2 rs1 i, 4, rs2, rs1, i.toInt, 4, false⟩, ⟨.fsd rs2 rs1 i, 4, rs2, rs1, i.toInt, 8, false⟩,
   ⟨.c_fsw c2 c1 i5, 2, x8 c2, x8 c1, 4 * i5.toNat, 4, false⟩, ⟨.c_fsd c2 c1 i5, 2, x8 c2, x8 c1, 8 * i5.toNat, 8, false⟩,
   ⟨.c_fswsp rs2 i6, 2, rs2, 2#5, 4 * i6.toNat, 4, false⟩, ⟨.c_fsdsp rs2 i6, 2, rs2, 2#5, 8 * i6.toNat, 8, false⟩]

/-- The 32-bit instruction whose operation a compressed instruction performs (41_compressed.md R342 to R386). Control transfers and
C.EBREAK, whose effect depends on the length, are not in it. -/
def expansion : Instr → Option Instr
  | .c_addi4spn rd imm => some (.addi (x8 rd) 2#5 ((imm ++ 0#2).setWidth 12))
  | .c_fld rd rs1 imm => some (.fld (x8 rd) (x8 rs1) ((imm ++ 0#3).setWidth 12))
  | .c_lw rd rs1 imm => some (.lw (x8 rd) (x8 rs1) ((imm ++ 0#2).setWidth 12))
  | .c_flw rd rs1 imm => some (.flw (x8 rd) (x8 rs1) ((imm ++ 0#2).setWidth 12))
  | .c_ld rd rs1 imm => some (.ld (x8 rd) (x8 rs1) ((imm ++ 0#3).setWidth 12))
  | .c_fsd rs2 rs1 imm => some (.fsd (x8 rs2) (x8 rs1) ((imm ++ 0#3).setWidth 12))
  | .c_sw rs2 rs1 imm => some (.sw (x8 rs2) (x8 rs1) ((imm ++ 0#2).setWidth 12))
  | .c_fsw rs2 rs1 imm => some (.fsw (x8 rs2) (x8 rs1) ((imm ++ 0#2).setWidth 12))
  | .c_sd rs2 rs1 imm => some (.sd (x8 rs2) (x8 rs1) ((imm ++ 0#3).setWidth 12))
  | .c_nop imm => some (.addi 0#5 0#5 (imm.signExtend 12))
  | .c_addi rd imm => some (.addi rd rd (imm.signExtend 12))
  | .c_addiw rd imm => some (.addiw rd rd (imm.signExtend 12))
  | .c_li rd imm => some (.addi rd 0#5 (imm.signExtend 12))
  | .c_addi16sp imm => some (.addi 2#5 2#5 ((imm ++ 0#4).signExtend 12))
  | .c_lui rd imm => some (.lui rd (imm.signExtend 20))
  | .c_srli rd shamt => some (.srli (x8 rd) (x8 rd) shamt)
  | .c_srai rd shamt => some (.srai (x8 rd) (x8 rd) shamt)
  | .c_andi rd imm => some (.andi (x8 rd) (x8 rd) (imm.signExtend 12))
  | .c_sub rd rs2 => some (.sub (x8 rd) (x8 rd) (x8 rs2))
  | .c_xor rd rs2 => some (.xor (x8 rd) (x8 rd) (x8 rs2))
  | .c_or rd rs2 => some (.or (x8 rd) (x8 rd) (x8 rs2))
  | .c_and rd rs2 => some (.and (x8 rd) (x8 rd) (x8 rs2))
  | .c_subw rd rs2 => some (.subw (x8 rd) (x8 rd) (x8 rs2))
  | .c_addw rd rs2 => some (.addw (x8 rd) (x8 rd) (x8 rs2))
  | .c_slli rd shamt => some (.slli rd rd shamt)
  | .c_fldsp rd imm => some (.fld rd 2#5 ((imm ++ 0#3).setWidth 12))
  | .c_lwsp rd imm => some (.lw rd 2#5 ((imm ++ 0#2).setWidth 12))
  | .c_flwsp rd imm => some (.flw rd 2#5 ((imm ++ 0#2).setWidth 12))
  | .c_ldsp rd imm => some (.ld rd 2#5 ((imm ++ 0#3).setWidth 12))
  | .c_mv rd rs2 => some (.add rd 0#5 rs2)
  | .c_add rd rs2 => some (.add rd rd rs2)
  | .c_fsdsp rs2 imm => some (.fsd rs2 2#5 ((imm ++ 0#3).setWidth 12))
  | .c_swsp rs2 imm => some (.sw rs2 2#5 ((imm ++ 0#2).setWidth 12))
  | .c_fswsp rs2 imm => some (.fsw rs2 2#5 ((imm ++ 0#2).setWidth 12))
  | .c_sdsp rs2 imm => some (.sd rs2 2#5 ((imm ++ 0#3).setWidth 12))
  | _ => none

/-- A next state with the length of a compressed instruction in place of that of the 32-bit one. -/
def withLen2 (s t : State) : State :=
  if t.out.outcome = .retired then
    { t with pc := s.cfg.xlen.norm (s.pc + 2), out := { t.out with nextPc := s.cfg.xlen.norm (s.pc + 2) } }
  else t

/-! ## The step as claims speak of it -/

/-- A machine that takes steps: a valid configuration, without the vendor extension (00_scope.md R8, 48_vector_custom.md R662). -/
def Running (s : State) : Prop := s.cfg.valid = true ∧ s.cfg.vendorExt = false

/-- The hart is powered down and no interrupt is both pending and enabled in `mie`; `mstatus.MIE`, `mstatus.SIE` and `mideleg` do not
count (60_exceptions.md R711). Its step is Idle. -/
abbrev Dormant (s : State) : Prop := s.powerDown = true ∧ s.csr.mip &&& s.csr.mie = 0

/-- The state in which a step fetches: its inputs taken, the trace record opened, `power_down` cleared (60_exceptions.md R711). -/
def atFetch (s : State) : State := { openReport (takeInputs s) with powerDown := false }

/-- The step gets as far as the fetch: not dormant and no interrupt (60_exceptions.md R700). -/
structure ReachesFetch (s : State) : Prop where
  running : Running s
  awake : ¬ Dormant (takeInputs s)
  noInterrupt : selectInterrupt (takeInputs s) = none

/-- Every pc a hart holds is even: its own, and those its returns go to (10_state.md R35, R65). -/
structure EvenHart (h : Hart) : Prop where
  pc : getBit 0 h.pc = false
  mepc : getBit 0 h.csr.mepc = false
  sepc : getBit 0 h.csr.sepc = false

/-- The registers that can read differently after a write of the register `r`, itself among them: those that show the same storage, those
that show it under a mask it holds, and mstatus and sstatus where the write makes FS dirty (10_state.md R53, R59, R60, R62, R74 to R76). -/
def CsrName.affects : CsrName → List CsrName
  | .fflags => [.fflags, .fcsr, .mstatus, .sstatus]
  | .frm => [.frm, .fcsr, .mstatus, .sstatus]
  | .fcsr => [.fflags, .frm, .fcsr, .mstatus, .sstatus]
  | .mstatus | .sstatus => [.mstatus, .sstatus]
  | .mie | .sie => [.mie, .sie]
  | .mip | .sip => [.mip, .sip]
  | .mideleg => [.mideleg, .sie, .sip]
  | .mcycle | .mcycleh => [.mcycle, .mcycleh, .cycle, .cycleh]
  | .minstret | .minstreth => [.minstret, .minstreth, .instret, .instreth]
  | r => [r]

/-- A register that shows a counter, which every retired instruction advances (10_state.md R44). -/
def CsrName.showsCounter : CsrName → Bool
  | .mcycle | .mcycleh | .cycle | .cycleh | .minstret | .minstreth | .instret | .instreth => true
  | _ => false

/-- A CSR instruction that completed on the register `r`: the old value in `x[rd]`, the new one written when it writes, and no counter it
wrote advanced (47_system_csr.md R639, 10_state.md R44). -/
structure CsrDone (s t : State) (r : CsrName) (rd : RegIdx) (writes : Bool) (new : Word) : Prop where
  frame : t = { (if writes then s.writeCsr r new else s) with
    x := t.x, pc := t.pc, mcycle := t.mcycle, minstret := t.minstret, out := t.out }
  dest : rd ≠ 0#5 → t.x[rd.toNat]'rd.isLt = s.readCsr r
  kept : ∀ k : RegIdx, k ≠ rd ∨ k = 0#5 → t.x[k.toNat]'k.isLt = s.x[k.toNat]'k.isLt
  pc : t.pc = s.cfg.xlen.norm (s.pc + 4)
  mcycle : t.mcycle = if writes && r.setsCycle then (s.writeCsr r new).mcycle else s.mcycle + 1
  minstret : t.minstret = if writes && r.setsInstret then (s.writeCsr r new).minstret else s.minstret + 1
  report : t.out.outcome = .retired ∧ t.out.cls = .sequential ∧ t.out.nextPc = t.pc

end Sys2Proof.Machine

namespace Sys2Proof

/-! ## Groups of instructions -/

/-- The instruction writes memory: the stores, AMOs and SC (20_memory.md R161). -/
def Instr.writesMemory (i : Instr) : Bool :=
  match i with
  | .sb .. | .sh .. | .sw .. | .sd .. | .c_sw .. | .c_sd .. | .c_swsp .. | .c_sdsp .. | .fsw .. | .fsd .. | .c_fsw ..
  | .c_fsd .. | .c_fswsp .. | .c_fsdsp .. | .sc_w .. | .sc_d .. | .amoswap_w .. | .amoadd_w .. | .amoxor_w ..
  | .amoand_w .. | .amoor_w .. | .amomin_w .. | .amomax_w .. | .amominu_w .. | .amomaxu_w .. | .amoswap_d ..
  | .amoadd_d .. | .amoxor_d .. | .amoand_d .. | .amoor_d .. | .amomin_d .. | .amomax_d .. | .amominu_d ..
  | .amomaxu_d .. => true
  | _ => false

/-- One of the six CSR instructions. -/
def Instr.isCsr (i : Instr) : Bool :=
  match i with
  | .csrrw .. | .csrrs .. | .csrrc .. | .csrrwi .. | .csrrsi .. | .csrrci .. => true
  | _ => false

/-- The instruction needs F or D (44_float_single.md R460, 45_float_double.md R520). -/
def Instr.isFloat (i : Instr) : Bool := i.needs.exts.contains .F || i.needs.exts.contains .D

/-- The `rm` field of an instruction that has one (44_float_single.md R461). -/
def Instr.rmField : Instr → Option (BitVec 3)
  | .fmadd_s _ _ _ _ rm | .fmsub_s _ _ _ _ rm | .fnmsub_s _ _ _ _ rm | .fnmadd_s _ _ _ _ rm | .fadd_s _ _ _ rm
  | .fsub_s _ _ _ rm | .fmul_s _ _ _ rm | .fdiv_s _ _ _ rm | .fsqrt_s _ _ rm | .fcvt_w_s _ _ rm | .fcvt_wu_s _ _ rm
  | .fcvt_s_w _ _ rm | .fcvt_s_wu _ _ rm | .fcvt_l_s _ _ rm | .fcvt_lu_s _ _ rm | .fcvt_s_l _ _ rm
  | .fcvt_s_lu _ _ rm | .fmadd_d _ _ _ _ rm | .fmsub_d _ _ _ _ rm | .fnmsub_d _ _ _ _ rm | .fnmadd_d _ _ _ _ rm
  | .fadd_d _ _ _ rm | .fsub_d _ _ _ rm | .fmul_d _ _ _ rm | .fdiv_d _ _ _ rm | .fsqrt_d _ _ rm | .fcvt_s_d _ _ rm
  | .fcvt_d_s _ _ rm | .fcvt_w_d _ _ rm | .fcvt_wu_d _ _ rm | .fcvt_d_w _ _ rm | .fcvt_d_wu _ _ rm | .fcvt_l_d _ _ rm
  | .fcvt_lu_d _ _ rm | .fcvt_d_l _ _ rm | .fcvt_d_lu _ _ rm => some rm
  | _ => none

end Sys2Proof
end

