-- ==== Sys2Proof/Certificates/Slice0/Obligations.lean ====
section
/-! DEFINITION. The statements for the provers. Each docstring names the rules of spec/ it rests on. -/

open Sys2Proof Sys2Proof.Machine

/-! ## Reset and the invariants of a run -/

/-- 70_reset_and_hazards.md R770, 10_state.md R42, R80: the values the spec gives for reset, for every configuration and every hart. The
values the spec leaves unspecified are not in it (log 1). The identities are HARTID 0, 1, … as 64-bit words; of one that XLEN bits cannot hold,
which an NHART above 2^XLEN would give, the spec does not speak, and what is said of it here is the model's choice (log 33). -/
def Obligations.ResetValues : Prop :=
  ∀ (c : Config) (id : Word),
    let h := Hart.reset c id
    (h.pc = c.resetVector ∧ h.priv = .M ∧ h.hartid = id ∧ h.x[0] = 0)
      ∧ (h.pendingException = -1 ∧ h.pendingInterrupt = -1 ∧ h.pendingTval = 0 ∧ h.mcycle = 0 ∧ h.minstret = 0)
      ∧ (h.resValid = false ∧ h.powerDown = false ∧ h.tlbCode = [] ∧ h.tlbData = [] ∧ h.tlbStore = [])
      ∧ (h.csr.mstatus = match c.xlen with
          | .rv32 => 0
          | .rv64 => 0xA00000000)
      ∧ ({ h.csr with mstatus := 0 } = (⟨0, 0, 0, 0, 0, 0, 0, 0, 0, 0, 0, 0, 0, 0, 0, 0, 0, 0, 0⟩ : Csrs))
      ∧ (State.resetOf c).toHart = Hart.reset c 0 ∧ (State.resetOf c).memSeq = 0
      ∧ (State.resetOf c).others.map Hart.hartid = (List.range (c.nhart - 1)).map (fun k => BitVec.ofNat 64 (k + 1))
      ∧ ∀ g ∈ (State.resetOf c).others, g = Hart.reset c g.hartid

/-- The machine after reset meets the invariant of `StepKeepsLegal`: the default one, and that of every valid configuration. -/
def Obligations.ResetIsLegal : Prop :=
  Legal State.reset ∧ ∀ c : Config, c.valid = true → Legal (State.resetOf c)

/-- 10_state.md R30 to R73 and 60_exceptions.md R704: a step from a legal state ends in a legal state. Registers keep their width, x0 stays
0, every control register keeps the bits its rule lets it hold, no pending field stays set, memory keeps its canonical form. -/
def Obligations.StepKeepsLegal : Prop :=
  ∀ s t : State, s.cfg.valid = true → Legal s → step s = .next t → Legal t

/-- 10_state.md R35, R65 and 40_base_integer.md R264: pc and the return addresses stay even in every hart. -/
def Obligations.StepKeepsPcEven : Prop :=
  ∀ s t : State, (EvenHart s.toHart ∧ ∀ h ∈ s.others, EvenHart h) → step s = .next t →
    EvenHart t.toHart ∧ ∀ h ∈ t.others, EvenHart h

/-! ## Encoding -/

/-- 30_encoding.md R204 and the Encoding line of every rule: the word of a well-formed instruction decodes to it, every operand at
every value its encoding admits, at both XLENs and under every extension set. -/
def Obligations.DecodeOfEncode : Prop :=
  ∀ (c : Config) (i : Instr), i.wellFormed c = true → decode c (encode c.xlen i) = some i

/-- 30_encoding.md R204: a word that decodes is the word of the instruction it decodes to, so no two words share an instruction and no bit
of a word is ignored. -/
def Obligations.EncodeOfDecode : Prop :=
  ∀ (c : Config) (n : Insn) (i : Instr), decode c n = some i → i.wellFormed c = true ∧ encode c.xlen i = n

/-- Words of the spec's own Example lines decode to the instructions they stand for (30_encoding.md R204; 40_base_integer.md R267, R269,
R277, R292, R308, 41_compressed.md R347, R382, 43_atomics.md R433, 44_float_single.md R490, 45_float_double.md R528, 46_bitmanip.md R583,
47_system_csr.md R632, R640); the all-zero parcel and the all-ones word decode to nothing (R207). -/
def Obligations.DecodedWords : Prop :=
  decode Config.default (.w 0x006283B3) = some (.add 7 5 6)
    ∧ decode Config.default (.w 0x008000EF) = some (.jal 1 4)
    ∧ decode Config.default (.w 0x00208463) = some (.beq 1 2 4)
    ∧ decode Config.default (.w 0xFFC2A303) = some (.lw 6 5 (-4))
    ∧ decode Config.default (.w 0x0062B423) = some (.sd 6 5 8)
    ∧ decode Config.default (.w 0x026283B3) = some (.mul 7 5 6)
    ∧ decode Config.default (.w 0x1002A32F) = some (.lr_w 6 5 0 0)
    ∧ decode Config.default (.w 0xA0209353) = some (.flt_s 6 1 2)
    ∧ decode Config.default (.w 0x0220F1D3) = some (.fadd_d 3 1 2 7)
    ∧ decode Config.default (.w 0x60029313) = some (.clz 6 5)
    ∧ decode Config.default (.w 0x340312F3) = some (.csrrw 5 0x340 6)
    ∧ decode Config.default (.w 0x30200073) = some .mret
    ∧ decode Config.default (.c 0x40C0) = some (.c_lw 0 1 1)
    ∧ decode Config.default (.c 0x929A) = some (.c_add 5 6)
    ∧ decode Config.default (.c 0x0000) = none
    ∧ decode Config.default (.w 0xFFFFFFFF) = none

/-! ## The step -/

/-- 60_exceptions.md R700 lines 3 to 6: when the fetch gives a word and the word decodes, the step is the meaning of that instruction, in the
state the fetch left with the word noted in the trace record. -/
def Obligations.StepRunsDecoded : Prop :=
  ∀ (s u : State) (n : Insn) (i : Instr), ReachesFetch s → fetch (atFetch s) = .ok n u → decode s.cfg n = some i →
    step s = exec i (noteInsn u n)

/-- 20_memory.md R158, R159, R160, 30_encoding.md R203: the alignment check, the first parcel, its fault (cause 0, 1 or 12) or its low bits, the
second parcel and its fault; parcels are little-endian and the first one is the low half. The model's own: a byte of a device is a free
value counted by `devSeq` (log 6), and a fetch whose second parcel faults keeps that counter advanced for the first (log 26).
That no translation writes memory is the model's choice (log 32).
That a fetch takes the layer's answer misaligned as cause 0, as the table of 20_memory.md R160 has it, is the model's reading (log 35). -/
def Obligations.FetchFollowsRule : Prop :=
  ∀ s : State,
    let parcel (a : Word) := s.places .code a 2
    let word (dev : Nat) (ts : List Place) : BitVec 16 := BitVec.ofNat 16 (littleEndian (placeBytes s.mem dev ts))
    let cause (flt : LayerFault) : Nat := match flt with
      | .misaligned => 0
      | .access => 1
      | .page => 12
    let goodPc := if s.cfg.ext.c then s.pc.toNat % 2 = 0 else s.pc.toNat % 4 = 0
    (¬ goodPc → fetch s = .raise 0 (s.cfg.xlen.norm s.pc) s)
      ∧ (goodPc → ∀ flt, parcel s.pc = .error flt → fetch s = .raise (cause flt) (s.cfg.xlen.norm s.pc) s)
      ∧ (goodPc → ∀ ts, parcel s.pc = .ok ts →
          let lo := word s.devSeq ts
          let dev := s.devSeq + deviceCount ts
          (lo.toNat % 4 ≠ 3 → s.cfg.ext.c = true → ∃ t, fetch s = .ok (.c lo) t ∧ t = { s with devSeq := dev, out := t.out })
            ∧ (lo.toNat % 4 ≠ 3 → s.cfg.ext.c = false →
                ∃ t, fetch s = .raise 2 (lo.setWidth 64) t ∧ t = { s with devSeq := dev, out := t.out })
            ∧ (lo.toNat % 4 = 3 → ∀ flt, parcel (s.pc + 2) = .error flt →
                ∃ t, fetch s = .raise (cause flt) (s.cfg.xlen.norm (s.pc + 2)) t
                  ∧ t = { s with devSeq := dev, out := t.out })
            ∧ (lo.toNat % 4 = 3 → ∀ ts', parcel (s.pc + 2) = .ok ts' →
                ∃ t, fetch s = .ok (.w (word dev ts' ++ lo)) t
                  ∧ t = { s with devSeq := dev + deviceCount ts', out := t.out }))

/-- 30_encoding.md R207, 60_exceptions.md R706: a fetched word that selects no row, and is not a refused vector word, takes the
illegal-instruction trap with the word as trap value; so does a fetch that stops. `Trapped` says that no register changes. -/
def Obligations.UndecodedWordTraps : Prop :=
  ∀ (s u : State), ReachesFetch s →
    (∀ n, fetch (atFetch s) = .ok n u → decode s.cfg n = none → u.refusesVector n = false →
        ∃ t, step s = .next t ∧ Trapped (noteInsn u n) t false 2 n.zext)
      ∧ ∀ c v, fetch (atFetch s) = .raise c v u → ∃ t, step s = .next t ∧ Trapped u t false c v

/-- 30_encoding.md R208, 48_vector_custom.md R660, R662, 70_reset_and_hazards.md R771: the only stops. A vector word with the vector unit on is
refused by name; the vendor extension is refused as a whole; an invalid configuration has no step; and nothing else stops, whatever VLEN is. That an
invalid configuration's missing step is a fault, and that it comes before the vendor refusal and both before the step's own work, is
the model's (logs 14, 15). -/
def Obligations.TheOnlyStops : Prop :=
  (∀ s : State, s.cfg.valid = false → step s = .fault .configurationError)
    ∧ (∀ s : State, s.cfg.valid = true → s.cfg.vendorExt = true → step s = .refused .vendorExtension)
    ∧ (∀ (s u : State) (n : Insn), ReachesFetch s → fetch (atFetch s) = .ok n u → n.isVector = true → s.cfg.vlen ≠ 0 →
        fieldVS u.csr.mstatus ≠ 0 → step s = .refused .vectorEncoding)
    ∧ (∀ s : State, Running s → (∃ t, step s = .next t) ∨ (step s = .refused .vectorEncoding ∧ ReachesFetch s
        ∧ ∃ n u, fetch (atFetch s) = .ok n u ∧ n.isVector = true ∧ s.cfg.vlen ≠ 0 ∧ fieldVS u.csr.mstatus ≠ 0))

/-- 60_exceptions.md R700 lines 1 and 2, R711, R712: a hart that is powered down with `mip & mie` zero makes an Idle step, which changes
nothing but the record; MIE, SIE and mideleg have no part in that test. Any other step clears `power_down` (after it the flag stands only
if the step ran a WFI), and an interrupt that is selected is taken before any fetch, with trap value 0. The interrupt selected is the first
in the order 11, 3, 7, 9, 1, 5 of those pending, enabled and destined for M that M may take now, and if there is none, of those destined
for S. Inputs come first (log 9). -/
def Obligations.StepBeforeFetch : Prop :=
  (∀ s : State, Running s →
    let u := takeInputs s
    let dormant : Prop := u.powerDown = true ∧ u.csr.mip &&& u.csr.mie = 0
    (dormant → ∃ t, step s = .next t ∧ t = { u with out := t.out } ∧ t.out.outcome = .idle)
      ∧ (¬ dormant → ∀ i, selectInterrupt u = some i →
          ∃ t, step s = .next t ∧ Trapped { u with powerDown := false } t true i 0)
      ∧ (¬ dormant → ∀ t, step s = .next t → t.powerDown = true → lastInstr t = some .wfi ∧ t.out.outcome = .retired))
    ∧ ∀ s : State,
      let pend (i : Nat) : Bool := getBit i s.csr.mip && getBit i s.csr.mie
      let mEn : Bool := s.priv == .U || s.priv == .S || (s.priv == .M && getBit posMIE s.csr.mstatus)
      let sEn : Bool := s.priv == .U || (s.priv == .S && getBit posSIE s.csr.mstatus)
      let order := [11, 3, 7, 9, 1, 5]
      selectInterrupt s =
        ((order.find? fun i => mEn && pend i && !getBit i s.csr.mideleg).or
          (order.find? fun i => sEn && pend i && getBit i s.csr.mideleg))

/-! ## Exceptions and returns -/

/-- 40_base_integer.md R304, R305, 41_compressed.md R380, 60_exceptions.md R705, R719, R720, 80_interfaces.md R815: ECALL takes the exception of its level with
trap value 0, unless the shutdown predicate holds: then it raises the terminate signal and changes nothing else. EBREAK and C.EBREAK take
cause 3 with pc as trap value. The predicate is data of the configuration (logs 13, 34). And of every trap (`Trapped`): the cause register gets the
code with the interrupt bit XLEN-1, and the handler is at the base, or for an interrupt in vectored mode at base + 4·code (10_state.md R63,
R66). -/
def Obligations.SoftwareTraps : Prop :=
  ∀ s : State,
    (evalHook s s.cfg.shutdownHook = false →
      ∃ t, exec .ecall s = .next t ∧ Trapped s t false (match s.priv with
        | .U => 8
        | .S => 9
        | .M => 11) 0)
      ∧ (evalHook s s.cfg.shutdownHook = true →
        ∃ t, exec .ecall s = .next t ∧ t = { s with terminate := true, out := t.out } ∧ t.out.outcome = .idle)
      ∧ (∀ i ∈ [Instr.ebreak, Instr.c_ebreak], ∃ t, exec i s = .next t ∧ Trapped s t false 3 s.pc)
      ∧ ∀ (xl : Xlen) (tvec : Word) (interrupt : Bool) (code : Nat), code < 2 ^ 31 →
        causeWord xl interrupt code = BitVec.ofNat 64 ((if interrupt then 2 ^ (xl.bits - 1) else 0) + code)
          ∧ vectorTarget tvec interrupt code =
            (tvec &&& ~~~3) + BitVec.ofNat 64 (if interrupt = true ∧ getBit 0 tvec = true then 4 * code else 0)

/-- 47_system_csr.md R640, R641, 60_exceptions.md R722: MRET in M mode and SRET where it is legal restore the enable bit and the level, set the saved
enable, clear the saved level, jump to the saved pc, and change no other bit or register. Elsewhere they are illegal.
MPP = 2, which no write stores, reads as M (log 16). -/
def Obligations.TrapReturns : Prop :=
  ∀ s : State,
    (s.priv = .M → ∃ t, exec .mret s = .next t
      ∧ t = { s with
          pc := s.cfg.xlen.norm s.csr.mepc, priv := privOfBits (getField2 posMPP s.csr.mstatus)
          csr := { s.csr with mstatus := t.csr.mstatus }, mcycle := s.mcycle + 1, minstret := s.minstret + 1, out := t.out }
      ∧ getBit posMIE t.csr.mstatus = getBit posMPIE s.csr.mstatus ∧ getBit posMPIE t.csr.mstatus = true
      ∧ getField2 posMPP t.csr.mstatus = 0
      ∧ (∀ i, i ≠ posMIE → i ≠ posMPIE → i ≠ posMPP → i ≠ posMPP + 1 → getBit i t.csr.mstatus = getBit i s.csr.mstatus)
      ∧ t.out.cls = .jump ∧ t.out.outcome = .retired)
    ∧ (s.priv ≠ .M → ∃ t, exec .mret s = .next t ∧ Trapped s t false 2 0x30200073)
    ∧ (s.priv = .M ∨ (s.priv = .S ∧ getBit posTSR s.csr.mstatus = false) → ∃ t, exec .sret s = .next t
      ∧ t = { s with
          pc := s.cfg.xlen.norm s.csr.sepc, priv := if getBit posSPP s.csr.mstatus then .S else .U
          csr := { s.csr with mstatus := t.csr.mstatus }, mcycle := s.mcycle + 1, minstret := s.minstret + 1, out := t.out }
      ∧ getBit posSIE t.csr.mstatus = getBit posSPIE s.csr.mstatus ∧ getBit posSPIE t.csr.mstatus = true
      ∧ getBit posSPP t.csr.mstatus = false
      ∧ (∀ i, i ≠ posSIE → i ≠ posSPIE → i ≠ posSPP → getBit i t.csr.mstatus = getBit i s.csr.mstatus)
      ∧ t.out.cls = .jump ∧ t.out.outcome = .retired)
    ∧ (s.priv = .U ∨ (s.priv = .S ∧ getBit posTSR s.csr.mstatus = true) →
        ∃ t, exec .sret s = .next t ∧ Trapped s t false 2 0x10200073)

/-- 47_system_csr.md R642, R644, 40_base_integer.md R302, R303, 20_memory.md R171, R172: WFI sets the power-down flag, SFENCE.VMA empties this hart's
translation caches, FENCE.I the code cache, FENCE changes nothing; each retires. WFI below M under TW, and SFENCE.VMA in U or in S under
TVM, are illegal. -/
def Obligations.WaitAndFences : Prop :=
  ∀ (s : State) (fm p q : BitVec 4) (imm : BitVec 12) (r1 r2 : RegIdx),
    (s.priv = .M ∨ getBit posTW s.csr.mstatus = false →
      ∃ t, exec .wfi s = .next t ∧ RetiredX { s with powerDown := true } t 4 0#5 0)
    ∧ (s.priv ≠ .M → getBit posTW s.csr.mstatus = true → ∃ t, exec .wfi s = .next t ∧ Trapped s t false 2 0x10500073)
    ∧ (s.priv = .M ∨ (s.priv = .S ∧ getBit posTVM s.csr.mstatus = false) →
      ∃ t, exec (.sfence_vma r1 r2) s = .next t ∧ RetiredX { s with tlbCode := [], tlbData := [], tlbStore := [] } t 4 0#5 0)
    ∧ (s.priv = .U ∨ (s.priv = .S ∧ getBit posTVM s.csr.mstatus = true) →
      ∃ t, exec (.sfence_vma r1 r2) s = .next t ∧ Trapped s t false 2 ((Instr.sfence_vma r1 r2).tval s.cfg.xlen))
    ∧ (∃ t, exec (.fence_i imm r1 r2) s = .next t ∧ RetiredX { s with tlbCode := [] } t 4 0#5 0)
    ∧ (∃ t, exec (.fence fm p q r1 r2) s = .next t ∧ RetiredX s t 4 0#5 0)

/-- 60_exceptions.md R731: "priv rises only by trap entry (rule R720) and falls only by MRET and SRET; reset sets it to M". Stated of every
meaning, of interrupt entry, of every CSR write; and of every step, a trap raised by the fetch or by an undecoded word included. The step
is compared with the state its inputs leave, and those change no hart's level: they only choose which hart steps (logs 8, 9). -/
def Obligations.PrivilegeChanges : Prop :=
  (∀ (i : Instr) (s t : State), exec i s = .next t →
      (privBits s.priv).toNat < (privBits t.priv).toNat → t.out.outcome = .trapped)
    ∧ (∀ (i : Instr) (s t : State), exec i s = .next t →
      (privBits t.priv).toNat < (privBits s.priv).toNat → i = .mret ∨ i = .sret)
    ∧ (∀ (s : State) (k : Nat), (privBits s.priv).toNat ≤ (privBits (takeInterrupt s k).priv).toNat)
    ∧ (∀ (s : State) (r : CsrName) (v : Word), (s.writeCsr r v).priv = s.priv)
    ∧ (∀ (c : Config) (id : Word), (Hart.reset c id).priv = .M)
    ∧ (∀ s t : State, step s = .next t →
      ((privBits (takeInputs s).priv).toNat < (privBits t.priv).toNat → t.out.outcome = .trapped)
        ∧ ((privBits t.priv).toNat < (privBits (takeInputs s).priv).toNat →
            t.out.outcome = .retired ∧ (lastInstr t = some .mret ∨ lastInstr t = some .sret))
        ∧ t.others.map (fun h => (h.hartid, h.priv)) = (takeInputs s).others.map (fun h => (h.hartid, h.priv)))
    ∧ (∀ s : State, (((takeInputs s).toHart :: (takeInputs s).others).map fun h => (h.hartid, h.priv)).Perm
        ((s.toHart :: s.others).map fun h => (h.hartid, h.priv)))

/-! ## Control and status registers -/

/-- 47_system_csr.md R631 to R637, R639, R645, 10_state.md R44, 60_exceptions.md R706: where the access is allowed the six CSR instructions
complete: `x[rd]` gets the old value, the register the new one (computed from the old register file), and a counter that was written does
not advance. Every register that shares nothing with the one written reads as before, and the translation caches are emptied by an accepted
write of satp and by no other. Where the access is not allowed they take the illegal-instruction trap and nothing is read or written. -/
def Obligations.CsrInstructionsComplete : Prop :=
  ∀ (s : State) (rd rs1 uimm : RegIdx) (n : BitVec 12) (r : CsrName),
    let old := s.readCsr r
    let z : Word := uimm.setWidth 64
    ∀ p ∈ [(Instr.csrrw rd n rs1, true, s.getX rs1), (Instr.csrrs rd n rs1, rs1 != 0, old ||| s.getX rs1),
        (Instr.csrrc rd n rs1, rs1 != 0, old &&& ~~~s.getX rs1), (Instr.csrrwi rd n uimm, true, z),
        (Instr.csrrsi rd n uimm, uimm != 0, old ||| z), (Instr.csrrci rd n uimm, uimm != 0, old &&& ~~~z)],
      (s.csrAccess n p.2.1 = some r → ∃ t, exec p.1 s = .next t ∧ CsrDone s t r rd p.2.1 p.2.2
          ∧ (∀ q : CsrName, q ∉ r.affects ∨ p.2.1 = false → q.showsCounter = false → t.readCsr q = s.readCsr q)
          ∧ (if r = .satp ∧ p.2.1 = true ∧ s.cfg.satpModes.contains (satpMode s.cfg.xlen (s.cfg.xlen.norm p.2.2)) = true
              then t.tlbCode = [] ∧ t.tlbData = [] ∧ t.tlbStore = []
              else t.tlbCode = s.tlbCode ∧ t.tlbData = s.tlbData ∧ t.tlbStore = s.tlbStore))
        ∧ (s.csrAccess n p.2.1 = none → ∃ t, exec p.1 s = .next t ∧ Trapped s t false 2 (p.1.tval s.cfg.xlen))

/-- 47_system_csr.md R631, 10_state.md R51: the six checks, in the rules' own words: the register exists (the table of R51: its number, and
the width it needs), the level suffices (2 read as 3), no write to the read-only range, FS for the floating-point registers, TVM for satp
in S mode, the enables for the counters. -/
def Obligations.CsrAccessRule : Prop :=
  ∀ (s : State) (n : BitVec 12) (writes : Bool) (r : CsrName),
    let table : List (BitVec 12 × CsrName) :=
      [(0x001, .fflags), (0x002, .frm), (0x003, .fcsr),
        (0xC00, .cycle), (0xC01, .time), (0xC02, .instret), (0xC80, .cycleh), (0xC81, .timeh), (0xC82, .instreth),
        (0x100, .sstatus), (0x104, .sie), (0x105, .stvec), (0x106, .scounteren), (0x140, .sscratch), (0x141, .sepc),
        (0x142, .scause), (0x143, .stval), (0x144, .sip), (0x180, .satp)]
      ++ [(0xF11, .mvendorid), (0xF12, .marchid), (0xF13, .mimpid), (0xF14, .mhartid),
        (0x300, .mstatus), (0x301, .misa), (0x302, .medeleg), (0x303, .mideleg), (0x304, .mie), (0x305, .mtvec),
        (0x306, .mcounteren), (0x340, .mscratch), (0x341, .mepc), (0x342, .mcause), (0x343, .mtval), (0x344, .mip),
        (0xB00, .mcycle), (0xB02, .minstret), (0xB80, .mcycleh), (0xB82, .minstreth)]
    s.csrAccess n writes = some r ↔
      (n, r) ∈ table
        ∧ (r ∈ [CsrName.fflags, .frm, .fcsr] → s.cfg.flen ≠ .f0)
        ∧ (r ∈ [CsrName.cycleh, .timeh, .instreth, .mcycleh, .minstreth] → s.cfg.xlen = .rv32)
        ∧ (let level := n.toNat / 256 % 4
           (if level = 2 then 3 else level) ≤ (privBits s.priv).toNat)
        ∧ ¬ (writes = true ∧ n.toNat / 1024 = 3)
        ∧ (r = .fflags ∨ r = .frm ∨ r = .fcsr → fieldFS s.csr.mstatus ≠ 0)
        ∧ (r = .satp → s.priv = .S → getBit posTVM s.csr.mstatus = false)
        ∧ (∀ b, ((r = .cycle ∨ r = .cycleh) ∧ b = 0) ∨ ((r = .time ∨ r = .timeh) ∧ b = 1)
              ∨ ((r = .instret ∨ r = .instreth) ∧ b = 2) →
            (s.priv = .M ∨ s.csr.mcounteren.getLsbD b = true) ∧ (s.priv ≠ .U ∨ s.csr.scounteren.getLsbD b = true))

/-- 47_system_csr.md R638, 10_state.md R53 to R76: what a control register reads as after a write of `v`, for the registers with masks and for
those without, at both XLENs; what the registers that share storage with it read as, the bits outside the written field kept; and of
mstatus every bit, also when the MPP written is 2, which keeps the old MPP and stores the rest. And what every read-only register reads:
misa bit by bit, the four identities, the counters and the platform's time, whole or in halves. That mhartid reads the low XLEN bits of an
identity that XLEN bits cannot hold is the model's choice (log 33). -/
def Obligations.CsrReadsBack : Prop :=
  ∀ (s : State) (v : Word), Legal s →
    let w := s.cfg.xlen.norm v
    let after (r q : CsrName) := (s.writeCsr r v).readCsr q
    let back (r : CsrName) := after r r
    let epc := if s.cfg.ext.c then w &&& ~~~1 else w &&& ~~~3
    let sd (v : Word) : Bool := getBit (s.cfg.xlen.bits - 1) v
    let accepted : Prop := s.cfg.satpModes.contains (satpMode s.cfg.xlen w) = true
    let fcsr : Word := s.csr.fcsr.setWidth 64
    (back .mscratch = w ∧ back .sscratch = w ∧ back .mcause = w ∧ back .scause = w ∧ back .mtval = w ∧ back .stval = w)
      ∧ (back .medeleg = w &&& 0xB3FF ∧ back .mideleg = w &&& 0x222 ∧ back .mie = w &&& 0xAAA)
      ∧ (back .mip = (s.csr.mip &&& ~~~0x222) ||| (w &&& 0x222))
      ∧ (back .sie = w &&& s.csr.mideleg ∧ after .sie .mie = (s.csr.mie &&& ~~~s.csr.mideleg) ||| (w &&& s.csr.mideleg))
      ∧ (back .sip = (s.csr.mip &&& s.csr.mideleg &&& ~~~0x002) ||| (w &&& s.csr.mideleg &&& 0x002)
          ∧ after .sip .mip = (s.csr.mip &&& ~~~(s.csr.mideleg &&& 0x002)) ||| (w &&& s.csr.mideleg &&& 0x002))
      ∧ (after .mideleg .sie = s.csr.mie &&& w &&& 0x222 ∧ after .mideleg .sip = s.csr.mip &&& w &&& 0x222)
      ∧ (back .mtvec = w &&& ~~~2 ∧ back .stvec = w &&& ~~~2 ∧ back .mepc = epc ∧ back .sepc = epc)
      ∧ (back .mcounteren = w &&& 7 ∧ back .scounteren = w &&& 7)
      ∧ (back .fcsr = w &&& 0xFF ∧ back .fflags = w &&& 0x1F ∧ back .frm = w &&& 7)
      ∧ (after .fflags .fcsr = (fcsr &&& 0xE0) ||| (w &&& 0x1F) ∧ after .frm .fcsr = (fcsr &&& 0x1F) ||| ((w &&& 7) <<< 5))
      ∧ (∀ r ∈ [CsrName.fflags, .frm, .fcsr], s.cfg.flen ≠ .f0 → fieldFS (after r .mstatus) = 3#2
          ∧ ∀ k < s.cfg.xlen.bits - 1, k ≠ posFS → k ≠ posFS + 1 → getBit k (after r .mstatus) = getBit k (s.readCsr .mstatus))
      ∧ (back .misa = s.readCsr .misa ∧ back .mhartid = s.cfg.xlen.norm s.hartid)
      ∧ (accepted → back .satp = satpStored s.cfg.xlen w) ∧ (¬ accepted → back .satp = s.csr.satp)
      ∧ (let misa := s.readCsr .misa
         misa.toNat / 2 ^ (s.cfg.xlen.bits - 2) = (match s.cfg.xlen with
            | .rv32 => 1
            | .rv64 => 2)
          ∧ ∀ k < s.cfg.xlen.bits - 2, (getBit k misa = true ↔
              (k = 0 ∧ s.cfg.ext.a = true) ∨ (k = 2 ∧ s.cfg.ext.c = true) ∨ (k = 3 ∧ s.cfg.ext.d = true)
                ∨ (k = 5 ∧ s.cfg.ext.f = true) ∨ k = 8 ∨ (k = 12 ∧ s.cfg.ext.m = true) ∨ k = 18 ∨ k = 20))
      ∧ (s.readCsr .mvendorid = s.cfg.xlen.norm s.cfg.mvendorid ∧ s.readCsr .marchid = s.cfg.xlen.norm s.cfg.marchid
          ∧ s.readCsr .mimpid = s.cfg.xlen.norm s.cfg.mimpid ∧ s.readCsr .mhartid = s.cfg.xlen.norm s.hartid)
      ∧ (∀ p ∈ [(CsrName.cycle, CsrName.cycleh, s.mcycle), (.mcycle, .mcycleh, s.mcycle), (.instret, .instreth, s.minstret),
            (.minstret, .minstreth, s.minstret), (.time, .timeh, s.timeIn)],
          (s.readCsr p.1).toNat = p.2.2.toNat % 2 ^ s.cfg.xlen.bits
            ∧ (s.cfg.xlen = .rv32 → (s.readCsr p.2.1).toNat = p.2.2.toNat / 2 ^ 32))
      ∧ (back .mcycle = w ∧ back .minstret = w)
      ∧ (s.cfg.xlen = .rv32 → back .mcycleh = w ∧ back .minstreth = w
          ∧ after .mcycle .mcycleh = s.readCsr .mcycleh ∧ after .mcycleh .mcycle = s.readCsr .mcycle
          ∧ after .minstret .minstreth = s.readCsr .minstreth ∧ after .minstreth .minstret = s.readCsr .minstret)
      ∧ (∀ k < s.cfg.xlen.bits - 1, getField2 posMPP w ≠ 2#2 ∨ (k ≠ posMPP ∧ k ≠ posMPP + 1) →
          getBit k (back .mstatus) = (getBit k (w &&& mstatusMask s.cfg) || getBit k (mstatusReset s.cfg.xlen)))
      ∧ (getField2 posMPP w = 2#2 → getField2 posMPP (back .mstatus) = getField2 posMPP s.csr.mstatus)
      ∧ (sd (back .mstatus) = true ↔ fieldFS (back .mstatus) = 3#2 ∨ fieldVS (back .mstatus) = 3#2)
      ∧ (∀ k < s.cfg.xlen.bits - 1,
          getBit k (back .sstatus) = (getBit k 0x3000DE722 &&
            (if getBit k (0x000C6722 &&& mstatusMask s.cfg) then getBit k w else getBit k (s.readCsr .mstatus)))
          ∧ getBit k (after .sstatus .mstatus) =
            if getBit k (0x000C6722 &&& mstatusMask s.cfg) then getBit k w else getBit k (s.readCsr .mstatus))

/-! ## Base integer -/

/-- 40_base_integer.md R265, R266, R283 to R291: results of LUI, AUIPC and the immediate forms, on integers. -/
def Obligations.IntegerImmediateResults : Prop :=
  ∀ (s : State) (rd rs1 : RegIdx) (imm : BitVec 12) (up : BitVec 20) (sh : BitVec 6),
    let xl := s.cfg.xlen
    let a := s.getX rs1
    let i : Word := BitVec.ofInt 64 imm.toInt
    ∀ p ∈ [(Instr.lui rd up, BitVec.ofInt 64 (up.toInt * 4096)),
        (Instr.auipc rd up, s.pc + BitVec.ofInt 64 (up.toInt * 4096)),
        (Instr.addi rd rs1 imm, BitVec.ofInt 64 (xl.toInt a + imm.toInt)),
        (Instr.slti rd rs1 imm, if xl.toInt a < imm.toInt then 1 else 0),
        (Instr.sltiu rd rs1 imm, if xl.toNat a < xl.toNat i then 1 else 0),
        (Instr.xori rd rs1 imm, a ^^^ i), (Instr.ori rd rs1 imm, a ||| i), (Instr.andi rd rs1 imm, a &&& i),
        (Instr.slli rd rs1 sh, BitVec.ofNat 64 (xl.toNat a * 2 ^ sh.toNat)),
        (Instr.srli rd rs1 sh, BitVec.ofNat 64 (xl.toNat a / 2 ^ sh.toNat)),
        (Instr.srai rd rs1 sh, BitVec.ofInt 64 (xl.toInt a / 2 ^ sh.toNat))],
      ∃ t, exec p.1 s = .next t ∧ RetiredX s t 4 rd p.2

/-- 40_base_integer.md R262, R292 to R301: results of the register forms, on integers; a shift amount is the low 5 or 6 bits of `x[rs2]`. -/
def Obligations.IntegerRegisterResults : Prop :=
  ∀ (s : State) (rd rs1 rs2 : RegIdx),
    let xl := s.cfg.xlen
    let a := s.getX rs1
    let b := s.getX rs2
    let n := b.toNat % xl.bits
    ∀ p ∈ [(Instr.add rd rs1 rs2, BitVec.ofInt 64 (xl.toInt a + xl.toInt b)),
        (Instr.sub rd rs1 rs2, BitVec.ofInt 64 (xl.toInt a - xl.toInt b)),
        (Instr.sll rd rs1 rs2, BitVec.ofNat 64 (xl.toNat a * 2 ^ n)),
        (Instr.slt rd rs1 rs2, if xl.toInt a < xl.toInt b then 1 else 0),
        (Instr.sltu rd rs1 rs2, if xl.toNat a < xl.toNat b then 1 else 0),
        (Instr.xor rd rs1 rs2, a ^^^ b), (Instr.or rd rs1 rs2, a ||| b), (Instr.and rd rs1 rs2, a &&& b),
        (Instr.srl rd rs1 rs2, BitVec.ofNat 64 (xl.toNat a / 2 ^ n)),
        (Instr.sra rd rs1 rs2, BitVec.ofInt 64 (xl.toInt a / 2 ^ n))],
      ∃ t, exec p.1 s = .next t ∧ RetiredX s t 4 rd p.2

/-- 40_base_integer.md R261, R262, R309 to R317: the word forms work on the low 32 bits and sign-extend a 32-bit result. -/
def Obligations.WordResults : Prop :=
  ∀ (s : State) (rd rs1 rs2 : RegIdx) (imm : BitVec 12) (sh : BitVec 5),
    let a : BitVec 32 := (s.getX rs1).setWidth 32
    let b : BitVec 32 := (s.getX rs2).setWidth 32
    let n := (s.getX rs2).toNat % 32
    ∀ p ∈ [(Instr.addiw rd rs1 imm, wrap32 (a.toInt + imm.toInt)), (Instr.addw rd rs1 rs2, wrap32 (a.toInt + b.toInt)),
        (Instr.subw rd rs1 rs2, wrap32 (a.toInt - b.toInt)),
        (Instr.slliw rd rs1 sh, wrap32 (a.toNat * 2 ^ sh.toNat)), (Instr.sllw rd rs1 rs2, wrap32 (a.toNat * 2 ^ n)),
        (Instr.srliw rd rs1 sh, wrap32 (a.toNat / 2 ^ sh.toNat : Nat)), (Instr.srlw rd rs1 rs2, wrap32 (a.toNat / 2 ^ n : Nat)),
        (Instr.sraiw rd rs1 sh, wrap32 (a.toInt / 2 ^ sh.toNat)), (Instr.sraw rd rs1 rs2, wrap32 (a.toInt / 2 ^ n))],
      ∃ t, exec p.1 s = .next t ∧ RetiredX s t 4 rd p.2

/-- 40_base_integer.md R264, R267, R268, 41_compressed.md R342, R356, R370, R378, R381, 80_interfaces.md R813: target, link value and control-transfer
class of the jumps. -/
def Obligations.JumpResults : Prop :=
  ∀ (s : State) (rd rs1 : RegIdx) (imm : BitVec 12) (j : BitVec 20) (cj : BitVec 11),
    let link (r : RegIdx) : Prop := r = 1#5 ∨ r = 5#5
    let hint (d r : RegIdx) : TransferClass :=
      if link d then (if link r ∧ d ≠ r then .retAndCall else .call) else if link r then .ret else .jump
    let a := s.getX rs1
    ∀ p ∈ [(Instr.jal rd j, rd, (4 : Word), s.pc + BitVec.ofInt 64 (2 * j.toInt), hint rd 0),
        (Instr.jalr rd rs1 imm, rd, 4, (a + BitVec.ofInt 64 imm.toInt) &&& ~~~1, hint rd rs1),
        (Instr.c_j cj, 0, 2, s.pc + BitVec.ofInt 64 (2 * cj.toInt), .jump),
        (Instr.c_jal cj, 1, 2, s.pc + BitVec.ofInt 64 (2 * cj.toInt), .call),
        (Instr.c_jr rs1, 0, 2, a &&& ~~~1, hint 0 rs1), (Instr.c_jalr rs1, 1, 2, a &&& ~~~1, hint 1 rs1)],
      ∃ t, exec p.1 s = .next t ∧ RetiredJump s t p.2.2.2.1 p.2.2.2.2 p.2.1 (s.pc + p.2.2.1)

/-- 40_base_integer.md R264, R269 to R274, 41_compressed.md R371, R372, 80_interfaces.md R813: a branch goes to pc plus its offset exactly when
its condition holds, otherwise to the next instruction; it writes no register. -/
def Obligations.BranchResults : Prop :=
  ∀ (s : State) (rs1 rs2 : RegIdx) (c1 : BitVec 3) (imm : BitVec 12) (ci : BitVec 8),
    let xl := s.cfg.xlen
    let a := s.getX rs1
    let b := s.getX rs2
    let z := s.getX (x8 c1)
    ∀ p ∈ [(Instr.beq rs1 rs2 imm, (4 : Word), decide (a = b), imm.toInt), (Instr.bne rs1 rs2 imm, 4, decide (a ≠ b), imm.toInt),
        (Instr.blt rs1 rs2 imm, 4, decide (xl.toInt a < xl.toInt b), imm.toInt),
        (Instr.bge rs1 rs2 imm, 4, decide (xl.toInt b ≤ xl.toInt a), imm.toInt),
        (Instr.bltu rs1 rs2 imm, 4, decide (xl.toNat a < xl.toNat b), imm.toInt),
        (Instr.bgeu rs1 rs2 imm, 4, decide (xl.toNat b ≤ xl.toNat a), imm.toInt),
        (Instr.c_beqz c1 ci, 2, decide (z = 0), ci.toInt), (Instr.c_bnez c1 ci, 2, decide (z ≠ 0), ci.toInt)],
      ∃ t, exec p.1 s = .next t
        ∧ RetiredJump s t (if p.2.2.1 then s.pc + BitVec.ofInt 64 (2 * p.2.2.2) else s.pc + p.2.1)
            (if p.2.2.1 then .branchTaken else .branchNotTaken) 0#5 0

/-! ## Loads and stores -/

/-- 40_base_integer.md R263, R275 to R279, R306, R307, 41_compressed.md R347, R349, R375, R377, 20_memory.md R152, R156, R165: an integer load whose access
completes writes the little-endian bytes at its effective address, widened by sign or zero, and changes nothing but pc and the counters. Where
the bytes are is the layer's answer, whose map is data of the configuration (log 5); a byte of a device is a free value (log 6).
That no translation writes memory is the model's choice (log 32). -/
def Obligations.IntegerLoadResults : Prop :=
  ∀ (s : State) (rd rs1 : RegIdx) (cd c1 : BitVec 3) (i : BitVec 12) (i5 : BitVec 5) (i6 : BitVec 6),
    ∀ f ∈ integerLoads rd rs1 cd c1 i i5 i6, ∀ ts, ReadCompletes s (f.address s) f.bytes ts →
      let v := littleEndian (placeBytes s.mem s.devSeq ts)
      ∃ t, exec f.instr s = .next t
        ∧ Loaded s t f.len f.reg (if f.signed then BitVec.ofInt 64 ((v : Int).bmod (2 ^ (8 * f.bytes))) else BitVec.ofNat 64 v)
            (f.address s) f.bytes ts

/-- 40_base_integer.md R263, R280 to R282, R308, 41_compressed.md R351, R353, R384, R386, 20_memory.md R152, R157, R161, R173: an integer store whose access completes
writes the low bytes of its register at its effective address, every other byte and every register being kept. The premise on memory is an
invariant of the model (`StepKeepsLegal`). The model's own choices in it: that a byte for a device changes no RAM (log 6), and that the range
of which R173 drops the other harts' cached translations is one of physical addresses (`WriteEffect.caches`: log 7, PRESUMED).
That no translation writes memory is the model's choice (log 32). -/
def Obligations.IntegerStoreResults : Prop :=
  ∀ (s : State) (rs2 rs1 : RegIdx) (c2 c1 : BitVec 3) (i : BitVec 12) (i5 : BitVec 5) (i6 : BitVec 6), Memory.wf s.mem = true →
    ∀ f ∈ integerStores rs2 rs1 c2 c1 i i5 i6, ∀ ts, WriteCompletes s (f.address s) (s.getX f.reg) f.bytes ts →
      ∃ t, exec f.instr s = .next t ∧ Stored s t f.len (s.getX f.reg) (f.address s) f.bytes ts

/-- 44_float_single.md R469, R470, 45_float_double.md R522, 41_compressed.md R346, R348, R374, R376, 10_state.md R37, R39: a floating-point load with the unit on
writes the bytes it reads, a single one boxed, and makes FS dirty. A byte of a device is a free value, counted by `devSeq`: the model's
choice (log 6). That no translation writes memory is the model's choice (log 32). -/
def Obligations.FloatLoadResults : Prop :=
  ∀ (s : State) (rd rs1 : RegIdx) (cd c1 : BitVec 3) (i : BitVec 12) (i5 : BitVec 5) (i6 : BitVec 6), s.fpEnabled = true →
    ∀ f ∈ floatLoads rd rs1 cd c1 i i5 i6, ∀ ts, ReadCompletes s (f.address s) f.bytes ts →
      let v := littleEndian (placeBytes s.mem s.devSeq ts)
      ∃ t, exec f.instr s = .next t
        ∧ LoadedF s t f.len f.reg (if f.bytes = 4 then s.cfg.flen.box (BitVec.ofNat 32 v) else BitVec.ofNat 64 v)
            (f.address s) f.bytes ts

/-- 44_float_single.md R469, R471, 45_float_double.md R523, 41_compressed.md R350, R352, R383, R385: a floating-point store with the unit on writes the low
bytes of its register, whatever the upper half holds, and does not change FS. The model's own choices in it: a byte for a device
changes no RAM (log 6); the other harts' cached translations are dropped by physical range (`WriteEffect.caches`: log 7, PRESUMED).
That no translation writes memory is the model's choice (log 32). -/
def Obligations.FloatStoreResults : Prop :=
  ∀ (s : State) (rs2 rs1 : RegIdx) (c2 c1 : BitVec 3) (i : BitVec 12) (i5 : BitVec 5) (i6 : BitVec 6), s.fpEnabled = true →
    Memory.wf s.mem = true →
    ∀ f ∈ floatStores rs2 rs1 c2 c1 i i5 i6, ∀ ts, WriteCompletes s (f.address s) (s.getF f.reg) f.bytes ts →
      ∃ t, exec f.instr s = .next t ∧ Stored s t f.len (s.getF f.reg) (f.address s) f.bytes ts

/-- 20_memory.md R156, R157, R160, R162, R173, 60_exceptions.md R702, R703, R705, R706: a misaligned access under MISALIGNED = trap raises cause 4 or 6
before anything is done; an aligned one the layer refuses raises the cause of the fault; the trap value is the address, and no register
and no byte changes. Under MISALIGNED = split a misaligned access that the layer refuses at its byte `k` raises the cause of the fault with the
address of that byte; the bytes before it stay written, no register changes. That a split load keeps what its earlier bytes did to `mem_seq`
and to the device counter is the model's reading (log 26). In a split store, that a byte for a device changes no RAM (log 6) and that the
other harts' cached translations are dropped by physical range (`WriteEffect.caches`: log 7, PRESUMED) are the model's own choices.
That no translation writes memory is the model's choice (log 32); that the layer's answer misaligned raises 4 or 6 also for one byte is its
reading (log 35). -/
def Obligations.AccessTraps : Prop :=
  ∀ (s : State) (r rs1 : RegIdx) (cd c1 : BitVec 3) (i : BitVec 12) (i5 : BitVec 5) (i6 : BitVec 6),
    let loads := integerLoads r rs1 cd c1 i i5 i6 ++ (if s.fpEnabled then floatLoads r rs1 cd c1 i i5 i6 else [])
    let stores := (integerStores r rs1 cd c1 i i5 i6).map (fun f => (f, s.getX f.reg))
      ++ (if s.fpEnabled then (floatStores r rs1 cd c1 i i5 i6).map (fun f => (f, s.getF f.reg)) else [])
    let loadCause (flt : LayerFault) : Nat := match flt with
      | .misaligned => 4
      | .access => 5
      | .page => 13
    let storeCause (flt : LayerFault) : Nat := match flt with
      | .misaligned => 6
      | .access => 7
      | .page => 15
    (∀ f ∈ loads,
      let a := f.address s
      (s.cfg.xlen.toNat a % f.bytes ≠ 0 → s.cfg.misaligned = .trap →
        ∃ t, exec f.instr s = .next t ∧ Trapped s t false 4 a)
      ∧ (s.cfg.xlen.toNat a % f.bytes = 0 → ∀ flt, s.places .data a f.bytes = .error flt →
        ∃ t, exec f.instr s = .next t ∧ Trapped s t false (loadCause flt) a)
      ∧ (s.cfg.xlen.toNat a % f.bytes ≠ 0 → s.cfg.misaligned = .split → ∀ ts flt, ts.length < f.bytes →
        resolve s.cfg s.mem (s.request .data 1) a ts.length = .ok ts →
        s.places .data (a + BitVec.ofNat 64 ts.length) 1 = .error flt →
        ∃ u t, exec f.instr s = .next t ∧ Trapped u t false (loadCause flt) (a + BitVec.ofNat 64 ts.length)
          ∧ u = { s with
              devSeq := s.devSeq + deviceCount ts
              memSeq := s.memSeq + (if s.cfg.resInvalidateOn = .anyAccess then ts.length else 0)
              out := u.out }))
    ∧ (∀ p ∈ stores,
      let f := p.1
      let a := f.address s
      (s.cfg.xlen.toNat a % f.bytes ≠ 0 → s.cfg.misaligned = .trap →
        ∃ t, exec f.instr s = .next t ∧ Trapped s t false 6 a)
      ∧ (s.cfg.xlen.toNat a % f.bytes = 0 → ∀ flt, s.places .store a f.bytes = .error flt →
        ∃ t, exec f.instr s = .next t ∧ Trapped s t false (storeCause flt) a)
      ∧ (s.cfg.xlen.toNat a % f.bytes ≠ 0 → s.cfg.misaligned = .split → Memory.wf s.mem = true → ∀ ts flt, ts.length < f.bytes →
        AnswersBytes s a p.2 ts →
        (s.afterBytes p.2 ts).places .store (a + BitVec.ofNat 64 ts.length) 1 = .error flt →
        ∃ u t, exec f.instr s = .next t ∧ Trapped u t false (storeCause flt) (a + BitVec.ofNat 64 ts.length)
          ∧ u = { s with mem := u.mem, memSeq := u.memSeq, others := u.others, out := u.out }
          ∧ WriteEffect s u ts.length ts p.2))

/-- 20_memory.md R155, R167, 60_exceptions.md R705: with SATP_MODES = {0} translation is the identity and no page fault is reported, so no
step takes the causes 12, 13 and 15. In every configuration a request has one answer, and it depends on nothing of the hart but what
20_memory.md R155 lists. That a layer breaking the contract makes the configuration invalid is the model's (log 14). -/
def Obligations.IdentityTranslation : Prop :=
  (∀ (s : State) (kind : AccessKind) (a : Word) (n : Nat), s.cfg.valid = true → (∀ m ∈ s.cfg.satpModes, m = 0) →
      s.places kind a n ≠ .error .page
        ∧ ∀ ts, s.places kind a n = .ok ts →
          ts.map Place.addr = (List.range n).map fun k => s.cfg.xlen.toNat (a + BitVec.ofNat 64 k))
    ∧ (∀ (s t : State), (∀ m ∈ s.cfg.satpModes, m = 0) → step s = .next t →
        ∀ v, t.out.trap ≠ some (false, 12, v) ∧ t.out.trap ≠ some (false, 13, v) ∧ t.out.trap ≠ some (false, 15, v))
    ∧ (∀ (s t : State) (kind : AccessKind) (a : Word) (n : Nat), t.cfg = s.cfg → t.mem = s.mem → t.hartid = s.hartid → t.priv = s.priv →
        t.csr.satp = s.csr.satp → (∀ i ∈ [posMPRV, posMPP, posMPP + 1, posSUM, posMXR], getBit i t.csr.mstatus = getBit i s.csr.mstatus) →
        t.places kind a n = s.places kind a n)

/-! ## Compressed -/

/-- 41_compressed.md R345, R354, R355, R357 to R369, R373, R379, R382: results of the compressed instructions that only write a register. -/
def Obligations.CompressedResults : Prop :=
  ∀ (s : State) (rd rs2 : RegIdx) (cd c2 : BitVec 3) (i6 sh : BitVec 6) (i8 : BitVec 8),
    let xl := s.cfg.xlen
    let a := s.getX rd
    let b := s.getX rs2
    let ca := s.getX (x8 cd)
    let cb := s.getX (x8 c2)
    let w (v : Word) : Int := (v.setWidth 32 : BitVec 32).toInt
    ∀ p ∈ [(Instr.c_addi4spn cd i8, x8 cd, BitVec.ofInt 64 (xl.toInt (s.getX 2) + 4 * i8.toNat)),
        (Instr.c_nop i6, 0, 0), (Instr.c_addi rd i6, rd, BitVec.ofInt 64 (xl.toInt a + i6.toInt)),
        (Instr.c_addiw rd i6, rd, wrap32 (w a + i6.toInt)), (Instr.c_li rd i6, rd, BitVec.ofInt 64 i6.toInt),
        (Instr.c_addi16sp i6, 2, BitVec.ofInt 64 (xl.toInt (s.getX 2) + 16 * i6.toInt)),
        (Instr.c_lui rd i6, rd, BitVec.ofInt 64 (4096 * i6.toInt)),
        (Instr.c_srli cd sh, x8 cd, BitVec.ofNat 64 (xl.toNat ca / 2 ^ sh.toNat)),
        (Instr.c_srai cd sh, x8 cd, BitVec.ofInt 64 (xl.toInt ca / 2 ^ sh.toNat)),
        (Instr.c_andi cd i6, x8 cd, ca &&& BitVec.ofInt 64 i6.toInt),
        (Instr.c_sub cd c2, x8 cd, BitVec.ofInt 64 (xl.toInt ca - xl.toInt cb)),
        (Instr.c_xor cd c2, x8 cd, ca ^^^ cb), (Instr.c_or cd c2, x8 cd, ca ||| cb), (Instr.c_and cd c2, x8 cd, ca &&& cb),
        (Instr.c_subw cd c2, x8 cd, wrap32 (w ca - w cb)), (Instr.c_addw cd c2, x8 cd, wrap32 (w ca + w cb)),
        (Instr.c_slli rd sh, rd, BitVec.ofNat 64 (xl.toNat a * 2 ^ sh.toNat)), (Instr.c_mv rd rs2, rd, b),
        (Instr.c_add rd rs2, rd, BitVec.ofInt 64 (xl.toInt a + xl.toInt b))],
      ∃ t, exec p.1 s = .next t ∧ RetiredX s t 2 p.2.1 p.2.2

/-- 41_compressed.md R342: a compressed instruction performs the operation of its 32-bit instruction, with pc + 2 as the next pc. Stated for
every compressed instruction that is no control transfer, with the floating-point unit on where it needs it; traps of the access included. -/
def Obligations.CompressedExpansion : Prop :=
  ∀ (s : State) (c i : Instr), expansion c = some i → (i.isFloat = true → s.fpEnabled = true) →
    ∃ t, exec i s = .next t ∧ exec c s = .next (withLen2 s t)

/-! ## Multiply, divide, arithmetic helpers -/

/-- 42_muldiv.md R401 to R415: results of multiply and divide, on integers; division is toward zero, by zero it gives all ones and the dividend. -/
def Obligations.MulDivResults : Prop :=
  ∀ (s : State) (rd rs1 rs2 : RegIdx),
    let xl := s.cfg.xlen
    let a := s.getX rs1
    let b := s.getX rs2
    let i := xl.toInt a
    let j := xl.toInt b
    let m := xl.toNat a
    let n := xl.toNat b
    let wi := ((a.setWidth 32 : BitVec 32)).toInt
    let wj := ((b.setWidth 32 : BitVec 32)).toInt
    let wm := ((a.setWidth 32 : BitVec 32)).toNat
    let wn := ((b.setWidth 32 : BitVec 32)).toNat
    ∀ p ∈ [(Instr.mul rd rs1 rs2, BitVec.ofInt 64 (i * j)), (Instr.mulh rd rs1 rs2, BitVec.ofInt 64 (i * j / 2 ^ xl.bits)),
        (Instr.mulhsu rd rs1 rs2, BitVec.ofInt 64 (i * n / 2 ^ xl.bits)),
        (Instr.mulhu rd rs1 rs2, BitVec.ofNat 64 (m * n / 2 ^ xl.bits)),
        (Instr.div rd rs1 rs2, BitVec.ofInt 64 (if j = 0 then -1 else i.tdiv j)),
        (Instr.divu rd rs1 rs2, if n = 0 then BitVec.ofInt 64 (-1) else BitVec.ofNat 64 (m / n)),
        (Instr.rem rd rs1 rs2, BitVec.ofInt 64 (if j = 0 then i else i.tmod j)),
        (Instr.remu rd rs1 rs2, BitVec.ofNat 64 (m % n)), (Instr.mulw rd rs1 rs2, wrap32 (wi * wj)),
        (Instr.divw rd rs1 rs2, wrap32 (if wj = 0 then -1 else wi.tdiv wj)),
        (Instr.divuw rd rs1 rs2, wrap32 (if wn = 0 then -1 else (wm / wn : Nat))),
        (Instr.remw rd rs1 rs2, wrap32 (if wj = 0 then wi else wi.tmod wj)),
        (Instr.remuw rd rs1 rs2, wrap32 (wm % wn : Nat))],
      ∃ t, exec p.1 s = .next t ∧ RetiredX s t 4 rd p.2

/-- 49_arith_helpers.md R673: the four division functions, at every width: the value for a zero divisor, for MIN by -1, and otherwise the
quotient rounded toward zero and the remainder with the sign of the dividend. -/
def Obligations.DivisionHelpers : Prop :=
  ∀ (w : Nat) (a b : BitVec w),
    (b = 0 → divS w a b = BitVec.allOnes w ∧ divU w a b = BitVec.allOnes w ∧ remS w a b = a ∧ remU w a b = a)
      ∧ (a = BitVec.intMin w → b = -1 → divS w a b = a ∧ remS w a b = 0)
      ∧ (b ≠ 0 → ¬ (a = BitVec.intMin w ∧ b = -1) →
          (divS w a b).toInt = a.toInt.tdiv b.toInt ∧ (remS w a b).toInt = a.toInt - b.toInt * (divS w a b).toInt
            ∧ (remS w a b).toInt.natAbs < b.toInt.natAbs
            ∧ (0 ≤ a.toInt → 0 ≤ (remS w a b).toInt) ∧ (a.toInt ≤ 0 → (remS w a b).toInt ≤ 0))
      ∧ (b ≠ 0 → (divU w a b).toNat = a.toNat / b.toNat ∧ (remU w a b).toNat = a.toNat % b.toNat)

/-- 49_arith_helpers.md R674: the half-word decomposition computes the true double-width product, and from its upper half the signed and mixed
upper halves, at every even width. -/
def Obligations.HalfwordMultiply : Prop :=
  ∀ (h : Nat) (a b : BitVec (2 * h)), 0 < h →
    (halfwordMul h a b).1 = mulhUU (2 * h) a b ∧ (halfwordMul h a b).2 = a * b
      ∧ halfwordMulh h a b = mulhSS (2 * h) a b ∧ halfwordMulhsu h a b = mulhSU (2 * h) a b
      ∧ (mulhUU (2 * h) a b).toNat = a.toNat * b.toNat / 2 ^ (2 * h)
      ∧ (mulhSS (2 * h) a b).toInt = a.toInt * b.toInt / 2 ^ (2 * h)
      ∧ (mulhSU (2 * h) a b).toInt = a.toInt * b.toNat / 2 ^ (2 * h)

/-- 49_arith_helpers.md R676: the carry-lookahead adder: `u(s) + 2^N · c_N = u(a) + u(b) + c_0`, the carry of every group from its generate and
propagate signals, and subtraction and the two comparisons read from it. -/
def Obligations.CarryLookahead : Prop :=
  ∀ (w : Nat) (a b : BitVec w) (c : Bool),
    (sumBits a b c w + 2 ^ w * (rippleCarry a b c w).toNat = a.toNat + b.toNat + c.toNat)
      ∧ (∀ lo k, rippleCarry a b c (lo + k) = groupCarry a b lo k (rippleCarry a b c lo))
      ∧ (∀ lo j k, groupCarry a b lo (j + k) c = groupCarry a b (lo + j) k (groupCarry a b lo j c))
      ∧ (BitVec.ofNat w (sumBits a b false w) = a + b ∧ BitVec.ofNat w (sumBits a (~~~b) true w) = a - b)
      ∧ (rippleCarry a (~~~b) true w = false ↔ a.toNat < b.toNat)
      ∧ (0 < w →
          let d := BitVec.ofNat w (sumBits a (~~~b) true w)
          ((d.msb ^^ ((a.msb ^^ b.msb) && (a.msb ^^ d.msb))) = true ↔ a.toInt < b.toInt))

/-- 49_arith_helpers.md R677: radix-4 Booth recoding: the digits lie between -2 and 2, and the partial products add up to the product, for a signed and
for an unsigned multiplier. -/
def Obligations.BoothRecoding : Prop :=
  ∀ (h : Nat) (b : BitVec (2 * h)) (x : Int),
    (∀ j, -2 ≤ boothDigit b j ∧ boothDigit b j ≤ 2)
      ∧ boothSum b x h = x * b.toInt ∧ boothSum b x (h + 1) = x * b.toNat

/-- 49_arith_helpers.md R678: a compressor keeps the sum of its three vectors; layers keep the sum of all vectors and leave at most two, which
the adder of R676 sums. Over the plain partial products, and over those of R677, for every signedness of the operands, the tree gives the exact
double-width product: its low half is the result of MUL, its high half that of MULHU, MULHSU or MULH. -/
def Obligations.WallaceReduction : Prop :=
  (∀ (w : Nat) (x y z : BitVec w), (compress x y z).1 + (compress x y z).2 = x + y + z)
    ∧ (∀ (w n : Nat) (vs : List (BitVec w)), (wallaceLayers n vs).foldl (· + ·) 0#w = vs.foldl (· + ·) 0#w)
    ∧ (∀ (w : Nat) (vs : List (BitVec w)), (wallaceLayers vs.length vs).length ≤ 2 ∧ wallaceTree vs = vs.foldl (· + ·) 0#w)
    ∧ (∀ (w : Nat) (sa sb : Bool) (a b : BitVec w),
        let tree := wallaceTree (plainProducts w sa sb a b)
        tree = BitVec.ofInt (2 * w) (operandInt sa a * operandInt sb b) ∧ tree.setWidth w = mulLow w a b
          ∧ (sa = false → sb = false → tree.toNat = a.toNat * b.toNat ∧ tree.extractLsb' w w = mulhUU w a b)
          ∧ (sa = true → sb = false → tree.extractLsb' w w = mulhSU w a b)
          ∧ (sa = true → sb = true → tree.toInt = a.toInt * b.toInt ∧ tree.extractLsb' w w = mulhSS w a b))
    ∧ (∀ (h : Nat) (sa sb : Bool) (a b : BitVec (2 * h)),
        let w := 2 * h
        let tree := wallaceTree (boothProducts h sa sb a b)
        tree = BitVec.ofInt (2 * w) (operandInt sa a * operandInt sb b) ∧ tree.setWidth w = mulLow w a b
          ∧ (sa = false → sb = false → tree.extractLsb' w w = mulhUU w a b)
          ∧ (sa = true → sb = false → tree.extractLsb' w w = mulhSU w a b)
          ∧ (sa = true → sb = true → tree.extractLsb' w w = mulhSS w a b))

/-! ## Bit manipulation -/

/-- 46_bitmanip.md R571 to R582, R589 to R601: results of the address, logic, minimum, maximum, extension and rotate instructions. -/
def Obligations.BitmanipResults : Prop :=
  ∀ (s : State) (rd rs1 rs2 : RegIdx) (sh : BitVec 6) (sw : BitVec 5),
    let xl := s.cfg.xlen
    let a := s.getX rs1
    let b := s.getX rs2
    let i := xl.toInt a
    let j := xl.toInt b
    let m := xl.toNat a
    let n := xl.toNat b
    let u := a.toNat % 2 ^ 32
    let lo : BitVec 32 := a.setWidth 32
    let rot (f : (w : Nat) → BitVec w → BitVec w) : Word := match xl with
      | .rv32 => (f 32 (a.setWidth 32)).setWidth 64
      | .rv64 => f 64 a
    ∀ p ∈ [(Instr.sh1add rd rs1 rs2, BitVec.ofInt 64 (j + 2 * i)), (Instr.sh2add rd rs1 rs2, BitVec.ofInt 64 (j + 4 * i)),
        (Instr.sh3add rd rs1 rs2, BitVec.ofInt 64 (j + 8 * i)), (Instr.add_uw rd rs1 rs2, b + BitVec.ofNat 64 u),
        (Instr.sh1add_uw rd rs1 rs2, b + BitVec.ofNat 64 (2 * u)), (Instr.sh2add_uw rd rs1 rs2, b + BitVec.ofNat 64 (4 * u)),
        (Instr.sh3add_uw rd rs1 rs2, b + BitVec.ofNat 64 (8 * u)),
        (Instr.slli_uw rd rs1 sh, BitVec.ofNat 64 (u * 2 ^ sh.toNat)), (Instr.andn rd rs1 rs2, a &&& ~~~b),
        (Instr.orn rd rs1 rs2, a ||| ~~~b), (Instr.xnor rd rs1 rs2, ~~~(a ^^^ b)),
        (Instr.max rd rs1 rs2, BitVec.ofInt 64 (max i j)), (Instr.maxu rd rs1 rs2, BitVec.ofNat 64 (max m n)),
        (Instr.min rd rs1 rs2, BitVec.ofInt 64 (min i j)), (Instr.minu rd rs1 rs2, BitVec.ofNat 64 (min m n)),
        (Instr.sext_b rd rs1, BitVec.ofInt 64 ((a.toNat : Int).bmod (2 ^ 8))),
        (Instr.sext_h rd rs1, BitVec.ofInt 64 ((a.toNat : Int).bmod (2 ^ 16))),
        (Instr.zext_h rd rs1, BitVec.ofNat 64 (a.toNat % 2 ^ 16)),
        (Instr.rol rd rs1 rs2, rot fun _ v => v.rotateLeft (b.toNat % xl.bits)),
        (Instr.ror rd rs1 rs2, rot fun _ v => v.rotateRight (b.toNat % xl.bits)),
        (Instr.rolw rd rs1 rs2, (lo.rotateLeft (b.toNat % 32)).signExtend 64),
        (Instr.rorw rd rs1 rs2, (lo.rotateRight (b.toNat % 32)).signExtend 64),
        (Instr.roriw rd rs1 sw, (lo.rotateRight sw.toNat).signExtend 64)],
      ∃ t, exec p.1 s = .next t ∧ RetiredX s t 4 rd p.2

/-- 46_bitmanip.md R571, R583 to R588: the counts: leading zeros from the position of the highest 1 bit, trailing zeros from the largest power of
two that divides, and the number of 1 bits; the width for 0. -/
def Obligations.BitCountResults : Prop :=
  ∀ (s : State) (rd rs1 : RegIdx),
    let clz (w m : Nat) : Word := BitVec.ofNat 64 (if m = 0 then w else w - 1 - Nat.log2 m)
    let ctz (w m : Nat) : Word := BitVec.ofNat 64 (if m = 0 then w else padicValNat 2 m)
    let cpop (m : Nat) : Word := BitVec.ofNat 64 (Nat.digits 2 m).sum
    let m := s.cfg.xlen.toNat (s.getX rs1)
    let u := (s.getX rs1).toNat % 2 ^ 32
    ∀ p ∈ [(Instr.clz rd rs1, clz s.cfg.xlen.bits m), (Instr.ctz rd rs1, ctz s.cfg.xlen.bits m), (Instr.cpop rd rs1, cpop m),
        (Instr.clzw rd rs1, clz 32 u), (Instr.ctzw rd rs1, ctz 32 u), (Instr.cpopw rd rs1, cpop u)],
      ∃ t, exec p.1 s = .next t ∧ RetiredX s t 4 rd p.2

/-- 46_bitmanip.md R571, R598, R602 to R614: bit by bit, the results of RORI, ORC.B, REV8, the carry-less products and the single-bit
instructions; the index of a single bit is the low 5 or 6 bits of `x[rs2]`, or the immediate; RORI for the shift amounts its encoding admits. -/
def Obligations.BitwiseResults : Prop :=
  ∀ (s : State) (rd rs1 rs2 : RegIdx) (sh : BitVec 6),
    let w := s.cfg.xlen.bits
    let a := s.getX rs1
    let b := s.getX rs2
    let n := b.toNat % w
    let m := sh.toNat
    ∀ p ∈ [(Instr.orc_b rd rs1, fun k => (List.range 8).any fun j => a.getLsbD (8 * (k / 8) + j)),
        (Instr.rev8 rd rs1, fun k => a.getLsbD (w - 8 - 8 * (k / 8) + k % 8)),
        (Instr.clmul rd rs1 rs2, fun k => clmulBit a b w k), (Instr.clmulh rd rs1 rs2, fun k => clmulBit a b w (k + w)),
        (Instr.clmulr rd rs1 rs2, fun k => clmulBit a b w (k + w - 1)),
        (Instr.bclr rd rs1 rs2, fun k => a.getLsbD k && k != n), (Instr.bclri rd rs1 sh, fun k => a.getLsbD k && k != m),
        (Instr.bext rd rs1 rs2, fun k => k == 0 && a.getLsbD n), (Instr.binv rd rs1 rs2, fun k => a.getLsbD k != (k == n)),
        (Instr.binvi rd rs1 sh, fun k => a.getLsbD k != (k == m)), (Instr.bset rd rs1 rs2, fun k => a.getLsbD k || k == n),
        (Instr.bseti rd rs1 sh, fun k => a.getLsbD k || k == m),
        (Instr.bexti rd rs1 sh, fun k => k == 0 && a.getLsbD m && decide (m < w))]
        ++ (if m < w then [(Instr.rori rd rs1 sh, fun k => a.getLsbD ((k + m) % w))] else []),
      ∃ t v, exec p.1 s = .next t ∧ RetiredX s t 4 rd v ∧ ∀ k < w, v.getLsbD k = p.2 k

/-! ## Atomics -/

/-- 43_atomics.md R427, R433, R444: LR loads, and records the address and the counter as its own load left it; it is then reserved. A byte of a
device is a free value, counted by `devSeq`: the model's choice (log 6). That no translation writes memory is the model's choice (log 32). -/
def Obligations.LoadReservedResults : Prop :=
  ∀ (s : State) (rd rs1 : RegIdx) (aq rl : BitVec 1), ∀ p ∈ [(Instr.lr_w rd rs1 aq rl, 4), (Instr.lr_d rd rs1 aq rl, 8)],
    ∀ ts, s.cfg.xlen.toNat (s.getX rs1) % p.2 = 0 →
      s.places .data (s.getX rs1) p.2 = .ok ts →
      let v := littleEndian (placeBytes s.mem s.devSeq ts)
      ∃ t, exec p.1 s = .next t
        ∧ Loaded { s with resValid := true, resAddr := s.getX rs1, resSeq := t.memSeq } t 4 rd
            (BitVec.ofInt 64 ((v : Int).bmod (2 ^ (8 * p.2)))) (s.getX rs1) p.2 ts
        ∧ t.reserved (s.getX rs1) = true

/-- 43_atomics.md R428: SC. A misaligned one traps first, whatever is reserved. One to a reserved address stores and gives 0; where that
store faults, the fault is raised and nothing else changes. Any other stores nothing, asks the layer nothing, so cannot fault, and
gives 1. Success and failure both drop the reservation. The model's own choices in it: a byte for a device changes no RAM (log 6); the
other harts' cached translations are dropped by physical range (`WriteEffect.caches`: log 7, PRESUMED).
That no translation writes memory is the model's choice (log 32). -/
def Obligations.StoreConditionalResults : Prop :=
  ∀ (s : State) (rd rs1 rs2 : RegIdx) (aq rl : BitVec 1),
    let addr := s.getX rs1
    let reserved : Prop := s.resValid = true ∧ s.resAddr = addr ∧ s.resSeq = s.memSeq
    ∀ p ∈ [(Instr.sc_w rd rs1 rs2 aq rl, 4), (Instr.sc_d rd rs1 rs2 aq rl, 8)],
      let target := s.places .store addr p.2
      let aligned : Prop := s.cfg.xlen.toNat addr % p.2 = 0
      (¬ aligned → ∃ t, exec p.1 s = .next t ∧ Trapped s t false 6 addr)
      ∧ (aligned → reserved → Memory.wf s.mem = true → ∀ ts, target = .ok ts →
          ∃ t, exec p.1 s = .next t
            ∧ RetiredX { s with resValid := false, mem := t.mem, memSeq := t.memSeq, others := t.others } t 4 rd 0
            ∧ WriteEffect s t 1 ts (s.getX rs2))
      ∧ (aligned → reserved → ∀ flt, target = .error flt →
          ∃ t, exec p.1 s = .next t ∧ Trapped s t false (match flt with
            | .misaligned => 6
            | .access => 7
            | .page => 15) addr)
      ∧ (aligned → ¬ reserved → ∃ t, exec p.1 s = .next t ∧ RetiredX { s with resValid := false } t 4 rd 1)

/-- 43_atomics.md R431, R432, R435 to R443, R446 to R454: an AMO gives `x[rd]` the old value and memory the result of its operation on the old value
and `x[rs2]`, in one write. The model's own choices in it: a byte of a device is a free value, counted by `devSeq`, and one for a device
changes no RAM (log 6); the other harts' cached translations are dropped by physical range (`WriteEffect.caches`: log 7, PRESUMED).
That no translation writes memory is the model's choice (log 32). -/
def Obligations.AmoResults : Prop :=
  ∀ (s : State) (rd rs1 rs2 : RegIdx) (aq rl : BitVec 1) (ts : List Place), Memory.wf s.mem = true →
    let old := littleEndian (placeBytes s.mem s.devSeq ts)
    let ow : BitVec 32 := BitVec.ofNat 32 old
    let od : BitVec 64 := BitVec.ofNat 64 old
    let bw : BitVec 32 := (s.getX rs2).setWidth 32
    let bd : BitVec 64 := s.getX rs2
    (s.cfg.xlen.toNat (s.getX rs1) % 4 = 0 → s.places .store (s.getX rs1) 4 = .ok ts →
      ∀ p ∈ [(Instr.amoswap_w rd rs1 rs2 aq rl, bw), (Instr.amoadd_w rd rs1 rs2 aq rl, ow + bw),
          (Instr.amoxor_w rd rs1 rs2 aq rl, ow ^^^ bw), (Instr.amoand_w rd rs1 rs2 aq rl, ow &&& bw),
          (Instr.amoor_w rd rs1 rs2 aq rl, ow ||| bw),
          (Instr.amomin_w rd rs1 rs2 aq rl, BitVec.ofInt 32 (min ow.toInt bw.toInt)),
          (Instr.amomax_w rd rs1 rs2 aq rl, BitVec.ofInt 32 (max ow.toInt bw.toInt)),
          (Instr.amominu_w rd rs1 rs2 aq rl, BitVec.ofNat 32 (min ow.toNat bw.toNat)),
          (Instr.amomaxu_w rd rs1 rs2 aq rl, BitVec.ofNat 32 (max ow.toNat bw.toNat))],
        ∃ t, exec p.1 s = .next t ∧ Swapped s t rd (ow.signExtend 64) (p.2.setWidth 64) ts)
    ∧ (s.cfg.xlen.toNat (s.getX rs1) % 8 = 0 → s.places .store (s.getX rs1) 8 = .ok ts →
      ∀ p ∈ [(Instr.amoswap_d rd rs1 rs2 aq rl, bd), (Instr.amoadd_d rd rs1 rs2 aq rl, od + bd),
          (Instr.amoxor_d rd rs1 rs2 aq rl, od ^^^ bd), (Instr.amoand_d rd rs1 rs2 aq rl, od &&& bd),
          (Instr.amoor_d rd rs1 rs2 aq rl, od ||| bd),
          (Instr.amomin_d rd rs1 rs2 aq rl, BitVec.ofInt 64 (min od.toInt bd.toInt)),
          (Instr.amomax_d rd rs1 rs2 aq rl, BitVec.ofInt 64 (max od.toInt bd.toInt)),
          (Instr.amominu_d rd rs1 rs2 aq rl, BitVec.ofNat 64 (min od.toNat bd.toNat)),
          (Instr.amomaxu_d rd rs1 rs2 aq rl, BitVec.ofNat 64 (max od.toNat bd.toNat))],
        ∃ t, exec p.1 s = .next t ∧ Swapped s t rd od p.2 ts)

/-- 43_atomics.md R426, R427, R431, 20_memory.md R160: a misaligned LR, SC or AMO raises at once, cause 4 for LR and 6 for the others, whatever
MISALIGNED is; an aligned LR or AMO that the layer refuses raises the fault of its kind, data for LR and store for an AMO (SC:
`StoreConditionalResults`). `Trapped` says that the reservation, memory and every register are kept.
That no translation writes memory is the model's choice (log 32). -/
def Obligations.AtomicTraps : Prop :=
  ∀ (s : State) (rd rs1 rs2 : RegIdx) (aq rl : BitVec 1),
    let addr := s.getX rs1
    let cause (kind : AccessKind) (flt : LayerFault) : Nat := match kind, flt with
      | .data, .misaligned => 4
      | .data, .access => 5
      | .data, .page => 13
      | _, .misaligned => 6
      | _, .access => 7
      | _, .page => 15
    (∀ p ∈ [(Instr.sc_w rd rs1 rs2 aq rl, 4), (Instr.sc_d rd rs1 rs2 aq rl, 8)],
      s.cfg.xlen.toNat addr % p.2 ≠ 0 → ∃ t, exec p.1 s = .next t ∧ Trapped s t false 6 addr)
    ∧ (∀ p ∈ [(Instr.lr_w rd rs1 aq rl, 4, AccessKind.data), (Instr.lr_d rd rs1 aq rl, 8, .data),
        (Instr.amoswap_w rd rs1 rs2 aq rl, 4, .store), (Instr.amoadd_w rd rs1 rs2 aq rl, 4, .store),
        (Instr.amoxor_w rd rs1 rs2 aq rl, 4, .store), (Instr.amoand_w rd rs1 rs2 aq rl, 4, .store),
        (Instr.amoor_w rd rs1 rs2 aq rl, 4, .store), (Instr.amomin_w rd rs1 rs2 aq rl, 4, .store),
        (Instr.amomax_w rd rs1 rs2 aq rl, 4, .store), (Instr.amominu_w rd rs1 rs2 aq rl, 4, .store),
        (Instr.amomaxu_w rd rs1 rs2 aq rl, 4, .store), (Instr.amoswap_d rd rs1 rs2 aq rl, 8, .store),
        (Instr.amoadd_d rd rs1 rs2 aq rl, 8, .store), (Instr.amoxor_d rd rs1 rs2 aq rl, 8, .store),
        (Instr.amoand_d rd rs1 rs2 aq rl, 8, .store), (Instr.amoor_d rd rs1 rs2 aq rl, 8, .store),
        (Instr.amomin_d rd rs1 rs2 aq rl, 8, .store), (Instr.amomax_d rd rs1 rs2 aq rl, 8, .store),
        (Instr.amominu_d rd rs1 rs2 aq rl, 8, .store), (Instr.amomaxu_d rd rs1 rs2 aq rl, 8, .store)],
      (s.cfg.xlen.toNat addr % p.2.1 ≠ 0 → ∃ t, exec p.1 s = .next t ∧ Trapped s t false (cause p.2.2 .misaligned) addr)
      ∧ (s.cfg.xlen.toNat addr % p.2.1 = 0 → ∀ flt,
          s.places p.2.2 addr p.2.1 = .error flt →
          ∃ t, exec p.1 s = .next t ∧ Trapped s t false (cause p.2.2 flt) addr))

/-- 43_atomics.md R429, R430, 20_memory.md R161: an instruction that performs a write leaves no address reserved; an instruction that is neither a write
nor LR leaves the reservation as it was, and under RES_INVALIDATE_ON = store the counter too. The premise holds of every state an LR leaves
and of every later one. -/
def Obligations.ReservationRules : Prop :=
  (∀ (i : Instr) (s t : State), i.writesMemory = true → s.resSeq ≤ s.memSeq → exec i s = .next t → t.memSeq ≠ s.memSeq →
      ∀ a, t.reserved a = false)
    ∧ (∀ (i : Instr) (s t : State), i.writesMemory = false →
      (∀ rd rs1 aq rl, i ≠ .lr_w rd rs1 aq rl ∧ i ≠ .lr_d rd rs1 aq rl) → exec i s = .next t →
      t.resValid = s.resValid ∧ t.resAddr = s.resAddr ∧ t.resSeq = s.resSeq
        ∧ (s.cfg.resInvalidateOn = .store → t.memSeq = s.memSeq))

/-! ## Floating point -/

/-- 44_float_single.md R465 to R469, R472 to R499: with the unit on and a legal rounding mode every single-precision computation retires with its result
boxed and its flags accrued; those that write an x register write no f register. How an operand is unboxed and a result boxed is
10_state.md R37. -/
def Obligations.FloatSingleResults : Prop :=
  ∀ (s : State) (rd rs1 rs2 rs3 : RegIdx) (rm : BitVec 3) (r : RoundMode), s.fpEnabled = true →
    let x := s.getS rs1
    let y := s.getS rs2
    let a := FFmt.unpack .s x
    let b := FFmt.unpack .s y
    let c := FFmt.unpack .s (s.getS rs3)
    let g := s.getX rs1
    (s.roundMode rm = some r →
      (∀ p ∈ [(Instr.fmadd_s rd rs1 rs2 rs3 rm, fMulAdd .s r false false a b c),
          (Instr.fmsub_s rd rs1 rs2 rs3 rm, fMulAdd .s r false true a b c),
          (Instr.fnmsub_s rd rs1 rs2 rs3 rm, fMulAdd .s r true false a b c),
          (Instr.fnmadd_s rd rs1 rs2 rs3 rm, fMulAdd .s r true true a b c), (Instr.fadd_s rd rs1 rs2 rm, fAdd .s r a b),
          (Instr.fsub_s rd rs1 rs2 rm, fSub .s r a b), (Instr.fmul_s rd rs1 rs2 rm, fMul .s r a b),
          (Instr.fdiv_s rd rs1 rs2 rm, fDiv .s r a b), (Instr.fsqrt_s rd rs1 rm, fSqrt .s r a),
          (Instr.fcvt_s_w rd rs1 rm, ofInteger .s r (g.setWidth 32 : BitVec 32).toInt),
          (Instr.fcvt_s_wu rd rs1 rm, ofInteger .s r (g.setWidth 32 : BitVec 32).toNat),
          (Instr.fcvt_s_l rd rs1 rm, ofInteger .s r g.toInt), (Instr.fcvt_s_lu rd rs1 rm, ofInteger .s r g.toNat)],
        ∃ t, exec p.1 s = .next t ∧ RetiredF s t 4 rd (s.cfg.flen.box (p.2.bits.setWidth 32)) p.2.flags)
      ∧ (∀ p ∈ [(Instr.fcvt_w_s rd rs1 rm, toInteger r true 32 a), (Instr.fcvt_wu_s rd rs1 rm, toInteger r false 32 a)],
        ∃ t, exec p.1 s = .next t ∧ RetiredXF s t 4 rd (BitVec.ofInt 64 p.2.1.toInt) p.2.2)
      ∧ (∀ p ∈ [(Instr.fcvt_l_s rd rs1 rm, toInteger r true 64 a), (Instr.fcvt_lu_s rd rs1 rm, toInteger r false 64 a)],
        ∃ t, exec p.1 s = .next t ∧ RetiredXF s t 4 rd p.2.1 p.2.2))
    ∧ (∀ p ∈ [(Instr.fsgnj_s rd rs1 rs2, exactly (withSign .s (y.getLsbD 31) x)),
          (Instr.fsgnjn_s rd rs1 rs2, exactly (withSign .s (!y.getLsbD 31) x)),
          (Instr.fsgnjx_s rd rs1 rs2, exactly (withSign .s (x.getLsbD 31 != y.getLsbD 31) x)),
          (Instr.fmin_s rd rs1 rs2, fMin .s x y), (Instr.fmax_s rd rs1 rs2, fMax .s x y),
          (Instr.fmv_w_x rd rs1, exactly g)],
        ∃ t, exec p.1 s = .next t ∧ RetiredF s t 4 rd (s.cfg.flen.box (p.2.bits.setWidth 32)) p.2.flags)
    ∧ (∀ p ∈ [(Instr.feq_s rd rs1 rs2, boolWord (fEq a b).1, (fEq a b).2), (Instr.flt_s rd rs1 rs2, boolWord (fLt a b).1, (fLt a b).2),
          (Instr.fle_s rd rs1 rs2, boolWord (fLe a b).1, (fLe a b).2), (Instr.fclass_s rd rs1, fClass .s x, 0),
          (Instr.fmv_x_w rd rs1, ((s.getF rs1).setWidth 32 : BitVec 32).signExtend 64, 0)],
        ∃ t, exec p.1 s = .next t ∧ RetiredXF s t 4 rd p.2.1 p.2.2)
    ∧ (x = if s.cfg.flen = .f64 then
          (if (s.getF rs1).toNat / 2 ^ 32 = 2 ^ 32 - 1 then BitVec.ofNat 64 ((s.getF rs1).toNat % 2 ^ 32) else 0x7FC00000)
        else s.getF rs1)
    ∧ ∀ v : BitVec 32, (s.cfg.flen.box v).toNat = (if s.cfg.flen = .f64 then 2 ^ 64 - 2 ^ 32 else 0) + v.toNat

/-- 45_float_double.md R521, R524 to R553: with the unit on and a legal rounding mode every double-precision computation, and
every conversion between the two formats, retires with its result and its flags accrued; those that write an x register write no f
register. -/
def Obligations.FloatDoubleResults : Prop :=
  ∀ (s : State) (rd rs1 rs2 rs3 : RegIdx) (rm : BitVec 3) (r : RoundMode), s.fpEnabled = true →
    let x := s.getF rs1
    let y := s.getF rs2
    let a := FFmt.unpack .d x
    let b := FFmt.unpack .d y
    let c := FFmt.unpack .d (s.getF rs3)
    let g := s.getX rs1
    (s.roundMode rm = some r →
      (∀ p ∈ [(Instr.fmadd_d rd rs1 rs2 rs3 rm, fMulAdd .d r false false a b c),
          (Instr.fmsub_d rd rs1 rs2 rs3 rm, fMulAdd .d r false true a b c),
          (Instr.fnmsub_d rd rs1 rs2 rs3 rm, fMulAdd .d r true false a b c),
          (Instr.fnmadd_d rd rs1 rs2 rs3 rm, fMulAdd .d r true true a b c), (Instr.fadd_d rd rs1 rs2 rm, fAdd .d r a b),
          (Instr.fsub_d rd rs1 rs2 rm, fSub .d r a b), (Instr.fmul_d rd rs1 rs2 rm, fMul .d r a b),
          (Instr.fdiv_d rd rs1 rs2 rm, fDiv .d r a b), (Instr.fsqrt_d rd rs1 rm, fSqrt .d r a),
          (Instr.fcvt_d_w rd rs1 rm, ofInteger .d r (g.setWidth 32 : BitVec 32).toInt),
          (Instr.fcvt_d_wu rd rs1 rm, ofInteger .d r (g.setWidth 32 : BitVec 32).toNat),
          (Instr.fcvt_d_l rd rs1 rm, ofInteger .d r g.toInt), (Instr.fcvt_d_lu rd rs1 rm, ofInteger .d r g.toNat),
          (Instr.fcvt_d_s rd rs1 rm, convert .d r (FFmt.unpack .s (s.getS rs1)))],
        ∃ t, exec p.1 s = .next t ∧ RetiredF s t 4 rd p.2.bits p.2.flags)
      ∧ (∃ t, exec (.fcvt_s_d rd rs1 rm) s = .next t
          ∧ RetiredF s t 4 rd (s.cfg.flen.box ((convert .s r a).bits.setWidth 32)) (convert .s r a).flags)
      ∧ (∀ p ∈ [(Instr.fcvt_w_d rd rs1 rm, toInteger r true 32 a), (Instr.fcvt_wu_d rd rs1 rm, toInteger r false 32 a)],
        ∃ t, exec p.1 s = .next t ∧ RetiredXF s t 4 rd (BitVec.ofInt 64 p.2.1.toInt) p.2.2)
      ∧ (∀ p ∈ [(Instr.fcvt_l_d rd rs1 rm, toInteger r true 64 a), (Instr.fcvt_lu_d rd rs1 rm, toInteger r false 64 a)],
        ∃ t, exec p.1 s = .next t ∧ RetiredXF s t 4 rd p.2.1 p.2.2))
    ∧ (∀ p ∈ [(Instr.fsgnj_d rd rs1 rs2, exactly (withSign .d (y.getLsbD 63) x)),
          (Instr.fsgnjn_d rd rs1 rs2, exactly (withSign .d (!y.getLsbD 63) x)),
          (Instr.fsgnjx_d rd rs1 rs2, exactly (withSign .d (x.getLsbD 63 != y.getLsbD 63) x)),
          (Instr.fmin_d rd rs1 rs2, fMin .d x y), (Instr.fmax_d rd rs1 rs2, fMax .d x y), (Instr.fmv_d_x rd rs1, exactly g)],
        ∃ t, exec p.1 s = .next t ∧ RetiredF s t 4 rd p.2.bits p.2.flags)
    ∧ (∀ p ∈ [(Instr.feq_d rd rs1 rs2, boolWord (fEq a b).1, (fEq a b).2), (Instr.flt_d rd rs1 rs2, boolWord (fLt a b).1, (fLt a b).2),
          (Instr.fle_d rd rs1 rs2, boolWord (fLe a b).1, (fLe a b).2), (Instr.fclass_d rd rs1, fClass .d x, 0),
          (Instr.fmv_x_d rd rs1, x, 0)],
        ∃ t, exec p.1 s = .next t ∧ RetiredXF s t 4 rd p.2.1 p.2.2)

/-- 44_float_single.md R460, R461, 10_state.md R38: with the unit off every floating-point instruction, loads, stores and moves included, is illegal; with
it on, one whose `rm` names no mode is. What on means, and which mode a value of `rm` names. -/
def Obligations.FloatIllegal : Prop :=
  (∀ (i : Instr) (s : State), i.isFloat = true →
    (s.fpEnabled = false → ∃ t, exec i s = .next t ∧ Trapped s t false 2 (i.tval s.cfg.xlen))
      ∧ ∀ rm, i.rmField = some rm → s.roundMode rm = none → ∃ t, exec i s = .next t ∧ Trapped s t false 2 (i.tval s.cfg.xlen))
    ∧ (∀ s : State, s.fpEnabled = true ↔ s.cfg.flen ≠ .f0 ∧ fieldFS s.csr.mstatus ≠ 0)
    ∧ ∀ (s : State) (rm : BitVec 3),
      let code := if rm = 7 then s.csr.fcsr.toNat / 32 else rm.toNat
      s.roundMode rm = [RoundMode.rne, .rtz, .rdn, .rup, .rmm][code]?

/-- 44_float_single.md R464, R466, R467: the comparisons agree with the exact values, infinities as extended numbers; a NaN makes them false, and
sets NV as each rule says. FMIN and FMAX give one of their operands, the canonical NaN for two NaNs and the other operand for one; of two
values the smaller and the larger, -0 smaller than +0; NV for a signaling operand. -/
def Obligations.FloatComparisons : Prop :=
  (∀ (a b : FVal) (p q : WithBot (WithTop ℚ)), a.toExt = some p → b.toExt = some q →
      (fLt a b).2 = 0 ∧ (fLe a b).2 = 0 ∧ (fEq a b).2 = 0
        ∧ ((fLt a b).1 = true ↔ p < q) ∧ ((fLe a b).1 = true ↔ p ≤ q) ∧ ((fEq a b).1 = true ↔ p = q))
    ∧ (∀ a b : FVal, a.isNaN = true ∨ b.isNaN = true →
      fLt a b = (false, 16) ∧ fLe a b = (false, 16)
        ∧ fEq a b = (false, if a.isSignaling = true ∨ b.isSignaling = true then 16 else 0))
    ∧ (∀ (fmt : FFmt) (x y : Word),
      let a := fmt.unpack x
      let b := fmt.unpack y
      let least := fMin fmt x y
      let most := fMax fmt x y
      (∀ p q, a.toExt = some p → b.toExt = some q →
          (fmt.unpack least.bits).toExt = some (min p q) ∧ (fmt.unpack most.bits).toExt = some (max p q)
            ∧ (least.bits = x ∨ least.bits = y) ∧ (most.bits = x ∨ most.bits = y)
            ∧ (p = 0 → q = 0 → fmt.signOf least.bits = (fmt.signOf x || fmt.signOf y)
                ∧ fmt.signOf most.bits = (fmt.signOf x && fmt.signOf y)))
        ∧ (a.isNaN = true → b.isNaN = true → least.bits = fmt.canonicalNaN ∧ most.bits = fmt.canonicalNaN)
        ∧ (a.isNaN = true → b.isNaN = false → least.bits = y ∧ most.bits = y)
        ∧ (a.isNaN = false → b.isNaN = true → least.bits = x ∧ most.bits = x)
        ∧ least.flags = (if a.isSignaling = true ∨ b.isSignaling = true then 16 else 0) ∧ most.flags = least.flags)

/-- 44_float_single.md R463, R468: a float-to-integer conversion gives the exact value rounded by the mode when that is in range, with NX exactly when
it was not an integer; otherwise the bound of the target with NV; a NaN and +infinity give the upper bound, -infinity the lower, with NV.
For -1/2 to an unsigned target under RMM that is 0 with NV, where a sentence of R468 says NX: the model's reading (log 31). -/
def Obligations.FloatToInteger : Prop :=
  ∀ (rm : RoundMode) (signed : Bool) (w : Nat) (v : FVal), 0 < w →
    (∀ q : ℚ, v.toRat = some q → ∃ n : ℤ, RoundsTo rm q n
      ∧ toInteger rm signed w v =
        if intHi signed w < n then (BitVec.ofInt w (intHi signed w), 16)
        else if n < intLo signed w then (BitVec.ofInt w (intLo signed w), 16)
        else (BitVec.ofInt w n, if (n : ℚ) = q then 0 else 1))
    ∧ (v.isNaN = true ∨ v = .inf false → toInteger rm signed w v = (BitVec.ofInt w (intHi signed w), 16))
    ∧ (v = .inf true → toInteger rm signed w v = (BitVec.ofInt w (intLo signed w), 16))

/-- 44_float_single.md R463: the rounding function is `Round`: the neighbour its mode asks for, ties to even under RNE and away under RMM, the
result of an overflow, and the flags NX, UF (tininess after rounding) and OF, for every nonzero rational (how the pattern is put
together: log 24). -/
def Obligations.RoundingIsFaithful : Prop :=
  ∀ (fmt : FFmt) (sign : Bool) (p q : Nat) (rm : RoundMode), 0 < p → 0 < q →
    Rounded fmt rm ((if sign then -1 else 1) * ((p : ℝ) / q)) (roundRat fmt sign p q rm)

/-- 44_float_single.md R463, R465, R468: on finite operands whose exact result is nonzero every operation is that result rounded once: the sums,
the product, the quotient, the fused forms (the product is not rounded first), the conversions from an integer and between the
formats. -/
def Obligations.FloatArithmetic : Prop :=
  ∀ (fmt other : FFmt) (rm : RoundMode) (x y z : Word) (p q r : ℚ),
    let a := fmt.unpack x
    let b := fmt.unpack y
    let c := fmt.unpack z
    a.toRat = some p → b.toRat = some q → c.toRat = some r →
      (p + q ≠ 0 → Rounded fmt rm (p + q : ℚ) (fAdd fmt rm a b))
        ∧ (p - q ≠ 0 → Rounded fmt rm (p - q : ℚ) (fSub fmt rm a b))
        ∧ (p * q ≠ 0 → Rounded fmt rm (p * q : ℚ) (fMul fmt rm a b))
        ∧ (p ≠ 0 → q ≠ 0 → Rounded fmt rm (p / q : ℚ) (fDiv fmt rm a b))
        ∧ (∀ n k : Bool, let e : ℚ := (if n then -(p * q) else p * q) + (if k then -r else r)
            e ≠ 0 → Rounded fmt rm e (fMulAdd fmt rm n k a b c))
        ∧ (∀ i : ℤ, i ≠ 0 → Rounded fmt rm (i : ℝ) (ofInteger fmt rm i))
        ∧ (p ≠ 0 → Rounded other rm p (convert other rm a))

/-- 44_float_single.md R463, R465: the square root of a positive finite operand is the exact root, a real number, rounded once (how the model
rounds it: log 17). -/
def Obligations.FloatSquareRoot : Prop :=
  ∀ (fmt : FFmt) (rm : RoundMode) (x : Word) (p : ℚ), (fmt.unpack x).toRat = some p → 0 < p →
    Rounded fmt rm (Real.sqrt p) (fSqrt fmt rm (fmt.unpack x))

/-- 44_float_single.md R464 to R466, R468: what the operations give where no rounding happens. NaN operands, the invalid operations, division
by zero, infinities, and the signs of zero results; sign injection changes the sign bit alone; the class has the one bit of its row. -/
def Obligations.FloatSpecialValues : Prop :=
  ∀ (fmt other : FFmt) (rm : RoundMode) (x y z : Word) (s1 s2 s3 n k : Bool),
    let a := fmt.unpack x
    let b := fmt.unpack y
    let c := fmt.unpack z
    let nanOf (sig : Bool) : FResult := ⟨fmt.canonicalNaN, if sig then 16 else 0⟩
    let exact (bits : Word) : FResult := ⟨bits, 0⟩
    let signs := fmt.signOf x != fmt.signOf y
    let zeroSign (u v : Bool) (p : Prop) [Decidable p] : Bool := if p ∧ u = v then u else decide (rm = .rdn)
    (∀ res ∈ [fAdd fmt rm a b, fSub fmt rm a b, fMul fmt rm a b, fDiv fmt rm a b], a.isNaN = true ∨ b.isNaN = true →
        res = nanOf (a.isSignaling || b.isSignaling))
      ∧ (a.isNaN = true → fSqrt fmt rm a = nanOf a.isSignaling
          ∧ convert other rm a = ⟨other.canonicalNaN, if a.isSignaling then 16 else 0⟩)
      ∧ (a.isNaN = true ∨ b.isNaN = true ∨ c.isNaN = true → zeroTimesInf a b = false →
          fMulAdd fmt rm n k a b c = nanOf (a.isSignaling || b.isSignaling || c.isSignaling))
      ∧ (∀ q : ℚ, b.toRat = some q →
          (a = .inf s1 → fAdd fmt rm a b = exact (fmt.inf s1) ∧ fAdd fmt rm b a = exact (fmt.inf s1)
            ∧ fSub fmt rm a b = exact (fmt.inf s1) ∧ fSub fmt rm b a = exact (fmt.inf (!s1))
            ∧ fMul fmt rm a b = (if q = 0 then nanOf true else exact (fmt.inf signs))
            ∧ fMul fmt rm b a = (if q = 0 then nanOf true else exact (fmt.inf signs))
            ∧ fDiv fmt rm a b = exact (fmt.inf signs) ∧ fDiv fmt rm b a = exact (fmt.zero signs)
            ∧ (q = 0 → fMulAdd fmt rm n k a b c = nanOf true ∧ fMulAdd fmt rm n k b a c = nanOf true))
          ∧ ∀ p : ℚ, a.toRat = some p →
            (p + q = 0 → fAdd fmt rm a b = exact (fmt.zero (zeroSign (fmt.signOf x) (fmt.signOf y) (p = 0))))
            ∧ (p - q = 0 → fSub fmt rm a b = exact (fmt.zero (zeroSign (fmt.signOf x) (!fmt.signOf y) (p = 0))))
            ∧ (p * q = 0 → fMul fmt rm a b = exact (fmt.zero signs))
            ∧ (p = 0 → q ≠ 0 → fDiv fmt rm a b = exact (fmt.zero signs))
            ∧ (p = 0 → q = 0 → fDiv fmt rm a b = nanOf true)
            ∧ (p ≠ 0 → q = 0 → fDiv fmt rm a b = ⟨fmt.inf signs, 8⟩)
            ∧ (p < 0 → fSqrt fmt rm a = nanOf true) ∧ (p = 0 → fSqrt fmt rm a = exact (fmt.zero (fmt.signOf x)))
            ∧ (p = 0 → convert other rm a = ⟨other.zero (fmt.signOf x), 0⟩)
            ∧ (c = .inf s3 → fMulAdd fmt rm n k a b c = exact (fmt.inf (s3 != k)))
            ∧ ∀ r : ℚ, c.toRat = some r → (if n then -(p * q) else p * q) + (if k then -r else r) = 0 →
              fMulAdd fmt rm n k a b c = exact (fmt.zero (zeroSign (signs != n) (fmt.signOf z != k) (r = 0))))
      ∧ (a = .inf s1 → b = .inf s2 →
          fAdd fmt rm a b = (if s1 = s2 then exact (fmt.inf s1) else nanOf true)
            ∧ fSub fmt rm a b = (if s1 = s2 then nanOf true else exact (fmt.inf s1))
            ∧ fMul fmt rm a b = exact (fmt.inf signs) ∧ fDiv fmt rm a b = nanOf true)
      ∧ (a = .inf s1 → fSqrt fmt rm a = (if s1 then nanOf true else exact (fmt.inf false))
          ∧ convert other rm a = ⟨other.inf s1, 0⟩)
      ∧ (c.isNaN = false → (a = .inf s1 ∧ b.isNaN = false ∨ b = .inf s1 ∧ a.isNaN = false) → zeroTimesInf a b = false →
          fMulAdd fmt rm n k a b c = (if c = .inf (!((signs != n) != k)) then nanOf true else exact (fmt.inf (signs != n))))
      ∧ ofInteger fmt rm 0 = exact (fmt.zero false)
      ∧ (∀ i < 64, (withSign fmt s1 x).getLsbD i = if i = fmt.signPos then s1 else x.getLsbD i)
      ∧ (∀ v : Word, fClass fmt x = v ↔
          (a = .nan true ∧ v = 0x100) ∨ (a = .nan false ∧ v = 0x200) ∨ (a = .inf true ∧ v = 0x001) ∨ (a = .inf false ∧ v = 0x080)
            ∨ ∃ p : ℚ, a.toRat = some p ∧
              ((p = 0 ∧ v = if fmt.signOf x then 0x008 else 0x010)
                ∨ (p < 0 ∧ v = if |p| < 2 ^ fmt.emin then 0x004 else 0x002)
                ∨ (0 < p ∧ v = if |p| < 2 ^ fmt.emin then 0x020 else 0x040)))

/-! ## Rules of the whole machine -/

/-- 60_exceptions.md R700, R702: every instruction answers a next state, in every state: it retires, traps, or ends the run by the terminate signal. -/
def Obligations.EveryInstructionAnswers : Prop :=
  ∀ (i : Instr) (s : State), ∃ t, exec i s = .next t
    ∧ (t.out.outcome = .retired ∨ t.out.outcome = .trapped ∨ (i = .ecall ∧ t.terminate = true))

/-- 60_exceptions.md R701, R702, 10_state.md R44: an instruction that is no CSR instruction advances both counters by one when it retires, and neither
when it traps. -/
def Obligations.RetireCounts : Prop :=
  ∀ (i : Instr) (s t : State), i.isCsr = false → exec i s = .next t →
    (t.out.outcome = .retired → t.mcycle = s.mcycle + 1 ∧ t.minstret = s.minstret + 1)
      ∧ (t.out.outcome ≠ .retired → t.mcycle = s.mcycle ∧ t.minstret = s.minstret)

/-- 20_memory.md R154, R161, R164, 10_state.md R31, R50: only the stores, the AMOs and SC change memory or another hart; no instruction changes the
configuration, the platform's inputs, or the slot of x0. That no translation writes memory is the model's choice (log 32). -/
def Obligations.OnlyStoresWriteMemory : Prop :=
  ∀ (i : Instr) (s t : State), exec i s = .next t →
    (i.writesMemory = false → t.mem = s.mem ∧ t.others = s.others)
      ∧ t.cfg = s.cfg ∧ t.timeIn = s.timeIn ∧ t.inputs = s.inputs ∧ t.x[0] = s.x[0] ∧ t.v = s.v ∧ t.hartid = s.hartid

/-- 60_exceptions.md R730, R731, 47_system_csr.md R631: an instruction that retires in U mode leaves the machine in U mode and every control register as it was,
but for fcsr and the FS field of mstatus. -/
def Obligations.UserModeIsolation : Prop :=
  ∀ (i : Instr) (s t : State), s.priv = .U → exec i s = .next t → t.out.outcome = .retired →
    t.priv = .U ∧ t.csr = { s.csr with fcsr := t.csr.fcsr, mstatus := t.csr.mstatus }
      ∧ ∀ k, k ≠ posFS → k ≠ posFS + 1 → getBit k t.csr.mstatus = getBit k s.csr.mstatus

/-- 10_state.md R50, R76, 20_memory.md R161, 80_interfaces.md R816: over any step the configuration is constant, and time and the store counter never go
back. -/
def Obligations.StepKeepsConstants : Prop :=
  ∀ s t : State, step s = .next t → t.cfg = s.cfg ∧ s.timeIn.toNat ≤ t.timeIn.toNat ∧ s.memSeq ≤ t.memSeq
end

