-- ==== Sys2Proof/Laws/State.lean ====
section
/-! SUPPORT. One lemma per field per update: what each update of the state leaves alone, and what it writes. -/

namespace Sys2Proof.Machine

/-! ## setX -/

@[simp] theorem State.setX_f (s : State) (i : RegIdx) (v : Word) : (s.setX i v).f = s.f := by unfold State.setX; split <;> rfl
@[simp] theorem State.setX_v (s : State) (i : RegIdx) (v : Word) : (s.setX i v).v = s.v := by unfold State.setX; split <;> rfl
@[simp] theorem State.setX_pc (s : State) (i : RegIdx) (v : Word) : (s.setX i v).pc = s.pc := by unfold State.setX; split <;> rfl
@[simp] theorem State.setX_priv (s : State) (i : RegIdx) (v : Word) : (s.setX i v).priv = s.priv := by unfold State.setX; split <;> rfl
@[simp] theorem State.setX_pendingException (s : State) (i : RegIdx) (v : Word) : (s.setX i v).pendingException = s.pendingException := by unfold State.setX; split <;> rfl
@[simp] theorem State.setX_pendingTval (s : State) (i : RegIdx) (v : Word) : (s.setX i v).pendingTval = s.pendingTval := by unfold State.setX; split <;> rfl
@[simp] theorem State.setX_pendingInterrupt (s : State) (i : RegIdx) (v : Word) : (s.setX i v).pendingInterrupt = s.pendingInterrupt := by unfold State.setX; split <;> rfl
@[simp] theorem State.setX_mcycle (s : State) (i : RegIdx) (v : Word) : (s.setX i v).mcycle = s.mcycle := by unfold State.setX; split <;> rfl
@[simp] theorem State.setX_minstret (s : State) (i : RegIdx) (v : Word) : (s.setX i v).minstret = s.minstret := by unfold State.setX; split <;> rfl
@[simp] theorem State.setX_resValid (s : State) (i : RegIdx) (v : Word) : (s.setX i v).resValid = s.resValid := by unfold State.setX; split <;> rfl
@[simp] theorem State.setX_resAddr (s : State) (i : RegIdx) (v : Word) : (s.setX i v).resAddr = s.resAddr := by unfold State.setX; split <;> rfl
@[simp] theorem State.setX_resSeq (s : State) (i : RegIdx) (v : Word) : (s.setX i v).resSeq = s.resSeq := by unfold State.setX; split <;> rfl
@[simp] theorem State.setX_powerDown (s : State) (i : RegIdx) (v : Word) : (s.setX i v).powerDown = s.powerDown := by unfold State.setX; split <;> rfl
@[simp] theorem State.setX_csr (s : State) (i : RegIdx) (v : Word) : (s.setX i v).csr = s.csr := by unfold State.setX; split <;> rfl
@[simp] theorem State.setX_hartid (s : State) (i : RegIdx) (v : Word) : (s.setX i v).hartid = s.hartid := by unfold State.setX; split <;> rfl
@[simp] theorem State.setX_tlbCode (s : State) (i : RegIdx) (v : Word) : (s.setX i v).tlbCode = s.tlbCode := by unfold State.setX; split <;> rfl
@[simp] theorem State.setX_tlbData (s : State) (i : RegIdx) (v : Word) : (s.setX i v).tlbData = s.tlbData := by unfold State.setX; split <;> rfl
@[simp] theorem State.setX_tlbStore (s : State) (i : RegIdx) (v : Word) : (s.setX i v).tlbStore = s.tlbStore := by unfold State.setX; split <;> rfl
@[simp] theorem State.setX_cfg (s : State) (i : RegIdx) (v : Word) : (s.setX i v).cfg = s.cfg := by unfold State.setX; split <;> rfl
@[simp] theorem State.setX_mem (s : State) (i : RegIdx) (v : Word) : (s.setX i v).mem = s.mem := by unfold State.setX; split <;> rfl
@[simp] theorem State.setX_memSeq (s : State) (i : RegIdx) (v : Word) : (s.setX i v).memSeq = s.memSeq := by unfold State.setX; split <;> rfl
@[simp] theorem State.setX_timeIn (s : State) (i : RegIdx) (v : Word) : (s.setX i v).timeIn = s.timeIn := by unfold State.setX; split <;> rfl
@[simp] theorem State.setX_others (s : State) (i : RegIdx) (v : Word) : (s.setX i v).others = s.others := by unfold State.setX; split <;> rfl
@[simp] theorem State.setX_terminate (s : State) (i : RegIdx) (v : Word) : (s.setX i v).terminate = s.terminate := by unfold State.setX; split <;> rfl
@[simp] theorem State.setX_inputs (s : State) (i : RegIdx) (v : Word) : (s.setX i v).inputs = s.inputs := by unfold State.setX; split <;> rfl
@[simp] theorem State.setX_devSeq (s : State) (i : RegIdx) (v : Word) : (s.setX i v).devSeq = s.devSeq := by unfold State.setX; split <;> rfl

/-! ## setF -/

@[simp] theorem State.setF_x (s : State) (i : RegIdx) (v : Word) : (s.setF i v).x = s.x := rfl
@[simp] theorem State.setF_v (s : State) (i : RegIdx) (v : Word) : (s.setF i v).v = s.v := rfl
@[simp] theorem State.setF_pc (s : State) (i : RegIdx) (v : Word) : (s.setF i v).pc = s.pc := rfl
@[simp] theorem State.setF_priv (s : State) (i : RegIdx) (v : Word) : (s.setF i v).priv = s.priv := rfl
@[simp] theorem State.setF_pendingException (s : State) (i : RegIdx) (v : Word) : (s.setF i v).pendingException = s.pendingException := rfl
@[simp] theorem State.setF_pendingTval (s : State) (i : RegIdx) (v : Word) : (s.setF i v).pendingTval = s.pendingTval := rfl
@[simp] theorem State.setF_pendingInterrupt (s : State) (i : RegIdx) (v : Word) : (s.setF i v).pendingInterrupt = s.pendingInterrupt := rfl
@[simp] theorem State.setF_mcycle (s : State) (i : RegIdx) (v : Word) : (s.setF i v).mcycle = s.mcycle := rfl
@[simp] theorem State.setF_minstret (s : State) (i : RegIdx) (v : Word) : (s.setF i v).minstret = s.minstret := rfl
@[simp] theorem State.setF_resValid (s : State) (i : RegIdx) (v : Word) : (s.setF i v).resValid = s.resValid := rfl
@[simp] theorem State.setF_resAddr (s : State) (i : RegIdx) (v : Word) : (s.setF i v).resAddr = s.resAddr := rfl
@[simp] theorem State.setF_resSeq (s : State) (i : RegIdx) (v : Word) : (s.setF i v).resSeq = s.resSeq := rfl
@[simp] theorem State.setF_powerDown (s : State) (i : RegIdx) (v : Word) : (s.setF i v).powerDown = s.powerDown := rfl
@[simp] theorem State.setF_hartid (s : State) (i : RegIdx) (v : Word) : (s.setF i v).hartid = s.hartid := rfl
@[simp] theorem State.setF_tlbCode (s : State) (i : RegIdx) (v : Word) : (s.setF i v).tlbCode = s.tlbCode := rfl
@[simp] theorem State.setF_tlbData (s : State) (i : RegIdx) (v : Word) : (s.setF i v).tlbData = s.tlbData := rfl
@[simp] theorem State.setF_tlbStore (s : State) (i : RegIdx) (v : Word) : (s.setF i v).tlbStore = s.tlbStore := rfl
@[simp] theorem State.setF_cfg (s : State) (i : RegIdx) (v : Word) : (s.setF i v).cfg = s.cfg := rfl
@[simp] theorem State.setF_mem (s : State) (i : RegIdx) (v : Word) : (s.setF i v).mem = s.mem := rfl
@[simp] theorem State.setF_memSeq (s : State) (i : RegIdx) (v : Word) : (s.setF i v).memSeq = s.memSeq := rfl
@[simp] theorem State.setF_timeIn (s : State) (i : RegIdx) (v : Word) : (s.setF i v).timeIn = s.timeIn := rfl
@[simp] theorem State.setF_others (s : State) (i : RegIdx) (v : Word) : (s.setF i v).others = s.others := rfl
@[simp] theorem State.setF_terminate (s : State) (i : RegIdx) (v : Word) : (s.setF i v).terminate = s.terminate := rfl
@[simp] theorem State.setF_inputs (s : State) (i : RegIdx) (v : Word) : (s.setF i v).inputs = s.inputs := rfl
@[simp] theorem State.setF_devSeq (s : State) (i : RegIdx) (v : Word) : (s.setF i v).devSeq = s.devSeq := rfl

/-! ## dirtyFS -/

@[simp] theorem State.dirtyFS_x (s : State) : (s.dirtyFS).x = s.x := rfl
@[simp] theorem State.dirtyFS_f (s : State) : (s.dirtyFS).f = s.f := rfl
@[simp] theorem State.dirtyFS_v (s : State) : (s.dirtyFS).v = s.v := rfl
@[simp] theorem State.dirtyFS_pc (s : State) : (s.dirtyFS).pc = s.pc := rfl
@[simp] theorem State.dirtyFS_priv (s : State) : (s.dirtyFS).priv = s.priv := rfl
@[simp] theorem State.dirtyFS_pendingException (s : State) : (s.dirtyFS).pendingException = s.pendingException := rfl
@[simp] theorem State.dirtyFS_pendingTval (s : State) : (s.dirtyFS).pendingTval = s.pendingTval := rfl
@[simp] theorem State.dirtyFS_pendingInterrupt (s : State) : (s.dirtyFS).pendingInterrupt = s.pendingInterrupt := rfl
@[simp] theorem State.dirtyFS_mcycle (s : State) : (s.dirtyFS).mcycle = s.mcycle := rfl
@[simp] theorem State.dirtyFS_minstret (s : State) : (s.dirtyFS).minstret = s.minstret := rfl
@[simp] theorem State.dirtyFS_resValid (s : State) : (s.dirtyFS).resValid = s.resValid := rfl
@[simp] theorem State.dirtyFS_resAddr (s : State) : (s.dirtyFS).resAddr = s.resAddr := rfl
@[simp] theorem State.dirtyFS_resSeq (s : State) : (s.dirtyFS).resSeq = s.resSeq := rfl
@[simp] theorem State.dirtyFS_powerDown (s : State) : (s.dirtyFS).powerDown = s.powerDown := rfl
@[simp] theorem State.dirtyFS_hartid (s : State) : (s.dirtyFS).hartid = s.hartid := rfl
@[simp] theorem State.dirtyFS_tlbCode (s : State) : (s.dirtyFS).tlbCode = s.tlbCode := rfl
@[simp] theorem State.dirtyFS_tlbData (s : State) : (s.dirtyFS).tlbData = s.tlbData := rfl
@[simp] theorem State.dirtyFS_tlbStore (s : State) : (s.dirtyFS).tlbStore = s.tlbStore := rfl
@[simp] theorem State.dirtyFS_cfg (s : State) : (s.dirtyFS).cfg = s.cfg := rfl
@[simp] theorem State.dirtyFS_mem (s : State) : (s.dirtyFS).mem = s.mem := rfl
@[simp] theorem State.dirtyFS_memSeq (s : State) : (s.dirtyFS).memSeq = s.memSeq := rfl
@[simp] theorem State.dirtyFS_timeIn (s : State) : (s.dirtyFS).timeIn = s.timeIn := rfl
@[simp] theorem State.dirtyFS_others (s : State) : (s.dirtyFS).others = s.others := rfl
@[simp] theorem State.dirtyFS_terminate (s : State) : (s.dirtyFS).terminate = s.terminate := rfl
@[simp] theorem State.dirtyFS_inputs (s : State) : (s.dirtyFS).inputs = s.inputs := rfl
@[simp] theorem State.dirtyFS_devSeq (s : State) : (s.dirtyFS).devSeq = s.devSeq := rfl

/-! ## accrue -/

@[simp] theorem State.accrue_x (s : State) (fl : FFlags) : (s.accrue fl).x = s.x := by unfold State.accrue; split <;> rfl
@[simp] theorem State.accrue_f (s : State) (fl : FFlags) : (s.accrue fl).f = s.f := by unfold State.accrue; split <;> rfl
@[simp] theorem State.accrue_v (s : State) (fl : FFlags) : (s.accrue fl).v = s.v := by unfold State.accrue; split <;> rfl
@[simp] theorem State.accrue_pc (s : State) (fl : FFlags) : (s.accrue fl).pc = s.pc := by unfold State.accrue; split <;> rfl
@[simp] theorem State.accrue_priv (s : State) (fl : FFlags) : (s.accrue fl).priv = s.priv := by unfold State.accrue; split <;> rfl
@[simp] theorem State.accrue_pendingException (s : State) (fl : FFlags) : (s.accrue fl).pendingException = s.pendingException := by unfold State.accrue; split <;> rfl
@[simp] theorem State.accrue_pendingTval (s : State) (fl : FFlags) : (s.accrue fl).pendingTval = s.pendingTval := by unfold State.accrue; split <;> rfl
@[simp] theorem State.accrue_pendingInterrupt (s : State) (fl : FFlags) : (s.accrue fl).pendingInterrupt = s.pendingInterrupt := by unfold State.accrue; split <;> rfl
@[simp] theorem State.accrue_mcycle (s : State) (fl : FFlags) : (s.accrue fl).mcycle = s.mcycle := by unfold State.accrue; split <;> rfl
@[simp] theorem State.accrue_minstret (s : State) (fl : FFlags) : (s.accrue fl).minstret = s.minstret := by unfold State.accrue; split <;> rfl
@[simp] theorem State.accrue_resValid (s : State) (fl : FFlags) : (s.accrue fl).resValid = s.resValid := by unfold State.accrue; split <;> rfl
@[simp] theorem State.accrue_resAddr (s : State) (fl : FFlags) : (s.accrue fl).resAddr = s.resAddr := by unfold State.accrue; split <;> rfl
@[simp] theorem State.accrue_resSeq (s : State) (fl : FFlags) : (s.accrue fl).resSeq = s.resSeq := by unfold State.accrue; split <;> rfl
@[simp] theorem State.accrue_powerDown (s : State) (fl : FFlags) : (s.accrue fl).powerDown = s.powerDown := by unfold State.accrue; split <;> rfl
@[simp] theorem State.accrue_hartid (s : State) (fl : FFlags) : (s.accrue fl).hartid = s.hartid := by unfold State.accrue; split <;> rfl
@[simp] theorem State.accrue_tlbCode (s : State) (fl : FFlags) : (s.accrue fl).tlbCode = s.tlbCode := by unfold State.accrue; split <;> rfl
@[simp] theorem State.accrue_tlbData (s : State) (fl : FFlags) : (s.accrue fl).tlbData = s.tlbData := by unfold State.accrue; split <;> rfl
@[simp] theorem State.accrue_tlbStore (s : State) (fl : FFlags) : (s.accrue fl).tlbStore = s.tlbStore := by unfold State.accrue; split <;> rfl
@[simp] theorem State.accrue_cfg (s : State) (fl : FFlags) : (s.accrue fl).cfg = s.cfg := by unfold State.accrue; split <;> rfl
@[simp] theorem State.accrue_mem (s : State) (fl : FFlags) : (s.accrue fl).mem = s.mem := by unfold State.accrue; split <;> rfl
@[simp] theorem State.accrue_memSeq (s : State) (fl : FFlags) : (s.accrue fl).memSeq = s.memSeq := by unfold State.accrue; split <;> rfl
@[simp] theorem State.accrue_timeIn (s : State) (fl : FFlags) : (s.accrue fl).timeIn = s.timeIn := by unfold State.accrue; split <;> rfl
@[simp] theorem State.accrue_others (s : State) (fl : FFlags) : (s.accrue fl).others = s.others := by unfold State.accrue; split <;> rfl
@[simp] theorem State.accrue_terminate (s : State) (fl : FFlags) : (s.accrue fl).terminate = s.terminate := by unfold State.accrue; split <;> rfl
@[simp] theorem State.accrue_inputs (s : State) (fl : FFlags) : (s.accrue fl).inputs = s.inputs := by unfold State.accrue; split <;> rfl
@[simp] theorem State.accrue_devSeq (s : State) (fl : FFlags) : (s.accrue fl).devSeq = s.devSeq := by unfold State.accrue; split <;> rfl

/-! ## goTo -/

@[simp] theorem State.goTo_x (s : State) (w : Word) (c : TransferClass) (r : Option (RegIdx × RegIdx)) : (s.goTo w c r).x = s.x := rfl
@[simp] theorem State.goTo_f (s : State) (w : Word) (c : TransferClass) (r : Option (RegIdx × RegIdx)) : (s.goTo w c r).f = s.f := rfl
@[simp] theorem State.goTo_v (s : State) (w : Word) (c : TransferClass) (r : Option (RegIdx × RegIdx)) : (s.goTo w c r).v = s.v := rfl
@[simp] theorem State.goTo_priv (s : State) (w : Word) (c : TransferClass) (r : Option (RegIdx × RegIdx)) : (s.goTo w c r).priv = s.priv := rfl
@[simp] theorem State.goTo_pendingException (s : State) (w : Word) (c : TransferClass) (r : Option (RegIdx × RegIdx)) : (s.goTo w c r).pendingException = s.pendingException := rfl
@[simp] theorem State.goTo_pendingTval (s : State) (w : Word) (c : TransferClass) (r : Option (RegIdx × RegIdx)) : (s.goTo w c r).pendingTval = s.pendingTval := rfl
@[simp] theorem State.goTo_pendingInterrupt (s : State) (w : Word) (c : TransferClass) (r : Option (RegIdx × RegIdx)) : (s.goTo w c r).pendingInterrupt = s.pendingInterrupt := rfl
@[simp] theorem State.goTo_mcycle (s : State) (w : Word) (c : TransferClass) (r : Option (RegIdx × RegIdx)) : (s.goTo w c r).mcycle = s.mcycle := rfl
@[simp] theorem State.goTo_minstret (s : State) (w : Word) (c : TransferClass) (r : Option (RegIdx × RegIdx)) : (s.goTo w c r).minstret = s.minstret := rfl
@[simp] theorem State.goTo_resValid (s : State) (w : Word) (c : TransferClass) (r : Option (RegIdx × RegIdx)) : (s.goTo w c r).resValid = s.resValid := rfl
@[simp] theorem State.goTo_resAddr (s : State) (w : Word) (c : TransferClass) (r : Option (RegIdx × RegIdx)) : (s.goTo w c r).resAddr = s.resAddr := rfl
@[simp] theorem State.goTo_resSeq (s : State) (w : Word) (c : TransferClass) (r : Option (RegIdx × RegIdx)) : (s.goTo w c r).resSeq = s.resSeq := rfl
@[simp] theorem State.goTo_powerDown (s : State) (w : Word) (c : TransferClass) (r : Option (RegIdx × RegIdx)) : (s.goTo w c r).powerDown = s.powerDown := rfl
@[simp] theorem State.goTo_csr (s : State) (w : Word) (c : TransferClass) (r : Option (RegIdx × RegIdx)) : (s.goTo w c r).csr = s.csr := rfl
@[simp] theorem State.goTo_hartid (s : State) (w : Word) (c : TransferClass) (r : Option (RegIdx × RegIdx)) : (s.goTo w c r).hartid = s.hartid := rfl
@[simp] theorem State.goTo_tlbCode (s : State) (w : Word) (c : TransferClass) (r : Option (RegIdx × RegIdx)) : (s.goTo w c r).tlbCode = s.tlbCode := rfl
@[simp] theorem State.goTo_tlbData (s : State) (w : Word) (c : TransferClass) (r : Option (RegIdx × RegIdx)) : (s.goTo w c r).tlbData = s.tlbData := rfl
@[simp] theorem State.goTo_tlbStore (s : State) (w : Word) (c : TransferClass) (r : Option (RegIdx × RegIdx)) : (s.goTo w c r).tlbStore = s.tlbStore := rfl
@[simp] theorem State.goTo_cfg (s : State) (w : Word) (c : TransferClass) (r : Option (RegIdx × RegIdx)) : (s.goTo w c r).cfg = s.cfg := rfl
@[simp] theorem State.goTo_mem (s : State) (w : Word) (c : TransferClass) (r : Option (RegIdx × RegIdx)) : (s.goTo w c r).mem = s.mem := rfl
@[simp] theorem State.goTo_memSeq (s : State) (w : Word) (c : TransferClass) (r : Option (RegIdx × RegIdx)) : (s.goTo w c r).memSeq = s.memSeq := rfl
@[simp] theorem State.goTo_timeIn (s : State) (w : Word) (c : TransferClass) (r : Option (RegIdx × RegIdx)) : (s.goTo w c r).timeIn = s.timeIn := rfl
@[simp] theorem State.goTo_others (s : State) (w : Word) (c : TransferClass) (r : Option (RegIdx × RegIdx)) : (s.goTo w c r).others = s.others := rfl
@[simp] theorem State.goTo_terminate (s : State) (w : Word) (c : TransferClass) (r : Option (RegIdx × RegIdx)) : (s.goTo w c r).terminate = s.terminate := rfl
@[simp] theorem State.goTo_inputs (s : State) (w : Word) (c : TransferClass) (r : Option (RegIdx × RegIdx)) : (s.goTo w c r).inputs = s.inputs := rfl
@[simp] theorem State.goTo_devSeq (s : State) (w : Word) (c : TransferClass) (r : Option (RegIdx × RegIdx)) : (s.goTo w c r).devSeq = s.devSeq := rfl

/-! ## count -/

@[simp] theorem State.count_x (s : State) (a b : Bool) : (s.count a b).x = s.x := rfl
@[simp] theorem State.count_f (s : State) (a b : Bool) : (s.count a b).f = s.f := rfl
@[simp] theorem State.count_v (s : State) (a b : Bool) : (s.count a b).v = s.v := rfl
@[simp] theorem State.count_pc (s : State) (a b : Bool) : (s.count a b).pc = s.pc := rfl
@[simp] theorem State.count_priv (s : State) (a b : Bool) : (s.count a b).priv = s.priv := rfl
@[simp] theorem State.count_pendingException (s : State) (a b : Bool) : (s.count a b).pendingException = s.pendingException := rfl
@[simp] theorem State.count_pendingTval (s : State) (a b : Bool) : (s.count a b).pendingTval = s.pendingTval := rfl
@[simp] theorem State.count_pendingInterrupt (s : State) (a b : Bool) : (s.count a b).pendingInterrupt = s.pendingInterrupt := rfl
@[simp] theorem State.count_resValid (s : State) (a b : Bool) : (s.count a b).resValid = s.resValid := rfl
@[simp] theorem State.count_resAddr (s : State) (a b : Bool) : (s.count a b).resAddr = s.resAddr := rfl
@[simp] theorem State.count_resSeq (s : State) (a b : Bool) : (s.count a b).resSeq = s.resSeq := rfl
@[simp] theorem State.count_powerDown (s : State) (a b : Bool) : (s.count a b).powerDown = s.powerDown := rfl
@[simp] theorem State.count_csr (s : State) (a b : Bool) : (s.count a b).csr = s.csr := rfl
@[simp] theorem State.count_hartid (s : State) (a b : Bool) : (s.count a b).hartid = s.hartid := rfl
@[simp] theorem State.count_tlbCode (s : State) (a b : Bool) : (s.count a b).tlbCode = s.tlbCode := rfl
@[simp] theorem State.count_tlbData (s : State) (a b : Bool) : (s.count a b).tlbData = s.tlbData := rfl
@[simp] theorem State.count_tlbStore (s : State) (a b : Bool) : (s.count a b).tlbStore = s.tlbStore := rfl
@[simp] theorem State.count_cfg (s : State) (a b : Bool) : (s.count a b).cfg = s.cfg := rfl
@[simp] theorem State.count_mem (s : State) (a b : Bool) : (s.count a b).mem = s.mem := rfl
@[simp] theorem State.count_memSeq (s : State) (a b : Bool) : (s.count a b).memSeq = s.memSeq := rfl
@[simp] theorem State.count_timeIn (s : State) (a b : Bool) : (s.count a b).timeIn = s.timeIn := rfl
@[simp] theorem State.count_others (s : State) (a b : Bool) : (s.count a b).others = s.others := rfl
@[simp] theorem State.count_terminate (s : State) (a b : Bool) : (s.count a b).terminate = s.terminate := rfl
@[simp] theorem State.count_inputs (s : State) (a b : Bool) : (s.count a b).inputs = s.inputs := rfl
@[simp] theorem State.count_devSeq (s : State) (a b : Bool) : (s.count a b).devSeq = s.devSeq := rfl

/-! ## logAccess -/

@[simp] theorem State.logAccess_x (s : State) (k : AccessKind) (a : Word) (n : Nat) (v : Word) (d : Bool) : (s.logAccess k a n v d).x = s.x := rfl
@[simp] theorem State.logAccess_f (s : State) (k : AccessKind) (a : Word) (n : Nat) (v : Word) (d : Bool) : (s.logAccess k a n v d).f = s.f := rfl
@[simp] theorem State.logAccess_v (s : State) (k : AccessKind) (a : Word) (n : Nat) (v : Word) (d : Bool) : (s.logAccess k a n v d).v = s.v := rfl
@[simp] theorem State.logAccess_pc (s : State) (k : AccessKind) (a : Word) (n : Nat) (v : Word) (d : Bool) : (s.logAccess k a n v d).pc = s.pc := rfl
@[simp] theorem State.logAccess_priv (s : State) (k : AccessKind) (a : Word) (n : Nat) (v : Word) (d : Bool) : (s.logAccess k a n v d).priv = s.priv := rfl
@[simp] theorem State.logAccess_pendingException (s : State) (k : AccessKind) (a : Word) (n : Nat) (v : Word) (d : Bool) : (s.logAccess k a n v d).pendingException = s.pendingException := rfl
@[simp] theorem State.logAccess_pendingTval (s : State) (k : AccessKind) (a : Word) (n : Nat) (v : Word) (d : Bool) : (s.logAccess k a n v d).pendingTval = s.pendingTval := rfl
@[simp] theorem State.logAccess_pendingInterrupt (s : State) (k : AccessKind) (a : Word) (n : Nat) (v : Word) (d : Bool) : (s.logAccess k a n v d).pendingInterrupt = s.pendingInterrupt := rfl
@[simp] theorem State.logAccess_mcycle (s : State) (k : AccessKind) (a : Word) (n : Nat) (v : Word) (d : Bool) : (s.logAccess k a n v d).mcycle = s.mcycle := rfl
@[simp] theorem State.logAccess_minstret (s : State) (k : AccessKind) (a : Word) (n : Nat) (v : Word) (d : Bool) : (s.logAccess k a n v d).minstret = s.minstret := rfl
@[simp] theorem State.logAccess_resValid (s : State) (k : AccessKind) (a : Word) (n : Nat) (v : Word) (d : Bool) : (s.logAccess k a n v d).resValid = s.resValid := rfl
@[simp] theorem State.logAccess_resAddr (s : State) (k : AccessKind) (a : Word) (n : Nat) (v : Word) (d : Bool) : (s.logAccess k a n v d).resAddr = s.resAddr := rfl
@[simp] theorem State.logAccess_resSeq (s : State) (k : AccessKind) (a : Word) (n : Nat) (v : Word) (d : Bool) : (s.logAccess k a n v d).resSeq = s.resSeq := rfl
@[simp] theorem State.logAccess_powerDown (s : State) (k : AccessKind) (a : Word) (n : Nat) (v : Word) (d : Bool) : (s.logAccess k a n v d).powerDown = s.powerDown := rfl
@[simp] theorem State.logAccess_csr (s : State) (k : AccessKind) (a : Word) (n : Nat) (v : Word) (d : Bool) : (s.logAccess k a n v d).csr = s.csr := rfl
@[simp] theorem State.logAccess_hartid (s : State) (k : AccessKind) (a : Word) (n : Nat) (v : Word) (d : Bool) : (s.logAccess k a n v d).hartid = s.hartid := rfl
@[simp] theorem State.logAccess_tlbCode (s : State) (k : AccessKind) (a : Word) (n : Nat) (v : Word) (d : Bool) : (s.logAccess k a n v d).tlbCode = s.tlbCode := rfl
@[simp] theorem State.logAccess_tlbData (s : State) (k : AccessKind) (a : Word) (n : Nat) (v : Word) (d : Bool) : (s.logAccess k a n v d).tlbData = s.tlbData := rfl
@[simp] theorem State.logAccess_tlbStore (s : State) (k : AccessKind) (a : Word) (n : Nat) (v : Word) (d : Bool) : (s.logAccess k a n v d).tlbStore = s.tlbStore := rfl
@[simp] theorem State.logAccess_cfg (s : State) (k : AccessKind) (a : Word) (n : Nat) (v : Word) (d : Bool) : (s.logAccess k a n v d).cfg = s.cfg := rfl
@[simp] theorem State.logAccess_mem (s : State) (k : AccessKind) (a : Word) (n : Nat) (v : Word) (d : Bool) : (s.logAccess k a n v d).mem = s.mem := rfl
@[simp] theorem State.logAccess_memSeq (s : State) (k : AccessKind) (a : Word) (n : Nat) (v : Word) (d : Bool) : (s.logAccess k a n v d).memSeq = s.memSeq := rfl
@[simp] theorem State.logAccess_timeIn (s : State) (k : AccessKind) (a : Word) (n : Nat) (v : Word) (d : Bool) : (s.logAccess k a n v d).timeIn = s.timeIn := rfl
@[simp] theorem State.logAccess_others (s : State) (k : AccessKind) (a : Word) (n : Nat) (v : Word) (d : Bool) : (s.logAccess k a n v d).others = s.others := rfl
@[simp] theorem State.logAccess_terminate (s : State) (k : AccessKind) (a : Word) (n : Nat) (v : Word) (d : Bool) : (s.logAccess k a n v d).terminate = s.terminate := rfl
@[simp] theorem State.logAccess_inputs (s : State) (k : AccessKind) (a : Word) (n : Nat) (v : Word) (d : Bool) : (s.logAccess k a n v d).inputs = s.inputs := rfl
@[simp] theorem State.logAccess_devSeq (s : State) (k : AccessKind) (a : Word) (n : Nat) (v : Word) (d : Bool) : (s.logAccess k a n v d).devSeq = s.devSeq := rfl

/-! ## bumpSeq -/

@[simp] theorem State.bumpSeq_x (s : State) : (s.bumpSeq).x = s.x := rfl
@[simp] theorem State.bumpSeq_f (s : State) : (s.bumpSeq).f = s.f := rfl
@[simp] theorem State.bumpSeq_v (s : State) : (s.bumpSeq).v = s.v := rfl
@[simp] theorem State.bumpSeq_pc (s : State) : (s.bumpSeq).pc = s.pc := rfl
@[simp] theorem State.bumpSeq_priv (s : State) : (s.bumpSeq).priv = s.priv := rfl
@[simp] theorem State.bumpSeq_pendingException (s : State) : (s.bumpSeq).pendingException = s.pendingException := rfl
@[simp] theorem State.bumpSeq_pendingTval (s : State) : (s.bumpSeq).pendingTval = s.pendingTval := rfl
@[simp] theorem State.bumpSeq_pendingInterrupt (s : State) : (s.bumpSeq).pendingInterrupt = s.pendingInterrupt := rfl
@[simp] theorem State.bumpSeq_mcycle (s : State) : (s.bumpSeq).mcycle = s.mcycle := rfl
@[simp] theorem State.bumpSeq_minstret (s : State) : (s.bumpSeq).minstret = s.minstret := rfl
@[simp] theorem State.bumpSeq_resValid (s : State) : (s.bumpSeq).resValid = s.resValid := rfl
@[simp] theorem State.bumpSeq_resAddr (s : State) : (s.bumpSeq).resAddr = s.resAddr := rfl
@[simp] theorem State.bumpSeq_resSeq (s : State) : (s.bumpSeq).resSeq = s.resSeq := rfl
@[simp] theorem State.bumpSeq_powerDown (s : State) : (s.bumpSeq).powerDown = s.powerDown := rfl
@[simp] theorem State.bumpSeq_csr (s : State) : (s.bumpSeq).csr = s.csr := rfl
@[simp] theorem State.bumpSeq_hartid (s : State) : (s.bumpSeq).hartid = s.hartid := rfl
@[simp] theorem State.bumpSeq_tlbCode (s : State) : (s.bumpSeq).tlbCode = s.tlbCode := rfl
@[simp] theorem State.bumpSeq_tlbData (s : State) : (s.bumpSeq).tlbData = s.tlbData := rfl
@[simp] theorem State.bumpSeq_tlbStore (s : State) : (s.bumpSeq).tlbStore = s.tlbStore := rfl
@[simp] theorem State.bumpSeq_cfg (s : State) : (s.bumpSeq).cfg = s.cfg := rfl
@[simp] theorem State.bumpSeq_mem (s : State) : (s.bumpSeq).mem = s.mem := rfl
@[simp] theorem State.bumpSeq_timeIn (s : State) : (s.bumpSeq).timeIn = s.timeIn := rfl
@[simp] theorem State.bumpSeq_others (s : State) : (s.bumpSeq).others = s.others := rfl
@[simp] theorem State.bumpSeq_terminate (s : State) : (s.bumpSeq).terminate = s.terminate := rfl
@[simp] theorem State.bumpSeq_inputs (s : State) : (s.bumpSeq).inputs = s.inputs := rfl
@[simp] theorem State.bumpSeq_devSeq (s : State) : (s.bumpSeq).devSeq = s.devSeq := rfl

/-! ## bumpSeqOnRead -/

@[simp] theorem State.bumpSeqOnRead_x (s : State) : (s.bumpSeqOnRead).x = s.x := by unfold State.bumpSeqOnRead; split <;> rfl
@[simp] theorem State.bumpSeqOnRead_f (s : State) : (s.bumpSeqOnRead).f = s.f := by unfold State.bumpSeqOnRead; split <;> rfl
@[simp] theorem State.bumpSeqOnRead_v (s : State) : (s.bumpSeqOnRead).v = s.v := by unfold State.bumpSeqOnRead; split <;> rfl
@[simp] theorem State.bumpSeqOnRead_pc (s : State) : (s.bumpSeqOnRead).pc = s.pc := by unfold State.bumpSeqOnRead; split <;> rfl
@[simp] theorem State.bumpSeqOnRead_priv (s : State) : (s.bumpSeqOnRead).priv = s.priv := by unfold State.bumpSeqOnRead; split <;> rfl
@[simp] theorem State.bumpSeqOnRead_pendingException (s : State) : (s.bumpSeqOnRead).pendingException = s.pendingException := by unfold State.bumpSeqOnRead; split <;> rfl
@[simp] theorem State.bumpSeqOnRead_pendingTval (s : State) : (s.bumpSeqOnRead).pendingTval = s.pendingTval := by unfold State.bumpSeqOnRead; split <;> rfl
@[simp] theorem State.bumpSeqOnRead_pendingInterrupt (s : State) : (s.bumpSeqOnRead).pendingInterrupt = s.pendingInterrupt := by unfold State.bumpSeqOnRead; split <;> rfl
@[simp] theorem State.bumpSeqOnRead_mcycle (s : State) : (s.bumpSeqOnRead).mcycle = s.mcycle := by unfold State.bumpSeqOnRead; split <;> rfl
@[simp] theorem State.bumpSeqOnRead_minstret (s : State) : (s.bumpSeqOnRead).minstret = s.minstret := by unfold State.bumpSeqOnRead; split <;> rfl
@[simp] theorem State.bumpSeqOnRead_resValid (s : State) : (s.bumpSeqOnRead).resValid = s.resValid := by unfold State.bumpSeqOnRead; split <;> rfl
@[simp] theorem State.bumpSeqOnRead_resAddr (s : State) : (s.bumpSeqOnRead).resAddr = s.resAddr := by unfold State.bumpSeqOnRead; split <;> rfl
@[simp] theorem State.bumpSeqOnRead_resSeq (s : State) : (s.bumpSeqOnRead).resSeq = s.resSeq := by unfold State.bumpSeqOnRead; split <;> rfl
@[simp] theorem State.bumpSeqOnRead_powerDown (s : State) : (s.bumpSeqOnRead).powerDown = s.powerDown := by unfold State.bumpSeqOnRead; split <;> rfl
@[simp] theorem State.bumpSeqOnRead_csr (s : State) : (s.bumpSeqOnRead).csr = s.csr := by unfold State.bumpSeqOnRead; split <;> rfl
@[simp] theorem State.bumpSeqOnRead_hartid (s : State) : (s.bumpSeqOnRead).hartid = s.hartid := by unfold State.bumpSeqOnRead; split <;> rfl
@[simp] theorem State.bumpSeqOnRead_tlbCode (s : State) : (s.bumpSeqOnRead).tlbCode = s.tlbCode := by unfold State.bumpSeqOnRead; split <;> rfl
@[simp] theorem State.bumpSeqOnRead_tlbData (s : State) : (s.bumpSeqOnRead).tlbData = s.tlbData := by unfold State.bumpSeqOnRead; split <;> rfl
@[simp] theorem State.bumpSeqOnRead_tlbStore (s : State) : (s.bumpSeqOnRead).tlbStore = s.tlbStore := by unfold State.bumpSeqOnRead; split <;> rfl
@[simp] theorem State.bumpSeqOnRead_cfg (s : State) : (s.bumpSeqOnRead).cfg = s.cfg := by unfold State.bumpSeqOnRead; split <;> rfl
@[simp] theorem State.bumpSeqOnRead_mem (s : State) : (s.bumpSeqOnRead).mem = s.mem := by unfold State.bumpSeqOnRead; split <;> rfl
@[simp] theorem State.bumpSeqOnRead_timeIn (s : State) : (s.bumpSeqOnRead).timeIn = s.timeIn := by unfold State.bumpSeqOnRead; split <;> rfl
@[simp] theorem State.bumpSeqOnRead_others (s : State) : (s.bumpSeqOnRead).others = s.others := by unfold State.bumpSeqOnRead; split <;> rfl
@[simp] theorem State.bumpSeqOnRead_terminate (s : State) : (s.bumpSeqOnRead).terminate = s.terminate := by unfold State.bumpSeqOnRead; split <;> rfl
@[simp] theorem State.bumpSeqOnRead_inputs (s : State) : (s.bumpSeqOnRead).inputs = s.inputs := by unfold State.bumpSeqOnRead; split <;> rfl
@[simp] theorem State.bumpSeqOnRead_devSeq (s : State) : (s.bumpSeqOnRead).devSeq = s.devSeq := by unfold State.bumpSeqOnRead; split <;> rfl

/-! ## flushAll -/

@[simp] theorem State.flushAll_x (s : State) : (s.flushAll).x = s.x := rfl
@[simp] theorem State.flushAll_f (s : State) : (s.flushAll).f = s.f := rfl
@[simp] theorem State.flushAll_v (s : State) : (s.flushAll).v = s.v := rfl
@[simp] theorem State.flushAll_pc (s : State) : (s.flushAll).pc = s.pc := rfl
@[simp] theorem State.flushAll_priv (s : State) : (s.flushAll).priv = s.priv := rfl
@[simp] theorem State.flushAll_pendingException (s : State) : (s.flushAll).pendingException = s.pendingException := rfl
@[simp] theorem State.flushAll_pendingTval (s : State) : (s.flushAll).pendingTval = s.pendingTval := rfl
@[simp] theorem State.flushAll_pendingInterrupt (s : State) : (s.flushAll).pendingInterrupt = s.pendingInterrupt := rfl
@[simp] theorem State.flushAll_mcycle (s : State) : (s.flushAll).mcycle = s.mcycle := rfl
@[simp] theorem State.flushAll_minstret (s : State) : (s.flushAll).minstret = s.minstret := rfl
@[simp] theorem State.flushAll_resValid (s : State) : (s.flushAll).resValid = s.resValid := rfl
@[simp] theorem State.flushAll_resAddr (s : State) : (s.flushAll).resAddr = s.resAddr := rfl
@[simp] theorem State.flushAll_resSeq (s : State) : (s.flushAll).resSeq = s.resSeq := rfl
@[simp] theorem State.flushAll_powerDown (s : State) : (s.flushAll).powerDown = s.powerDown := rfl
@[simp] theorem State.flushAll_csr (s : State) : (s.flushAll).csr = s.csr := rfl
@[simp] theorem State.flushAll_hartid (s : State) : (s.flushAll).hartid = s.hartid := rfl
@[simp] theorem State.flushAll_cfg (s : State) : (s.flushAll).cfg = s.cfg := rfl
@[simp] theorem State.flushAll_mem (s : State) : (s.flushAll).mem = s.mem := rfl
@[simp] theorem State.flushAll_memSeq (s : State) : (s.flushAll).memSeq = s.memSeq := rfl
@[simp] theorem State.flushAll_timeIn (s : State) : (s.flushAll).timeIn = s.timeIn := rfl
@[simp] theorem State.flushAll_others (s : State) : (s.flushAll).others = s.others := rfl
@[simp] theorem State.flushAll_terminate (s : State) : (s.flushAll).terminate = s.terminate := rfl
@[simp] theorem State.flushAll_inputs (s : State) : (s.flushAll).inputs = s.inputs := rfl
@[simp] theorem State.flushAll_devSeq (s : State) : (s.flushAll).devSeq = s.devSeq := rfl

/-! ## flushCode -/

@[simp] theorem State.flushCode_x (s : State) : (s.flushCode).x = s.x := rfl
@[simp] theorem State.flushCode_f (s : State) : (s.flushCode).f = s.f := rfl
@[simp] theorem State.flushCode_v (s : State) : (s.flushCode).v = s.v := rfl
@[simp] theorem State.flushCode_pc (s : State) : (s.flushCode).pc = s.pc := rfl
@[simp] theorem State.flushCode_priv (s : State) : (s.flushCode).priv = s.priv := rfl
@[simp] theorem State.flushCode_pendingException (s : State) : (s.flushCode).pendingException = s.pendingException := rfl
@[simp] theorem State.flushCode_pendingTval (s : State) : (s.flushCode).pendingTval = s.pendingTval := rfl
@[simp] theorem State.flushCode_pendingInterrupt (s : State) : (s.flushCode).pendingInterrupt = s.pendingInterrupt := rfl
@[simp] theorem State.flushCode_mcycle (s : State) : (s.flushCode).mcycle = s.mcycle := rfl
@[simp] theorem State.flushCode_minstret (s : State) : (s.flushCode).minstret = s.minstret := rfl
@[simp] theorem State.flushCode_resValid (s : State) : (s.flushCode).resValid = s.resValid := rfl
@[simp] theorem State.flushCode_resAddr (s : State) : (s.flushCode).resAddr = s.resAddr := rfl
@[simp] theorem State.flushCode_resSeq (s : State) : (s.flushCode).resSeq = s.resSeq := rfl
@[simp] theorem State.flushCode_powerDown (s : State) : (s.flushCode).powerDown = s.powerDown := rfl
@[simp] theorem State.flushCode_csr (s : State) : (s.flushCode).csr = s.csr := rfl
@[simp] theorem State.flushCode_hartid (s : State) : (s.flushCode).hartid = s.hartid := rfl
@[simp] theorem State.flushCode_tlbData (s : State) : (s.flushCode).tlbData = s.tlbData := rfl
@[simp] theorem State.flushCode_tlbStore (s : State) : (s.flushCode).tlbStore = s.tlbStore := rfl
@[simp] theorem State.flushCode_cfg (s : State) : (s.flushCode).cfg = s.cfg := rfl
@[simp] theorem State.flushCode_mem (s : State) : (s.flushCode).mem = s.mem := rfl
@[simp] theorem State.flushCode_memSeq (s : State) : (s.flushCode).memSeq = s.memSeq := rfl
@[simp] theorem State.flushCode_timeIn (s : State) : (s.flushCode).timeIn = s.timeIn := rfl
@[simp] theorem State.flushCode_others (s : State) : (s.flushCode).others = s.others := rfl
@[simp] theorem State.flushCode_terminate (s : State) : (s.flushCode).terminate = s.terminate := rfl
@[simp] theorem State.flushCode_inputs (s : State) : (s.flushCode).inputs = s.inputs := rfl
@[simp] theorem State.flushCode_devSeq (s : State) : (s.flushCode).devSeq = s.devSeq := rfl

/-! ## wake -/

@[simp] theorem State.wake_x (s : State) : (s.wake).x = s.x := rfl
@[simp] theorem State.wake_f (s : State) : (s.wake).f = s.f := rfl
@[simp] theorem State.wake_v (s : State) : (s.wake).v = s.v := rfl
@[simp] theorem State.wake_pc (s : State) : (s.wake).pc = s.pc := rfl
@[simp] theorem State.wake_priv (s : State) : (s.wake).priv = s.priv := rfl
@[simp] theorem State.wake_pendingException (s : State) : (s.wake).pendingException = s.pendingException := rfl
@[simp] theorem State.wake_pendingTval (s : State) : (s.wake).pendingTval = s.pendingTval := rfl
@[simp] theorem State.wake_pendingInterrupt (s : State) : (s.wake).pendingInterrupt = s.pendingInterrupt := rfl
@[simp] theorem State.wake_mcycle (s : State) : (s.wake).mcycle = s.mcycle := rfl
@[simp] theorem State.wake_minstret (s : State) : (s.wake).minstret = s.minstret := rfl
@[simp] theorem State.wake_resValid (s : State) : (s.wake).resValid = s.resValid := rfl
@[simp] theorem State.wake_resAddr (s : State) : (s.wake).resAddr = s.resAddr := rfl
@[simp] theorem State.wake_resSeq (s : State) : (s.wake).resSeq = s.resSeq := rfl
@[simp] theorem State.wake_csr (s : State) : (s.wake).csr = s.csr := rfl
@[simp] theorem State.wake_hartid (s : State) : (s.wake).hartid = s.hartid := rfl
@[simp] theorem State.wake_tlbCode (s : State) : (s.wake).tlbCode = s.tlbCode := rfl
@[simp] theorem State.wake_tlbData (s : State) : (s.wake).tlbData = s.tlbData := rfl
@[simp] theorem State.wake_tlbStore (s : State) : (s.wake).tlbStore = s.tlbStore := rfl
@[simp] theorem State.wake_cfg (s : State) : (s.wake).cfg = s.cfg := rfl
@[simp] theorem State.wake_mem (s : State) : (s.wake).mem = s.mem := rfl
@[simp] theorem State.wake_memSeq (s : State) : (s.wake).memSeq = s.memSeq := rfl
@[simp] theorem State.wake_timeIn (s : State) : (s.wake).timeIn = s.timeIn := rfl
@[simp] theorem State.wake_others (s : State) : (s.wake).others = s.others := rfl
@[simp] theorem State.wake_terminate (s : State) : (s.wake).terminate = s.terminate := rfl
@[simp] theorem State.wake_inputs (s : State) : (s.wake).inputs = s.inputs := rfl
@[simp] theorem State.wake_devSeq (s : State) : (s.wake).devSeq = s.devSeq := rfl

/-! ## What the updates write -/

@[simp] theorem State.goTo_pc (s : State) (w : Word) (c : TransferClass) (r : Option (RegIdx × RegIdx)) :
    (s.goTo w c r).pc = s.cfg.xlen.norm w := rfl
@[simp] theorem State.goTo_nextPc (s : State) (w : Word) (c : TransferClass) (r : Option (RegIdx × RegIdx)) :
    (s.goTo w c r).out.nextPc = s.cfg.xlen.norm w := rfl
@[simp] theorem State.count_mcycle (s : State) (a b : Bool) :
    (s.count a b).mcycle = if a then s.mcycle + 1 else s.mcycle := rfl
@[simp] theorem State.count_minstret (s : State) (a b : Bool) :
    (s.count a b).minstret = if b then s.minstret + 1 else s.minstret := rfl
@[simp] theorem State.count_out (s : State) (a b : Bool) : (s.count a b).out = s.out := rfl
@[simp] theorem State.bumpSeq_memSeq (s : State) : s.bumpSeq.memSeq = s.memSeq + 1 := rfl
@[simp] theorem State.wake_powerDown (s : State) : s.wake.powerDown = false := rfl
@[simp] theorem State.flushAll_tlbCode (s : State) : s.flushAll.tlbCode = [] := rfl
@[simp] theorem State.flushAll_tlbData (s : State) : s.flushAll.tlbData = [] := rfl
@[simp] theorem State.flushAll_tlbStore (s : State) : s.flushAll.tlbStore = [] := rfl
@[simp] theorem State.flushCode_tlbCode (s : State) : s.flushCode.tlbCode = [] := rfl
@[simp] theorem State.dirtyFS_csr (s : State) :
    s.dirtyFS.csr = { s.csr with mstatus := setField2 posFS 3#2 s.csr.mstatus } := rfl
@[simp] theorem State.setF_csr (s : State) (i : RegIdx) (v : Word) :
    (s.setF i v).csr = { s.csr with mstatus := setField2 posFS 3#2 s.csr.mstatus } := rfl
@[simp] theorem State.setF_f (s : State) (i : RegIdx) (v : Word) :
    (s.setF i v).f = s.f.set i.toNat (s.cfg.flen.norm v) i.isLt := rfl

theorem State.setX_zero (s : State) (v : Word) : s.setX 0#5 v = s := by simp [State.setX]

theorem State.setX_x (s : State) (i : RegIdx) (v : Word) (h : i ≠ 0#5) :
    (s.setX i v).x = s.x.set i.toNat (s.cfg.xlen.norm v) i.isLt := by simp [State.setX, h]

/-! ## Reads after writes of registers -/

@[simp] theorem State.getX_zero (s : State) : s.getX 0#5 = 0 := by simp [State.getX]

@[simp] theorem State.setX_getX (s : State) (i : RegIdx) (v : Word) (h : i ≠ 0#5) :
    (s.setX i v).getX i = s.cfg.xlen.norm v := by
  simp only [State.getX, h, if_false, State.setX_x s i v h, State.setX_cfg, Vector.getElem_set_self]
  cases s.cfg.xlen <;> simp [Xlen.norm]

theorem State.setX_getX_ne (s : State) (i j : RegIdx) (v : Word) (h : j ≠ i) : (s.setX i v).getX j = s.getX j := by
  by_cases hi : i = 0#5
  · subst hi; rw [State.setX_zero]
  · have hn : i.toNat ≠ j.toNat := fun e => h (BitVec.eq_of_toNat_eq e.symm)
    simp only [State.getX, State.setX_cfg, State.setX_x s i v hi, Vector.getElem_set_ne _ _ hn]

@[simp] theorem State.setF_getF (s : State) (i : RegIdx) (v : Word) : (s.setF i v).getF i = s.cfg.flen.norm v := by
  simp only [State.getF, State.setF_f, State.setF_cfg, Vector.getElem_set_self]
  cases s.cfg.flen <;> simp [Flen.norm]

theorem State.setF_getF_ne (s : State) (i j : RegIdx) (v : Word) (h : j ≠ i) : (s.setF i v).getF j = s.getF j := by
  have hn : i.toNat ≠ j.toNat := fun e => h (BitVec.eq_of_toNat_eq e.symm)
  simp only [State.getF, State.setF_f, State.setF_cfg, Vector.getElem_set_ne _ _ hn]

/-- A value already cut to XLEN bits is kept by another cut. -/
@[simp] theorem norm_norm (xl : Xlen) (v : Word) : xl.norm (xl.norm v) = xl.norm v := by
  cases xl <;> simp [Xlen.norm]

@[simp] theorem flen_norm_norm (fl : Flen) (v : Word) : fl.norm (fl.norm v) = fl.norm v := by
  cases fl <;> simp [Flen.norm]

@[simp] theorem norm_zero (xl : Xlen) : xl.norm 0 = 0 := by cases xl <;> rfl

end Sys2Proof.Machine
end

