-- ==== Sys2Proof/Laws/Memory.lean ====
section
/-! SUPPORT. Memory: the canonical form is kept by every operation, a byte reads as it was last written, and what the access primitives do
when the layer answers every byte. -/

namespace Sys2Proof.Machine

/-! ## The canonical form -/

theorem Memory.wfFrom_mono {lo lo' : Nat} {m : List Host.Cell} (h : lo' ≤ lo) (hm : Memory.wfFrom lo m = true) :
    Memory.wfFrom lo' m = true := by
  cases m with
  | nil => rfl
  | cons c m =>
    obtain ⟨b, w⟩ := c
    simp only [Memory.wfFrom, Bool.and_eq_true, decide_eq_true_eq] at hm ⊢
    exact ⟨⟨Nat.le_trans h hm.1.1, hm.1.2⟩, hm.2⟩

theorem Memory.read_of_lt {lo : Nat} {m : List Host.Cell} (hm : Memory.wfFrom lo m = true) {a : Nat} (h : a < lo) :
    Memory.read m a = unlistedByte := by
  induction m generalizing lo with
  | nil => rfl
  | cons c m ih =>
    obtain ⟨b, w⟩ := c
    simp only [Memory.wfFrom, Bool.and_eq_true, decide_eq_true_eq] at hm
    have hb : a ≠ b := by omega
    simp only [Memory.read, hb, if_false]
    exact ih hm.2 (by omega)

theorem Memory.write_wfFrom {lo a : Nat} {m : List Host.Cell} (v : Byte) (h : lo ≤ a) (hm : Memory.wfFrom lo m = true) :
    Memory.wfFrom lo (Memory.write m a v) = true := by
  induction m generalizing lo with
  | nil =>
    simp only [Memory.write]
    split
    · rfl
    · simp_all [Memory.wfFrom]
  | cons c m ih =>
    obtain ⟨b, w⟩ := c
    have hm' := hm
    simp only [Memory.wfFrom, Bool.and_eq_true, decide_eq_true_eq, bne_iff_ne] at hm
    obtain ⟨⟨hb, hw⟩, hrest⟩ := hm
    simp only [Memory.write]
    split
    · rename_i hab
      split
      · exact hm'
      · simp only [Memory.wfFrom, Bool.and_eq_true, decide_eq_true_eq, bne_iff_ne]
        exact ⟨⟨h, ‹_›⟩, ⟨hab, hw⟩, hrest⟩
    · split
      · split
        · exact Memory.wfFrom_mono (by omega) hrest
        · simp only [Memory.wfFrom, Bool.and_eq_true, decide_eq_true_eq, bne_iff_ne]
          subst_vars
          exact ⟨⟨h, ‹_›⟩, hrest⟩
      · simp only [Memory.wfFrom, Bool.and_eq_true, decide_eq_true_eq, bne_iff_ne]
        exact ⟨⟨hb, hw⟩, ih (by omega) hrest⟩

theorem Memory.write_wf {m : List Host.Cell} (a : Nat) (v : Byte) (hm : Memory.wf m = true) :
    Memory.wf (Memory.write m a v) = true := Memory.write_wfFrom v (Nat.zero_le a) hm

theorem Memory.writeBytes_wf {m : List Host.Cell} (a : Nat) (bs : List Byte) (hm : Memory.wf m = true) :
    Memory.wf (Memory.writeBytes m a bs) = true := by
  induction bs generalizing m a with
  | nil => exact hm
  | cons b bs ih => exact ih (a + 1) (Memory.write_wf a b hm)

theorem storeTo_wf {m : List Host.Cell} (v : Word) (ts : List Place) (hm : Memory.wf m = true) :
    Memory.wf (storeTo m v ts) = true := by
  induction ts generalizing m v with
  | nil => exact hm
  | cons t ts ih =>
    cases t with
    | device _ => exact ih _ hm
    | ram p => exact ih _ (Memory.write_wf p _ hm)

theorem reset_memory_wf (c : Config) : Memory.wf (State.resetOf c).mem = true := rfl

/-! ## Read after write -/

theorem Memory.read_write {lo : Nat} {m : List Host.Cell} (hm : Memory.wfFrom lo m = true) (a b : Nat) (v : Byte) :
    Memory.read (Memory.write m a v) b = if b = a then v else Memory.read m b := by
  induction m generalizing lo with
  | nil =>
    simp only [Memory.write]
    split <;> simp_all [Memory.read]
  | cons c m ih =>
    obtain ⟨p, w⟩ := c
    simp only [Memory.wfFrom, Bool.and_eq_true, decide_eq_true_eq, bne_iff_ne] at hm
    obtain ⟨⟨hp, hw⟩, hrest⟩ := hm
    simp only [Memory.write]
    split
    · rename_i hap
      split
      · rename_i hv
        by_cases hb : b = a
        · subst hb
          have hbp : b ≠ p := by omega
          simp only [Memory.read, hbp, if_false, if_true]
          rw [Memory.read_of_lt hrest (by omega), hv]
        · simp [hb]
      · simp [Memory.read]
    · split
      · rename_i hna hap
        subst hap
        split
        · rename_i hv
          by_cases hb : b = a
          · subst hb
            simp only [if_true]
            rw [Memory.read_of_lt hrest (by omega), hv]
          · simp [Memory.read, hb]
        · simp only [Memory.read]
          split <;> rfl
      · rename_i hna hap
        simp only [Memory.read]
        split
        · rename_i hb
          have : b ≠ a := by omega
          simp [this]
        · exact ih hrest

/-- A write leaves every other byte alone, whatever form the list has. -/
theorem Memory.read_write_ne (m : List Host.Cell) {a b : Nat} (v : Byte) (h : b ≠ a) :
    Memory.read (Memory.write m a v) b = Memory.read m b := by
  induction m with
  | nil => simp only [Memory.write]; split <;> simp [Memory.read, h]
  | cons c m ih =>
    obtain ⟨p, w⟩ := c
    simp only [Memory.write]
    split
    · split <;> simp [Memory.read, h]
    · split
      · rename_i hna hap
        subst hap
        split <;> simp [Memory.read, h]
      · simp only [Memory.read, ih]

theorem storeTo_outside (m : List Host.Cell) (v : Word) (ts : List Place) {p : Nat} (h : Place.ram p ∉ ts) :
    Memory.read (storeTo m v ts) p = Memory.read m p := by
  induction ts generalizing m v with
  | nil => rfl
  | cons t ts ih =>
    simp only [List.mem_cons, not_or] at h
    cases t with
    | device _ => exact ih _ _ h.2
    | ram q =>
      have hq : p ≠ q := fun e => h.1 (by rw [e])
      exact (ih _ _ h.2).trans (Memory.read_write_ne m _ hq)

theorem storeTo_inside {m : List Host.Cell} (hm : Memory.wf m = true) (v : Word) (ts : List Place) (k p : Nat)
    (hk : ts[k]? = some (.ram p)) (hlast : ∀ j, k < j → ts[j]? ≠ some (.ram p)) :
    Memory.read (storeTo m v ts) p = v.extractLsb' (8 * k) 8 := by
  induction ts generalizing m v k with
  | nil => simp at hk
  | cons t ts ih =>
    have hshift : ∀ i : Nat, (v >>> 8).extractLsb' (8 * i) 8 = v.extractLsb' (8 * (i + 1)) 8 := fun i => by
      apply BitVec.eq_of_getLsbD_eq
      intro j _
      simp only [BitVec.getLsbD_extractLsb', BitVec.getLsbD_ushiftRight]
      congr 2
      omega
    cases k with
    | zero =>
      simp only [List.getElem?_cons_zero, Option.some.injEq] at hk
      subst hk
      have hnot : Place.ram p ∉ ts := fun hmem => by
        obtain ⟨j, hj⟩ := List.mem_iff_getElem?.mp hmem
        exact hlast (j + 1) (Nat.succ_pos j) (by simpa using hj)
      show Memory.read (storeTo (Memory.write m p (v.setWidth 8)) (v >>> 8) ts) p = _
      rw [storeTo_outside _ _ _ hnot, Memory.read_write hm, if_pos rfl]
      apply BitVec.eq_of_getLsbD_eq
      intro j hj
      simp [BitVec.getLsbD_extractLsb', BitVec.getLsbD_setWidth]
    | succ k =>
      simp only [List.getElem?_cons_succ] at hk
      have hl : ∀ j, k < j → ts[j]? ≠ some (.ram p) := fun j hj => by
        have := hlast (j + 1) (by omega)
        simpa using this
      cases t with
      | device _ => rw [← hshift]; exact ih hm _ k hk hl
      | ram q => rw [← hshift]; exact ih (Memory.write_wf q _ hm) _ k hk hl

end Sys2Proof.Machine
end

