-- ==== Sys2Proof/Laws/Access.lean ====
section
/-! SUPPORT. What the access primitives do: a read or write that the layer answers for every byte (20_memory.md R156, R157), and one that
stops. -/

namespace Sys2Proof.Machine

/-- A request depends on nothing of the hart but its identity, its level and its control registers (R155). -/
theorem request_of_eq {s t : State} (hh : t.hartid = s.hartid) (hp : t.priv = s.priv) (hc : t.csr = s.csr) (kind : AccessKind) (n : Nat) :
    t.request kind n = s.request kind n := by
  simp only [State.request, hh, hp, hc]

/-- The layer's answer depends on nothing else but the configuration and memory. -/
theorem places_of_eq {s t : State} (hg : t.cfg = s.cfg) (hm : t.mem = s.mem) (hh : t.hartid = s.hartid) (hp : t.priv = s.priv)
    (hc : t.csr = s.csr) (kind : AccessKind) (a : Word) (n : Nat) : t.places kind a n = s.places kind a n := by
  simp only [State.places, hg, hm, request_of_eq hh hp hc]

/-! ## Places -/

@[simp] theorem Place.isDevice_ram (p : Nat) : (Place.ram p).isDevice = false := rfl
@[simp] theorem Place.isDevice_device (p : Nat) : (Place.device p).isDevice = true := rfl
@[simp] theorem Place.addr_ram (p : Nat) : (Place.ram p).addr = p := rfl
@[simp] theorem Place.addr_device (p : Nat) : (Place.device p).addr = p := rfl

@[simp] theorem deviceCount_nil : deviceCount [] = 0 := rfl
@[simp] theorem deviceCount_ram (p : Nat) (ts : List Place) : deviceCount (.ram p :: ts) = deviceCount ts := by
  simp [deviceCount]
@[simp] theorem deviceCount_device (p : Nat) (ts : List Place) : deviceCount (.device p :: ts) = deviceCount ts + 1 := by
  simp [deviceCount, List.countP_cons]

theorem deviceCount_cons (t : Place) (ts : List Place) : deviceCount (t :: ts) = deviceCount [t] + deviceCount ts := by
  cases t <;> simp; omega

/-- The address of the next byte of an access. -/
theorem addr_succ (a : Word) (n : Nat) : a + 1 + BitVec.ofNat 64 n = a + BitVec.ofNat 64 (n + 1) := by
  rw [Nat.add_comm n 1, BitVec.ofNat_add, ← BitVec.add_assoc]
  rfl

theorem resolve_succ {c : Config} {mem : List Host.Cell} {q : Request} {a : Word} {n : Nat} {ts : List Place}
    (h : resolve c mem q a (n + 1) = .ok ts) :
    ∃ t ts', translate c mem q (c.xlen.norm a).toNat = .ok t ∧ resolve c mem q (a + 1) n = .ok ts' ∧ ts = t :: ts' := by
  simp only [resolve] at h
  split at h
  · cases h
  · rename_i t ht
    split at h
    · cases h
    · rename_i ts' hts
      cases h
      exact ⟨t, ts', ht, hts, rfl⟩

theorem resolve_one {c : Config} {mem : List Host.Cell} {q : Request} {a : Word} {t : Place}
    (h : translate c mem q (c.xlen.norm a).toNat = .ok t) : resolve c mem q a 1 = .ok [t] := by
  simp only [resolve, h]

theorem resolve_length {c : Config} {mem : List Host.Cell} {q : Request} {a : Word} {n : Nat} {ts : List Place}
    (h : resolve c mem q a n = .ok ts) : ts.length = n := by
  induction n generalizing a ts with
  | zero => simp only [resolve] at h; cases h; rfl
  | succ n ih =>
    obtain ⟨t, ts', -, hts, rfl⟩ := resolve_succ h
    simp [ih hts]

/-! ## Values -/

theorem shift_or_byte (b : Byte) (n : Nat) :
    (BitVec.ofNat 64 n <<< 8 ||| b.setWidth 64 : Word) = BitVec.ofNat 64 (b.toNat + 256 * n) := by
  have hdisj : (BitVec.ofNat 64 n <<< 8 : Word) &&& b.setWidth 64 = 0 := by
    apply BitVec.eq_of_getLsbD_eq
    intro i hi
    simp only [BitVec.getLsbD_and, BitVec.getLsbD_shiftLeft, BitVec.getLsbD_setWidth]
    by_cases h : i < 8
    · simp [h]
    · simp [BitVec.getLsbD_of_ge b i (by omega)]
  rw [← BitVec.add_eq_or_of_and_eq_zero _ _ hdisj]
  apply BitVec.eq_of_toNat_eq
  simp only [BitVec.toNat_add, BitVec.toNat_shiftLeft, BitVec.toNat_ofNat, BitVec.toNat_setWidth, Nat.shiftLeft_eq]
  have := b.isLt
  omega

theorem loadFrom_eq (mem : List Host.Cell) (dev : Nat) (ts : List Place) :
    loadFrom mem dev ts = (BitVec.ofNat 64 (littleEndian (placeBytes mem dev ts)), dev + deviceCount ts) := by
  induction ts generalizing dev with
  | nil => rfl
  | cons t ts ih =>
    cases t with
    | ram p => simp only [loadFrom, ih, placeBytes, littleEndian, shift_or_byte, deviceCount_ram]
    | device p =>
      simp only [loadFrom, ih, placeBytes, littleEndian, shift_or_byte, deviceCount_device]
      congr 1
      omega

theorem placeBytes_length (mem : List Host.Cell) (dev : Nat) (ts : List Place) :
    (placeBytes mem dev ts).length = ts.length := by
  induction ts generalizing dev with
  | nil => rfl
  | cons t ts ih => cases t <;> simp [placeBytes, ih]

theorem littleEndian_lt (bs : List Byte) : littleEndian bs < 2 ^ (8 * bs.length) := by
  induction bs with
  | nil => simp [littleEndian]
  | cons b bs ih =>
    have hb := b.isLt
    simp only [littleEndian, List.length_cons]
    rw [show 8 * (bs.length + 1) = 8 * bs.length + 8 by omega, Nat.pow_add]
    omega

/-! ## Reads -/

theorem layerRead_ok {s : State} {kind : AccessKind} {a : Word} {n : Nat} {ts : List Place}
    (h : s.places kind a n = .ok ts) :
    ∃ t, layerRead s kind a n = .ok (BitVec.ofNat 64 (littleEndian (placeBytes s.mem s.devSeq ts)), t)
      ∧ t = { s with devSeq := s.devSeq + deviceCount ts, out := t.out } := by
  simp only [layerRead, h, loadFrom_eq]
  exact ⟨_, rfl, rfl⟩

theorem memReadOnce_ok {s : State} {a : Word} {n : Nat} {ts : List Place}
    (h : s.places .data a n = .ok ts) :
    ∃ t, memReadOnce s a n = .ok (BitVec.ofNat 64 (littleEndian (placeBytes s.mem s.devSeq ts))) t
      ∧ t = { s with
          devSeq := s.devSeq + deviceCount ts
          memSeq := s.memSeq + (if s.cfg.resInvalidateOn = .anyAccess then 1 else 0)
          out := t.out } := by
  obtain ⟨t, ht, he⟩ := layerRead_ok h
  refine ⟨t.bumpSeqOnRead, by simp only [memReadOnce, ht], ?_⟩
  rw [he]
  cases hr : s.cfg.resInvalidateOn <;> simp [State.bumpSeqOnRead, hr, State.bumpSeq]

theorem memReadSplit_ok {s : State} {a : Word} {n : Nat} {ts : List Place}
    (h : resolve s.cfg s.mem (s.request .data 1) a n = .ok ts) :
    ∃ t, memReadSplit s a n = .ok (BitVec.ofNat 64 (littleEndian (placeBytes s.mem s.devSeq ts))) t
      ∧ t = { s with
          devSeq := s.devSeq + deviceCount ts
          memSeq := s.memSeq + (if s.cfg.resInvalidateOn = .anyAccess then n else 0)
          out := t.out } := by
  induction n generalizing s a ts with
  | zero =>
    simp only [resolve] at h
    cases h
    exact ⟨s, rfl, by simp [deviceCount]⟩
  | succ n ih =>
    obtain ⟨t0, ts', ht0, hts, rfl⟩ := resolve_succ h
    obtain ⟨u, hu, hue⟩ := memReadOnce_ok (s := s) (resolve_one ht0)
    have hmem : u.mem = s.mem := by rw [hue]
    have hdev : u.devSeq = s.devSeq + deviceCount [t0] := by rw [hue]
    have hreq : u.request .data 1 = s.request .data 1 := request_of_eq (by rw [hue]) (by rw [hue]) (by rw [hue]) _ _
    obtain ⟨w, hw, hwe⟩ := ih (s := u) (a := a + 1) (ts := ts') (by rw [hreq, hmem, hue]; exact hts)
    refine ⟨w, ?_, ?_⟩
    · simp only [memReadSplit, hu, hw, hmem, hdev]
      congr 1
      cases t0 with
      | ram p =>
        have := shift_or_byte (Memory.read s.mem p) (littleEndian (placeBytes s.mem s.devSeq ts'))
        simpa [placeBytes, littleEndian] using this
      | device p =>
        have := shift_or_byte (Config.deviceByte s.devSeq) (littleEndian (placeBytes s.mem (s.devSeq + 1) ts'))
        simpa [placeBytes, littleEndian] using this
    · rw [hwe, hue]
      simp only [deviceCount_cons t0 ts']
      cases s.cfg.resInvalidateOn <;> simp <;> omega

/-- A read that completes: its value little-endian, and all it changes. -/
theorem memRead_ok {s : State} {a : Word} {n : Nat} {ts : List Place} (h : ReadCompletes s a n ts) :
    ∃ t, memRead s a n = .ok (BitVec.ofNat 64 (littleEndian (placeBytes s.mem s.devSeq ts))) t
      ∧ t = { s with
          devSeq := s.devSeq + deviceCount ts
          memSeq := s.memSeq + (if s.cfg.resInvalidateOn = .anyAccess then requests s a n else 0)
          out := t.out } := by
  unfold memRead requests
  by_cases ha : s.cfg.xlen.toNat a % n = 0
  · have : aligned s.cfg.xlen a n = true := by simp [aligned, ha]
    simp only [this, if_true, ha]
    exact memReadOnce_ok (h.once ha)
  · have : aligned s.cfg.xlen a n = false := by simp [aligned, ha]
    simp only [this, ha, if_false]
    simp only [(h.split ha).1]
    exact memReadSplit_ok (h.split ha).2

/-- A misaligned read under MISALIGNED = trap raises cause 4 and does nothing. -/
theorem memRead_misaligned {s : State} {a : Word} {n : Nat} (ha : s.cfg.xlen.toNat a % n ≠ 0) (hm : s.cfg.misaligned = .trap) :
    memRead s a n = .raise 4 (s.cfg.xlen.norm a) s := by
  simp [memRead, aligned, ha, hm]

/-- An aligned read that the layer refuses raises the cause of its fault and does nothing. -/
theorem memRead_fault {s : State} {a : Word} {n : Nat} {flt : LayerFault} (ha : s.cfg.xlen.toNat a % n = 0)
    (h : s.places .data a n = .error flt) :
    memRead s a n = .raise (faultCause .data flt) (s.cfg.xlen.norm a) s := by
  simp [memRead, aligned, ha, memReadOnce, layerRead, h]

/-- A split read that the layer refuses at its byte `ts.length` raises the cause of that fault with that byte's address; the bytes before it
stay counted. -/
theorem memReadSplit_fault {s : State} {a : Word} {n : Nat} {ts : List Place} {flt : LayerFault} (hn : ts.length < n)
    (h : resolve s.cfg s.mem (s.request .data 1) a ts.length = .ok ts)
    (hf : s.places .data (a + BitVec.ofNat 64 ts.length) 1 = .error flt) :
    ∃ u, memReadSplit s a n = .raise (faultCause .data flt) (s.cfg.xlen.norm (a + BitVec.ofNat 64 ts.length)) u
      ∧ u = { s with
          devSeq := s.devSeq + deviceCount ts
          memSeq := s.memSeq + (if s.cfg.resInvalidateOn = .anyAccess then ts.length else 0)
          out := u.out } := by
  induction ts generalizing s a n with
  | nil =>
    obtain ⟨n, rfl⟩ : ∃ k, n = k + 1 := ⟨n - 1, by simp only [List.length_nil] at hn; omega⟩
    have hf' : s.places .data a 1 = .error flt := by simpa using hf
    exact ⟨s, by simp [memReadSplit, memReadOnce, layerRead, hf'], by simp [deviceCount]⟩
  | cons t0 ts ih =>
    obtain ⟨n, rfl⟩ : ∃ k, n = k + 1 := ⟨n - 1, by simp only [List.length_cons] at hn; omega⟩
    obtain ⟨t0', ts', ht0, hts, e⟩ := resolve_succ h
    cases e
    obtain ⟨u, hu, hue⟩ := memReadOnce_ok (s := s) (resolve_one ht0)
    have hreq : u.request .data 1 = s.request .data 1 := request_of_eq (by rw [hue]) (by rw [hue]) (by rw [hue]) _ _
    have hpl := places_of_eq (s := s) (t := u) (by rw [hue]) (by rw [hue]) (by rw [hue]) (by rw [hue]) (by rw [hue]) .data
      (a + 1 + BitVec.ofNat 64 ts.length) 1
    have hadd : a + 1 + BitVec.ofNat 64 ts.length = a + BitVec.ofNat 64 (t0 :: ts).length := addr_succ a ts.length
    obtain ⟨w, hw, hwe⟩ := ih (s := u) (a := a + 1) (n := n) (by simp only [List.length_cons] at hn; omega)
      (by rw [hreq, show u.cfg = s.cfg by rw [hue], show u.mem = s.mem by rw [hue]]; exact hts) (by rw [hpl, hadd]; exact hf)
    refine ⟨w, ?_, ?_⟩
    · simp only [memReadSplit, hu, hw, hadd, show u.cfg = s.cfg by rw [hue]]
    · rw [hwe, hue]
      simp only [deviceCount_cons t0 ts, List.length_cons]
      cases s.cfg.resInvalidateOn <;> simp <;> omega

/-! ## Writes -/

theorem dropRange_nil (h : Hart) : Hart.dropRange h [] = h := by
  simp [Hart.dropRange, TlbEntry.meets]

theorem dropRange_cons (h : Hart) (t : Place) (ts : List Place) :
    Hart.dropRange (Hart.dropRange h [t]) ts = Hart.dropRange h (t :: ts) := by
  simp only [Hart.dropRange, List.filter_filter, TlbEntry.meets, List.any_cons, List.any_nil, Bool.or_false, Bool.not_or]
  simp only [Bool.and_comm]

theorem storeTo_cons (m : List Host.Cell) (v : Word) (t : Place) (ts : List Place) :
    storeTo m v (t :: ts) = storeTo (storeTo m v [t]) (v >>> 8) ts := by
  cases t <;> rfl

theorem memWriteOnce_ok {s : State} {a : Word} {n : Nat} {ts : List Place} (v : Word) (h : s.places .store a n = .ok ts) :
    ∃ t, memWriteOnce s a n v = .ok () t
      ∧ t = { s with
          mem := storeTo s.mem v ts
          others := s.others.map fun g => Hart.dropRange g ts
          memSeq := s.memSeq + 1
          out := t.out } := by
  simp only [memWriteOnce, layerWrite, h]
  exact ⟨_, rfl, rfl⟩

/-- The first byte of a split write is answered, and after it is written the rest is, by the layer as it stands then. -/
theorem AnswersBytes.cons {s : State} {a v : Word} {t : Place} {ts : List Place} (h : AnswersBytes s a v (t :: ts)) :
    s.places .store a 1 = .ok [t] ∧ AnswersBytes (s.afterBytes v [t]) (a + 1) (v >>> 8) ts := by
  refine ⟨by simpa [State.afterBytes, storeTo] using h 0 t rfl, fun k p hk => ?_⟩
  have := h (k + 1) p (by simpa using hk)
  rw [← addr_succ] at this
  simpa [State.afterBytes, storeTo_cons s.mem v t (ts.take k)] using this

theorem answersBytes_of_eq {s u : State} {a v : Word} {ts : List Place} (hg : u.cfg = s.cfg) (hm : u.mem = s.mem)
    (hh : u.hartid = s.hartid) (hp : u.priv = s.priv) (hc : u.csr = s.csr) (h : AnswersBytes s a v ts) : AnswersBytes u a v ts :=
  fun k t hk => by
    rw [← h k t hk]
    exact places_of_eq (s := s.afterBytes v (ts.take k)) (t := u.afterBytes v (ts.take k)) hg (by simp [State.afterBytes, hm]) hh hp hc _ _ _

theorem memWriteSplit_ok {s : State} {a v : Word} {ts : List Place} (h : AnswersBytes s a v ts) :
    ∃ t, memWriteSplit s a v ts.length = .ok () t
      ∧ t = { s with
          mem := storeTo s.mem v ts
          others := s.others.map fun g => Hart.dropRange g ts
          memSeq := s.memSeq + ts.length
          out := t.out } := by
  induction ts generalizing s a v with
  | nil => exact ⟨s, rfl, by simp [storeTo, dropRange_nil]⟩
  | cons t0 ts ih =>
    obtain ⟨h0, hrest⟩ := h.cons
    obtain ⟨u, hu, hue⟩ := memWriteOnce_ok v h0
    obtain ⟨w, hw, hwe⟩ := ih (s := u) (answersBytes_of_eq (s := s.afterBytes v [t0]) (by rw [hue]; rfl) (by rw [hue]; rfl) (by rw [hue]; rfl)
      (by rw [hue]; rfl) (by rw [hue]; rfl) hrest)
    refine ⟨w, by simp only [List.length_cons, memWriteSplit, hu, hw], ?_⟩
    rw [hwe, hue]
    simp only [List.map_map, Function.comp_def, dropRange_cons, storeTo_cons s.mem v t0 ts, List.length_cons]
    congr 1
    omega

/-- A split write that the layer refuses at its byte `ts.length` raises the cause of that fault with that byte's address; the bytes before
it stay written. -/
theorem memWriteSplit_fault {s : State} {a v : Word} {n : Nat} {ts : List Place} {flt : LayerFault} (hn : ts.length < n)
    (h : AnswersBytes s a v ts) (hf : (s.afterBytes v ts).places .store (a + BitVec.ofNat 64 ts.length) 1 = .error flt) :
    ∃ u, memWriteSplit s a v n = .raise (faultCause .store flt) (s.cfg.xlen.norm (a + BitVec.ofNat 64 ts.length)) u
      ∧ u = { s with
          mem := storeTo s.mem v ts
          others := s.others.map fun g => Hart.dropRange g ts
          memSeq := s.memSeq + ts.length
          out := u.out } := by
  induction ts generalizing s a v n with
  | nil =>
    obtain ⟨n, rfl⟩ : ∃ k, n = k + 1 := ⟨n - 1, by simp only [List.length_nil] at hn; omega⟩
    have hf' : s.places .store a 1 = .error flt := by simpa [State.afterBytes, storeTo] using hf
    exact ⟨s, by simp [memWriteSplit, memWriteOnce, layerWrite, hf'], by simp [storeTo, dropRange_nil]⟩
  | cons t0 ts ih =>
    obtain ⟨n, rfl⟩ : ∃ k, n = k + 1 := ⟨n - 1, by simp only [List.length_cons] at hn; omega⟩
    obtain ⟨h0, hrest⟩ := h.cons
    obtain ⟨u, hu, hue⟩ := memWriteOnce_ok v h0
    have hadd : a + 1 + BitVec.ofNat 64 ts.length = a + BitVec.ofNat 64 (t0 :: ts).length := addr_succ a ts.length
    have hpl := places_of_eq (s := s.afterBytes v (t0 :: ts)) (t := u.afterBytes (v >>> 8) ts) (by rw [hue]; rfl)
      (by rw [hue]; exact (storeTo_cons s.mem v t0 ts).symm) (by rw [hue]; rfl) (by rw [hue]; rfl) (by rw [hue]; rfl) .store
      (a + 1 + BitVec.ofNat 64 ts.length) 1
    obtain ⟨w, hw, hwe⟩ := ih (s := u) (a := a + 1) (v := v >>> 8) (n := n) (by simp only [List.length_cons] at hn; omega)
      (answersBytes_of_eq (s := s.afterBytes v [t0]) (by rw [hue]; rfl) (by rw [hue]; rfl) (by rw [hue]; rfl)
        (by rw [hue]; rfl) (by rw [hue]; rfl) hrest) (by rw [hpl, hadd]; exact hf)
    refine ⟨w, by simp only [memWriteSplit, hu, hw, hadd, show u.cfg = s.cfg by rw [hue]], ?_⟩
    rw [hwe, hue]
    simp only [List.map_map, Function.comp_def, dropRange_cons, storeTo_cons s.mem v t0 ts, List.length_cons]
    congr 1
    omega

/-- A write that completes, and all it changes. -/
theorem memWrite_ok {s : State} {a : Word} {n : Nat} {ts : List Place} (v : Word) (h : WriteCompletes s a v n ts) :
    ∃ t, memWrite s a n v = .ok () t
      ∧ t = { s with
          mem := storeTo s.mem v ts
          others := s.others.map fun g => Hart.dropRange g ts
          memSeq := s.memSeq + requests s a n
          out := t.out } := by
  unfold memWrite requests
  by_cases ha : s.cfg.xlen.toNat a % n = 0
  · have : aligned s.cfg.xlen a n = true := by simp [aligned, ha]
    simp only [this, if_true, ha]
    exact memWriteOnce_ok v (h.once ha)
  · have : aligned s.cfg.xlen a n = false := by simp [aligned, ha]
    obtain ⟨h1, rfl, h3⟩ := h.split ha
    simp only [this, ha, if_false, h1]
    exact memWriteSplit_ok h3

theorem memWrite_misaligned {s : State} {a : Word} {n : Nat} (v : Word) (ha : s.cfg.xlen.toNat a % n ≠ 0)
    (hm : s.cfg.misaligned = .trap) : memWrite s a n v = .raise 6 (s.cfg.xlen.norm a) s := by
  simp [memWrite, aligned, ha, hm]

theorem memWrite_fault {s : State} {a : Word} {n : Nat} {flt : LayerFault} (v : Word) (ha : s.cfg.xlen.toNat a % n = 0)
    (h : s.places .store a n = .error flt) :
    memWrite s a n v = .raise (faultCause .store flt) (s.cfg.xlen.norm a) s := by
  simp [memWrite, aligned, ha, memWriteOnce, layerWrite, h]

/-- What a write leaves in memory, as claims speak of it. -/
theorem writeEffect_of {s t : State} {ts : List Place} {v : Word} {k : Nat} (hwf : Memory.wf s.mem = true)
    (hm : t.mem = storeTo s.mem v ts) (hs : t.memSeq = s.memSeq + k) (ho : t.others = s.others.map fun h => Hart.dropRange h ts) :
    WriteEffect s t k ts v where
  outside p hp := by rw [hm]; exact storeTo_outside _ _ _ hp
  inside j p hj hl := by rw [hm]; exact storeTo_inside hwf _ _ _ _ hj hl
  seq := hs
  caches := ho

/-! ## The read-modify-write of an AMO -/

theorem memAmo_ok {s : State} {a : Word} {n : Nat} {ts : List Place} (op : Word → Word)
    (h : s.places .store a n = .ok ts) :
    ∃ t, memAmo s a n op = .ok (BitVec.ofNat 64 (littleEndian (placeBytes s.mem s.devSeq ts))) t
      ∧ t = { s with
          mem := storeTo s.mem (op (BitVec.ofNat 64 (littleEndian (placeBytes s.mem s.devSeq ts)))) ts
          others := s.others.map fun g => Hart.dropRange g ts
          memSeq := s.memSeq + 1
          devSeq := s.devSeq + deviceCount ts
          out := t.out } := by
  obtain ⟨t, ht, he⟩ := layerRead_ok h
  have hpl : t.places .store a n = s.places .store a n :=
    places_of_eq (by rw [he]) (by rw [he]) (by rw [he]) (by rw [he]) (by rw [he]) _ _ _
  simp only [memAmo, ht, layerWrite, hpl, h]
  refine ⟨_, rfl, ?_⟩
  rw [he]
  rfl

end Sys2Proof.Machine
end

