-- ==== Sys2Proof/Laws/Retire.lean ====
section
/-! SUPPORT. One lemma for each shared operation of Machine/Ops.lean, FloatOps.lean and Atomics.lean: everything it does, as Safety.lean says
it. A proof about an instruction cites these and unfolds no operation. -/

namespace Sys2Proof.Machine

/-! ## Retire -/

theorem setX_dest (s : State) (rd : RegIdx) (v : Word) (h : rd ≠ 0#5) :
    (s.setX rd v).x[rd.toNat]'rd.isLt = s.cfg.xlen.norm v := by
  simp [State.setX_x s rd v h]

theorem setX_kept (s : State) (rd : RegIdx) (v : Word) (r : RegIdx) (h : r ≠ rd ∨ r = 0#5) :
    (s.setX rd v).x[r.toNat]'r.isLt = s.x[r.toNat]'r.isLt := by
  by_cases hz : rd = 0#5
  · subst hz; rw [State.setX_zero]
  · have hn : rd.toNat ≠ r.toNat := by
      rcases h with h | h
      · exact fun e => h (BitVec.eq_of_toNat_eq e.symm)
      · subst h; exact fun e => hz (BitVec.eq_of_toNat_eq e)
    simp [State.setX_x s rd v hz, Vector.getElem_set_ne _ _ hn]

theorem retireX_spec (s : State) (len : Word) (rd : RegIdx) (v : Word) :
    ∃ t, retireX s len rd v = .next t ∧ RetiredX s t len rd v := by
  refine ⟨_, rfl, ?_, ?_, ?_, ?_, ?_, ?_⟩
  · apply State.ext <;> simp
  · exact fun h => setX_dest s rd v h
  · exact fun r h => setX_kept s rd v r h
  · simp
  · simp
  · exact ⟨rfl, rfl, by simp⟩

theorem retire_spec (s : State) (len : Word) : ∃ t, retire s len = .next t ∧ RetiredX s t len 0#5 0 := by
  have := retireX_spec s len 0#5 0
  simpa only [retireX, State.setX_zero] using this

theorem jump_spec (s : State) (rd : RegIdx) (link target : Word) (cls : TransferClass) (regs : Option (RegIdx × RegIdx)) :
    ∃ t, retireTo (s.setX rd link) target cls regs = .next t ∧ RetiredJump s t target cls rd link := by
  refine ⟨_, rfl, ?_, ?_, ?_, ?_, ?_, ?_⟩
  · apply State.ext <;> simp
  · exact fun h => setX_dest s rd link h
  · exact fun r h => setX_kept s rd link r h
  · simp
  · simp
  · exact ⟨rfl, rfl, by simp⟩

theorem accrue_csr (s : State) (fl : FFlags) : (s.accrue fl).csr = statusAfter s.csr false fl := by
  unfold State.accrue statusAfter
  by_cases h : fl = 0#5
  · subst h; simp
  · have hb : (fl != 0#5) = true := by simpa using h
    simp only [h, hb, if_false, Bool.false_or, if_true]
    rfl

theorem setField2_idem (i : Nat) (v : BitVec 2) (m : Word) : setField2 i v (setField2 i v m) = setField2 i v m := by
  apply BitVec.eq_of_getLsbD_eq
  intro j hj
  simp only [setField2, BitVec.getLsbD_or, BitVec.getLsbD_and, BitVec.getLsbD_not]
  cases ((3#64 <<< i).getLsbD j) <;> cases ((BitVec.setWidth 64 v <<< i).getLsbD j) <;> simp

theorem setF_accrue_csr (s : State) (rd : RegIdx) (v : Word) (fl : FFlags) :
    ((s.setF rd v).accrue fl).csr = statusAfter s.csr true fl := by
  rw [accrue_csr, State.setF_csr]
  unfold statusAfter
  by_cases h : fl = 0#5
  · subst h; simp
  · have hb : (fl != 0#5) = true := by simpa using h
    simp [hb, setField2_idem]

theorem retireF_spec (s : State) (len : Word) (rd : RegIdx) (v : Word) (fl : FFlags) :
    ∃ t, retireF s len rd v fl = .next t ∧ RetiredF s t len rd v fl := by
  refine ⟨_, rfl, ?_, ?_, ?_, ?_, ?_, ?_⟩
  · apply State.ext <;> simp [setF_accrue_csr]
  · simp
  · intro r h
    have hn : rd.toNat ≠ r.toNat := fun e => h (BitVec.eq_of_toNat_eq e.symm)
    simp [Vector.getElem_set_ne _ _ hn]
  · simp
  · simp
  · exact ⟨rfl, rfl, by simp⟩

theorem retireXF_spec (s : State) (len : Word) (rd : RegIdx) (v : Word) (fl : FFlags) :
    ∃ t, retireXF s len rd v fl = .next t ∧ RetiredXF s t len rd v fl := by
  refine ⟨_, rfl, ?_, ?_, ?_, ?_, ?_, ?_⟩
  · apply State.ext <;> simp [accrue_csr]
  · intro h
    simpa using setX_dest s rd v h
  · intro r h
    simpa using setX_kept s rd v r h
  · simp
  · simp
  · exact ⟨rfl, rfl, by simp⟩

/-! ## Traps -/

theorem getBit_setBit (i j : Nat) (b : Bool) (m : Word) (hi : i < 64) :
    getBit j (setBit i b m) = if j = i then b else getBit j m := by
  unfold getBit setBit
  by_cases h : j = i
  · subst h
    cases b <;> simp [hi]
  · have hbit : (1#64 <<< i).getLsbD j = false := by
      rw [BitVec.getLsbD_shiftLeft]
      by_cases hlt : j < i
      · simp [hlt]
      · have : ¬ j - i = 0 := by omega
        simp [BitVec.getLsbD_one, this]
    cases b <;> simp [h, hbit]
    intro hj
    simpa using BitVec.lt_of_getLsbD hj

theorem getField2_setField2 (i : Nat) (v : BitVec 2) (m : Word) (hi : i < 63) : getField2 i (setField2 i v m) = v := by
  apply BitVec.eq_of_getLsbD_eq
  intro j hj
  have h1 : ¬ i + j < i := by omega
  have h2 : i + j < 64 := by omega
  have h3 : (3#64).getLsbD j = true := by
    have : j = 0 ∨ j = 1 := by omega
    rcases this with rfl | rfl <;> rfl
  simp [getField2, setField2, hj, h1, h2, h3]

theorem getBit_setField2 (i j : Nat) (v : BitVec 2) (m : Word) (h0 : j ≠ i) (h1 : j ≠ i + 1) :
    getBit j (setField2 i v m) = getBit j m := by
  unfold getBit setField2
  have hm : (3#64 <<< i).getLsbD j = false := by
    rw [BitVec.getLsbD_shiftLeft]
    by_cases hlt : j < i
    · simp [hlt]
    · have : (3#64).getLsbD (j - i) = false := by
        have h2 : 2 ≤ j - i := by omega
        exact BitVec.getLsbD_of_ge (3#2) (j - i) (by omega) ▸ (by
          rw [show (3#64) = (3#2).setWidth 64 from rfl, BitVec.getLsbD_setWidth, BitVec.getLsbD_of_ge (3#2) (j - i) h2]
          simp)
      simp [this]
  have hv : (BitVec.setWidth 64 v <<< i).getLsbD j = false := by
    rw [BitVec.getLsbD_shiftLeft]
    by_cases hlt : j < i
    · simp [hlt]
    · rw [BitVec.getLsbD_setWidth, BitVec.getLsbD_of_ge v (j - i) (by omega)]
      simp
  simp [hm, hv]
  intro hj
  simpa using BitVec.lt_of_getLsbD hj

theorem getField2_setBit (i j : Nat) (b : Bool) (m : Word) (hi : i < 64) (h0 : i ≠ j) (h1 : i ≠ j + 1) :
    getField2 j (setBit i b m) = getField2 j m := by
  apply BitVec.eq_of_getLsbD_eq
  intro k hk
  have := getBit_setBit i (j + k) b m hi
  rw [if_neg (by omega)] at this
  simpa [getField2, BitVec.getLsbD_extractLsb', hk, getBit] using this

theorem enterM_bits (p : Priv) (m : Word) :
    getBit posMPIE (enterM p m) = getBit posMIE m ∧ getBit posMIE (enterM p m) = false
      ∧ getField2 posMPP (enterM p m) = privBits p
      ∧ ∀ i, i ≠ posMIE → i ≠ posMPIE → i ≠ posMPP → i ≠ posMPP + 1 → getBit i (enterM p m) = getBit i m := by
  refine ⟨?_, ?_, getField2_setField2 _ _ _ (by decide), ?_⟩
  · unfold enterM
    rw [getBit_setField2 _ _ _ _ (by decide) (by decide), getBit_setBit _ _ _ _ (by decide), if_neg (by decide),
      getBit_setBit _ _ _ _ (by decide), if_pos rfl]
  · unfold enterM
    rw [getBit_setField2 _ _ _ _ (by decide) (by decide), getBit_setBit _ _ _ _ (by decide), if_pos rfl]
  · intro i h1 h2 h3 h4
    unfold enterM
    rw [getBit_setField2 _ _ _ _ h3 h4, getBit_setBit _ _ _ _ (by decide), if_neg h1,
      getBit_setBit _ _ _ _ (by decide), if_neg h2]

theorem enterS_bits (p : Priv) (m : Word) :
    getBit posSPIE (enterS p m) = getBit posSIE m ∧ getBit posSIE (enterS p m) = false
      ∧ getBit posSPP (enterS p m) = (p == .S)
      ∧ ∀ i, i ≠ posSIE → i ≠ posSPIE → i ≠ posSPP → getBit i (enterS p m) = getBit i m := by
  unfold enterS
  refine ⟨?_, ?_, ?_, ?_⟩
  · rw [getBit_setBit _ _ _ _ (by decide), if_neg (by decide), getBit_setBit _ _ _ _ (by decide), if_neg (by decide),
      getBit_setBit _ _ _ _ (by decide), if_pos rfl]
  · rw [getBit_setBit _ _ _ _ (by decide), if_neg (by decide), getBit_setBit _ _ _ _ (by decide), if_pos rfl]
  · rw [getBit_setBit _ _ _ _ (by decide), if_pos rfl]
  · intro i h1 h2 h3
    rw [getBit_setBit _ _ _ _ (by decide), if_neg h3, getBit_setBit _ _ _ _ (by decide), if_neg h1,
      getBit_setBit _ _ _ _ (by decide), if_neg h2]

theorem trapTarget_eq (s : State) (interrupt : Bool) (code : Nat) :
    trapTarget s interrupt code =
      if s.priv ≠ .M ∧ getBit code (if interrupt then s.csr.mideleg else s.csr.medeleg) = true then .S else .M := by
  unfold trapTarget
  cases s.priv <;> cases interrupt <;> simp

/-- Trap entry does what R720 says, to the level R719 says. -/
theorem trapEntry_spec (s : State) (interrupt : Bool) (code : Nat) (tval : Word) :
    Trapped s (trapEntry s interrupt code tval) interrupt code tval := by
  have htgt := trapTarget_eq s interrupt code
  by_cases h : s.priv ≠ .M ∧ getBit code (if interrupt then s.csr.mideleg else s.csr.medeleg) = true
  · rw [if_pos h] at htgt
    simp only [trapEntry, trapRegisters, htgt]
    refine ⟨rfl, (if_pos h).symm, ?_, ?_, ⟨rfl, rfl⟩, ⟨rfl, rfl, rfl, rfl, rfl⟩⟩
    · intro hM; cases hM
    · intro _
      obtain ⟨h1, h2, h3, h4⟩ := enterS_bits s.priv s.csr.mstatus
      exact ⟨rfl, h1, h2, h3, h4, rfl⟩
  · rw [if_neg h] at htgt
    simp only [trapEntry, trapRegisters, htgt]
    refine ⟨rfl, (if_neg h).symm, ?_, ?_, ⟨rfl, rfl⟩, ⟨rfl, rfl, rfl, rfl, rfl⟩⟩
    · intro _
      obtain ⟨h1, h2, h3, h4⟩ := enterM_bits s.priv s.csr.mstatus
      exact ⟨rfl, h1, h2, h3, h4, rfl⟩
    · intro hS; cases hS

theorem raise_spec (s : State) (code : Nat) (tval : Word) : ∃ t, raise s code tval = .next t ∧ Trapped s t false code tval := by
  refine ⟨_, rfl, ?_⟩
  obtain ⟨h1, h2, h3, h4, h5, h6⟩ :=
    trapEntry_spec { s with pendingException := code, pendingTval := s.cfg.xlen.norm tval } false code tval
  exact ⟨h1, h2, h3, h4, h5, h6⟩

theorem takeInterrupt_spec (s : State) (i : Nat) : Trapped s (takeInterrupt s i) true i 0 := by
  obtain ⟨h1, h2, h3, h4, h5, h6⟩ := trapEntry_spec { s with pendingInterrupt := i } true i 0
  exact ⟨h1, h2, h3, h4, h5, h6⟩

/-! ## Loads and stores -/

theorem loadX_spec (s : State) (len : Word) (rd rs1 : RegIdx) (offset : Word) (n : Nat) (widen : Word → Word)
    (ts : List Place) (h : ReadCompletes s (s.effAddr rs1 offset) n ts) :
    ∃ t, loadX s len rd rs1 offset n widen = .next t
      ∧ Loaded s t len rd (widen (BitVec.ofNat 64 (littleEndian (placeBytes s.mem s.devSeq ts)))) (s.effAddr rs1 offset) n ts := by
  obtain ⟨u, hu, hue⟩ := memRead_ok h
  simp only [loadX, hu, MemResult.andThen]
  obtain ⟨t, ht, hr⟩ := retireX_spec u len rd (widen (BitVec.ofNat 64 (littleEndian (placeBytes s.mem s.devSeq ts))))
  refine ⟨t, ht, ?_, ?_, ?_, ?_, ?_, ⟨?_, ?_⟩, hr.report.1⟩
  · rw [hr.frame, hue]
  · intro hd; rw [hr.dest hd, hue]
  · intro r h; rw [hr.kept r h, hue]
  · rw [hr.pc, hue]
  · rw [hr.counters.1, hr.counters.2, hue]; exact ⟨rfl, rfl⟩
  · rw [hr.frame, hue]
  · rw [hr.frame, hue]

theorem storeX_spec (s : State) (len : Word) (rs1 : RegIdx) (offset : Word) (n : Nat) (v : Word) (ts : List Place)
    (hwf : Memory.wf s.mem = true) (h : WriteCompletes s (s.effAddr rs1 offset) v n ts) :
    ∃ t, storeX s len rs1 offset n v = .next t ∧ Stored s t len v (s.effAddr rs1 offset) n ts := by
  obtain ⟨u, hu, hue⟩ := memWrite_ok v h
  simp only [storeX, hu, MemResult.andThen]
  obtain ⟨t, ht, hr⟩ := retire_spec u len
  have hx : t.x = u.x := by
    have : t.x = (u.setX 0#5 0).x := by
      simp only [retire, retireTo, Host.Outcome.next.injEq] at ht
      rw [← ht]; simp [State.setX_zero]
    simpa [State.setX_zero] using this
  refine ⟨t, ht, ?_, ?_, ?_, writeEffect_of hwf ?_ ?_ ?_, hr.report.1⟩
  · rw [hr.frame, hx, hue]
  · rw [hr.pc, hue]
  · rw [hr.counters.1, hr.counters.2, hue]; exact ⟨rfl, rfl⟩
  · rw [hr.frame, hue]
  · rw [hr.frame, hue]
  · rw [hr.frame, hue]

theorem loadF_spec {s : State} (len : Word) (rd : RegIdx) {a : Word} {n : Nat} {ts : List Place} (bits : Word → Word)
    (h : ReadCompletes s a n ts) :
    ∃ t, ((memRead s a n).andThen fun v u => retireF u len rd (bits v) 0#5) = .next t
      ∧ LoadedF s t len rd (bits (BitVec.ofNat 64 (littleEndian (placeBytes s.mem s.devSeq ts)))) a n ts := by
  obtain ⟨u, hu, hue⟩ := memRead_ok h
  simp only [hu, MemResult.andThen]
  obtain ⟨t, ht, hr⟩ := retireF_spec u len rd (bits (BitVec.ofNat 64 (littleEndian (placeBytes s.mem s.devSeq ts)))) 0#5
  refine ⟨t, ht, ?_, ?_, ?_, ?_, ?_, ⟨?_, ?_⟩, hr.report.1⟩
  · rw [hr.frame, hue]
  · rw [hr.dest, hue]
  · intro r h; rw [hr.kept r h, hue]
  · rw [hr.pc, hue]
  · rw [hr.counters.1, hr.counters.2, hue]; exact ⟨rfl, rfl⟩
  · rw [hr.frame, hue]
  · rw [hr.frame, hue]

/-! ## Atomics -/

theorem fetchAndOp_spec (s : State) (rd rs1 : RegIdx) (n : Nat) (op : BitVec (8 * n) → BitVec (8 * n) → BitVec (8 * n)) (src : Word)
    (ts : List Place) (hn : 8 * n ≤ 64) (hwf : Memory.wf s.mem = true) (ha : s.cfg.xlen.toNat (s.getX rs1) % n = 0)
    (h : s.places .store (s.getX rs1) n = .ok ts) :
    ∃ t, fetchAndOp s rd rs1 n op src = .next t
      ∧ Swapped s t rd ((BitVec.ofNat (8 * n) (littleEndian (placeBytes s.mem s.devSeq ts))).signExtend 64)
        ((op (BitVec.ofNat (8 * n) (littleEndian (placeBytes s.mem s.devSeq ts))) (src.setWidth (8 * n))).setWidth 64) ts := by
  have hcut : (BitVec.ofNat 64 (littleEndian (placeBytes s.mem s.devSeq ts))).setWidth (8 * n)
      = BitVec.ofNat (8 * n) (littleEndian (placeBytes s.mem s.devSeq ts)) := BitVec.setWidth_ofNat_of_le hn _
  obtain ⟨u, hu, hue⟩ := memAmo_ok (s := s)
    (fun old => (op (old.setWidth (8 * n)) (src.setWidth (8 * n))).setWidth 64) h
  have hal : aligned s.cfg.xlen (s.getX rs1) n = true := by simp [aligned, ha]
  simp only [fetchAndOp, hal, if_true, hu, MemResult.andThen, hcut]
  obtain ⟨t, ht, hr⟩ := retireX_spec u 4 rd
    (s.cfg.xlen.sext (BitVec.ofNat (8 * n) (littleEndian (placeBytes s.mem s.devSeq ts))))
  have hcfg : u.cfg = s.cfg := by rw [hue]
  refine ⟨t, ht, ?_, ?_, ?_, ?_, ?_, writeEffect_of hwf ?_ ?_ ?_, ?_, hr.report.1⟩
  · rw [hr.frame, hue]
  · intro hd; rw [hr.dest hd, hcfg, Xlen.sext, norm_norm]
  · intro r h; rw [hr.kept r h, hue]
  · rw [hr.pc, hue]
  · rw [hr.counters.1, hr.counters.2, hue]; exact ⟨rfl, rfl⟩
  · rw [hr.frame, hue, hcut]
  · rw [hr.frame, hue]
  · rw [hr.frame, hue]
  · rw [hr.frame, hue]

theorem loadReserved_spec (s : State) (rd rs1 : RegIdx) (n : Nat) (ts : List Place)
    (ha : s.cfg.xlen.toNat (s.getX rs1) % n = 0) (h : s.places .data (s.getX rs1) n = .ok ts) :
    let v : Word := BitVec.ofNat 64 (littleEndian (placeBytes s.mem s.devSeq ts))
    ∃ t, loadReserved s rd rs1 n = .next t
      ∧ Loaded { s with resValid := true, resAddr := s.getX rs1, resSeq := t.memSeq } t 4 rd
          (if n = 4 then s.cfg.xlen.sext (v.setWidth 32) else v) (s.getX rs1) n ts := by
  intro v
  obtain ⟨u, hu, hue⟩ := memRead_ok (s := s) (a := s.getX rs1) (n := n) ⟨fun _ => h, fun h' => absurd ha h'⟩
  have hal : aligned s.cfg.xlen (s.getX rs1) n = true := by simp [aligned, ha]
  simp only [loadReserved, hal, if_true, hu, MemResult.andThen]
  obtain ⟨t, ht, hr⟩ := retireX_spec { u with resValid := true, resAddr := s.getX rs1, resSeq := u.memSeq } 4 rd
    (if n = 4 then s.cfg.xlen.sext (v.setWidth 32) else v)
  have hseq : t.memSeq = u.memSeq := by rw [hr.frame]
  refine ⟨t, ht, ?_, ?_, ?_, ?_, ?_, ⟨?_, ?_⟩, hr.report.1⟩
  · apply State.ext
    all_goals first
      | rfl
      | exact hseq
      | (dsimp only; rw [hr.frame, hue])
  · intro hd; rw [hr.dest hd, hue]
  · intro r h; rw [hr.kept r h, hue]
  · rw [hr.pc, hue]
  · rw [hr.counters.1, hr.counters.2, hue]; exact ⟨rfl, rfl⟩
  · rw [hseq, hue]; rfl
  · rw [hr.frame, hue]

end Sys2Proof.Machine
end

