-- ==== Sys2Proof/Laws/Values.lean ====
section
/-! SUPPORT. XLEN-bit values: immediates, sums, differences, shifts and word results, as integers modulo 2^XLEN. -/

namespace Sys2Proof.Machine

theorem RetiredX.of_norm {s t len rd v w} (h : RetiredX s t len rd v) (e : s.cfg.xlen.norm v = s.cfg.xlen.norm w) : RetiredX s t len rd w :=
  ⟨h.frame, fun hd => (h.dest hd).trans e, h.kept, h.pc, h.counters, h.report⟩

theorem retireX_norm {s len rd v w} (e : s.cfg.xlen.norm v = s.cfg.xlen.norm w) : ∃ t, retireX s len rd v = .next t ∧ RetiredX s t len rd w := by
  obtain ⟨t, h1, h2⟩ := retireX_spec s len rd v
  exact ⟨t, h1, h2.of_norm e⟩

theorem setWidth_ofInt (z : Int) : (BitVec.ofInt 64 z).setWidth 32 = BitVec.ofInt 32 z := by
  apply BitVec.eq_of_toNat_eq
  simp only [BitVec.toNat_setWidth, BitVec.toNat_ofInt]
  omega

theorem setWidth_ofNat (z : Nat) : (BitVec.ofNat 64 z).setWidth 32 = BitVec.ofNat 32 z := BitVec.setWidth_ofNat_of_le (by decide) _

theorem sext_ofInt {w} (hw : w ≤ 64) (v : BitVec w) : v.signExtend 64 = BitVec.ofInt 64 v.toInt := by
  apply BitVec.eq_of_toInt_eq
  rw [BitVec.toInt_signExtend_of_le hw, BitVec.toInt_ofInt]
  have h1 := BitVec.toInt_lt (x := v)
  have h2 := BitVec.le_toInt (x := v)
  by_cases h0 : w = 0
  · subst h0
    have : v.toInt = 0 := by simp [BitVec.eq_nil v]
    simp [this]
  have : (2:Int) ^ (w - 1) ≤ 2 ^ 63 := by
    exact_mod_cast Nat.pow_le_pow_right (show 2 > 0 by decide) (show w - 1 ≤ 63 by omega)
  rw [Int.bmod_eq_of_le] <;> omega

theorem norm32_eq {a b : Word} : Xlen.rv32.norm a = Xlen.rv32.norm b ↔ a.setWidth 32 = b.setWidth 32 := by
  constructor
  · intro h
    have := congrArg (BitVec.setWidth 32) h
    simpa [Xlen.norm] using this
  · intro h; simp [Xlen.norm, h]

theorem append0_toInt {w} (v : BitVec w) (z : Nat) : (v ++ 0#z).toInt = v.toInt * 2 ^ z := by
  have h : (v ++ 0#z) = (v.signExtend (w + z)) <<< z := by
    apply BitVec.eq_of_getLsbD_eq
    intro i hi
    simp only [BitVec.getLsbD_append, BitVec.getLsbD_shiftLeft, BitVec.getLsbD_zero, BitVec.getLsbD_signExtend]
    by_cases h : i < z
    · simp [h]
    · simp [h, hi]
      have : i - z < w := by omega
      have h2 : i - z < w + z := by omega
      simp [this, h2]
  by_cases h0 : w = 0
  · subst h0
    simp [BitVec.eq_nil v]
  rw [h, BitVec.toInt_shiftLeft, Nat.shiftLeft_eq]
  have h1 := BitVec.toInt_lt (x := v)
  have h2 := BitVec.le_toInt (x := v)
  have he : (2:Int) ^ (w + z) = 2 ^ (w-1) * 2 ^ z * 2 := by
    rw [← Int.pow_add, ← Int.pow_succ]; congr 1; omega
  have hp : (0:Int) < 2 ^ z := by positivity
  have h3 : v.toInt * 2 ^ z < 2 ^ (w-1) * 2 ^ z := by nlinarith
  have h4 : -(2 ^ (w-1) * 2 ^ z) ≤ v.toInt * 2 ^ z := by nlinarith
  have hcong : ((((v.signExtend (w+z)).toNat * 2 ^ z : Nat) : Int)).bmod (2 ^ (w+z)) = (v.toInt * 2 ^ z).bmod (2 ^ (w + z)) := by
    have : (((v.signExtend (w+z)).toNat : Int) - v.toInt) % (2 ^ (w+z) : Nat) = 0 := by
      have e := BitVec.toInt_signExtend_of_le (x := v) (show w ≤ w + z by omega)
      rw [← e, BitVec.toInt_eq_toNat_bmod]
      rw [Int.sub_emod, Int.bmod_emod]; simp
    obtain ⟨k, hk⟩ := Int.dvd_of_emod_eq_zero this
    have : (((v.signExtend (w+z)).toNat * 2 ^ z : Nat) : Int) = v.toInt * 2 ^ z + (2 ^ (w+z) : Nat) * (k * 2 ^ z) := by
      push_cast at hk ⊢
      linear_combination (2 ^ z) * hk
    rw [this, Int.add_mul_bmod_self_left]
  rw [hcong]
  have : ((2 ^ (w+z) : Nat) : Int) = 2 ^ (w-1) * 2 ^ z * 2 := by push_cast; exact he
  generalize (2:Int) ^ (w-1) * 2 ^ z = M at *
  rw [Int.bmod_eq_of_le] <;> omega

theorem immS_eq (xl : Xlen) {w} (z : Nat) (hw : w + z ≤ 64) (v : BitVec w) : xl.immS z v = xl.norm (BitVec.ofInt 64 (v.toInt * 2 ^ z)) := by
  rw [Xlen.immS, Xlen.sext, sext_ofInt hw, append0_toInt]

theorem immU_eq (xl : Xlen) {w} (z : Nat) (v : BitVec w) : xl.immU z v = xl.norm (BitVec.ofInt 64 (v.toNat * 2 ^ z)) := by
  rw [Xlen.immU, Xlen.zext]
  congr 1
  apply BitVec.eq_of_toNat_eq
  simp only [BitVec.toNat_setWidth, BitVec.toNat_append, BitVec.toNat_ofNat, BitVec.toNat_ofInt]
  simp [Nat.shiftLeft_eq]
  norm_cast

theorem norm_add (xl : Xlen) (a b : Word) : xl.norm (a + xl.norm b) = xl.norm (a + b) := by
  cases xl
  · rw [norm32_eq]; simp [Xlen.norm, BitVec.setWidth_add]
  · rfl

theorem norm_add' (xl : Xlen) (a b : Word) : xl.norm (xl.norm a + b) = xl.norm (a + b) := by
  rw [BitVec.add_comm, norm_add, BitVec.add_comm]

theorem ofInt_sub_eq {w} (a b : Int) : BitVec.ofInt w (a - b) = BitVec.ofInt w a - BitVec.ofInt w b := by
  rw [Int.sub_eq_add_neg, BitVec.ofInt_add, BitVec.ofInt_neg, BitVec.sub_eq_add_neg]

theorem toInt_ofInt (xl : Xlen) (a : Word) : xl.norm (BitVec.ofInt 64 (xl.toInt a)) = xl.norm a := by
  cases xl
  · rw [norm32_eq, setWidth_ofInt]; exact BitVec.ofInt_toInt
  · simp [Xlen.toInt, Xlen.norm]

theorem toNat_ofNat (xl : Xlen) (a : Word) : xl.norm (BitVec.ofNat 64 (xl.toNat a)) = xl.norm a := by
  cases xl
  · rw [norm32_eq, setWidth_ofNat]; exact BitVec.ofNat_toNat _ _ |>.trans (by simp)
  · simp [Xlen.toNat, Xlen.norm]

theorem ofInt_add (xl : Xlen) (z k : Int) : xl.norm (BitVec.ofInt 64 (z + k)) = xl.norm (BitVec.ofInt 64 z + BitVec.ofInt 64 k) := by
  rw [BitVec.ofInt_add]

theorem add_toInt (xl : Xlen) (a : Word) (k : Int) : xl.norm (a + BitVec.ofInt 64 k) = xl.norm (BitVec.ofInt 64 (xl.toInt a + k)) := by
  rw [BitVec.ofInt_add, ← norm_add' xl a, ← toInt_ofInt xl a, norm_add']

theorem add_toInt2 (xl : Xlen) (a b : Word) : xl.norm (a + b) = xl.norm (BitVec.ofInt 64 (xl.toInt a + xl.toInt b)) := by
  rw [← add_toInt, ← norm_add xl a b, ← toInt_ofInt xl b, norm_add]

theorem sub_toInt2 (xl : Xlen) (a b : Word) : xl.norm (a - b) = xl.norm (BitVec.ofInt 64 (xl.toInt a - xl.toInt b)) := by
  cases xl
  · rw [norm32_eq, setWidth_ofInt, ofInt_sub_eq]
    simp only [Xlen.toInt, BitVec.ofInt_toInt]
    apply BitVec.eq_of_toNat_eq
    simp only [BitVec.toNat_sub, BitVec.toNat_setWidth]
    omega
  · simp [Xlen.toInt, Xlen.norm, ofInt_sub_eq]

theorem boolWord_decide (b : Prop) [Decidable b] : boolWord (decide b) = if b then 1 else 0 := by unfold boolWord; split <;> simp_all

theorem toInt_norm (xl : Xlen) (a) : xl.toInt (xl.norm a) = xl.toInt a := by cases xl <;> simp [Xlen.toInt, Xlen.norm]

theorem toNat_norm (xl : Xlen) (a) : xl.toNat (xl.norm a) = xl.toNat a := by cases xl <;> simp [Xlen.toNat, Xlen.norm]

theorem toInt_ofInt_small (xl : Xlen) (z : Int) (h1 : -(2^31) ≤ z) (h2 : z < 2 ^ 31) : xl.toInt (BitVec.ofInt 64 z) = z := by
  cases xl
  · simp only [Xlen.toInt, setWidth_ofInt, BitVec.toInt_ofInt]; rw [Int.bmod_eq_of_le] <;> omega
  · simp only [Xlen.toInt, BitVec.toInt_ofInt]; rw [Int.bmod_eq_of_le] <;> omega

theorem lift1_shl (xl : Xlen) (n) (a) : xl.norm (xl.lift1 (shiftL n) a) = xl.norm (BitVec.ofNat 64 (xl.toNat a * 2 ^ n)) := by
  cases xl
  · rw [norm32_eq, setWidth_ofNat]
    simp only [Xlen.lift1, shiftL, Xlen.toNat]
    rw [BitVec.setWidth_setWidth_of_le _ (by decide)]
    apply BitVec.eq_of_toNat_eq
    simp [Nat.shiftLeft_eq]
  · simp only [Xlen.lift1, shiftL, Xlen.toNat, Xlen.norm]
    apply BitVec.eq_of_toNat_eq
    simp [Nat.shiftLeft_eq]

theorem lift1_shr (xl : Xlen) (n) (a) : xl.norm (xl.lift1 (shiftRL n) a) = xl.norm (BitVec.ofNat 64 (xl.toNat a / 2 ^ n)) := by
  cases xl
  · rw [norm32_eq, setWidth_ofNat]
    simp only [Xlen.lift1, shiftRL, Xlen.toNat]
    rw [BitVec.setWidth_setWidth_of_le _ (by decide), BitVec.setWidth_eq]
    apply BitVec.eq_of_toNat_eq
    simp only [BitVec.toNat_ushiftRight, BitVec.toNat_ofNat, Nat.shiftRight_eq_div_pow]
    rw [Nat.mod_eq_of_lt]
    exact Nat.lt_of_le_of_lt (Nat.div_le_self _ _) (BitVec.isLt _)
  · simp only [Xlen.lift1, shiftRL, Xlen.toNat, Xlen.norm]
    apply BitVec.eq_of_toNat_eq
    simp only [BitVec.toNat_ushiftRight, BitVec.toNat_ofNat, Nat.shiftRight_eq_div_pow]
    rw [Nat.mod_eq_of_lt]
    exact Nat.lt_of_le_of_lt (Nat.div_le_self _ _) (BitVec.isLt _)

theorem sra_ofInt {w} (n) (a : BitVec w) : a.sshiftRight n = BitVec.ofInt w (a.toInt / 2 ^ n) := by
  rw [BitVec.sshiftRight, Int.shiftRight_eq_div_pow]; norm_cast

theorem lift1_sra (xl : Xlen) (n) (a) : xl.norm (xl.lift1 (shiftRA n) a) = xl.norm (BitVec.ofInt 64 (xl.toInt a / 2 ^ n)) := by
  cases xl
  · rw [norm32_eq, setWidth_ofInt]
    simp only [Xlen.lift1, shiftRA, Xlen.toInt]
    rw [BitVec.setWidth_setWidth_of_le _ (by decide), BitVec.setWidth_eq, sra_ofInt]
  · simp only [Xlen.lift1, shiftRA, Xlen.toInt, Xlen.norm, sra_ofInt]

theorem norm_and (xl : Xlen) (a b : Word) : xl.norm (a &&& xl.norm b) = xl.norm (a &&& b) := by
  cases xl
  · rw [norm32_eq]; simp [Xlen.norm, BitVec.setWidth_and]
  · rfl

theorem norm_or (xl : Xlen) (a b : Word) : xl.norm (a ||| xl.norm b) = xl.norm (a ||| b) := by
  cases xl
  · rw [norm32_eq]; simp [Xlen.norm, BitVec.setWidth_or]
  · rfl

theorem norm_xor (xl : Xlen) (a b : Word) : xl.norm (a ^^^ xl.norm b) = xl.norm (a ^^^ b) := by
  cases xl
  · rw [norm32_eq]; simp [Xlen.norm, BitVec.setWidth_xor]
  · rfl

theorem immI {xl : Xlen} (imm : BitVec 12) : xl.immS 0 imm = xl.norm (BitVec.ofInt 64 imm.toInt) := by
  rw [immS_eq xl 0 (by decide)]; simp

theorem amount_eq (xl : Xlen) (v : Word) : xl.amount v = v.toNat % xl.bits := by cases xl <;> rfl

theorem sext32 (xl : Xlen) (v : BitVec 32) : xl.norm (xl.sext v) = xl.norm (BitVec.ofInt 64 v.toInt) := by
  rw [Xlen.sext, norm_norm, sext_ofInt (by decide)]

theorem wrap_of (xl : Xlen) (v : BitVec 32) (z : Int) (h : v = BitVec.ofInt 32 z) : xl.norm (xl.sext v) = xl.norm (wrap32 z) := by
  rw [sext32, h, BitVec.toInt_ofInt]; rfl

end Sys2Proof.Machine
end

