-- ==== Sys2Proof/Laws/Effects.lean ====
section
/-! SUPPORT. What an instruction may change, said once for each shared operation: the invariants of a run and the rules of the whole machine
follow from these without unfolding an operation. -/

namespace Sys2Proof.Machine

theorem norm_idem (xl : Xlen) (v : Word) : xl.norm (xl.norm v) = xl.norm v := by cases xl <;> simp [Xlen.norm]

theorem flen_norm_idem (fl : Flen) (v : Word) : fl.norm (fl.norm v) = fl.norm v := by cases fl <;> simp [Flen.norm]

/-- What the register writes and memory accesses of an instruction may change before it retires or traps: the x and f registers, fcsr and
FS, memory and `mem_seq` (only when `w`), the device counter and the record. -/
structure Quiet (w : Bool) (s t : State) : Prop where
  cfg : t.cfg = s.cfg
  timeIn : t.timeIn = s.timeIn
  inputs : t.inputs = s.inputs
  v : t.v = s.v
  hartid : t.hartid = s.hartid
  x0 : t.x[0] = s.x[0]
  pc : t.pc = s.pc
  priv : t.priv = s.priv
  cyc : t.mcycle = s.mcycle
  ins : t.minstret = s.minstret
  res : t.resValid = s.resValid ∧ t.resAddr = s.resAddr ∧ t.resSeq = s.resSeq
  pend : t.pendingException = s.pendingException ∧ t.pendingInterrupt = s.pendingInterrupt
  seq : s.memSeq ≤ t.memSeq
  mem : w = false → t.mem = s.mem ∧ t.others = s.others ∧ (s.cfg.resInvalidateOn = .store → t.memSeq = s.memSeq)
  wf : Memory.wf s.mem = true → Memory.wf t.mem = true
  oth : ∃ tss : List (List Place), t.others = s.others.map fun h => tss.foldl Hart.dropRange h
  csr : t.csr = { s.csr with fcsr := t.csr.fcsr, mstatus := t.csr.mstatus }
  ms : t.csr.mstatus = s.csr.mstatus ∨ (s.cfg.flen ≠ .f0 ∧ t.csr.mstatus = setField2 posFS 3#2 s.csr.mstatus)
  xw : (∀ i : Fin 32, fits s.cfg.xlen s.x[i]) → ∀ i : Fin 32, fits s.cfg.xlen t.x[i]
  fw : (∀ i : Fin 32, s.cfg.flen.norm s.f[i] = s.f[i]) → ∀ i : Fin 32, s.cfg.flen.norm t.f[i] = t.f[i]

theorem Quiet.refl (w) (s : State) : Quiet w s s :=
  ⟨rfl,rfl,rfl,rfl,rfl,rfl,rfl,rfl,rfl,rfl,⟨rfl,rfl,rfl⟩,⟨rfl,rfl⟩,Nat.le_refl _,fun _ => ⟨rfl,rfl,fun _ => rfl⟩,id,⟨[],by simp⟩,rfl,.inl rfl,id,id⟩

theorem Quiet.trans {w s u t} (h1 : Quiet w s u) (h2 : Quiet w u t) : Quiet w s t where
  cfg := h2.cfg.trans h1.cfg
  timeIn := h2.timeIn.trans h1.timeIn
  inputs := h2.inputs.trans h1.inputs
  v := h2.v.trans h1.v
  hartid := h2.hartid.trans h1.hartid
  x0 := h2.x0.trans h1.x0
  pc := h2.pc.trans h1.pc
  priv := h2.priv.trans h1.priv
  cyc := h2.cyc.trans h1.cyc
  ins := h2.ins.trans h1.ins
  res := ⟨h2.res.1.trans h1.res.1, h2.res.2.1.trans h1.res.2.1, h2.res.2.2.trans h1.res.2.2⟩
  pend := ⟨h2.pend.1.trans h1.pend.1, h2.pend.2.trans h1.pend.2⟩
  seq := h1.seq.trans h2.seq
  mem := fun hw => ⟨(h2.mem hw).1.trans (h1.mem hw).1, (h2.mem hw).2.1.trans (h1.mem hw).2.1, fun h => ((h2.mem hw).2.2 (by rw [h1.cfg]; exact h)).trans ((h1.mem hw).2.2 h)⟩
  wf := fun h => h2.wf (h1.wf h)
  oth := by
    obtain ⟨a, ha⟩ := h1.oth
    obtain ⟨b, hb⟩ := h2.oth
    exact ⟨a ++ b, by rw [hb, ha]; simp [Function.comp_def]⟩
  csr := by rw [h2.csr, h1.csr]
  ms := by
    rcases h1.ms with h | ⟨hf, h⟩ <;> rcases h2.ms with h' | ⟨hf', h'⟩
    · exact .inl (h'.trans h)
    · exact .inr ⟨by rw [← h1.cfg]; exact hf', by rw [h', h]⟩
    · exact .inr ⟨hf, by rw [h', h]⟩
    · exact .inr ⟨hf, by rw [h', h, setField2_idem]⟩
  xw := fun h => by have := h2.xw; rw [h1.cfg] at this; exact this (h1.xw h)
  fw := fun h => by have := h2.fw; rw [h1.cfg] at this; exact this (h1.fw h)

theorem Quiet.weaken {w s t} (h : Quiet false s t) : Quiet w s t :=
  { h with mem := fun _ => h.mem rfl }

theorem quiet_out (w) (s : State) (o : Report) : Quiet w s { s with out := o } :=
  ⟨rfl,rfl,rfl,rfl,rfl,rfl,rfl,rfl,rfl,rfl,⟨rfl,rfl,rfl⟩,⟨rfl,rfl⟩,Nat.le_refl _,fun _ => ⟨rfl,rfl,fun _ => rfl⟩,id,⟨[],by simp⟩,rfl,.inl rfl,id,id⟩

theorem quiet_dev (w) (s : State) (n : Nat) (o : Report) : Quiet w s { s with devSeq := n, out := o } :=
  ⟨rfl,rfl,rfl,rfl,rfl,rfl,rfl,rfl,rfl,rfl,⟨rfl,rfl,rfl⟩,⟨rfl,rfl⟩,Nat.le_refl _,fun _ => ⟨rfl,rfl,fun _ => rfl⟩,id,⟨[],by simp⟩,rfl,.inl rfl,id,id⟩

theorem quiet_setX (w) (s : State) (r : RegIdx) (v : Word) : Quiet w s (s.setX r v) := by
  by_cases hz : r = 0#5
  · subst hz; rw [State.setX_zero]; exact Quiet.refl _ _
  · have hx := State.setX_x s r v hz
    refine ⟨by simp,by simp,by simp,by simp,by simp,?_,by simp,by simp,by simp,by simp,by simp,by simp,by simp,by simp,by simp,⟨[],by simp⟩,by simp,.inl (by simp),?_,by simp⟩
    · exact setX_kept s r v 0#5 (.inr rfl)
    · intro h i
      by_cases hi : i.val = r.toNat
      · have := setX_dest s r v hz
        have e : (s.setX r v).x[i] = s.cfg.xlen.norm v := by rw [← this]; simp [hi]
        rw [e]; exact norm_idem _ _
      · have hh : ∀ h', (s.setX r v).x[i.val]'h' = s.x[i.val]'h' := by
          intro h'
          have := setX_kept s r v (BitVec.ofNat 5 i.val) (.inl (by intro e; apply hi; rw [← e]; simp))
          have e2 : (BitVec.ofNat 5 i.val).toNat = i.val := by simp
          simpa [e2] using this
        have := h i
        simp only [Fin.getElem_fin] at *
        rw [hh]; exact this

theorem quiet_accrue (w) (s : State) (fl : FFlags) (hf : s.cfg.flen ≠ .f0) : Quiet w s (s.accrue fl) := by
  refine ⟨by simp,by simp,by simp,by simp,by simp,by simp,by simp,by simp,by simp,by simp,by simp,by simp,by simp,by simp,by simp,⟨[],by simp⟩,?_,?_,by simp,by simp⟩
  · rw [accrue_csr]; unfold statusAfter; rfl
  · rw [accrue_csr]; unfold statusAfter
    by_cases h : fl = 0#5
    · left; subst h; rfl
    · right; refine ⟨hf, ?_⟩; simp [h]

theorem quiet_setF (w) (s : State) (r : RegIdx) (v : Word) (hf : s.cfg.flen ≠ .f0) : Quiet w s (s.setF r v) := by
  refine ⟨by simp,by simp,by simp,by simp,by simp,by simp,by simp,by simp,by simp,by simp,by simp,by simp,by simp,by simp,by simp,⟨[],by simp⟩,?_,?_,by simp,?_⟩
  · rw [State.setF_csr]
  · right; exact ⟨hf, by rw [State.setF_csr]⟩
  · intro h i
    have := h i
    simp only [State.setF, State.dirtyFS, Fin.getElem_fin] at *
    by_cases hi : r.toNat = i.val
    · simp [hi]
    · simp [hi, this]

theorem quiet_bumpRead (s : State) : Quiet false s s.bumpSeqOnRead := by
  unfold State.bumpSeqOnRead
  split
  · exact Quiet.refl _ _
  · rename_i h
    exact ⟨rfl,rfl,rfl,rfl,rfl,rfl,rfl,rfl,rfl,rfl,⟨rfl,rfl,rfl⟩,⟨rfl,rfl⟩,Nat.le_succ _,fun _ => ⟨rfl,rfl,fun e => by rw [h] at e; cases e⟩,id,⟨[],by simp [State.bumpSeq]⟩,rfl,.inl rfl,id,id⟩

/-- A memory access leaves a `Quiet` state, whether it is performed or raises. -/
def MemQuiet {α} (w : Bool) (s : State) (r : MemResult α) : Prop := match r with
  | .ok _ t => Quiet w s t
  | .raise _ _ t => Quiet w s t

theorem quiet_layerRead (s : State) (k a n) : match layerRead s k a n with | .ok (_, t) => Quiet false s t | .error _ => True := by
  unfold layerRead
  split <;> rename_i h <;> split at h
  · cases h
  · cases h; exact quiet_dev _ _ _ _
  · trivial
  · trivial

theorem quiet_readOnce (s : State) (a n) : MemQuiet false s (memReadOnce s a n) := by
  unfold memReadOnce
  have h := quiet_layerRead s .data a n
  split
  · exact Quiet.refl _ _
  · rename_i v t he
    rw [he] at h
    exact Quiet.trans h (quiet_bumpRead t)

theorem quiet_readSplit (s : State) (a n) : MemQuiet false s (memReadSplit s a n) := by
  induction n generalizing s a with
  | zero => exact Quiet.refl _ _
  | succ n ih =>
    unfold memReadSplit
    have h := quiet_readOnce s a 1
    split
    · rename_i he; rw [he] at h; exact h
    · rename_i lo s' he; rw [he] at h
      have h2 := ih s' (a+1)
      split
      · rename_i he2; rw [he2] at h2; exact Quiet.trans h h2
      · rename_i he2; rw [he2] at h2; exact Quiet.trans h h2

theorem quiet_read (s : State) (a n) : MemQuiet false s (memRead s a n) := by
  unfold memRead
  split
  · exact quiet_readOnce _ _ _
  · split
    · exact Quiet.refl _ _
    · exact quiet_readSplit _ _ _

theorem quiet_layerWrite (s : State) (a n v) : match layerWrite s a n v with | .ok t => Quiet true s t | .error _ => True := by
  unfold layerWrite
  split <;> rename_i h <;> split at h
  · cases h
  · rename_i ts hts
    cases h
    exact ⟨rfl,rfl,rfl,rfl,rfl,rfl,rfl,rfl,rfl,rfl,⟨rfl,rfl,rfl⟩,⟨rfl,rfl⟩,Nat.le_refl _,fun e => (by cases e),fun h => storeTo_wf _ _ h,⟨[ts],by simp [State.logAccess]⟩,rfl,.inl rfl,id,id⟩
  · trivial
  · trivial

theorem quiet_bump (s : State) : Quiet true s s.bumpSeq :=
  ⟨rfl,rfl,rfl,rfl,rfl,rfl,rfl,rfl,rfl,rfl,⟨rfl,rfl,rfl⟩,⟨rfl,rfl⟩,Nat.le_succ _,fun e => (by cases e),id,⟨[],by simp [State.bumpSeq]⟩,rfl,.inl rfl,id,id⟩

theorem quiet_writeOnce (s : State) (a n v) : MemQuiet true s (memWriteOnce s a n v) := by
  unfold memWriteOnce
  have h := quiet_layerWrite s a n v
  split
  · exact Quiet.refl _ _
  · rename_i t he
    rw [he] at h
    exact Quiet.trans h (quiet_bump t)

theorem quiet_writeSplit (s : State) (a v n) : MemQuiet true s (memWriteSplit s a v n) := by
  induction n generalizing s a v with
  | zero => exact Quiet.refl _ _
  | succ n ih =>
    unfold memWriteSplit
    have h := quiet_writeOnce s a 1 v
    split
    · rename_i he; rw [he] at h; exact h
    · rename_i s' he; rw [he] at h
      have h2 := ih s' (a+1) (v >>> 8)
      revert h2
      cases memWriteSplit s' (a+1) (v >>> 8) n <;> exact fun h2 => Quiet.trans h h2

theorem quiet_write (s : State) (a n v) : MemQuiet true s (memWrite s a n v) := by
  unfold memWrite
  split
  · exact quiet_writeOnce _ _ _ _
  · split
    · exact Quiet.refl _ _
    · exact quiet_writeSplit _ _ _ _

theorem quiet_amo (s : State) (a n op) : MemQuiet true s (memAmo s a n op) := by
  unfold memAmo
  have h := quiet_layerRead s .store a n
  split
  · exact Quiet.refl _ _
  · rename_i old t he
    rw [he] at h
    have h2 := quiet_layerWrite t a n (op old)
    split
    · exact Quiet.refl _ _
    · rename_i u he2
      rw [he2] at h2
      exact Quiet.trans (Quiet.weaken h) (Quiet.trans h2 (quiet_bump u))


/-- What no instruction changes, and what it keeps in form. -/
structure Kept (w : Bool) (s t : State) : Prop where
  cfg : t.cfg = s.cfg
  timeIn : t.timeIn = s.timeIn
  inputs : t.inputs = s.inputs
  v : t.v = s.v
  hartid : t.hartid = s.hartid
  x0 : t.x[0] = s.x[0]
  seq : s.memSeq ≤ t.memSeq
  mem : w = false → t.mem = s.mem ∧ t.others = s.others
  wf : Memory.wf s.mem = true → Memory.wf t.mem = true
  oth : ∃ tss : List (List Place), t.others = s.others.map fun h => tss.foldl Hart.dropRange h
  xw : (∀ i : Fin 32, fits s.cfg.xlen s.x[i]) → ∀ i : Fin 32, fits s.cfg.xlen t.x[i]
  fw : (∀ i : Fin 32, s.cfg.flen.norm s.f[i] = s.f[i]) → ∀ i : Fin 32, s.cfg.flen.norm t.f[i] = t.f[i]
  pend : s.pendingException = -1 → s.pendingInterrupt = -1 → t.pendingException = -1 ∧ t.pendingInterrupt = -1

theorem Quiet.kept {w s t} (h : Quiet w s t) : Kept w s t :=
  ⟨h.cfg,h.timeIn,h.inputs,h.v,h.hartid,h.x0,h.seq,fun e => ⟨(h.mem e).1,(h.mem e).2.1⟩,h.wf,h.oth,h.xw,h.fw,fun a b => ⟨h.pend.1.trans a, h.pend.2.trans b⟩⟩

/-- The control registers stay legal, pc stays in XLEN bits, and pc and the return addresses stay even. -/
structure KeepsLegal (s t : State) : Prop where
  csrs : LegalCsrs s.cfg s.csr → LegalCsrs s.cfg t.csr
  pcw : fits s.cfg.xlen s.pc → fits s.cfg.xlen t.pc
  even : EvenHart s.toHart → EvenHart t.toHart

theorem dirtyFS_fixed (c : Config) (hf : c.flen ≠ .f0) (m : Word) : setField2 posFS 3#2 m &&& ~~~mstatusMask c = m &&& ~~~mstatusMask c := by
  have hm : ∃ k : Word, mstatusMask c = 0x6000 ||| k := by
    unfold mstatusMask; simp only [hf, if_false]
    exact ⟨0x007E19AA ||| (if c.vlen = 0 then 0 else 0x600), by ac_rfl⟩
  obtain ⟨k, hk⟩ := hm
  rw [hk]
  apply BitVec.eq_of_getLsbD_eq
  intro j hj
  have e : ((3#2).setWidth 64 <<< posFS : Word) = 0x6000 := by decide
  have e2 : ((3#64) <<< posFS : Word) = 0x6000 := by decide
  simp only [setField2, e, e2, BitVec.getLsbD_and, BitVec.getLsbD_or, BitVec.getLsbD_not]
  cases (BitVec.getLsbD (0x6000:Word) j) <;> simp [hj]

theorem fieldMPP_dirtyFS (m : Word) : getField2 posMPP (setField2 posFS 3#2 m) = getField2 posMPP m := by
  apply BitVec.eq_of_getLsbD_eq
  intro j hj
  have a := getBit_setField2 posFS (posMPP + j) 3#2 m (by unfold posFS posMPP; omega) (by unfold posFS posMPP; omega)
  simpa [getField2, getBit, hj] using a

theorem Quiet.legal {w s t} (h : Quiet w s t) : KeepsLegal s t where
  pcw := by rw [h.pc]; exact id
  even := fun e => ⟨by rw [h.pc]; exact e.pc, by rw [h.csr]; exact e.mepc, by rw [h.csr]; exact e.sepc⟩
  csrs := fun l => by
    have hc := h.csr
    have hm : t.csr.mstatus &&& ~~~mstatusMask s.cfg = mstatusReset s.cfg.xlen := by
      rcases h.ms with e | ⟨hf, e⟩
      · rw [e]; exact l.mstatusFixed
      · rw [e, dirtyFS_fixed _ hf]; exact l.mstatusFixed
    have hp : getField2 posMPP t.csr.mstatus ≠ 2#2 := by
      rcases h.ms with e | ⟨hf, e⟩
      · rw [e]; exact l.mpp
      · rw [e, fieldMPP_dirtyFS]; exact l.mpp
    rw [hc]
    exact ⟨hm, hp, l.medeleg, l.mideleg, l.mie, l.mip, l.mtvec, l.stvec, l.mepc, l.sepc, l.mscratch, l.sscratch, l.mcause, l.scause, l.mtval, l.stval, l.satp, l.mcounteren, l.scounteren⟩

/-- A privilege level as a number. -/
def privLevel (p : Priv) : Nat := (privBits p).toNat

/-- Everything that holds of the next state of an instruction: what is kept, that it retired or trapped, and what it may change in U mode. -/
structure Finished (w : Bool) (s t : State) : Prop where
  kept : Kept w s t
  legal : KeepsLegal s t
  kind : (t.out.outcome = .retired ∧ t.mcycle = s.mcycle + 1 ∧ t.minstret = s.minstret + 1 ∧ privLevel t.priv ≤ privLevel s.priv)
    ∨ (t.out.outcome = .trapped ∧ t.mcycle = s.mcycle ∧ t.minstret = s.minstret ∧ privLevel s.priv ≤ privLevel t.priv)
  iso : t.out.outcome = .retired → s.priv = .U → t.priv = .U ∧ t.csr = { s.csr with fcsr := t.csr.fcsr, mstatus := t.csr.mstatus }
      ∧ ∀ k, k ≠ posFS → k ≠ posFS + 1 → getBit k t.csr.mstatus = getBit k s.csr.mstatus

/-- The reservation is unchanged, and `mem_seq` too where the instruction does not write. -/
def KeepsReservation (w : Bool) (s t : State) : Prop := t.resValid = s.resValid ∧ t.resAddr = s.resAddr ∧ t.resSeq = s.resSeq ∧ (w = false → s.cfg.resInvalidateOn = .store → t.memSeq = s.memSeq)

/-- The instruction answers a next state with all of `Finished`, keeps the reservation, and keeps the privilege when it retires. -/
def Answers (w : Bool) (s : State) (r : StepResult) : Prop := ∃ t, r = .next t ∧ Finished w s t ∧ KeepsReservation w s t ∧ (t.out.outcome = .retired → t.priv = s.priv)

theorem getBit_zero_norm (xl : Xlen) (v : Word) : getBit 0 (xl.norm v) = getBit 0 v := by
  cases xl <;> simp [Xlen.norm, getBit]

theorem answers_retireTo {w s u} (h : Quiet w s u) (next cls regs) (he : getBit 0 s.pc = false → getBit 0 next = false) : Answers w s (retireTo u next cls regs) := by
  refine ⟨_, rfl, ⟨?_, ?_, .inl ⟨rfl, ?_, ?_, ?_⟩, ?_⟩, ?_, ?_⟩
  · have := h.kept
    exact ⟨this.cfg,this.timeIn,this.inputs,this.v,this.hartid,this.x0,this.seq,this.mem,this.wf,this.oth,this.xw,this.fw,this.pend⟩
  · have g := h.legal
    refine ⟨g.csrs, fun _ => ?_, fun e => ⟨?_, (g.even e).mepc, (g.even e).sepc⟩⟩
    · show fits s.cfg.xlen (u.cfg.xlen.norm next)
      rw [h.cfg]; exact norm_idem _ _
    · show getBit 0 (u.cfg.xlen.norm next) = false
      rw [getBit_zero_norm]; exact he e.pc
  · show u.mcycle + 1 = _; rw [h.cyc]
  · show u.minstret + 1 = _; rw [h.ins]
  · show privLevel u.priv ≤ _; rw [h.priv]
  · intro _ hu
    refine ⟨h.priv.trans hu, h.csr, fun k h1 h2 => ?_⟩
    show getBit k u.csr.mstatus = _
    rcases h.ms with e | ⟨_, e⟩
    · rw [e]
    · rw [e, getBit_setField2 _ _ _ _ h1 h2]
  · exact ⟨h.res.1, h.res.2.1, h.res.2.2, fun e => (h.mem e).2.2⟩
  · intro _; exact h.priv

theorem getBit_zero_add (a b : Word) (ha : getBit 0 a = false) (hb : getBit 0 b = false) : getBit 0 (a + b) = false := by
  unfold getBit at *
  rw [BitVec.getLsbD_add (by decide), ha, hb]; simp

theorem answers_retire_of {w s u} (h : Quiet w s u) (len : Word) (hl : getBit 0 len = false) : Answers w s (retire u len) :=
  answers_retireTo h _ _ _ fun e => getBit_zero_add _ _ (by rw [h.pc]; exact e) hl

theorem mstatusMask_low (c : Config) : ∃ k : Word, mstatusMask c = 0x007E19AA ||| k := by
  unfold mstatusMask
  exact ⟨(if c.flen = .f0 then 0 else 0x6000) ||| (if c.vlen = 0 then 0 else 0x600), by ac_rfl⟩

theorem mstatusFixed_of (c : Config) (m m' : Word) (h : ∀ i, i ≠ 1 → i ≠ 3 → i ≠ 5 → i ≠ 7 → i ≠ 8 → i ≠ 11 → i ≠ 12 → getBit i m' = getBit i m) :
    m' &&& ~~~mstatusMask c = m &&& ~~~mstatusMask c := by
  obtain ⟨k, hk⟩ := mstatusMask_low c
  rw [hk]
  apply BitVec.eq_of_getLsbD_eq
  intro j hj
  simp only [BitVec.getLsbD_and, BitVec.getLsbD_or, BitVec.getLsbD_not, hj, decide_true, Bool.true_and]
  by_cases hb : BitVec.getLsbD (0x007E19AA : Word) j = true
  · rw [hb]; simp
  · have : BitVec.getLsbD m' j = BitVec.getLsbD m j := by
      apply h <;> (rintro rfl; exact hb (by decide))
    rw [this]

theorem getField2_eq_bits (i : Nat) (m m' : Word) (h0 : getBit i m' = getBit i m) (h1 : getBit (i+1) m' = getBit (i+1) m) : getField2 i m' = getField2 i m := by
  apply BitVec.eq_of_getLsbD_eq
  intro j hj
  simp only [getField2, BitVec.getLsbD_extractLsb', getBit] at *
  rcases (show j = 0 ∨ j = 1 by omega) with rfl | rfl
  · simpa using h0
  · simpa using h1

theorem privBits_ne2 (p : Priv) : privBits p ≠ 2#2 := by cases p <;> decide

theorem getBit_zero_vectorTarget (tv : Word) (i : Bool) (c : Nat) : getBit 0 (vectorTarget tv i c) = false := by
  unfold vectorTarget
  have h : getBit 0 (tv &&& ~~~3) = false := by unfold getBit; simp
  simp only
  split
  · apply getBit_zero_add _ _ h
    unfold getBit; rw [BitVec.getLsbD_ofNat, Nat.testBit_zero]; simp; omega
  · exact h

theorem causeWord_fits (xl : Xlen) (i : Bool) (c : Nat) (hc : c < 16) : fits xl (causeWord xl i c) := by
  have : ∀ c : Fin 16, ∀ i : Bool, Xlen.rv32.norm (causeWord .rv32 i c) = causeWord .rv32 i c := by decide
  cases xl
  · exact this ⟨c, hc⟩ i
  · rfl

theorem getBit_zero_epc (xl : Xlen) (pc : Word) : getBit 0 (xl.norm (pc &&& ~~~1)) = false := by
  rw [getBit_zero_norm]; unfold getBit; simp

theorem trapped_keepsLegal {w} {s u t : State} {i c v} (h : Quiet w s u) (T : Trapped u t i c v) (hc : c < 16) : KeepsLegal s t := by
  have g := h.legal
  have hcfg : u.cfg = s.cfg := h.cfg
  have hl := T.level
  have hMS : t.priv = .M ∨ t.priv = .S := by
    rw [hl]
    by_cases hh : u.priv ≠ Priv.M ∧ getBit c (if i = true then u.csr.mideleg else u.csr.medeleg) = true
    · rw [if_pos hh]; exact .inr rfl
    · rw [if_neg hh]; exact .inl rfl
  rcases hMS with hp | hp
  · obtain ⟨e, b1, b2, b3, b4, b5⟩ := T.toM hp
    refine ⟨fun l => ?_, fun _ => ?_, fun ev => ⟨?_, ?_, ?_⟩⟩
    · have l := g.csrs l
      have hm : t.csr.mstatus &&& ~~~mstatusMask s.cfg = mstatusReset s.cfg.xlen := by
        rw [← l.mstatusFixed]
        apply mstatusFixed_of
        intro i h1 h3 h5 h7 h8 h11 h12
        exact b4 i h3 h7 h11 h12
      have hpp : getField2 posMPP t.csr.mstatus ≠ 2#2 := by rw [b3]; exact privBits_ne2 _
      rw [e, hcfg]
      exact ⟨hm, hpp, l.medeleg, l.mideleg, l.mie, l.mip, l.mtvec, l.stvec, ⟨getBit_zero_epc _ _, norm_idem _ _⟩, l.sepc, l.mscratch, l.sscratch, causeWord_fits _ _ _ hc, l.scause, norm_idem _ _, l.stval, l.satp, l.mcounteren, l.scounteren⟩
    · rw [b5, hcfg]; exact norm_idem _ _
    · rw [b5, getBit_zero_norm]; exact getBit_zero_vectorTarget _ _ _
    · rw [e]; exact getBit_zero_epc _ _
    · rw [e]; exact (g.even ev).sepc
  · obtain ⟨e, b1, b2, b3, b4, b5⟩ := T.toS hp
    refine ⟨fun l => ?_, fun _ => ?_, fun ev => ⟨?_, ?_, ?_⟩⟩
    · have l := g.csrs l
      have hm : t.csr.mstatus &&& ~~~mstatusMask s.cfg = mstatusReset s.cfg.xlen := by
        rw [← l.mstatusFixed]
        apply mstatusFixed_of
        intro i h1 h3 h5 h7 h8 h11 h12
        exact b4 i h1 h5 h8
      have hpp : getField2 posMPP t.csr.mstatus ≠ 2#2 := by
        rw [getField2_eq_bits _ u.csr.mstatus]
        · exact l.mpp
        · exact b4 _ (by decide) (by decide) (by decide)
        · exact b4 _ (by decide) (by decide) (by decide)
      rw [e, hcfg]
      exact ⟨hm, hpp, l.medeleg, l.mideleg, l.mie, l.mip, l.mtvec, l.stvec, l.mepc, ⟨getBit_zero_epc _ _, norm_idem _ _⟩, l.mscratch, l.sscratch, l.mcause, causeWord_fits _ _ _ hc, l.mtval, norm_idem _ _, l.satp, l.mcounteren, l.scounteren⟩
    · rw [b5, hcfg]; exact norm_idem _ _
    · rw [b5, getBit_zero_norm]; exact getBit_zero_vectorTarget _ _ _
    · rw [e]; exact (g.even ev).mepc
    · rw [e]; exact getBit_zero_epc _ _

theorem trapped_level {s t : State} {i c v} (T : Trapped s t i c v) : privLevel s.priv ≤ privLevel t.priv := by
  rw [T.level]
  have : ∀ p : Priv, ∀ b : Bool, privLevel p ≤ privLevel (if p ≠ .M ∧ b = true then .S else .M) := by intro p b; cases p <;> cases b <;> decide
  by_cases hh : s.priv ≠ Priv.M ∧ getBit c (if i = true then s.csr.mideleg else s.csr.medeleg) = true
  · rw [if_pos hh]; have := this s.priv true; rwa [if_pos ⟨hh.1, rfl⟩] at this
  · rw [if_neg hh]; have := this s.priv false; simpa using this

theorem answers_raise_of {s u : State} (h : Quiet w s u) (c v) (hc : c < 16) : Answers w s (raise u c v) := by
  obtain ⟨t, ht, T⟩ := raise_spec u c v
  refine ⟨t, ht, ⟨?_, ?_, .inr ⟨T.report.1, ?_, ?_, ?_⟩, ?_⟩, ?_, ?_⟩
  · have a := h.kept
    have hf := T.frame
    refine ⟨?_,?_,?_,?_,?_,?_,?_,?_,?_,?_,?_,?_,fun _ _ => T.pending⟩ <;> rw [hf]
    · exact a.cfg
    · exact a.timeIn
    · exact a.inputs
    · exact a.v
    · exact a.hartid
    · exact a.x0
    · exact a.seq
    · exact a.mem
    · exact a.wf
    · exact a.oth
    · exact a.xw
    · exact a.fw
  · exact trapped_keepsLegal h T hc
  · rw [T.frame]; exact h.cyc
  · rw [T.frame]; exact h.ins
  · have := trapped_level T; rw [h.priv] at this; exact this
  · intro e; rw [T.report.1] at e; cases e
  · rw [T.frame]; exact ⟨h.res.1, h.res.2.1, h.res.2.2, fun e => (h.mem e).2.2⟩
  · intro e; rw [T.report.1] at e; cases e

theorem answers_andThen {α} {w w'} {s : State} {r : MemResult α} (hw : w' = true → w = true) (hr : MemQuiet w' s r) (hc : ∀ c t u, r = .raise c t u → c < 16) (k : α → State → StepResult) (hk : ∀ v u, Quiet w s u → Answers w s (k v u)) : Answers w s (r.andThen k) := by
  have up : ∀ u, Quiet w' s u → Quiet w s u := by
    intro u hu
    cases w'
    · exact Quiet.weaken hu
    · rw [hw rfl]; exact hu
  cases r with
  | ok v u => exact hk v u (up _ hr)
  | raise c t u => exact answers_raise_of (up _ hr) c t (hc _ _ _ rfl)

theorem faultCause_lt (k f) : faultCause k f < 16 := by cases k <;> cases f <;> decide

theorem cause_readOnce {s a n c t u} (h : memReadOnce s a n = .raise c t u) : c < 16 := by
  unfold memReadOnce at h
  split at h
  · cases h; exact faultCause_lt _ _
  · cases h

theorem cause_readSplit {s a n c t u} (h : memReadSplit s a n = .raise c t u) : c < 16 := by
  induction n generalizing s a c t u with
  | zero => cases h
  | succ n ih =>
    unfold memReadSplit at h
    split at h
    · rename_i he; cases h; exact cause_readOnce he
    · split at h
      · rename_i he; cases h; exact ih he
      · cases h

theorem cause_read {s a n c t u} (h : memRead s a n = .raise c t u) : c < 16 := by
  unfold memRead at h
  split at h
  · exact cause_readOnce h
  · split at h
    · cases h; decide
    · exact cause_readSplit h

theorem cause_writeOnce {s a n v c t u} (h : memWriteOnce s a n v = .raise c t u) : c < 16 := by
  unfold memWriteOnce at h
  split at h
  · cases h; exact faultCause_lt _ _
  · cases h

theorem cause_writeSplit {s a n v c t u} (h : memWriteSplit s a v n = .raise c t u) : c < 16 := by
  induction n generalizing s a v c t u with
  | zero => cases h
  | succ n ih =>
    unfold memWriteSplit at h
    split at h
    · rename_i he; cases h; exact cause_writeOnce he
    · exact ih h

theorem cause_write {s a n v c t u} (h : memWrite s a n v = .raise c t u) : c < 16 := by
  unfold memWrite at h
  split at h
  · exact cause_writeOnce h
  · split at h
    · cases h; decide
    · exact cause_writeSplit h

theorem cause_amo {s a n op c t u} (h : memAmo s a n op = .raise c t u) : c < 16 := by
  unfold memAmo at h
  split at h
  · cases h; exact faultCause_lt _ _
  · split at h
    · cases h; exact faultCause_lt _ _
    · cases h

/-- Bit 0 is clear. -/
abbrev EvenWord (w : Word) := getBit 0 w = false

theorem answers_retireX (w s len rd v) (hl : EvenWord len := by decide) : Answers w s (retireX s len rd v) := answers_retire_of (quiet_setX _ _ _ _) _ hl

theorem answers_retire (w s len) (hl : EvenWord len := by decide) : Answers w s (retire s len) := answers_retire_of (Quiet.refl _ _) _ hl

theorem answers_loadX (w s len rd rs1 off n wd) (hl : EvenWord len := by decide) : Answers w s (loadX s len rd rs1 off n wd) :=
  answers_andThen (w' := false) (by simp) (quiet_read _ _ _) (fun _ _ _ h => cause_read h) _ fun _ _ hu => answers_retire_of (hu.trans (quiet_setX _ _ _ _)) _ hl

theorem answers_storeX (s len rs1 off n v) (hl : EvenWord len := by decide) : Answers true s (storeX s len rs1 off n v) :=
  answers_andThen (w' := true) (by simp) (quiet_write _ _ _ _) (fun _ _ _ h => cause_write h) _ fun _ _ hu => answers_retire_of hu _ hl

theorem flen_of_fpEnabled {s : State} (h : s.fpEnabled = true) : s.cfg.flen ≠ .f0 := by
  unfold State.fpEnabled at h; intro e; rw [e] at h; simp at h

theorem answers_illegal (w s i) : Answers w s (raiseIllegal s i) := answers_raise_of (Quiet.refl _ _) _ _ (by decide)

theorem answers_fpGate (w s i k) (hk : s.cfg.flen ≠ .f0 → Answers w s k) : Answers w s (fpGate s i k) := by
  unfold fpGate; split
  · rename_i h; exact hk (flen_of_fpEnabled h)
  · exact answers_illegal _ _ _

theorem answers_fpRounded (w s i rm k) (hk : s.cfg.flen ≠ .f0 → ∀ r, Answers w s (k r)) : Answers w s (fpRounded s i rm k) := by
  unfold fpRounded; split
  · rename_i h
    split
    · exact hk (flen_of_fpEnabled h) _
    · exact answers_illegal _ _ _
  · exact answers_illegal _ _ _

theorem answers_retireF {w s u} (h : Quiet w s u) (hf : s.cfg.flen ≠ .f0) (len rd v fl) (hl : EvenWord len := by decide) : Answers w s (retireF u len rd v fl) :=
  answers_retire_of ((h.trans (quiet_setF _ _ _ _ (by rw [h.cfg]; exact hf))).trans (quiet_accrue _ _ _ (by simp; rw [h.cfg]; exact hf))) _ hl

theorem answers_retireXF {w s u} (h : Quiet w s u) (hf : s.cfg.flen ≠ .f0) (len rd v fl) (hl : EvenWord len := by decide) : Answers w s (retireXF u len rd v fl) :=
  answers_retire_of ((h.trans (quiet_setX _ _ _ _)).trans (quiet_accrue _ _ _ (by simp; rw [h.cfg]; exact hf))) _ hl

theorem answers_writeS (w s rd r) (hf : s.cfg.flen ≠ .f0) : Answers w s (writeS s rd r) := answers_retireF (Quiet.refl _ _) hf _ _ _ _

theorem answers_writeD (w s rd r) (hf : s.cfg.flen ≠ .f0) : Answers w s (writeD s rd r) := answers_retireF (Quiet.refl _ _) hf _ _ _ _

theorem answers_writeCompare (w s rd r) (hf : s.cfg.flen ≠ .f0) : Answers w s (writeCompare s rd r) := answers_retireXF (Quiet.refl _ _) hf _ _ _ _

theorem answers_writeInteger (w s rd) {n} (r : BitVec n × FFlags) (hf : s.cfg.flen ≠ .f0) : Answers w s (writeInteger s rd r) := answers_retireXF (Quiet.refl _ _) hf _ _ _ _

theorem answers_loadS (w s i len rd rs1 off) (hl : EvenWord len := by decide) : Answers w s (loadS s i len rd rs1 off) :=
  answers_fpGate _ _ _ _ fun hf => answers_andThen (w' := false) (by simp) (quiet_read _ _ _) (fun _ _ _ h => cause_read h) _ fun _ _ hu => answers_retireF hu hf _ _ _ _ hl

theorem answers_loadD (w s i len rd rs1 off) (hl : EvenWord len := by decide) : Answers w s (loadD s i len rd rs1 off) :=
  answers_fpGate _ _ _ _ fun hf => answers_andThen (w' := false) (by simp) (quiet_read _ _ _) (fun _ _ _ h => cause_read h) _ fun _ _ hu => answers_retireF hu hf _ _ _ _ hl

theorem answers_storeF (s i len rs1 off n rs2) (hl : EvenWord len := by decide) : Answers true s (storeF s i len rs1 off n rs2) :=
  answers_fpGate _ _ _ _ fun _ => answers_storeX _ _ _ _ _ _ hl

theorem answers_fetchAndOp (s rd rs1 n op src) : Answers true s (fetchAndOp s rd rs1 n op src) := by
  unfold fetchAndOp; split
  · exact answers_andThen (w' := true) (by simp) (quiet_amo _ _ _ _) (fun _ _ _ h => cause_amo h) _ fun _ _ hu => answers_retire_of (hu.trans (quiet_setX _ _ _ _)) _ (by decide)
  · exact answers_raise_of (Quiet.refl _ _) _ _ (by decide)

theorem answers_raise (w s c v) (hc : c < 16 := by decide) : Answers w s (raise s c v) := answers_raise_of (Quiet.refl _ _) _ _ hc

theorem immS_even {xl : Xlen} {n} (imm : BitVec n) : EvenWord (xl.immS 1 imm) := by
  unfold EvenWord Xlen.immS Xlen.sext; rw [getBit_zero_norm]; unfold getBit
  rw [BitVec.getLsbD_signExtend, BitVec.getLsbD_append]; simp

theorem answers_jumpAndLink (w s len rd) {n} (imm : BitVec n) : Answers w s (jumpAndLink s len rd (s.cfg.xlen.immS 1 imm)) :=
  answers_retireTo (quiet_setX _ _ _ _) _ _ _ fun e => getBit_zero_add _ _ e (immS_even imm)

theorem answers_jumpAndLinkReg (w s len rd rs1 off) : Answers w s (jumpAndLinkReg s len rd rs1 off) :=
  answers_retireTo (quiet_setX _ _ _ _) _ _ _ fun e => by unfold getBit; simp

theorem answers_branch (w s len c) {n} (imm : BitVec n) (hl : EvenWord len := by decide) : Answers w s (branch s len c (s.cfg.xlen.immS 1 imm)) := by
  unfold branch; split
  · exact answers_retireTo (Quiet.refl _ _) _ _ _ fun e => getBit_zero_add _ _ e (immS_even imm)
  · exact answers_retireTo (Quiet.refl _ _) _ _ _ fun e => getBit_zero_add _ _ e hl

theorem quiet_pd (w s b) : Quiet w s { s with powerDown := b } :=
  ⟨rfl,rfl,rfl,rfl,rfl,rfl,rfl,rfl,rfl,rfl,⟨rfl,rfl,rfl⟩,⟨rfl,rfl⟩,Nat.le_refl _,fun _ => ⟨rfl,rfl,fun _ => rfl⟩,id,⟨[],by simp⟩,rfl,.inl rfl,id,id⟩

theorem quiet_tlb (w s a b c) : Quiet w s { s with tlbCode := a, tlbData := b, tlbStore := c } :=
  ⟨rfl,rfl,rfl,rfl,rfl,rfl,rfl,rfl,rfl,rfl,⟨rfl,rfl,rfl⟩,⟨rfl,rfl⟩,Nat.le_refl _,fun _ => ⟨rfl,rfl,fun _ => rfl⟩,id,⟨[],by simp⟩,rfl,.inl rfl,id,id⟩

theorem finished_reservation {w s t} (a b c) (h : Finished w s t) : Finished w s { t with resValid := a, resAddr := b, resSeq := c } :=
  ⟨⟨h.kept.1,h.kept.2,h.kept.3,h.kept.4,h.kept.5,h.kept.6,h.kept.7,h.kept.8,h.kept.9,h.kept.10,h.kept.11,h.kept.12,h.kept.13⟩,⟨h.legal.1,h.legal.2,fun e => ⟨(h.legal.3 e).1,(h.legal.3 e).2,(h.legal.3 e).3⟩⟩,h.kind,h.iso⟩

/-- The same without the reservation, for LR and SC. -/
def AnswersRes (w : Bool) (s : State) (r : StepResult) : Prop := ∃ t, r = .next t ∧ Finished w s t

theorem Answers.res {w s r} (h : Answers w s r) : AnswersRes w s r := by obtain ⟨t, a, b, _⟩ := h; exact ⟨t, a, b⟩

theorem setX_res (u : State) (rd v a b c) : ({ u with resValid := a, resAddr := b, resSeq := c }).setX rd v = { u.setX rd v with resValid := a, resAddr := b, resSeq := c } := by
  unfold State.setX; split <;> rfl

theorem answersRes_retireX {w s} {u : State} (hu : Quiet w s u) (a b c rd v) : AnswersRes w s (retireX { u with resValid := a, resAddr := b, resSeq := c } 4 rd v) := by
  obtain ⟨t, ht, hf, _⟩ := answers_retire_of (hu.trans (quiet_setX w u rd v)) 4 (by decide)
  refine ⟨{ t with resValid := a, resAddr := b, resSeq := c }, ?_, finished_reservation _ _ _ hf⟩
  cases ht
  unfold retireX
  rw [setX_res]; rfl

theorem answersRes_andThen {α} {w w'} {s : State} {r : MemResult α} (hw : w' = true → w = true) (hr : MemQuiet w' s r) (hc : ∀ c t u, r = .raise c t u → c < 16) (k : α → State → StepResult) (hk : ∀ v u, Quiet w s u → AnswersRes w s (k v u)) : AnswersRes w s (r.andThen k) := by
  have up : ∀ u, Quiet w' s u → Quiet w s u := by
    intro u hu
    cases w'
    · exact Quiet.weaken hu
    · rw [hw rfl]; exact hu
  cases r with
  | ok v u => exact hk v u (up _ hr)
  | raise c t u => exact (answers_raise_of (up _ hr) c t (hc _ _ _ rfl)).res

theorem answers_loadReserved (w s rd rs1 n) : AnswersRes w s (loadReserved s rd rs1 n) := by
  unfold loadReserved; split
  · exact answersRes_andThen (w' := false) (by simp) (quiet_read _ _ _) (fun _ _ _ h => cause_read h) _ fun v u hu => answersRes_retireX hu _ _ _ _ _
  · exact (answers_raise _ _ _ _).res

theorem answers_storeConditional (s rd rs1 n v) : AnswersRes true s (storeConditional s rd rs1 n v) := by
  unfold storeConditional; split
  · split
    · exact answersRes_andThen (w' := true) (by simp) (quiet_write _ _ _ _) (fun _ _ _ h => cause_write h) _ fun v u hu => answersRes_retireX hu false u.resAddr u.resSeq _ _
    · exact answersRes_retireX (Quiet.refl _ _) false s.resAddr s.resSeq _ _
  · exact (answers_raise _ _ _ _).res

theorem privLevel_le_M (p : Priv) : privLevel p ≤ privLevel .M := by cases p <;> decide

theorem getField2_leaveM (m : Word) : getField2 posMPP (leaveM m) = 0#2 := by unfold leaveM; exact getField2_setField2 _ _ _ (by decide)

theorem leaveM_bits (m : Word) (i) (h3 : i ≠ 3) (h7 : i ≠ 7) (h11 : i ≠ 11) (h12 : i ≠ 12) : getBit i (leaveM m) = getBit i m := by
  unfold leaveM posMPP posMPIE posMIE
  rw [getBit_setField2 _ _ _ _ h11 h12, getBit_setBit _ _ _ _ (by decide), if_neg h7, getBit_setBit _ _ _ _ (by decide), if_neg h3]

theorem leaveS_bits (m : Word) (i) (h1 : i ≠ 1) (h5 : i ≠ 5) (h8 : i ≠ 8) : getBit i (leaveS m) = getBit i m := by
  unfold leaveS posSPP posSPIE posSIE
  rw [getBit_setBit _ _ _ _ (by decide), if_neg h8, getBit_setBit _ _ _ _ (by decide), if_neg h5, getBit_setBit _ _ _ _ (by decide), if_neg h1]

end Sys2Proof.Machine
end

