-- ==== Sys2Proof/Laws/CsrWrite.lean ====
section
/-! SUPPORT. The CSR instructions' shared operation, and what a CSR write keeps (47_system_csr.md R638, R639). -/

namespace Sys2Proof.Machine

theorem writeCsr_frame (s : State) (r v) : (s.writeCsr r v) = { s with csr := (s.writeCsr r v).csr, mcycle := (s.writeCsr r v).mcycle, minstret := (s.writeCsr r v).minstret, tlbCode := (s.writeCsr r v).tlbCode, tlbData := (s.writeCsr r v).tlbData, tlbStore := (s.writeCsr r v).tlbStore } := by
  cases r <;> first | rfl | (simp only [State.writeCsr]; split <;> rfl)

theorem readCsr_norm (s : State) (r) : s.cfg.xlen.norm (s.readCsr r) = s.readCsr r := by
  unfold State.readCsr; cases s.cfg.xlen <;> simp [Xlen.norm]

theorem writeCsr_mcycle (s : State) (r v) (h : r.setsCycle = false) : (s.writeCsr r v).mcycle = s.mcycle := by
  cases r <;> first | rfl | (simp only [State.writeCsr]; split <;> rfl) | cases h

theorem writeCsr_minstret (s : State) (r v) (h : r.setsInstret = false) : (s.writeCsr r v).minstret = s.minstret := by
  cases r <;> first | rfl | (simp only [State.writeCsr]; split <;> rfl) | cases h

theorem csrOp_done (s : State) (i n w rd f r) (h : s.csrAccess n w = some r) : ∃ t, csrOp s i n w rd f = .next t ∧ CsrDone s t r rd w (f (s.readCsr r)) := by
  unfold csrOp
  rw [h]
  refine ⟨_, rfl, ?_⟩
  have hc : (if w = true then s.writeCsr r (f (s.readCsr r)) else s).cfg = s.cfg := by
    split
    · rw [writeCsr_frame]
    · rfl
  have hx : (if w = true then s.writeCsr r (f (s.readCsr r)) else s).x = s.x := by
    split
    · rw [writeCsr_frame]
    · rfl
  have hcy : (if w = true then s.writeCsr r (f (s.readCsr r)) else s).mcycle = if w && r.setsCycle then (s.writeCsr r (f (s.readCsr r))).mcycle else s.mcycle := by
    cases w
    · rfl
    · cases hh : r.setsCycle
      · simp [writeCsr_mcycle _ _ _ hh]
      · simp
  have hin : (if w = true then s.writeCsr r (f (s.readCsr r)) else s).minstret = if w && r.setsInstret then (s.writeCsr r (f (s.readCsr r))).minstret else s.minstret := by
    cases w
    · rfl
    · cases hh : r.setsInstret
      · simp [writeCsr_minstret _ _ _ hh]
      · simp
  generalize hu : (if w = true then s.writeCsr r (f (s.readCsr r)) else s) = u at *
  refine ⟨?_, ?_, ?_, ?_, ?_, ?_, ?_⟩
  · rw [hu]; apply State.ext <;> simp
  · intro hd
    have := setX_dest u rd (s.readCsr r) hd
    rw [hc, readCsr_norm] at this
    simpa using this
  · intro k hk
    have := setX_kept u rd (s.readCsr r) k hk
    simp only [hx] at this
    simpa using this
  · simp [hc]
  · simp only [State.count_mcycle, State.goTo_mcycle, State.setX_mcycle, hcy]
    cases w && r.setsCycle <;> simp
  · simp only [State.count_minstret, State.goTo_minstret, State.setX_minstret, hin]
    cases w && r.setsInstret <;> simp
  · exact ⟨rfl, rfl, rfl⟩

theorem csrOp_denied (s i n w rd f) (h : s.csrAccess n w = none) : ∃ t, csrOp s i n w rd f = .next t ∧ Trapped s t false 2 (i.tval s.cfg.xlen) := by
    unfold csrOp; rw [h]; exact raise_spec _ _ _

/-- What a CSR write keeps: everything a meaning keeps, the privilege, pc and the reservation; and the registers stay legal. -/
structure CsrWritten (s t : State) : Prop where
  kept : Kept false s t
  legal : KeepsLegal s t
  priv : t.priv = s.priv
  pc : t.pc = s.pc
  res : t.resValid = s.resValid ∧ t.resAddr = s.resAddr ∧ t.resSeq = s.resSeq ∧ t.memSeq = s.memSeq

theorem mstatusWrite_fixed (c : Config) (mask m v : Word) : mstatusWrite c mask m v &&& ~~~mstatusMask c = m &&& ~~~mstatusMask c := by
  unfold mstatusWrite
  apply BitVec.eq_of_getLsbD_eq
  intro j hj
  simp only [BitVec.getLsbD_and, BitVec.getLsbD_or, BitVec.getLsbD_not, hj, decide_true, Bool.true_and]
  generalize (mstatusMask c).getLsbD j = a
  cases a <;> simp

theorem within_and (mask v : Word) : within mask (v &&& mask) := by
  unfold within
  apply BitVec.eq_of_getLsbD_eq
  intro j hj
  simp only [BitVec.getLsbD_and, BitVec.getLsbD_not, hj, decide_true, Bool.true_and]
  cases mask.getLsbD j <;> simp

theorem within_maskedWrite (mask m old v : Word) (h : within mask old) (hm : m &&& ~~~mask = 0) : within mask (maskedWrite m old v) := by
  unfold within maskedWrite at *
  apply BitVec.eq_of_getLsbD_eq
  intro j hj
  have a := congrArg (BitVec.getLsbD · j) h
  have b := congrArg (BitVec.getLsbD · j) hm
  simp only [BitVec.getLsbD_and, BitVec.getLsbD_not, BitVec.getLsbD_or, hj, decide_true, Bool.true_and] at *
  revert a b
  cases mask.getLsbD j <;> cases m.getLsbD j <;> cases old.getLsbD j <;> simp

theorem and_within (a k mask : Word) (h : k &&& ~~~mask = 0) : (a &&& k) &&& ~~~mask = 0 := by
  rw [BitVec.and_assoc, h]; simp

theorem fits_and (xl : Xlen) (v m : Word) (h : fits xl v) : fits xl (v &&& m) := by
  unfold fits at *
  cases xl
  · rw [← h]
    simp only [Xlen.norm]
    apply BitVec.eq_of_getLsbD_eq
    intro j hj
    simp only [BitVec.getLsbD_setWidth, BitVec.getLsbD_and]
    by_cases h1 : j < 32 <;> simp [h1, hj]
  · rfl

theorem fits_norm (xl : Xlen) (v : Word) : fits xl (xl.norm v) := norm_idem _ _

theorem satpStored_idem (xl : Xlen) (v : Word) : satpStored xl (satpStored xl v) = satpStored xl v := by
  cases xl <;> simp [satpStored, BitVec.and_assoc]

theorem satpMode_satpStored (xl : Xlen) (v : Word) : satpMode xl (satpStored xl v) = satpMode xl v := by
  cases xl
  · simp only [satpMode, satpStored]
    congr 1
    apply BitVec.eq_of_getLsbD_eq
    intro j hj
    have : j = 0 := by omega
    subst this; simp
  · simp only [satpMode, satpStored]
    congr 1
    apply BitVec.eq_of_getLsbD_eq
    intro j hj
    rcases (show j = 0 ∨ j = 1 ∨ j = 2 ∨ j = 3 by omega) with rfl|rfl|rfl|rfl <;> simp

theorem and_seven (v : BitVec 32) : v &&& 7 &&& ~~~7 = 0 := by rw [BitVec.and_assoc]; simp

theorem fieldMPP_mstatusWrite (c : Config) (mask m v : Word) (h : getField2 posMPP m ≠ 2#2) (hb : mask.getLsbD 11 = mask.getLsbD 12) : getField2 posMPP (mstatusWrite c mask m v) ≠ 2#2 := by
  obtain ⟨k, hk⟩ := mstatusMask_low c
  unfold mstatusWrite
  rw [hk]
  have e : ∀ w : Word, getField2 posMPP w = 2#2 ↔ (w.getLsbD 11 = false ∧ w.getLsbD 12 = true) := by
    intro w
    constructor
    · intro hw
      have a := congrArg (BitVec.getLsbD · 0) hw
      have b := congrArg (BitVec.getLsbD · 1) hw
      simp only [getField2, posMPP, BitVec.getLsbD_extractLsb'] at a b
      exact ⟨by simpa using a, by simpa using b⟩
    · intro ⟨a, b⟩
      apply BitVec.eq_of_getLsbD_eq
      intro j hj
      simp only [getField2, posMPP, BitVec.getLsbD_extractLsb']
      rcases (show j = 0 ∨ j = 1 by omega) with rfl|rfl
      · simpa using a
      · simpa using b
  rw [ne_eq, e] at *
  by_cases hv : getField2 posMPP v = 2#2
  · simp only [hv, if_true]
    have c1 : BitVec.getLsbD (~~~0x1800 : Word) 11 = false := by decide
    have c2 : BitVec.getLsbD (~~~0x1800 : Word) 12 = false := by decide
    simp only [BitVec.getLsbD_and, BitVec.getLsbD_or, BitVec.getLsbD_not, c1, c2]
    simpa using h
  · simp only [hv, if_false]
    rw [e] at hv
    have c1 : BitVec.getLsbD (~~~0 : Word) 11 = true := by decide
    have c2 : BitVec.getLsbD (~~~0 : Word) 12 = true := by decide
    have c3 : BitVec.getLsbD (0x007E19AA : Word) 11 = true := by decide
    have c4 : BitVec.getLsbD (0x007E19AA : Word) 12 = true := by decide
    simp only [BitVec.getLsbD_and, BitVec.getLsbD_or, BitVec.getLsbD_not, c1, c2, c3, c4, hb]
    generalize mask.getLsbD 12 = x at *
    generalize m.getLsbD 12 = y at *
    generalize m.getLsbD 11 = z at *
    generalize v.getLsbD 12 = y' at *
    generalize v.getLsbD 11 = z' at *
    revert h hv; cases x <;> cases y <;> cases z <;> cases y' <;> cases z' <;> simp

theorem csrWritten_of {s : State} {r : Csrs} (hl : LegalCsrs s.cfg s.csr → LegalCsrs s.cfg r) (hm : getBit 0 s.csr.mepc = false → getBit 0 r.mepc = false) (hs : getBit 0 s.csr.sepc = false → getBit 0 r.sepc = false) :
    CsrWritten s { s with csr := r } :=
  ⟨⟨rfl,rfl,rfl,rfl,rfl,rfl,Nat.le_refl _,fun _ => ⟨rfl,rfl⟩,id,⟨[],by simp⟩,id,id,fun a b => ⟨a,b⟩⟩, ⟨hl, id, fun e => ⟨e.pc, hm e.mepc, hs e.sepc⟩⟩, rfl, rfl, rfl, rfl, rfl, rfl⟩

theorem csrWritten_refl (s : State) : CsrWritten s s := csrWritten_of (s := s) (r := s.csr) id id id

theorem csrWritten_counters (s : State) (a b c d e) : CsrWritten s { s with mcycle := a, minstret := b, tlbCode := c, tlbData := d, tlbStore := e } :=
  ⟨⟨rfl,rfl,rfl,rfl,rfl,rfl,Nat.le_refl _,fun _ => ⟨rfl,rfl⟩,id,⟨[],by simp⟩,id,id,fun a b => ⟨a,b⟩⟩, ⟨id, id, fun e => ⟨e.pc, e.mepc, e.sepc⟩⟩, rfl, rfl, rfl, rfl, rfl, rfl⟩

theorem csrWritten_dirtyFS (s : State) (x : BitVec 8) (hf : s.cfg.flen ≠ .f0) : CsrWritten s ({ s with csr := { s.csr with fcsr := x } } : State).dirtyFS := by
  refine csrWritten_of (r := { s.csr with fcsr := x, mstatus := setField2 posFS 3#2 s.csr.mstatus }) (fun l => ?_) id id
  exact ⟨by rw [dirtyFS_fixed _ hf]; exact l.mstatusFixed, by rw [fieldMPP_dirtyFS]; exact l.mpp, l.medeleg, l.mideleg, l.mie, l.mip, l.mtvec, l.stvec, l.mepc, l.sepc, l.mscratch, l.sscratch, l.mcause, l.scause, l.mtval, l.stval, l.satp, l.mcounteren, l.scounteren⟩

theorem tvec_legal (xl : Xlen) (v : Word) : getBit 1 (xl.norm v &&& ~~~2) = false ∧ fits xl (xl.norm v &&& ~~~2) :=
  ⟨by unfold getBit; simp, fits_and _ _ _ (fits_norm _ _)⟩

theorem epc_legal (c : Config) (v : Word) : getBit 0 (epcMask c (c.xlen.norm v)) = false ∧ fits c.xlen (epcMask c (c.xlen.norm v)) := by
  unfold epcMask; split
  · exact ⟨by unfold getBit; simp, fits_and _ _ _ (fits_norm _ _)⟩
  · exact ⟨by unfold getBit; simp, fits_and _ _ _ (fits_norm _ _)⟩

theorem csrWritten (s : State) (r : CsrName) (v : Word) (hf : r = .fflags ∨ r = .frm ∨ r = .fcsr → s.cfg.flen ≠ .f0) : CsrWritten s (s.writeCsr r v) := by
  cases r
  case fflags => exact csrWritten_dirtyFS _ _ (hf (by simp))
  case frm => exact csrWritten_dirtyFS _ _ (hf (by simp))
  case fcsr => exact csrWritten_dirtyFS _ _ (hf (by simp))
  case sstatus => exact csrWritten_of (fun l => { l with mstatusFixed := by rw [mstatusWrite_fixed]; exact l.mstatusFixed, mpp := fieldMPP_mstatusWrite _ _ _ _ l.mpp (by decide) }) id id
  case mstatus => exact csrWritten_of (fun l => { l with mstatusFixed := by rw [mstatusWrite_fixed]; exact l.mstatusFixed, mpp := fieldMPP_mstatusWrite _ _ _ _ l.mpp (by decide) }) id id
  case sie => exact csrWritten_of (fun l => { l with mie := within_maskedWrite _ _ _ _ l.mie (and_within _ _ _ (by decide)) }) id id
  case sip => exact csrWritten_of (fun l => { l with mip := within_maskedWrite _ _ _ _ l.mip (and_within _ _ _ (by decide)) }) id id
  case mip => exact csrWritten_of (fun l => { l with mip := within_maskedWrite _ _ _ _ l.mip (by decide) }) id id
  case stvec => exact csrWritten_of (fun l => { l with stvec := tvec_legal _ _ }) id id
  case mtvec => exact csrWritten_of (fun l => { l with mtvec := tvec_legal _ _ }) id id
  case scounteren => exact csrWritten_of (fun l => { l with scounteren := and_seven _ }) id id
  case mcounteren => exact csrWritten_of (fun l => { l with mcounteren := and_seven _ }) id id
  case sscratch => exact csrWritten_of (fun l => { l with sscratch := fits_norm _ _ }) id id
  case mscratch => exact csrWritten_of (fun l => { l with mscratch := fits_norm _ _ }) id id
  case sepc => exact csrWritten_of (fun l => { l with sepc := epc_legal _ _ }) id (fun _ => (epc_legal _ _).1)
  case mepc => exact csrWritten_of (fun l => { l with mepc := epc_legal _ _ }) (fun _ => (epc_legal _ _).1) id
  case scause => exact csrWritten_of (fun l => { l with scause := fits_norm _ _ }) id id
  case mcause => exact csrWritten_of (fun l => { l with mcause := fits_norm _ _ }) id id
  case stval => exact csrWritten_of (fun l => { l with stval := fits_norm _ _ }) id id
  case mtval => exact csrWritten_of (fun l => { l with mtval := fits_norm _ _ }) id id
  case medeleg => exact csrWritten_of (fun l => { l with medeleg := within_and _ _ }) id id
  case mideleg => exact csrWritten_of (fun l => { l with mideleg := within_and _ _ }) id id
  case mie => exact csrWritten_of (fun l => { l with mie := within_and _ _ }) id id
  case satp =>
    simp only [State.writeCsr]
    split
    · rename_i h
      have a : CsrWritten s { s with csr := { s.csr with satp := satpStored s.cfg.xlen (s.cfg.xlen.norm v) } } :=
        csrWritten_of (fun l => { l with satp := ⟨satpStored_idem _ _, by rw [satpMode_satpStored]; exact h⟩ }) id id
      exact ⟨⟨a.kept.1,a.kept.2,a.kept.3,a.kept.4,a.kept.5,a.kept.6,a.kept.7,a.kept.8,a.kept.9,a.kept.10,a.kept.11,a.kept.12,a.kept.13⟩, ⟨a.legal.1,a.legal.2,fun e => ⟨(a.legal.3 e).1,(a.legal.3 e).2,(a.legal.3 e).3⟩⟩, a.priv, a.pc, a.res⟩
    · exact csrWritten_refl _
  case mcycle => exact csrWritten_counters s _ _ _ _ _
  case minstret => exact csrWritten_counters s _ _ _ _ _
  case mcycleh => exact csrWritten_counters s _ _ _ _ _
  case minstreth => exact csrWritten_counters s _ _ _ _ _
  all_goals exact csrWritten_refl _

/-- The shutdown predicate does not see the translation caches (10_state.md R47, 70_reset_and_hazards.md R791; log 34). -/
theorem evalHook_withoutCaches (s : State) (code data store : List TlbEntry) (p : HookPred) :
    evalHook { s with tlbCode := code, tlbData := data, tlbStore := store } p = evalHook s p := by
  induction p with
  | and p q hp hq => simp only [evalHook, hp, hq]
  | or p q hp hq => simp only [evalHook, hp, hq]
  | not p hp => simp only [evalHook, hp]
  | _ => rfl

end Sys2Proof.Machine
end

