-- ==== Sys2Proof/Laws/Fetch.lean ====
section
/-! SUPPORT. What comes before an instruction in a step: the inputs, the selection of an interrupt, the fetch. -/

namespace Sys2Proof.Machine

theorem takeInputs_cfg (s : State) : (takeInputs s).cfg = s.cfg := by
  have hone : ∀ (a : Input) (s : State), (applyInput s a).cfg = s.cfg := by
    intro a s
    unfold applyInput
    cases a <;> simp only
    · split <;> rfl
    · split <;> rfl
  have : ∀ (l : List Input) (s : State), (l.foldl applyInput s).cfg = s.cfg := by
    intro l
    induction l with
    | nil => intro s; rfl
    | cons a l ih => intro s; simp only [List.foldl_cons, ih, hone]
  unfold takeInputs
  split
  · rfl
  · rw [this]

theorem fetch16_frame {s u : State} {a : Word} {n} (h : fetch16 s a = .ok n u) : ∃ d o, u = {s with devSeq := d, out := o} := by
  unfold fetch16 layerRead at h
  split at h
  · cases h
  · rename_i v t hv
    split at hv
    · cases hv
    · cases hv
      cases h
      exact ⟨_, _, rfl⟩

theorem fetch16_raise {s u : State} {a : Word} {c v} (h : fetch16 s a = .raise c v u) : u = s := by
  unfold fetch16 at h
  split at h <;> cases h; rfl

theorem fetch_frame {s u : State} {n} (h : fetch s = .ok n u) : ∃ d o, u = {s with devSeq := d, out := o} := by
  unfold fetch at h
  split at h
  rotate_left
  · cases h
  split at h
  · cases h
  rename_i lo s' h1
  obtain ⟨d, o, rfl⟩ := fetch16_frame h1
  split at h
  · split at h
    · cases h
    · rename_i h2
      obtain ⟨d', o', rfl⟩ := fetch16_frame h2
      cases h
      exact ⟨_, _, rfl⟩
  · split at h
    · cases h; exact ⟨_, _, rfl⟩
    · cases h

theorem selInt_open (s : State) : selectInterrupt (openReport s).wake = selectInterrupt s := rfl

/-- The power-down test of the step, in the words of the rule. -/
theorem asleep_iff (s : State) : s.asleep = true ↔ Dormant s := by simp [State.asleep, State.pendEnabled, Dormant]

theorem asleep_eq_false_iff (s : State) : s.asleep = false ↔ ¬ Dormant s := by rw [← asleep_iff, Bool.not_eq_true]

/-- An Idle step. -/
theorem step_of_dormant {s : State} (h : Running s) (hd : Dormant (takeInputs s)) : step s = .next (openReport (takeInputs s)) := by
  have ha : (openReport (takeInputs s)).asleep = true := (asleep_iff _).mpr hd
  simp [step, h.1, h.2, stepHart, ha]

/-- A step that takes an interrupt. -/
theorem step_of_interrupt {s : State} {i : Nat} (h : Running s) (hd : ¬ Dormant (takeInputs s))
    (hi : selectInterrupt (takeInputs s) = some i) : step s = .next (takeInterrupt (atFetch s) i) := by
  have ha : (openReport (takeInputs s)).asleep = false := (asleep_eq_false_iff _).mpr hd
  have hi' : selectInterrupt (openReport (takeInputs s)).wake = some i := hi
  simp only [step, h.1, h.2, if_true, stepHart, ha, hi']
  rfl

theorem step_of_reaches {s : State} (h : ReachesFetch s) : step s = stepFetch (atFetch s) := by
  have hv := h.running.1
  have hd := h.running.2
  have ha : (openReport (takeInputs s)).asleep = false := (asleep_eq_false_iff _).mpr h.awake
  have hi : selectInterrupt (openReport (takeInputs s)).wake = none := h.noInterrupt
  simp only [step, hv, hd, if_true, stepHart, ha, hi]
  rfl

theorem pcAligned_iff (s : State) : s.pcAligned = true ↔ (if s.cfg.ext.c then s.pc.toNat % 2 = 0 else s.pc.toNat % 4 = 0) := by
  unfold State.pcAligned
  split
  · simp [BitVec.toNat_eq, BitVec.extractLsb'_toNat]
  · simp [BitVec.toNat_eq, BitVec.extractLsb'_toNat]

theorem fetch16_ok {s : State} {a : Word} {ts} (h : s.places .code a 2 = .ok ts) :
    ∃ t, fetch16 s a = .ok (BitVec.ofNat 16 (littleEndian (placeBytes s.mem s.devSeq ts))) t ∧
      t = { s with devSeq := s.devSeq + deviceCount ts, out := t.out } := by
  obtain ⟨t, ht, he⟩ := layerRead_ok h
  refine ⟨t, ?_, he⟩
  simp only [fetch16, ht]
  congr 1
  exact BitVec.setWidth_ofNat_of_le (by decide) _

theorem fetch16_err {s : State} {a : Word} {flt} (h : s.places .code a 2 = .error flt) :
    fetch16 s a = .raise (faultCause .code flt) (s.cfg.xlen.norm a) s := by
  simp only [fetch16, layerRead, h]

theorem parcel_low_bits (lo : BitVec 16) : lo.extractLsb' 0 2 = 3#2 ↔ lo.toNat % 4 = 3 := by
  simp [BitVec.toNat_eq, BitVec.extractLsb'_toNat]

theorem firstOf_lt {m i} (h : firstOf m = some i) : i < 16 := by
  have := List.mem_of_find?_eq_some h
  simp at this; omega

theorem selectInterrupt_lt {s i} (h : selectInterrupt s = some i) : i < 16 := by
  unfold selectInterrupt at h
  split at h
  · rename_i hh; cases h; exact firstOf_lt hh
  · exact firstOf_lt h

theorem legal_mip {c : Config} {h : Hart} (l : LegalHart c h) (src : IrqSource) (v) : LegalHart c { h with csr := { h.csr with mip := setBit src.bit v h.csr.mip } } := by
  refine ⟨l.1,l.2,l.3,l.4,l.5,l.6,l.7,{ l.8 with mip := ?_ }⟩
  have := l.8.mip
  unfold within at *
  apply BitVec.eq_of_getLsbD_eq
  intro j hj
  have a := congrArg (BitVec.getLsbD · j) this
  have hb := getBit_setBit src.bit j v h.csr.mip (by cases src <;> decide)
  unfold getBit at hb
  simp only [BitVec.getLsbD_and, BitVec.getLsbD_not, hj, decide_true, Bool.true_and] at *
  rw [hb]
  split
  · rename_i e; subst e
    cases src <;> (simp [IrqSource.bit]; try decide)
  · exact a

theorem legal_input {c h} (a : Input) (l : LegalHart c h) : LegalHart c (Hart.onInput h a) := by
  unfold Hart.onInput
  split
  · split
    · exact legal_mip l _ _
    · exact l
  · split
    · split <;> exact ⟨l.1,l.2,l.3,l.4,l.5,l.6,l.7,l.8⟩
    · exact l
  all_goals exact l

theorem even_input {h} (a : Input) (l : EvenHart h) : EvenHart (Hart.onInput h a) := by
  unfold Hart.onInput
  split
  · split
    · exact ⟨l.1,l.2,l.3⟩
    · exact l
  · split
    · split <;> exact ⟨l.1,l.2,l.3⟩
    · exact l
  all_goals exact l

theorem switch_all (P : Hart → Prop) {a id hs g r} (h : switchTo a id hs = some (g, r)) (ha : P a) (hh : ∀ x ∈ hs, P x) : P g ∧ ∀ x ∈ r, P x := by
  induction hs generalizing g r with
  | nil => cases h
  | cons x xs ih =>
    unfold switchTo at h
    split at h
    · cases h
      refine ⟨hh _ (by simp), ?_⟩
      intro y hy
      rcases List.mem_cons.1 hy with rfl | hy
      · exact ha
      · exact hh y (by simp [hy])
    · split at h
      · rename_i e
        cases h
        have := ih e fun y hy => hh y (by simp [hy])
        refine ⟨this.1, ?_⟩
        intro y hy
        rcases List.mem_cons.1 hy with rfl | hy
        · exact hh y (by simp)
        · exact this.2 y hy
      · cases h

theorem quiet_fetch16 (s a) : MemQuiet false s (fetch16 s a) := by
  unfold fetch16
  have h := quiet_layerRead s .code a 2
  split
  · exact Quiet.refl _ _
  · rename_i v t he; rw [he] at h; exact h

theorem cause_fetch16 {s a c v t} (h : fetch16 s a = .raise c v t) : c < 16 := by
  unfold fetch16 at h
  split at h
  · cases h; exact faultCause_lt _ _
  · cases h

theorem quiet_fetch (s) : MemQuiet false s (fetch s) ∧ ∀ c v t, fetch s = .raise c v t → c < 16 := by
  unfold fetch
  split
  · have h := quiet_fetch16 s s.pc
    have hc := @cause_fetch16 s s.pc
    revert h hc
    cases fetch16 s s.pc with
    | raise c v t => intro h hc; exact ⟨h, fun c' v' t' e => by cases e; exact hc rfl⟩
    | ok lo u =>
      intro h hc
      simp only
      split
      · have h2 := quiet_fetch16 u (s.pc + 2)
        have hc2 := @cause_fetch16 u (s.pc+2)
        revert h2 hc2
        cases fetch16 u (s.pc + 2) with
        | raise c v t => intro h2 hc2; exact ⟨Quiet.trans h h2, fun c' v' t' e => by cases e; exact hc2 rfl⟩
        | ok hi w => intro h2 _; exact ⟨Quiet.trans h h2, fun _ _ _ e => by cases e⟩
      · split
        · exact ⟨h, fun _ _ _ e => by cases e⟩
        · exact ⟨h, fun _ _ _ e => by cases e; decide⟩
  · exact ⟨Quiet.refl _ _, fun _ _ _ e => by cases e; decide⟩

theorem legal_drop {c h ts} (l : LegalHart c h) : LegalHart c (Hart.dropRange h ts) :=
  ⟨l.1,l.2,l.3,l.4,l.5,l.6,l.7,l.8⟩

theorem legal_drops {c h} (tss : List (List Place)) (l : LegalHart c h) : LegalHart c (tss.foldl Hart.dropRange h) := by
  induction tss generalizing h with
  | nil => exact l
  | cons a b ih => exact ih (legal_drop l)

theorem even_drops {h} (tss : List (List Place)) (l : EvenHart h) : EvenHart (tss.foldl Hart.dropRange h) := by
  induction tss generalizing h with
  | nil => exact l
  | cons a b ih => exact ih ⟨l.1,l.2,l.3⟩

end Sys2Proof.Machine
end

