-- ==== Sys2Proof/Laws/Rounding.lean ====
section
/-! SUPPORT. What each helper of the rounding function does, over the real numbers: units, the binary exponent, rounding to an integer, and
the value of a pattern put together from its magnitude field (log 24). -/

namespace Sys2Proof.Machine

/-! ## Units and the binary exponent -/

theorem inUnits_pos {p q : Nat} (hp : 0 < p) (hq : 0 < q) (t : Int) : 0 < (inUnits p q t).1 ∧ 0 < (inUnits p q t).2 :=
  ⟨Nat.mul_pos hp (Nat.two_pow_pos _), Nat.mul_pos hq (Nat.two_pow_pos _)⟩

theorem inUnits_value (p : Nat) {q : Nat} (hq : 0 < q) (t : Int) :
    ((inUnits p q t).1 : ℝ) / (inUnits p q t).2 = (p : ℝ) / q / 2 ^ t := by
  have hq' : (q : ℝ) ≠ 0 := by exact_mod_cast hq.ne'
  have h2 : (2 : ℝ) ^ t = 2 ^ t.toNat / 2 ^ (-t).toNat := by
    rw [← zpow_natCast, ← zpow_natCast, ← zpow_sub₀ two_ne_zero]
    congr 1
    omega
  rw [h2]
  simp only [inUnits]
  push_cast
  field_simp

/-- An integer multiple of a power of two as the fraction `roundDyadic` rounds. -/
theorem dyadic_value (m : Nat) (e : Int) : ((m * 2 ^ e.toNat : Nat) : ℝ) / (2 ^ (-e).toNat : Nat) = m * 2 ^ e := by
  have h := inUnits_value m one_pos (-e)
  simp only [inUnits, neg_neg, Nat.cast_one, div_one, zpow_neg, div_inv_eq_mul, one_mul] at h
  exact h

/-- A summand as an integer in units of a lower power of two. -/
theorem scaled_value (s : Bool) (m : Nat) {ex e : Int} (h : e ≤ ex) :
    (scaled s m ex e : ℚ) * 2 ^ e = (if s then -1 else 1) * (m : ℚ) * 2 ^ ex := by
  have h2 : (2 : ℚ) ^ ex = 2 ^ (ex - e).toNat * 2 ^ e := by
    rw [← zpow_natCast, ← zpow_add₀ two_ne_zero]
    congr 1
    omega
  cases s <;> simp [scaled, h2] <;> ring

theorem floorLog2_spec {p q : Nat} (hp : 0 < p) (hq : 0 < q) :
    (2 : ℝ) ^ floorLog2 p q ≤ (p : ℝ) / q ∧ (p : ℝ) / q < 2 ^ (floorLog2 p q + 1) := by
  have hq' : (0 : ℝ) < q := by exact_mod_cast hq
  have p1 : (2 : ℝ) ^ (Nat.log2 p : ℤ) ≤ p := by rw [zpow_natCast]; exact_mod_cast Nat.log2_self_le hp.ne'
  have p2 : (p : ℝ) < 2 ^ ((Nat.log2 p : ℤ) + 1) := by
    rw [show ((Nat.log2 p : ℤ) + 1) = ((Nat.log2 p + 1 : ℕ) : ℤ) by push_cast; rfl, zpow_natCast]
    exact_mod_cast Nat.lt_log2_self
  have q1 : (2 : ℝ) ^ (Nat.log2 q : ℤ) ≤ q := by rw [zpow_natCast]; exact_mod_cast Nat.log2_self_le hq.ne'
  have q2 : (q : ℝ) < 2 ^ ((Nat.log2 q : ℤ) + 1) := by
    rw [show ((Nat.log2 q : ℤ) + 1) = ((Nat.log2 q + 1 : ℕ) : ℤ) by push_cast; rfl, zpow_natCast]
    exact_mod_cast Nat.lt_log2_self
  have z2 : (0 : ℝ) < 2 := two_pos
  -- the exponent of the quotient is the difference of the exponents or one less
  have lower : (2 : ℝ) ^ ((Nat.log2 p : ℤ) - Nat.log2 q - 1) ≤ (p : ℝ) / q := by
    rw [le_div_iff₀ hq', show ((Nat.log2 p : ℤ) - Nat.log2 q - 1) = Nat.log2 p - (Nat.log2 q + 1) by ring, zpow_sub₀ z2.ne',
      div_mul_eq_mul_div, div_le_iff₀ (zpow_pos z2 _)]
    exact mul_le_mul p1 q2.le hq'.le (le_trans (zpow_pos z2 _).le p1)
  have upper : (p : ℝ) / q < 2 ^ ((Nat.log2 p : ℤ) - Nat.log2 q + 1) := by
    rw [div_lt_iff₀ hq', show ((Nat.log2 p : ℤ) - Nat.log2 q + 1) = Nat.log2 p + 1 - Nat.log2 q by ring, zpow_sub₀ z2.ne',
      div_mul_eq_mul_div, lt_div_iff₀ (zpow_pos z2 _)]
    exact mul_lt_mul p2 q1 (zpow_pos z2 _) (zpow_pos z2 _).le
  have test (e : ℤ) : (inUnits p q e).2 ≤ (inUnits p q e).1 ↔ (2 : ℝ) ^ e ≤ (p : ℝ) / q := by
    have h := inUnits_value p hq e
    have hpos : (0 : ℝ) < (inUnits p q e).2 := by exact_mod_cast (inUnits_pos hp hq e).2
    rw [← one_le_div (zpow_pos z2 e), ← h, one_le_div hpos, Nat.cast_le]
  unfold floorLog2
  simp only [test]
  split
  · exact ⟨‹_›, upper⟩
  · refine ⟨lower, ?_⟩
    rw [sub_add_cancel]
    exact not_le.mp ‹_›

/-! ## Rounding to an integer -/

theorem roundNat_le (rm : RoundMode) (neg : Bool) (n r d : Nat) : n ≤ roundNat rm neg n r d ∧ roundNat rm neg n r d ≤ n + 1 := by
  unfold roundNat; split <;> omega

theorem roundNat_exact (rm : RoundMode) (neg : Bool) (n : Nat) {d : Nat} (hd : 0 < d) : roundNat rm neg n 0 d = n := by
  cases rm <;> cases neg <;> simp [roundNat, roundUp] <;> omega

/-- The case table `up` rounds `n + r/d` as each mode says. -/
theorem roundNat_spec (rm : RoundMode) (neg : Bool) (n : Nat) {r d : Nat} (hr : r < d) :
    RoundsMagnitude rm neg (n + (r : ℝ) / d) (roundNat rm neg n r d) := by
  have hd : (0 : ℝ) < d := by exact_mod_cast Nat.zero_lt_of_lt hr
  have f0 : (0 : ℝ) ≤ (r : ℝ) / d := by positivity
  have f1 : (r : ℝ) / d < 1 := by rw [div_lt_one hd]; exact_mod_cast hr
  have fl : ⌊(n : ℝ) + r / d⌋₊ = n := by
    rw [Nat.floor_eq_iff (by positivity)]
    constructor <;> linarith
  have half : ((r : ℝ) / d = 1 / 2 ↔ 2 * r = d) := by
    rw [div_eq_div_iff hd.ne' two_ne_zero]
    constructor
    · intro h
      have : ((2 * r : ℕ) : ℝ) = (d : ℕ) := by push_cast; linarith
      exact_mod_cast this
    · intro h
      rw [← h]
      push_cast
      ring
  have less : ((r : ℝ) / d < 1 / 2 ↔ 2 * r < d) := by
    rw [div_lt_div_iff₀ hd two_pos]
    constructor
    · intro h
      have : ((2 * r : ℕ) : ℝ) < (d : ℕ) := by push_cast; linarith
      exact_mod_cast this
    · intro h
      have : ((2 * r : ℕ) : ℝ) < (d : ℕ) := by exact_mod_cast h
      push_cast at this
      linarith
  have ce : ⌈(n : ℝ) + r / d⌉₊ = if 0 < r then n + 1 else n := by
    split
    · have : (0 : ℝ) < (r : ℝ) / d := div_pos (by exact_mod_cast ‹0 < r›) hd
      rw [Nat.ceil_eq_iff (by omega)]
      push_cast
      constructor <;> simp <;> linarith
    · obtain rfl : r = 0 := by omega
      simp
  have down : |(n : ℝ) + r / d - n| = (r : ℝ) / d := by rw [add_sub_cancel_left, abs_of_nonneg f0]
  have up : |(n : ℝ) + r / d - (n + 1 : ℕ)| = 1 - (r : ℝ) / d := by
    push_cast
    rw [show (n : ℝ) + r / d - (n + 1) = -(1 - r / d) by ring, abs_neg, abs_of_nonneg (by linarith)]
  cases rm with
  | rtz => simp [RoundsMagnitude, roundNat, roundUp, fl]
  | rdn => cases neg <;> simp [RoundsMagnitude, roundNat, roundUp, fl, ce]; split <;> rfl
  | rup => cases neg <;> simp [RoundsMagnitude, roundNat, roundUp, fl, ce]; split <;> rfl
  | rne =>
    simp only [RoundsMagnitude]
    rcases lt_trichotomy (2 * r) d with h | h | h
    · have hf := less.mpr h
      rw [show roundNat .rne neg n r d = n by simp [roundNat, roundUp]; omega, down]
      exact ⟨hf.le, fun e => absurd e hf.ne⟩
    · have hf := half.mpr h
      rcases Nat.even_or_odd n with he | ho
      · rw [show roundNat .rne neg n r d = n by simp [roundNat, roundUp, h, Nat.even_iff.mp he], down]
        exact ⟨hf.le, fun _ => he⟩
      · rw [show roundNat .rne neg n r d = n + 1 by simp [roundNat, roundUp, h, Nat.odd_iff.mp ho], up]
        exact ⟨by linarith, fun _ => ho.add_one⟩
    · have hf : ¬ (r : ℝ) / d ≤ 1 / 2 := by rw [le_iff_lt_or_eq, less, half]; omega
      rw [show roundNat .rne neg n r d = n + 1 by simp [roundNat, roundUp, h], up]
      exact ⟨by linarith, fun e => absurd (by linarith) hf⟩
  | rmm =>
    simp only [RoundsMagnitude]
    by_cases h : d ≤ 2 * r
    · have hf : ¬ (r : ℝ) / d < 1 / 2 := by rw [less]; omega
      rw [show roundNat .rmm neg n r d = n + 1 by simp [roundNat, roundUp, h], up]
      refine ⟨by linarith, fun _ => ?_⟩
      push_cast
      linarith
    · have hf : (r : ℝ) / d < 1 / 2 := by rw [less]; omega
      rw [show roundNat .rmm neg n r d = n by simp [roundNat, roundUp, h], down]
      exact ⟨hf.le, fun e => absurd e hf.ne⟩

/-- A quotient rounded, from its quotient and remainder. -/
theorem roundNat_div (rm : RoundMode) (neg : Bool) (p : Nat) {q : Nat} (hq : 0 < q) :
    RoundsMagnitude rm neg ((p : ℝ) / q) (roundNat rm neg (p / q) (p % q) q) := by
  have h := roundNat_spec rm neg (p / q) (Nat.mod_lt p hq)
  have hq' : (q : ℝ) ≠ 0 := by exact_mod_cast hq.ne'
  have e : (p : ℝ) / q = ((p / q : ℕ) : ℝ) + ((p % q : ℕ) : ℝ) / q := by
    rw [add_div' _ _ _ hq', div_left_inj' hq']
    exact_mod_cast (Nat.div_add_mod' p q).symm
  rwa [e]

/-- Rounding does not pass an integer from above. -/
theorem RoundsMagnitude.lower {rm : RoundMode} {neg : Bool} {y : ℝ} {m k : ℕ} (h : RoundsMagnitude rm neg y m) (hk : (k : ℝ) ≤ y) :
    k ≤ m := by
  have floor : k ≤ ⌊y⌋₊ := Nat.le_floor hk
  have ceil := floor.trans (Nat.floor_le_ceil y)
  have nearest (d : |y - m| ≤ 1 / 2) : k ≤ m := by
    by_contra hc
    have : ((m : ℝ) + 1) ≤ k := by exact_mod_cast (by omega : m + 1 ≤ k)
    have := abs_le.mp d
    linarith
  cases rm <;> simp only [RoundsMagnitude] at h
  · exact nearest h.1
  · omega
  · split at h <;> omega
  · split at h <;> omega
  · exact nearest h.1

/-- Nor from below. -/
theorem RoundsMagnitude.upper {rm : RoundMode} {neg : Bool} {y : ℝ} {m k : ℕ} (h : RoundsMagnitude rm neg y m) (hk : y ≤ k) :
    m ≤ k := by
  have ceil : ⌈y⌉₊ ≤ k := Nat.ceil_le.mpr hk
  have floor := (Nat.floor_le_ceil y).trans ceil
  have nearest (d : |y - m| ≤ 1 / 2) : m ≤ k := by
    by_contra hc
    have : ((k : ℝ) + 1) ≤ m := by exact_mod_cast (by omega : k + 1 ≤ m)
    have := abs_le.mp d
    linarith
  cases rm <;> simp only [RoundsMagnitude] at h
  · exact nearest h.1
  · omega
  · split at h <;> omega
  · split at h <;> omega
  · exact nearest h.1

/-- A quotient is inexact exactly when rounding it changes it. -/
theorem mod_ne_zero_iff_rounds (rm : RoundMode) (neg : Bool) (p : ℕ) {q : ℕ} (hq : 0 < q) :
    p % q ≠ 0 ↔ ((roundNat rm neg (p / q) (p % q) q : ℕ) : ℝ) ≠ (p : ℝ) / q := by
  have hq' : (q : ℝ) ≠ 0 := by exact_mod_cast hq.ne'
  refine not_congr ⟨fun h => ?_, fun e => ?_⟩
  · rw [h, roundNat_exact _ _ _ hq, eq_div_iff hq']
    exact_mod_cast Nat.div_mul_cancel (Nat.dvd_of_mod_eq_zero h)
  · rw [eq_div_iff hq'] at e
    rw [← (by exact_mod_cast e : roundNat rm neg (p / q) (p % q) q * q = p), Nat.mul_mod_left]

/-! ## Patterns -/

theorem pattern_toNat (fmt : FFmt) (sign : Bool) {m : Nat} (h : m < 2 ^ fmt.signPos) :
    (fmt.pattern sign m).toNat = m + (if sign then 2 ^ fmt.signPos else 0) := by
  rw [FFmt.pattern, BitVec.toNat_ofNat, Nat.mod_eq_of_lt]
  cases fmt <;> cases sign <;> simp [FFmt.signPos, FFmt.expBits, FFmt.fracBits] at h ⊢ <;> omega

theorem signOf_pattern (fmt : FFmt) (sign : Bool) {m : Nat} (h : m < 2 ^ fmt.signPos) : fmt.signOf (fmt.pattern sign m) = sign := by
  rw [FFmt.signOf, ← BitVec.testBit_toNat, pattern_toNat fmt sign h]
  cases sign
  · simpa using Nat.testBit_lt_two_pow h
  · simp [add_comm m, Nat.testBit_two_pow_add_eq, Nat.testBit_lt_two_pow h]

theorem expOf_pattern (fmt : FFmt) (sign : Bool) {m : Nat} (h : m < 2 ^ fmt.signPos) :
    fmt.expOf (fmt.pattern sign m) = m / 2 ^ fmt.fracBits := by
  rw [FFmt.expOf, pattern_toNat fmt sign h]
  cases fmt <;> cases sign <;> simp [FFmt.signPos, FFmt.expBits, FFmt.fracBits] at h ⊢ <;> omega

theorem fracOf_pattern (fmt : FFmt) (sign : Bool) {m : Nat} (h : m < 2 ^ fmt.signPos) :
    fmt.fracOf (fmt.pattern sign m) = m % 2 ^ fmt.fracBits := by
  rw [FFmt.fracOf, pattern_toNat fmt sign h]
  cases fmt <;> cases sign <;> simp [FFmt.signPos, FFmt.expBits, FFmt.fracBits] at h ⊢ <;> omega

/-- The value of a pattern whose magnitude field is `k·2^M + n`, where `n` has at most `M + 1` bits and `k` counts binades above the subnormal
one: `n` units of `2^(emin - M + k)`. A carry out of the fraction raises the exponent by itself. -/
theorem unpack_pattern (fmt : FFmt) (sign : Bool) {k n : Nat} (hn : n ≤ 2 ^ (fmt.fracBits + 1)) (hk : 0 < k → 2 ^ fmt.fracBits ≤ n)
    (hm : k * 2 ^ fmt.fracBits + n < fmt.expMax * 2 ^ fmt.fracBits) :
    (fmt.unpack (fmt.pattern sign (k * 2 ^ fmt.fracBits + n))).toRat
      = some ((if sign then -1 else 1) * ((n : ℚ) * (2 : ℚ) ^ (fmt.emin - fmt.fracBits + k))) := by
  have hlt : k * 2 ^ fmt.fracBits + n < 2 ^ fmt.signPos := by
    refine hm.trans ?_
    cases fmt <;> decide
  have hM : 0 < 2 ^ fmt.fracBits := Nat.two_pow_pos _
  have hpow : 2 ^ (fmt.fracBits + 1) = 2 * 2 ^ fmt.fracBits := by rw [pow_succ, mul_comm]
  have hemin : fmt.emin = 1 - (fmt.bias : Int) := rfl
  have hexp : (k * 2 ^ fmt.fracBits + n) / 2 ^ fmt.fracBits ≠ fmt.expMax := fun e => by
    have := Nat.div_mul_le_self (k * 2 ^ fmt.fracBits + n) (2 ^ fmt.fracBits)
    rw [e] at this
    omega
  rw [FFmt.unpack]
  simp only [expOf_pattern fmt sign hlt, fracOf_pattern fmt sign hlt, signOf_pattern fmt sign hlt, hexp, if_false]
  have hd : (k * 2 ^ fmt.fracBits + n) / 2 ^ fmt.fracBits = k + n / 2 ^ fmt.fracBits := by
    rw [add_comm, Nat.add_mul_div_right _ _ hM, add_comm]
  have hr : (k * 2 ^ fmt.fracBits + n) % 2 ^ fmt.fracBits = n % 2 ^ fmt.fracBits := by rw [add_comm, Nat.add_mul_mod_self_right]
  rw [hd, hr]
  generalize hMM : 2 ^ fmt.fracBits = M at *
  have hMq : (2 : ℚ) ^ fmt.fracBits = (M : ℚ) := by rw [← hMM]; push_cast; rfl
  rcases lt_or_ge n M with h | h
  · -- the subnormal binade
    obtain rfl : k = 0 := by
      by_contra hne
      exact absurd (hk (Nat.pos_of_ne_zero hne)) (by omega)
    rw [Nat.div_eq_of_lt h, Nat.mod_eq_of_lt h]
    simp [FVal.toRat]
  · rcases eq_or_lt_of_le hn with h' | h'
    · -- the carry
      have e1 : n / M = 2 := by rw [h', hpow, Nat.mul_div_cancel _ hM]
      have e2 : n % M = 0 := by rw [h', hpow, Nat.mul_mod_left]
      rw [e1, e2, if_neg (by omega)]
      simp only [FVal.toRat, h', hpow, hemin, Nat.add_zero, Option.some.injEq]
      push_cast
      rw [show ((k : ℤ) + 2 - fmt.bias - fmt.fracBits) = (1 - fmt.bias - fmt.fracBits + k) + 1 by ring, zpow_add₀ two_ne_zero, zpow_one]
      ring
    · have e1 : n / M = 1 := Nat.div_eq_of_lt_le (by omega) (by omega)
      have e2 : M + n % M = n := by
        have := Nat.div_add_mod n M
        rw [e1] at this
        omega
      rw [e1, e2, if_neg (by omega)]
      simp only [FVal.toRat, hemin, Option.some.injEq]
      push_cast
      rw [show ((k : ℤ) + 1 - fmt.bias - fmt.fracBits) = 1 - fmt.bias - fmt.fracBits + k by ring]
      ring

end Sys2Proof.Machine
end

