-- ==== Sys2Proof/Tests/Slice0.lean ====
section
/-! SUPPORT. Tests of the model. Expected results come from the spec: the Encoding and Example lines of the rules, and hand computation from a
rule where a test says so. The last part gives, for every obligation that has hypotheses, a concrete state and operands that meet them. -/

namespace Sys2Proof.Tests

open Sys2Proof.Machine

/-! ## Helpers -/

/-- A machine of a configuration after reset with the floating-point unit on (mstatus.FS = 1) and the trap vectors set. -/
def start (c : Config) : State :=
  let s := State.resetOf c
  { s with csr := { s.csr with mstatus := s.csr.mstatus ||| 0x2000, mtvec := 0x200, stvec := 0x300 } }

/-- x registers set. -/
def withX (xs : List (RegIdx × Word)) (s : State) : State := xs.foldl (fun s p => s.setX p.1 p.2) s

/-- f registers set. -/
def withF (fs : List (RegIdx × Word)) (s : State) : State :=
  { s with f := fs.foldl (fun f p => f.set p.1.toNat p.2 p.1.isLt) s.f }

/-- Bytes of RAM set: from an address on, the low `n` bytes of a value, little-endian. -/
def withMem (ms : List (Nat × Nat × Nat)) (s : State) : State :=
  { s with mem := ms.foldl (fun m p =>
      Memory.writeBytes m p.1 ((List.range p.2.1).map fun k => BitVec.ofNat 8 (p.2.2 / 256 ^ k))) s.mem }

/-- The `n` bytes of RAM from an address on, as a little-endian number. -/
def ramAt (s : State) (a n : Nat) : Nat := littleEndian ((List.range n).map fun k => Memory.read s.mem (a + k))

/-- The outcome is a next state. -/
def isNext : StepResult → Bool
  | .next _ => true
  | .fault _ => false
  | .refused _ => false

/-- The next state of an outcome that is one. -/
def after (s : State) : StepResult → State
  | .next t => t
  | .fault _ => s
  | .refused _ => s

theorem next_of {s : State} {r : StepResult} (h : isNext r = true) : r = .next (after s r) := by
  cases r <;> simp_all [isNext, after]

/-- A word decodes to an instruction, the instruction is well formed, and its encoding is the word. -/
def reads (c : Config) (n : Insn) (i : Instr) : Bool :=
  decide (decode c n = some i) && i.wellFormed c && decide (encode c.xlen i = n)

/-- One Example line: the word, what stands in registers and memory before it, and what it gives. Flags are those accrued. -/
structure Row where
  word : BitVec 32
  xs : List (RegIdx × Word) := []
  fs : List (RegIdx × Word) := []
  ms : List (Nat × Nat × Nat) := []
  pc : Word := 0x1000
  next : Word := 0x1004
  outX : List (RegIdx × Word) := []
  outF : List (RegIdx × Word) := []
  outM : List (Nat × Nat × Nat) := []
  flags : BitVec 8 := 0

/-- The state in which the row's word is the next instruction. -/
def Row.before (c : Config) (r : Row) : State :=
  placeWord { withMem r.ms (withF r.fs (withX r.xs (start c))) with pc := r.pc } r.word

/-- One step from there retires and gives what the row says. -/
def Row.ok (c : Config) (r : Row) : Bool :=
  match step (r.before c) with
  | .next t =>
    decide (t.out.outcome = .retired) && (t.pc == r.next) && (t.csr.fcsr == r.flags)
      && r.outX.all (fun p => t.getX p.1 == p.2) && r.outF.all (fun p => t.getF p.1 == p.2)
      && r.outM.all (fun p => ramAt t p.1 p.2.1 == p.2.2)
  | _ => false

/-! ## WellFormed refuses ill-formed terms, one for each check -/

theorem test_wf_xlen : (Instr.ld 5 6 0).wellFormed Config.default32 = false
    ∧ (Instr.c_jal 0).wellFormed Config.default = false := by decide

theorem test_wf_extension : (Instr.mul 5 6 7).wellFormed { Config.default with ext := { Config.default.ext with m := false } } = false
    ∧ (Instr.c_fld 0 1 0).wellFormed { Config.default with ext := { Config.default.ext with d := false } } = false := by decide

theorem test_wf_shamt : (Instr.slli 5 6 32).wellFormed Config.default32 = false
    ∧ (Instr.c_srli 0 32).wellFormed Config.default32 = false ∧ (Instr.rori 5 6 32).wellFormed Config.default32 = false
    ∧ (Instr.bclri 5 6 63).wellFormed Config.default32 = false ∧ (Instr.slli 5 6 63).wellFormed Config.default = true := by decide

theorem test_wf_compressed : (Instr.c_addi4spn 0 0).wellFormed Config.default = false
    ∧ (Instr.c_addi 0 1).wellFormed Config.default = false ∧ (Instr.c_addiw 0 1).wellFormed Config.default = false
    ∧ (Instr.c_lwsp 0 1).wellFormed Config.default = false ∧ (Instr.c_ldsp 0 1).wellFormed Config.default = false
    ∧ (Instr.c_addi16sp 0).wellFormed Config.default = false ∧ (Instr.c_lui 2 1).wellFormed Config.default = false
    ∧ (Instr.c_lui 5 0).wellFormed Config.default = false ∧ (Instr.c_jr 0).wellFormed Config.default = false
    ∧ (Instr.c_jalr 0).wellFormed Config.default = false ∧ (Instr.c_mv 5 0).wellFormed Config.default = false
    ∧ (Instr.c_add 5 0).wellFormed Config.default = false := by decide

theorem test_wf_rm : (Instr.fadd_s 1 2 3 5).wellFormed Config.default = false
    ∧ (Instr.fmadd_d 1 2 3 4 6).wellFormed Config.default = false ∧ (Instr.fsqrt_d 1 2 7).wellFormed Config.default = true := by
  decide

/-! ## Decoding and encoding: the word of every Example line, by family -/

/-- 40_base_integer.md, the Example lines. -/
theorem test_words_base_1 :
    reads Config.default (.w 0x123452B7) (Instr.lui 5 74565) = true
      ∧ reads Config.default (.w 0x00001297) (Instr.auipc 5 1) = true
      ∧ reads Config.default (.w 0x008000EF) (Instr.jal 1 4) = true
      ∧ reads Config.default (.w 0x004280E7) (Instr.jalr 1 5 4) = true
      ∧ reads Config.default (.w 0x00208463) (Instr.beq 1 2 4) = true
      ∧ reads Config.default (.w 0xFE209EE3) (Instr.bne 1 2 (-2)) = true
      ∧ reads Config.default (.w 0x0020C463) (Instr.blt 1 2 4) = true
      ∧ reads Config.default (.w 0x0020D463) (Instr.bge 1 2 4) = true
      ∧ reads Config.default (.w 0x0020E463) (Instr.bltu 1 2 4) = true
      ∧ reads Config.default (.w 0x0020F463) (Instr.bgeu 1 2 4) = true
      ∧ reads Config.default (.w 0x00828303) (Instr.lb 6 5 8) = true
      ∧ reads Config.default (.w 0x00829303) (Instr.lh 6 5 8) = true := by
  decide

/-- 40_base_integer.md, the Example lines. -/
theorem test_words_base_2 :
    reads Config.default (.w 0xFFC2A303) (Instr.lw 6 5 (-4)) = true
      ∧ reads Config.default (.w 0x0082C303) (Instr.lbu 6 5 8) = true
      ∧ reads Config.default (.w 0x0082D303) (Instr.lhu 6 5 8) = true
      ∧ reads Config.default (.w 0x00628423) (Instr.sb 6 5 8) = true
      ∧ reads Config.default (.w 0x00629423) (Instr.sh 6 5 8) = true
      ∧ reads Config.default (.w 0xFE62AE23) (Instr.sw 6 5 (-4)) = true
      ∧ reads Config.default (.w 0xFFD28313) (Instr.addi 6 5 (-3)) = true
      ∧ reads Config.default (.w 0xFFD2A313) (Instr.slti 6 5 (-3)) = true
      ∧ reads Config.default (.w 0xFFD2B313) (Instr.sltiu 6 5 (-3)) = true
      ∧ reads Config.default (.w 0xFFD2C313) (Instr.xori 6 5 (-3)) = true
      ∧ reads Config.default (.w 0x0052E313) (Instr.ori 6 5 5) = true
      ∧ reads Config.default (.w 0xFFD2F313) (Instr.andi 6 5 (-3)) = true := by
  decide

/-- 40_base_integer.md, the Example lines. -/
theorem test_words_base_3 :
    reads Config.default (.w 0x00329313) (Instr.slli 6 5 3) = true
      ∧ reads Config.default (.w 0x0032D313) (Instr.srli 6 5 3) = true
      ∧ reads Config.default (.w 0x4032D313) (Instr.srai 6 5 3) = true
      ∧ reads Config.default (.w 0x006283B3) (Instr.add 7 5 6) = true
      ∧ reads Config.default (.w 0x406283B3) (Instr.sub 7 5 6) = true
      ∧ reads Config.default (.w 0x006293B3) (Instr.sll 7 5 6) = true
      ∧ reads Config.default (.w 0x0062A3B3) (Instr.slt 7 5 6) = true
      ∧ reads Config.default (.w 0x0062B3B3) (Instr.sltu 7 5 6) = true
      ∧ reads Config.default (.w 0x0062C3B3) (Instr.xor 7 5 6) = true
      ∧ reads Config.default (.w 0x0062D3B3) (Instr.srl 7 5 6) = true
      ∧ reads Config.default (.w 0x4062D3B3) (Instr.sra 7 5 6) = true
      ∧ reads Config.default (.w 0x0062E3B3) (Instr.or 7 5 6) = true := by
  decide

/-- 40_base_integer.md, the Example lines. -/
theorem test_words_base_4 :
    reads Config.default (.w 0x0062F3B3) (Instr.and 7 5 6) = true
      ∧ reads Config.default (.w 0x0FF0000F) (Instr.fence 0 15 15 0 0) = true
      ∧ reads Config.default (.w 0x0000100F) (Instr.fence_i 0 0 0) = true
      ∧ reads Config.default (.w 0x00000073) (Instr.ecall) = true
      ∧ reads Config.default (.w 0x00100073) (Instr.ebreak) = true
      ∧ reads Config.default (.w 0x0082E303) (Instr.lwu 6 5 8) = true
      ∧ reads Config.default (.w 0x0082B303) (Instr.ld 6 5 8) = true
      ∧ reads Config.default (.w 0x0062B423) (Instr.sd 6 5 8) = true
      ∧ reads Config.default (.w 0xFFD2831B) (Instr.addiw 6 5 (-3)) = true
      ∧ reads Config.default (.w 0x0032931B) (Instr.slliw 6 5 3) = true
      ∧ reads Config.default (.w 0x0032D31B) (Instr.srliw 6 5 3) = true
      ∧ reads Config.default (.w 0x4032D31B) (Instr.sraiw 6 5 3) = true := by
  decide

/-- 40_base_integer.md, the Example lines. -/
theorem test_words_base_5 :
    reads Config.default (.w 0x006283BB) (Instr.addw 7 5 6) = true
      ∧ reads Config.default (.w 0x406283BB) (Instr.subw 7 5 6) = true
      ∧ reads Config.default (.w 0x006293BB) (Instr.sllw 7 5 6) = true
      ∧ reads Config.default (.w 0x0062D3BB) (Instr.srlw 7 5 6) = true
      ∧ reads Config.default (.w 0x4062D3BB) (Instr.sraw 7 5 6) = true := by
  decide

/-- 41_compressed.md, the Example lines. -/
theorem test_words_compressed_1 :
    reads Config.default (.c 0x0800) (Instr.c_addi4spn 0 4) = true
      ∧ reads Config.default (.c 0x2480) (Instr.c_fld 0 1 1) = true
      ∧ reads Config.default (.c 0x40C0) (Instr.c_lw 0 1 1) = true
      ∧ reads Config.default (.c 0x6480) (Instr.c_ld 0 1 1) = true
      ∧ reads Config.default (.c 0xA480) (Instr.c_fsd 0 1 1) = true
      ∧ reads Config.default (.c 0xC0C0) (Instr.c_sw 0 1 1) = true
      ∧ reads Config.default (.c 0xE480) (Instr.c_sd 0 1 1) = true
      ∧ reads Config.default (.c 0x0001) (Instr.c_nop 0) = true
      ∧ reads Config.default (.c 0x12F5) (Instr.c_addi 5 (-3)) = true
      ∧ reads Config.default (.c 0x32F5) (Instr.c_addiw 5 (-3)) = true
      ∧ reads Config.default (.c 0x52F5) (Instr.c_li 5 (-3)) = true
      ∧ reads Config.default (.c 0x713D) (Instr.c_addi16sp (-2)) = true := by
  decide

/-- 41_compressed.md, the Example lines. -/
theorem test_words_compressed_2 :
    reads Config.default (.c 0x62FD) (Instr.c_lui 5 31) = true
      ∧ reads Config.default (.c 0x800D) (Instr.c_srli 0 3) = true
      ∧ reads Config.default (.c 0x840D) (Instr.c_srai 0 3) = true
      ∧ reads Config.default (.c 0x9875) (Instr.c_andi 0 (-3)) = true
      ∧ reads Config.default (.c 0x8C05) (Instr.c_sub 0 1) = true
      ∧ reads Config.default (.c 0x8C25) (Instr.c_xor 0 1) = true
      ∧ reads Config.default (.c 0x8C45) (Instr.c_or 0 1) = true
      ∧ reads Config.default (.c 0x8C65) (Instr.c_and 0 1) = true
      ∧ reads Config.default (.c 0x9C05) (Instr.c_subw 0 1) = true
      ∧ reads Config.default (.c 0x9C25) (Instr.c_addw 0 1) = true
      ∧ reads Config.default (.c 0xBFF5) (Instr.c_j (-2)) = true
      ∧ reads Config.default (.c 0xC401) (Instr.c_beqz 0 4) = true := by
  decide

/-- 41_compressed.md, the Example lines. -/
theorem test_words_compressed_3 :
    reads Config.default (.c 0xFC75) (Instr.c_bnez 0 (-2)) = true
      ∧ reads Config.default (.c 0x028E) (Instr.c_slli 5 3) = true
      ∧ reads Config.default (.c 0x22A2) (Instr.c_fldsp 5 1) = true
      ∧ reads Config.default (.c 0x4292) (Instr.c_lwsp 5 1) = true
      ∧ reads Config.default (.c 0x62A2) (Instr.c_ldsp 5 1) = true
      ∧ reads Config.default (.c 0x8082) (Instr.c_jr 1) = true
      ∧ reads Config.default (.c 0x829A) (Instr.c_mv 5 6) = true
      ∧ reads Config.default (.c 0x9002) (Instr.c_ebreak) = true
      ∧ reads Config.default (.c 0x9282) (Instr.c_jalr 5) = true
      ∧ reads Config.default (.c 0x929A) (Instr.c_add 5 6) = true
      ∧ reads Config.default (.c 0xA41A) (Instr.c_fsdsp 6 1) = true
      ∧ reads Config.default (.c 0xC21A) (Instr.c_swsp 6 1) = true := by
  decide

/-- 41_compressed.md, the Example lines. -/
theorem test_words_compressed_4 :
    reads Config.default (.c 0xE41A) (Instr.c_sdsp 6 1) = true := by
  decide

/-- 41_compressed.md, the Example lines. -/
theorem test_words_compressed_rv32_1 :
    reads Config.default32 (.c 0x60C0) (Instr.c_flw 0 1 1) = true
      ∧ reads Config.default32 (.c 0xE0C0) (Instr.c_fsw 0 1 1) = true
      ∧ reads Config.default32 (.c 0x2021) (Instr.c_jal 4) = true
      ∧ reads Config.default32 (.c 0x6292) (Instr.c_flwsp 5 1) = true
      ∧ reads Config.default32 (.c 0xE21A) (Instr.c_fswsp 6 1) = true := by
  decide

/-- 42_muldiv.md, the Example lines. -/
theorem test_words_muldiv_1 :
    reads Config.default (.w 0x026283B3) (Instr.mul 7 5 6) = true
      ∧ reads Config.default (.w 0x026293B3) (Instr.mulh 7 5 6) = true
      ∧ reads Config.default (.w 0x0262A3B3) (Instr.mulhsu 7 5 6) = true
      ∧ reads Config.default (.w 0x0262B3B3) (Instr.mulhu 7 5 6) = true
      ∧ reads Config.default (.w 0x0262C3B3) (Instr.div 7 5 6) = true
      ∧ reads Config.default (.w 0x0262D3B3) (Instr.divu 7 5 6) = true
      ∧ reads Config.default (.w 0x0262E3B3) (Instr.rem 7 5 6) = true
      ∧ reads Config.default (.w 0x0262F3B3) (Instr.remu 7 5 6) = true
      ∧ reads Config.default (.w 0x026283BB) (Instr.mulw 7 5 6) = true
      ∧ reads Config.default (.w 0x0262C3BB) (Instr.divw 7 5 6) = true
      ∧ reads Config.default (.w 0x0262D3BB) (Instr.divuw 7 5 6) = true
      ∧ reads Config.default (.w 0x0262E3BB) (Instr.remw 7 5 6) = true := by
  decide

/-- 42_muldiv.md, the Example lines. -/
theorem test_words_muldiv_2 :
    reads Config.default (.w 0x0262F3BB) (Instr.remuw 7 5 6) = true := by
  decide

/-- 43_atomics.md, the Example lines. -/
theorem test_words_atomics_1 :
    reads Config.default (.w 0x1002A32F) (Instr.lr_w 6 5 0 0) = true
      ∧ reads Config.default (.w 0x1862A3AF) (Instr.sc_w 7 5 6 0 0) = true
      ∧ reads Config.default (.w 0x0862A3AF) (Instr.amoswap_w 7 5 6 0 0) = true
      ∧ reads Config.default (.w 0x0062A3AF) (Instr.amoadd_w 7 5 6 0 0) = true
      ∧ reads Config.default (.w 0x2062A3AF) (Instr.amoxor_w 7 5 6 0 0) = true
      ∧ reads Config.default (.w 0x6062A3AF) (Instr.amoand_w 7 5 6 0 0) = true
      ∧ reads Config.default (.w 0x4062A3AF) (Instr.amoor_w 7 5 6 0 0) = true
      ∧ reads Config.default (.w 0x8062A3AF) (Instr.amomin_w 7 5 6 0 0) = true
      ∧ reads Config.default (.w 0xA062A3AF) (Instr.amomax_w 7 5 6 0 0) = true
      ∧ reads Config.default (.w 0xC062A3AF) (Instr.amominu_w 7 5 6 0 0) = true
      ∧ reads Config.default (.w 0xE062A3AF) (Instr.amomaxu_w 7 5 6 0 0) = true
      ∧ reads Config.default (.w 0x1002B32F) (Instr.lr_d 6 5 0 0) = true := by
  decide

/-- 43_atomics.md, the Example lines. -/
theorem test_words_atomics_2 :
    reads Config.default (.w 0x1862B3AF) (Instr.sc_d 7 5 6 0 0) = true
      ∧ reads Config.default (.w 0x0862B3AF) (Instr.amoswap_d 7 5 6 0 0) = true
      ∧ reads Config.default (.w 0x0062B3AF) (Instr.amoadd_d 7 5 6 0 0) = true
      ∧ reads Config.default (.w 0x2062B3AF) (Instr.amoxor_d 7 5 6 0 0) = true
      ∧ reads Config.default (.w 0x6062B3AF) (Instr.amoand_d 7 5 6 0 0) = true
      ∧ reads Config.default (.w 0x4062B3AF) (Instr.amoor_d 7 5 6 0 0) = true
      ∧ reads Config.default (.w 0x8062B3AF) (Instr.amomin_d 7 5 6 0 0) = true
      ∧ reads Config.default (.w 0xA062B3AF) (Instr.amomax_d 7 5 6 0 0) = true
      ∧ reads Config.default (.w 0xC062B3AF) (Instr.amominu_d 7 5 6 0 0) = true
      ∧ reads Config.default (.w 0xE062B3AF) (Instr.amomaxu_d 7 5 6 0 0) = true := by
  decide

/-- 44_float_single.md, the Example lines. -/
theorem test_words_single_1 :
    reads Config.default (.w 0x0082A187) (Instr.flw 3 5 8) = true
      ∧ reads Config.default (.w 0x0032A427) (Instr.fsw 3 5 8) = true
      ∧ reads Config.default (.w 0x1820F243) (Instr.fmadd_s 4 1 2 3 7) = true
      ∧ reads Config.default (.w 0x1820F247) (Instr.fmsub_s 4 1 2 3 7) = true
      ∧ reads Config.default (.w 0x1820F24B) (Instr.fnmsub_s 4 1 2 3 7) = true
      ∧ reads Config.default (.w 0x1820F24F) (Instr.fnmadd_s 4 1 2 3 7) = true
      ∧ reads Config.default (.w 0x0020F1D3) (Instr.fadd_s 3 1 2 7) = true
      ∧ reads Config.default (.w 0x0820F1D3) (Instr.fsub_s 3 1 2 7) = true
      ∧ reads Config.default (.w 0x1020F1D3) (Instr.fmul_s 3 1 2 7) = true
      ∧ reads Config.default (.w 0x1820F1D3) (Instr.fdiv_s 3 1 2 7) = true
      ∧ reads Config.default (.w 0x5800F1D3) (Instr.fsqrt_s 3 1 7) = true
      ∧ reads Config.default (.w 0x202081D3) (Instr.fsgnj_s 3 1 2) = true := by
  decide

/-- 44_float_single.md, the Example lines. -/
theorem test_words_single_2 :
    reads Config.default (.w 0x202091D3) (Instr.fsgnjn_s 3 1 2) = true
      ∧ reads Config.default (.w 0x2020A1D3) (Instr.fsgnjx_s 3 1 2) = true
      ∧ reads Config.default (.w 0x282081D3) (Instr.fmin_s 3 1 2) = true
      ∧ reads Config.default (.w 0x282091D3) (Instr.fmax_s 3 1 2) = true
      ∧ reads Config.default (.w 0xC0009353) (Instr.fcvt_w_s 6 1 1) = true
      ∧ reads Config.default (.w 0xC0109353) (Instr.fcvt_wu_s 6 1 1) = true
      ∧ reads Config.default (.w 0xE0008353) (Instr.fmv_x_w 6 1) = true
      ∧ reads Config.default (.w 0xA020A353) (Instr.feq_s 6 1 2) = true
      ∧ reads Config.default (.w 0xA0209353) (Instr.flt_s 6 1 2) = true
      ∧ reads Config.default (.w 0xA0208353) (Instr.fle_s 6 1 2) = true
      ∧ reads Config.default (.w 0xE0009353) (Instr.fclass_s 6 1) = true
      ∧ reads Config.default (.w 0xD002F1D3) (Instr.fcvt_s_w 3 5 7) = true := by
  decide

/-- 44_float_single.md, the Example lines. -/
theorem test_words_single_3 :
    reads Config.default (.w 0xD012F1D3) (Instr.fcvt_s_wu 3 5 7) = true
      ∧ reads Config.default (.w 0xF00281D3) (Instr.fmv_w_x 3 5) = true
      ∧ reads Config.default (.w 0xC0209353) (Instr.fcvt_l_s 6 1 1) = true
      ∧ reads Config.default (.w 0xC0309353) (Instr.fcvt_lu_s 6 1 1) = true
      ∧ reads Config.default (.w 0xD022F1D3) (Instr.fcvt_s_l 3 5 7) = true
      ∧ reads Config.default (.w 0xD032F1D3) (Instr.fcvt_s_lu 3 5 7) = true := by
  decide

/-- 45_float_double.md, the Example lines. -/
theorem test_words_double_1 :
    reads Config.default (.w 0x0082B187) (Instr.fld 3 5 8) = true
      ∧ reads Config.default (.w 0x0032B427) (Instr.fsd 3 5 8) = true
      ∧ reads Config.default (.w 0x1A20F243) (Instr.fmadd_d 4 1 2 3 7) = true
      ∧ reads Config.default (.w 0x1A20F247) (Instr.fmsub_d 4 1 2 3 7) = true
      ∧ reads Config.default (.w 0x1A20F24B) (Instr.fnmsub_d 4 1 2 3 7) = true
      ∧ reads Config.default (.w 0x1A20F24F) (Instr.fnmadd_d 4 1 2 3 7) = true
      ∧ reads Config.default (.w 0x0220F1D3) (Instr.fadd_d 3 1 2 7) = true
      ∧ reads Config.default (.w 0x0A20F1D3) (Instr.fsub_d 3 1 2 7) = true
      ∧ reads Config.default (.w 0x1220F1D3) (Instr.fmul_d 3 1 2 7) = true
      ∧ reads Config.default (.w 0x1A20F1D3) (Instr.fdiv_d 3 1 2 7) = true
      ∧ reads Config.default (.w 0x5A00F1D3) (Instr.fsqrt_d 3 1 7) = true
      ∧ reads Config.default (.w 0x222081D3) (Instr.fsgnj_d 3 1 2) = true := by
  decide

/-- 45_float_double.md, the Example lines. -/
theorem test_words_double_2 :
    reads Config.default (.w 0x222091D3) (Instr.fsgnjn_d 3 1 2) = true
      ∧ reads Config.default (.w 0x2220A1D3) (Instr.fsgnjx_d 3 1 2) = true
      ∧ reads Config.default (.w 0x2A2081D3) (Instr.fmin_d 3 1 2) = true
      ∧ reads Config.default (.w 0x2A2091D3) (Instr.fmax_d 3 1 2) = true
      ∧ reads Config.default (.w 0x4010F1D3) (Instr.fcvt_s_d 3 1 7) = true
      ∧ reads Config.default (.w 0x420081D3) (Instr.fcvt_d_s 3 1 0) = true
      ∧ reads Config.default (.w 0xA220A353) (Instr.feq_d 6 1 2) = true
      ∧ reads Config.default (.w 0xA2209353) (Instr.flt_d 6 1 2) = true
      ∧ reads Config.default (.w 0xA2208353) (Instr.fle_d 6 1 2) = true
      ∧ reads Config.default (.w 0xE2009353) (Instr.fclass_d 6 1) = true
      ∧ reads Config.default (.w 0xC2009353) (Instr.fcvt_w_d 6 1 1) = true
      ∧ reads Config.default (.w 0xC2109353) (Instr.fcvt_wu_d 6 1 1) = true := by
  decide

/-- 45_float_double.md, the Example lines. -/
theorem test_words_double_3 :
    reads Config.default (.w 0xD202F1D3) (Instr.fcvt_d_w 3 5 7) = true
      ∧ reads Config.default (.w 0xD212F1D3) (Instr.fcvt_d_wu 3 5 7) = true
      ∧ reads Config.default (.w 0xC2209353) (Instr.fcvt_l_d 6 1 1) = true
      ∧ reads Config.default (.w 0xC2309353) (Instr.fcvt_lu_d 6 1 1) = true
      ∧ reads Config.default (.w 0xE2008353) (Instr.fmv_x_d 6 1) = true
      ∧ reads Config.default (.w 0xD222F1D3) (Instr.fcvt_d_l 3 5 7) = true
      ∧ reads Config.default (.w 0xD232F1D3) (Instr.fcvt_d_lu 3 5 7) = true
      ∧ reads Config.default (.w 0xF20281D3) (Instr.fmv_d_x 3 5) = true := by
  decide

/-- 46_bitmanip.md, the Example lines. -/
theorem test_words_bitmanip_1 :
    reads Config.default (.w 0x2062A3B3) (Instr.sh1add 7 5 6) = true
      ∧ reads Config.default (.w 0x2062C3B3) (Instr.sh2add 7 5 6) = true
      ∧ reads Config.default (.w 0x2062E3B3) (Instr.sh3add 7 5 6) = true
      ∧ reads Config.default (.w 0x086283BB) (Instr.add_uw 7 5 6) = true
      ∧ reads Config.default (.w 0x2062A3BB) (Instr.sh1add_uw 7 5 6) = true
      ∧ reads Config.default (.w 0x2062C3BB) (Instr.sh2add_uw 7 5 6) = true
      ∧ reads Config.default (.w 0x2062E3BB) (Instr.sh3add_uw 7 5 6) = true
      ∧ reads Config.default (.w 0x0842931B) (Instr.slli_uw 6 5 4) = true
      ∧ reads Config.default (.w 0x4062F3B3) (Instr.andn 7 5 6) = true
      ∧ reads Config.default (.w 0x4062E3B3) (Instr.orn 7 5 6) = true
      ∧ reads Config.default (.w 0x4062C3B3) (Instr.xnor 7 5 6) = true
      ∧ reads Config.default (.w 0x60029313) (Instr.clz 6 5) = true := by
  decide

/-- 46_bitmanip.md, the Example lines. -/
theorem test_words_bitmanip_2 :
    reads Config.default (.w 0x60129313) (Instr.ctz 6 5) = true
      ∧ reads Config.default (.w 0x60229313) (Instr.cpop 6 5) = true
      ∧ reads Config.default (.w 0x6002931B) (Instr.clzw 6 5) = true
      ∧ reads Config.default (.w 0x6012931B) (Instr.ctzw 6 5) = true
      ∧ reads Config.default (.w 0x6022931B) (Instr.cpopw 6 5) = true
      ∧ reads Config.default (.w 0x0A62E3B3) (Instr.max 7 5 6) = true
      ∧ reads Config.default (.w 0x0A62F3B3) (Instr.maxu 7 5 6) = true
      ∧ reads Config.default (.w 0x0A62C3B3) (Instr.min 7 5 6) = true
      ∧ reads Config.default (.w 0x0A62D3B3) (Instr.minu 7 5 6) = true
      ∧ reads Config.default (.w 0x60429313) (Instr.sext_b 6 5) = true
      ∧ reads Config.default (.w 0x60529313) (Instr.sext_h 6 5) = true
      ∧ reads Config.default (.w 0x0802C33B) (Instr.zext_h 6 5) = true := by
  decide

/-- 46_bitmanip.md, the Example lines. -/
theorem test_words_bitmanip_3 :
    reads Config.default (.w 0x606293B3) (Instr.rol 7 5 6) = true
      ∧ reads Config.default (.w 0x6062D3B3) (Instr.ror 7 5 6) = true
      ∧ reads Config.default (.w 0x6042D313) (Instr.rori 6 5 4) = true
      ∧ reads Config.default (.w 0x606293BB) (Instr.rolw 7 5 6) = true
      ∧ reads Config.default (.w 0x6062D3BB) (Instr.rorw 7 5 6) = true
      ∧ reads Config.default (.w 0x6012D31B) (Instr.roriw 6 5 1) = true
      ∧ reads Config.default (.w 0x2872D313) (Instr.orc_b 6 5) = true
      ∧ reads Config.default (.w 0x6B82D313) (Instr.rev8 6 5) = true
      ∧ reads Config.default (.w 0x0A6293B3) (Instr.clmul 7 5 6) = true
      ∧ reads Config.default (.w 0x0A62B3B3) (Instr.clmulh 7 5 6) = true
      ∧ reads Config.default (.w 0x0A62A3B3) (Instr.clmulr 7 5 6) = true
      ∧ reads Config.default (.w 0x486293B3) (Instr.bclr 7 5 6) = true := by
  decide

/-- 46_bitmanip.md, the Example lines. -/
theorem test_words_bitmanip_4 :
    reads Config.default (.w 0x4BF29313) (Instr.bclri 6 5 63) = true
      ∧ reads Config.default (.w 0x4862D3B3) (Instr.bext 7 5 6) = true
      ∧ reads Config.default (.w 0x4BF2D313) (Instr.bexti 6 5 63) = true
      ∧ reads Config.default (.w 0x686293B3) (Instr.binv 7 5 6) = true
      ∧ reads Config.default (.w 0x6BF29313) (Instr.binvi 6 5 63) = true
      ∧ reads Config.default (.w 0x286293B3) (Instr.bset 7 5 6) = true
      ∧ reads Config.default (.w 0x2BF29313) (Instr.bseti 6 5 63) = true := by
  decide

/-- 47_system_csr.md, the Example lines. -/
theorem test_words_system_1 :
    reads Config.default (.w 0x340312F3) (Instr.csrrw 5 0x340 6) = true
      ∧ reads Config.default (.w 0x300022F3) (Instr.csrrs 5 0x300 0) = true
      ∧ reads Config.default (.w 0x300332F3) (Instr.csrrc 5 0x300 6) = true
      ∧ reads Config.default (.w 0x0021D073) (Instr.csrrwi 0 0x002 3) = true
      ∧ reads Config.default (.w 0x300462F3) (Instr.csrrsi 5 0x300 8) = true
      ∧ reads Config.default (.w 0x30047073) (Instr.csrrci 0 0x300 8) = true
      ∧ reads Config.default (.w 0x30200073) (Instr.mret) = true
      ∧ reads Config.default (.w 0x10200073) (Instr.sret) = true
      ∧ reads Config.default (.w 0x10500073) (Instr.wfi) = true
      ∧ reads Config.default (.w 0x12000073) (Instr.sfence_vma 0 0) = true := by
  decide

/-- 43_atomics.md R425: `aq` and `rl` are bits 26 and 25 and are kept: `amoadd.w.aqrl x7, x6, (x5)` and `lr.d.aq x6, (x5)`. -/
theorem test_words_atomics_order : reads Config.default (.w 0x0662A3AF) (Instr.amoadd_w 7 5 6 1 1) = true
    ∧ reads Config.default (.w 0x1402B32F) (Instr.lr_d 6 5 1 0) = true := by decide

/-! One word a family, its fields written out as the Encoding line of its rule lists them. -/

/-- R290 (SRAI at XLEN = 64): 010000 | shamt 100001 | rs1 5 | 101 | rd 6 | 0010011. R269 (BEQ): imm[12|10:5] | rs2 | rs1 | 000 | imm[4:1|11] |
1100011, offset -2. R267 (JAL): imm[20|10:1|11|19:12], offset -4. -/
theorem test_fields_base :
    reads Config.default (.w (0b010000#6 ++ 0b100001#6 ++ 5#5 ++ 0b101#3 ++ 6#5 ++ 0b0010011#7)) (Instr.srai 6 5 33) = true
      ∧ reads Config.default (.w (0b1#1 ++ 0b111111#6 ++ 2#5 ++ 1#5 ++ 0b000#3 ++ 0b1111#4 ++ 0b1#1 ++ 0b1100011#7))
          (Instr.beq 1 2 (-1)) = true
      ∧ reads Config.default (.w (0b1#1 ++ 0b1111111110#10 ++ 0b1#1 ++ 0b11111111#8 ++ 3#5 ++ 0b1101111#7)) (Instr.jal 3 (-2)) = true := by
  decide

/-- R347 (C.LW): 010 | uimm[5:3] | rs1' | uimm[2|6] | rd' | 00, offset 68; R370 (C.J): 101 | imm[11|4|9:8|10|6|7|3:1|5] | 01, offset 2. -/
theorem test_fields_compressed :
    reads Config.default (.c (0b010#3 ++ 0b000#3 ++ 1#3 ++ 0b1#1 ++ 0b1#1 ++ 2#3 ++ 0b00#2)) (Instr.c_lw 2 1 17) = true
      ∧ reads Config.default (.c (0b101#3 ++ 0b00000000010#11 ++ 0b01#2)) (Instr.c_j 1) = true := by decide

/-- R404 (MULHU): 0000001 | rs2 | rs1 | 011 | rd | 0110011. -/
theorem test_fields_muldiv :
    reads Config.default (.w (1#7 ++ 31#5 ++ 30#5 ++ 0b011#3 ++ 29#5 ++ 0b0110011#7)) (Instr.mulhu 29 30 31) = true := by decide

/-- R435 (AMOSWAP.W): 00001 | aq | rl | rs2 | rs1 | 010 | rd | 0101111. -/
theorem test_fields_atomics :
    reads Config.default (.w (0b00001#5 ++ 0b1#1 ++ 0b0#1 ++ 6#5 ++ 5#5 ++ 0b010#3 ++ 7#5 ++ 0b0101111#7))
      (Instr.amoswap_w 7 5 6 1 0) = true := by decide

/-- R472 (FMADD.S): rs3 | 00 | rs2 | rs1 | rm | rd | 1000011; R530 (FDIV.D): 0001101 | rs2 | rs1 | rm | rd | 1010011. -/
theorem test_fields_float :
    reads Config.default (.w (4#5 ++ 0b00#2 ++ 3#5 ++ 2#5 ++ 1#3 ++ 1#5 ++ 0b1000011#7)) (Instr.fmadd_s 1 2 3 4 1) = true
      ∧ reads Config.default (.w (0b0001101#7 ++ 3#5 ++ 2#5 ++ 4#3 ++ 1#5 ++ 0b1010011#7)) (Instr.fdiv_d 1 2 3 4) = true := by decide

/-- R583 (CLZ): 011000000000 | rs1 | 001 | rd | 0010011. -/
theorem test_fields_bitmanip :
    reads Config.default (.w (0b011000000000#12 ++ 5#5 ++ 0b001#3 ++ 6#5 ++ 0b0010011#7)) (Instr.clz 6 5) = true := by decide

/-- R635 (CSRRWI): csr | uimm | 101 | rd | 1110011; R644 (SFENCE.VMA): 0001001 | rs2 | rs1 | 000 | 00000 | 1110011. -/
theorem test_fields_system :
    reads Config.default (.w (0x341#12 ++ 31#5 ++ 0b101#3 ++ 1#5 ++ 0b1110011#7)) (Instr.csrrwi 1 0x341 31) = true
      ∧ reads Config.default (.w (0b0001001#7 ++ 6#5 ++ 5#5 ++ 0b000#3 ++ 0#5 ++ 0b1110011#7)) (Instr.sfence_vma 5 6) = true := by decide

/-- R207: the all-zero parcel, the all-ones word and reserved field values select no row. -/
theorem test_words_reserved : decode Config.default (.c 0) = none ∧ decode Config.default (.w 0xFFFFFFFF) = none
    ∧ decode Config.default (.w 0x0020D1D3) = none ∧ decode Config.default (.c 0x6101) = none
    ∧ decode Config.default32 (.w 0x02029313) = none := by decide

/-! ## One step of every instruction: the Example lines (and, for the compressed loads and stores, rows CC3 to CC57 and FP135 to FP142 of the
spec's vectors), at XLEN = 64 where the row does not say otherwise -/

/-- 40_base_integer.md, the Example lines. -/
theorem test_run_base_1 : ([
    { word := 0x123452B7, outX := [(5, 0x12345000)] },
    { word := 0x1297, outX := [(5, 0x2000)] },
    { word := 0x8000EF, next := 0x1008, outX := [(1, 0x1004)] },
    { word := 0x4280E7, xs := [(5, 0x2001)], next := 0x2004, outX := [(1, 0x1004)] },
    { word := 0x208463, xs := [(1, 0x7), (2, 0x7)], next := 0x1008 },
    { word := 0xFE209EE3, xs := [(1, 0x1), (2, 0x0)], pc := 0x1008 },
    { word := 0x20C463, xs := [(1, 0xFFFFFFFFFFFFFFFF), (2, 0x0)], next := 0x1008 },
    { word := 0x20D463, xs := [(1, 0xFFFFFFFFFFFFFFFF), (2, 0x0)] }] : List Row).all (Row.ok Config.default) = true := by
  decide

/-- 40_base_integer.md, the Example lines. -/
theorem test_run_base_2 : ([
    { word := 0x20E463, xs := [(1, 0xFFFFFFFFFFFFFFFF), (2, 0x0)] },
    { word := 0x20F463, xs := [(1, 0xFFFFFFFFFFFFFFFF), (2, 0x0)], next := 0x1008 },
    { word := 0x828303, xs := [(5, 0x2000)], ms := [(0x2008, 1, 0x80)], outX := [(6, 0xFFFFFFFFFFFFFF80)] },
    { word := 0x829303, xs := [(5, 0x2000)], ms := [(0x2008, 2, 0xF234)], outX := [(6, 0xFFFFFFFFFFFFF234)] },
    { word := 0xFFC2A303, xs := [(5, 0x2004)], ms := [(0x2000, 4, 0x92345678)], outX := [(6, 0xFFFFFFFF92345678)] },
    { word := 0x82C303, xs := [(5, 0x2000)], ms := [(0x2008, 1, 0x80)], outX := [(6, 0x80)] },
    { word := 0x82D303, xs := [(5, 0x2000)], ms := [(0x2008, 2, 0xF234)], outX := [(6, 0xF234)] },
    { word := 0x628423, xs := [(5, 0x2000), (6, 0x1FF)], outM := [(0x2008, 1, 0xFF), (0x2009, 1, 0x0)] }] : List Row).all (Row.ok Config.default) = true := by
  decide

/-- 40_base_integer.md, the Example lines. -/
theorem test_run_base_3 : ([
    { word := 0x629423, xs := [(5, 0x2000), (6, 0xABCD)], outM := [(0x2008, 2, 0xABCD)] },
    { word := 0xFE62AE23, xs := [(5, 0x2004), (6, 0xFFFFFFFF92345678)], outM := [(0x2000, 8, 0x92345678)] },
    { word := 0xFFD28313, xs := [(5, 0x5)], outX := [(6, 0x2)] },
    { word := 0xFFD2A313, xs := [(5, 0xFFFFFFFFFFFFFFFC)], outX := [(6, 0x1)] },
    { word := 0xFFD2B313, xs := [(5, 0x5)], outX := [(6, 0x1)] },
    { word := 0xFFD2C313, xs := [(5, 0x5)], outX := [(6, 0xFFFFFFFFFFFFFFF8)] },
    { word := 0x52E313, xs := [(5, 0x10)], outX := [(6, 0x15)] },
    { word := 0xFFD2F313, xs := [(5, 0xFF)], outX := [(6, 0xFD)] }] : List Row).all (Row.ok Config.default) = true := by
  decide

/-- 40_base_integer.md, the Example lines. -/
theorem test_run_base_4 : ([
    { word := 0x329313, xs := [(5, 0x8000000000000001)], outX := [(6, 0x8)] },
    { word := 0x32D313, xs := [(5, 0x8000000000000000)], outX := [(6, 0x1000000000000000)] },
    { word := 0x4032D313, xs := [(5, 0x8000000000000000)], outX := [(6, 0xF000000000000000)] },
    { word := 0x6283B3, xs := [(5, 0xFFFFFFFFFFFFFFFF), (6, 0x1)], outX := [(7, 0x0)] },
    { word := 0x406283B3, xs := [(5, 0x0), (6, 0x1)], outX := [(7, 0xFFFFFFFFFFFFFFFF)] },
    { word := 0x6293B3, xs := [(5, 0x1), (6, 0x41)], outX := [(7, 0x2)] },
    { word := 0x62A3B3, xs := [(5, 0xFFFFFFFFFFFFFFFF), (6, 0x1)], outX := [(7, 0x1)] },
    { word := 0x62B3B3, xs := [(5, 0xFFFFFFFFFFFFFFFF), (6, 0x1)], outX := [(7, 0x0)] }] : List Row).all (Row.ok Config.default) = true := by
  decide

/-- 40_base_integer.md, the Example lines. -/
theorem test_run_base_5 : ([
    { word := 0x62C3B3, xs := [(5, 0xF0), (6, 0xFF)], outX := [(7, 0xF)] },
    { word := 0x62D3B3, xs := [(5, 0x8000000000000000), (6, 0x3F)], outX := [(7, 0x1)] },
    { word := 0x4062D3B3, xs := [(5, 0x8000000000000000), (6, 0x3F)], outX := [(7, 0xFFFFFFFFFFFFFFFF)] },
    { word := 0x62E3B3, xs := [(5, 0xF0), (6, 0xF)], outX := [(7, 0xFF)] },
    { word := 0x62F3B3, xs := [(5, 0xF0), (6, 0x3C)], outX := [(7, 0x30)] },
    { word := 0xFF0000F },
    { word := 0x100F },
    { word := 0x82E303, xs := [(5, 0x2000)], ms := [(0x2008, 4, 0x92345678)], outX := [(6, 0x92345678)] }] : List Row).all (Row.ok Config.default) = true := by
  decide

/-- 40_base_integer.md, the Example lines. -/
theorem test_run_base_6 : ([
    { word := 0x82B303, xs := [(5, 0x2000)], ms := [(0x2008, 8, 0x123456789ABCDEF)], outX := [(6, 0x123456789ABCDEF)] },
    { word := 0x62B423, xs := [(5, 0x2000), (6, 0x123456789ABCDEF)], outM := [(0x2008, 8, 0x123456789ABCDEF)] },
    { word := 0xFFD2831B, xs := [(5, 0x180000002)], outX := [(6, 0x7FFFFFFF)] },
    { word := 0x32931B, xs := [(5, 0x10000000)], outX := [(6, 0xFFFFFFFF80000000)] },
    { word := 0x32D31B, xs := [(5, 0xFFFFFFFF80000000)], outX := [(6, 0x10000000)] },
    { word := 0x4032D31B, xs := [(5, 0x80000000)], outX := [(6, 0xFFFFFFFFF0000000)] },
    { word := 0x6283BB, xs := [(5, 0x7FFFFFFF), (6, 0x1)], outX := [(7, 0xFFFFFFFF80000000)] },
    { word := 0x406283BB, xs := [(5, 0x0), (6, 0x1)], outX := [(7, 0xFFFFFFFFFFFFFFFF)] }] : List Row).all (Row.ok Config.default) = true := by
  decide

/-- 40_base_integer.md, the Example lines. -/
theorem test_run_base_7 : ([
    { word := 0x6293BB, xs := [(5, 0x1), (6, 0x3F)], outX := [(7, 0xFFFFFFFF80000000)] },
    { word := 0x62D3BB, xs := [(5, 0x80000000), (6, 0x1F)], outX := [(7, 0x1)] },
    { word := 0x4062D3BB, xs := [(5, 0x80000000), (6, 0x1F)], outX := [(7, 0xFFFFFFFFFFFFFFFF)] }] : List Row).all (Row.ok Config.default) = true := by
  decide

/-- 41_compressed.md, the Example lines. -/
theorem test_run_compressed_1 : ([
    { word := 0x800, xs := [(2, 0x8000)], next := 0x1002, outX := [(8, 0x8010)] },
    { word := 0x12F5, xs := [(5, 0x5)], next := 0x1002, outX := [(5, 0x2)] },
    { word := 0x32F5, xs := [(5, 0x100000002)], next := 0x1002, outX := [(5, 0xFFFFFFFFFFFFFFFF)] },
    { word := 0x52F5, next := 0x1002, outX := [(5, 0xFFFFFFFFFFFFFFFD)] },
    { word := 0x713D, xs := [(2, 0x8000)], next := 0x1002, outX := [(2, 0x7FE0)] },
    { word := 0x62FD, next := 0x1002, outX := [(5, 0x1F000)] },
    { word := 0x800D, xs := [(8, 0x80)], next := 0x1002, outX := [(8, 0x10)] },
    { word := 0x840D, xs := [(8, 0xFFFFFFFFFFFFFF80)], next := 0x1002, outX := [(8, 0xFFFFFFFFFFFFFFF0)] }] : List Row).all (Row.ok Config.default) = true := by
  decide

/-- 41_compressed.md, the Example lines. -/
theorem test_run_compressed_2 : ([
    { word := 0x9875, xs := [(8, 0xFF)], next := 0x1002, outX := [(8, 0xFD)] },
    { word := 0x8C05, xs := [(8, 0x5), (9, 0x7)], next := 0x1002, outX := [(8, 0xFFFFFFFFFFFFFFFE)] },
    { word := 0x8C25, xs := [(8, 0xF0), (9, 0xFF)], next := 0x1002, outX := [(8, 0xF)] },
    { word := 0x8C45, xs := [(8, 0xF0), (9, 0xF)], next := 0x1002, outX := [(8, 0xFF)] },
    { word := 0x8C65, xs := [(8, 0xF0), (9, 0x3C)], next := 0x1002, outX := [(8, 0x30)] },
    { word := 0x9C05, xs := [(8, 0x0), (9, 0x1)], next := 0x1002, outX := [(8, 0xFFFFFFFFFFFFFFFF)] },
    { word := 0x9C25, xs := [(8, 0x7FFFFFFF), (9, 0x1)], next := 0x1002, outX := [(8, 0xFFFFFFFF80000000)] },
    { word := 0xBFF5, pc := 0x1004, next := 0x1000 }] : List Row).all (Row.ok Config.default) = true := by
  decide

/-- 41_compressed.md, the Example lines. -/
theorem test_run_compressed_3 : ([
    { word := 0xC401, xs := [(8, 0x0)], next := 0x1008 },
    { word := 0xFC75, xs := [(8, 0x1)], pc := 0x1004, next := 0x1000 },
    { word := 0x28E, xs := [(5, 0x1)], next := 0x1002, outX := [(5, 0x8)] },
    { word := 0x8082, xs := [(1, 0x1005)] },
    { word := 0x829A, xs := [(6, 0x9)], next := 0x1002, outX := [(5, 0x9)] },
    { word := 0x9282, xs := [(5, 0x2000)], next := 0x2000, outX := [(1, 0x1002)] },
    { word := 0x929A, xs := [(5, 0x2), (6, 0x3)], next := 0x1002, outX := [(5, 0x5)] },
    { word := 0x40C8, xs := [(9, 0x2000)], ms := [(0x2000, 8, 0xF7E6D5C4B3A29180)], next := 0x1002, outX := [(10, 0xFFFFFFFFF7E6D5C4)] }] : List Row).all (Row.ok Config.default) = true := by
  decide

/-- 41_compressed.md, the Example lines. -/
theorem test_run_compressed_4 : ([
    { word := 0x6088, xs := [(9, 0x2000)], ms := [(0x2000, 8, 0xF7E6D5C4B3A29180)], next := 0x1002, outX := [(10, 0xF7E6D5C4B3A29180)] },
    { word := 0xC488, xs := [(9, 0x2000), (10, 0x1234567890ABCDEF)], next := 0x1002, outM := [(0x2008, 8, 0x90ABCDEF)] },
    { word := 0xE488, xs := [(9, 0x2000), (10, 0x1234567890ABCDEF)], next := 0x1002, outM := [(0x2008, 8, 0x1234567890ABCDEF)] },
    { word := 0x1, next := 0x1002 },
    { word := 0x52FE, xs := [(2, 0x3000)], ms := [(0x30FC, 4, 0x80000001)], next := 0x1002, outX := [(5, 0xFFFFFFFF80000001)] },
    { word := 0x72FE, xs := [(2, 0x3000)], ms := [(0x31F8, 8, 0x8000000000000001)], next := 0x1002, outX := [(5, 0x8000000000000001)] },
    { word := 0xDF9A, xs := [(2, 0x3000), (6, 0x1234567890ABCDEF)], next := 0x1002, outM := [(0x30FC, 8, 0x90ABCDEF)] },
    { word := 0xFF9A, xs := [(2, 0x3000), (6, 0x1234567890ABCDEF)], next := 0x1002, outM := [(0x31F8, 8, 0x1234567890ABCDEF)] }] : List Row).all (Row.ok Config.default) = true := by
  decide

/-- 41_compressed.md, the Example lines. -/
theorem test_run_compressed_5 : ([
    { word := 0x2504, xs := [(10, 0x2000)], ms := [(0x2008, 8, 0x3FF0000000000000)], next := 0x1002, outF := [(9, 0x3FF0000000000000)] },
    { word := 0xA504, xs := [(10, 0x2000)], fs := [(9, 0x4008000000000000)], next := 0x1002, outM := [(0x2008, 8, 0x4008000000000000)] },
    { word := 0x21C2, xs := [(2, 0x3000)], ms := [(0x3010, 8, 0x4000000000000000)], next := 0x1002, outF := [(3, 0x4000000000000000)] },
    { word := 0xA80E, xs := [(2, 0x3000)], fs := [(3, 0x4000000000000000)], next := 0x1002, outM := [(0x3010, 8, 0x4000000000000000)] }] : List Row).all (Row.ok Config.default) = true := by
  decide

/-- 42_muldiv.md, the Example lines. -/
theorem test_run_muldiv_1 : ([
    { word := 0x26283B3, xs := [(5, 0xFFFFFFFFFFFFFFFF), (6, 0x2)], outX := [(7, 0xFFFFFFFFFFFFFFFE)] },
    { word := 0x26293B3, xs := [(5, 0x8000000000000000), (6, 0x2)], outX := [(7, 0xFFFFFFFFFFFFFFFF)] },
    { word := 0x262A3B3, xs := [(5, 0xFFFFFFFFFFFFFFFF), (6, 0xFFFFFFFFFFFFFFFF)], outX := [(7, 0xFFFFFFFFFFFFFFFF)] },
    { word := 0x262B3B3, xs := [(5, 0xFFFFFFFFFFFFFFFF), (6, 0xFFFFFFFFFFFFFFFF)], outX := [(7, 0xFFFFFFFFFFFFFFFE)] },
    { word := 0x262C3B3, xs := [(5, 0xFFFFFFFFFFFFFFF9), (6, 0x2)], outX := [(7, 0xFFFFFFFFFFFFFFFD)] },
    { word := 0x262D3B3, xs := [(5, 0xFFFFFFFFFFFFFFF9), (6, 0x2)], outX := [(7, 0x7FFFFFFFFFFFFFFC)] },
    { word := 0x262E3B3, xs := [(5, 0xFFFFFFFFFFFFFFF9), (6, 0x2)], outX := [(7, 0xFFFFFFFFFFFFFFFF)] },
    { word := 0x262F3B3, xs := [(5, 0xFFFFFFFFFFFFFFF9), (6, 0x2)], outX := [(7, 0x1)] }] : List Row).all (Row.ok Config.default) = true := by
  decide

/-- 42_muldiv.md, the Example lines. -/
theorem test_run_muldiv_2 : ([
    { word := 0x26283BB, xs := [(5, 0x7FFFFFFF), (6, 0x2)], outX := [(7, 0xFFFFFFFFFFFFFFFE)] },
    { word := 0x262C3BB, xs := [(5, 0x80000000), (6, 0xFFFFFFFF)], outX := [(7, 0xFFFFFFFF80000000)] },
    { word := 0x262D3BB, xs := [(5, 0xFFFFFFFF80000000), (6, 0x2)], outX := [(7, 0x40000000)] },
    { word := 0x262E3BB, xs := [(5, 0xFFFFFFFFFFFFFFF9), (6, 0x2)], outX := [(7, 0xFFFFFFFFFFFFFFFF)] },
    { word := 0x262F3BB, xs := [(5, 0xFFFFFFFF), (6, 0x0)], outX := [(7, 0xFFFFFFFFFFFFFFFF)] }] : List Row).all (Row.ok Config.default) = true := by
  decide

/-- 43_atomics.md, the Example lines. -/
theorem test_run_atomics_1 : ([
    { word := 0x1002A32F, xs := [(5, 0x2000)], ms := [(0x2000, 4, 0x80000001)], outX := [(6, 0xFFFFFFFF80000001)] },
    { word := 0x862A3AF, xs := [(5, 0x2000), (6, 0x5)], ms := [(0x2000, 4, 0x80000000)], outX := [(7, 0xFFFFFFFF80000000)], outM := [(0x2000, 4, 0x5)] },
    { word := 0x62A3AF, xs := [(5, 0x2000), (6, 0x5)], ms := [(0x2000, 4, 0x80000000)], outX := [(7, 0xFFFFFFFF80000000)], outM := [(0x2000, 4, 0x80000005)] },
    { word := 0x2062A3AF, xs := [(5, 0x2000), (6, 0xFF00FF0)], ms := [(0x2000, 4, 0xF0F0F0F0)], outX := [(7, 0xFFFFFFFFF0F0F0F0)], outM := [(0x2000, 4, 0xFF00FF00)] },
    { word := 0x6062A3AF, xs := [(5, 0x2000), (6, 0xFF00FF0)], ms := [(0x2000, 4, 0xF0F0F0F0)], outX := [(7, 0xFFFFFFFFF0F0F0F0)], outM := [(0x2000, 4, 0xF000F0)] },
    { word := 0x4062A3AF, xs := [(5, 0x2000), (6, 0xFF00FF0)], ms := [(0x2000, 4, 0xF0F0F0F0)], outX := [(7, 0xFFFFFFFFF0F0F0F0)], outM := [(0x2000, 4, 0xFFF0FFF0)] },
    { word := 0x8062A3AF, xs := [(5, 0x2000), (6, 0x5)], ms := [(0x2000, 4, 0x80000000)], outX := [(7, 0xFFFFFFFF80000000)], outM := [(0x2000, 4, 0x80000000)] },
    { word := 0xA062A3AF, xs := [(5, 0x2000), (6, 0x5)], ms := [(0x2000, 4, 0x80000000)], outX := [(7, 0xFFFFFFFF80000000)], outM := [(0x2000, 4, 0x5)] }] : List Row).all (Row.ok Config.default) = true := by
  decide

/-- 43_atomics.md, the Example lines. -/
theorem test_run_atomics_2 : ([
    { word := 0xC062A3AF, xs := [(5, 0x2000), (6, 0x5)], ms := [(0x2000, 4, 0x80000000)], outX := [(7, 0xFFFFFFFF80000000)], outM := [(0x2000, 4, 0x5)] },
    { word := 0xE062A3AF, xs := [(5, 0x2000), (6, 0x5)], ms := [(0x2000, 4, 0x80000000)], outX := [(7, 0xFFFFFFFF80000000)], outM := [(0x2000, 4, 0x80000000)] },
    { word := 0x1002B32F, xs := [(5, 0x2000)], ms := [(0x2000, 8, 0x8000000000000001)], outX := [(6, 0x8000000000000001)] },
    { word := 0x862B3AF, xs := [(5, 0x2000), (6, 0x5)], ms := [(0x2000, 8, 0x8000000000000000)], outX := [(7, 0x8000000000000000)], outM := [(0x2000, 8, 0x5)] },
    { word := 0x62B3AF, xs := [(5, 0x2000), (6, 0x5)], ms := [(0x2000, 8, 0x8000000000000000)], outX := [(7, 0x8000000000000000)], outM := [(0x2000, 8, 0x8000000000000005)] },
    { word := 0x2062B3AF, xs := [(5, 0x2000), (6, 0xFF00FF0)], ms := [(0x2000, 8, 0xF0F0F0F0F0F0F0F0)], outX := [(7, 0xF0F0F0F0F0F0F0F0)], outM := [(0x2000, 8, 0xF0F0F0F0FF00FF00)] },
    { word := 0x6062B3AF, xs := [(5, 0x2000), (6, 0xFF00FF0)], ms := [(0x2000, 8, 0xF0F0F0F0F0F0F0F0)], outX := [(7, 0xF0F0F0F0F0F0F0F0)], outM := [(0x2000, 8, 0xF000F0)] },
    { word := 0x4062B3AF, xs := [(5, 0x2000), (6, 0xFF00FF0)], ms := [(0x2000, 8, 0xF0F0F0F0F0F0F0F0)], outX := [(7, 0xF0F0F0F0F0F0F0F0)], outM := [(0x2000, 8, 0xF0F0F0F0FFF0FFF0)] }] : List Row).all (Row.ok Config.default) = true := by
  decide

/-- 43_atomics.md, the Example lines. -/
theorem test_run_atomics_3 : ([
    { word := 0x8062B3AF, xs := [(5, 0x2000), (6, 0x5)], ms := [(0x2000, 8, 0x8000000000000000)], outX := [(7, 0x8000000000000000)], outM := [(0x2000, 8, 0x8000000000000000)] },
    { word := 0xA062B3AF, xs := [(5, 0x2000), (6, 0x5)], ms := [(0x2000, 8, 0x8000000000000000)], outX := [(7, 0x8000000000000000)], outM := [(0x2000, 8, 0x5)] },
    { word := 0xC062B3AF, xs := [(5, 0x2000), (6, 0x5)], ms := [(0x2000, 8, 0x8000000000000000)], outX := [(7, 0x8000000000000000)], outM := [(0x2000, 8, 0x5)] },
    { word := 0xE062B3AF, xs := [(5, 0x2000), (6, 0x5)], ms := [(0x2000, 8, 0x8000000000000000)], outX := [(7, 0x8000000000000000)], outM := [(0x2000, 8, 0x8000000000000000)] }] : List Row).all (Row.ok Config.default) = true := by
  decide

/-- 44_float_single.md, the Example lines. -/
theorem test_run_single_1 : ([
    { word := 0x82A187, xs := [(5, 0x2000)], ms := [(0x2008, 4, 0x3F800000)], outF := [(3, 0xFFFFFFFF3F800000)] },
    { word := 0x32A427, xs := [(5, 0x2000)], fs := [(3, 0xFFFFFFFF3F800000)], outM := [(0x2008, 8, 0x3F800000)] },
    { word := 0x1820F243, fs := [(1, 0xFFFFFFFF40000000), (2, 0xFFFFFFFF40400000), (3, 0xFFFFFFFF3F800000)], outF := [(4, 0xFFFFFFFF40E00000)] },
    { word := 0x1820F247, fs := [(1, 0xFFFFFFFF40000000), (2, 0xFFFFFFFF40400000), (3, 0xFFFFFFFF3F800000)], outF := [(4, 0xFFFFFFFF40A00000)] },
    { word := 0x1820F24B, fs := [(1, 0xFFFFFFFF40000000), (2, 0xFFFFFFFF40400000), (3, 0xFFFFFFFF3F800000)], outF := [(4, 0xFFFFFFFFC0A00000)] },
    { word := 0x1820F24F, fs := [(1, 0xFFFFFFFF40000000), (2, 0xFFFFFFFF40400000), (3, 0xFFFFFFFF3F800000)], outF := [(4, 0xFFFFFFFFC0E00000)] },
    { word := 0x20F1D3, fs := [(1, 0xFFFFFFFF3F800000), (2, 0xFFFFFFFF40000000)], outF := [(3, 0xFFFFFFFF40400000)] },
    { word := 0x820F1D3, fs := [(1, 0xFFFFFFFF3F800000), (2, 0xFFFFFFFF40000000)], outF := [(3, 0xFFFFFFFFBF800000)] }] : List Row).all (Row.ok Config.default) = true := by
  decide

/-- 44_float_single.md, the Example lines. -/
theorem test_run_single_2 : ([
    { word := 0x1020F1D3, fs := [(1, 0xFFFFFFFF3FC00000), (2, 0xFFFFFFFF40000000)], outF := [(3, 0xFFFFFFFF40400000)] },
    { word := 0x1820F1D3, fs := [(1, 0xFFFFFFFF3F800000), (2, 0xFFFFFFFF40400000)], outF := [(3, 0xFFFFFFFF3EAAAAAB)], flags := 1 },
    { word := 0x5800F1D3, fs := [(1, 0xFFFFFFFF40000000)], outF := [(3, 0xFFFFFFFF3FB504F3)], flags := 1 },
    { word := 0x202081D3, fs := [(1, 0xFFFFFFFF3F800000), (2, 0xFFFFFFFF80000000)], outF := [(3, 0xFFFFFFFFBF800000)] },
    { word := 0x202091D3, fs := [(1, 0xFFFFFFFF3F800000), (2, 0xFFFFFFFF80000000)], outF := [(3, 0xFFFFFFFF3F800000)] },
    { word := 0x2020A1D3, fs := [(1, 0xFFFFFFFFBF800000), (2, 0xFFFFFFFF80000000)], outF := [(3, 0xFFFFFFFF3F800000)] },
    { word := 0x282081D3, fs := [(1, 0xFFFFFFFF80000000), (2, 0xFFFFFFFF00000000)], outF := [(3, 0xFFFFFFFF80000000)] },
    { word := 0x282091D3, fs := [(1, 0xFFFFFFFF80000000), (2, 0xFFFFFFFF00000000)], outF := [(3, 0xFFFFFFFF00000000)] }] : List Row).all (Row.ok Config.default) = true := by
  decide

/-- 44_float_single.md, the Example lines. -/
theorem test_run_single_3 : ([
    { word := 0xC0009353, fs := [(1, 0xFFFFFFFFBFC00000)], outX := [(6, 0xFFFFFFFFFFFFFFFF)], flags := 1 },
    { word := 0xC0109353, fs := [(1, 0xFFFFFFFF4F32D05E)], outX := [(6, 0xFFFFFFFFB2D05E00)] },
    { word := 0xE0008353, fs := [(1, 0xFFFFFFFFBF800000)], outX := [(6, 0xFFFFFFFFBF800000)] },
    { word := 0xA020A353, fs := [(1, 0xFFFFFFFF00000000), (2, 0xFFFFFFFF80000000)], outX := [(6, 0x1)] },
    { word := 0xA0209353, fs := [(1, 0xFFFFFFFF3F800000), (2, 0xFFFFFFFF7FC00000)], outX := [(6, 0x0)], flags := 16 },
    { word := 0xA0208353, fs := [(1, 0xFFFFFFFF3F800000), (2, 0xFFFFFFFF3F800000)], outX := [(6, 0x1)] },
    { word := 0xE0009353, fs := [(1, 0xFFFFFFFFFF800000)], outX := [(6, 0x1)] },
    { word := 0xD002F1D3, xs := [(5, 0xFFFFFFFFFFFFFFFD)], outF := [(3, 0xFFFFFFFFC0400000)] }] : List Row).all (Row.ok Config.default) = true := by
  decide

/-- 44_float_single.md, the Example lines. -/
theorem test_run_single_4 : ([
    { word := 0xD012F1D3, xs := [(5, 0xFFFFFFFFFFFFFFFD)], outF := [(3, 0xFFFFFFFF4F800000)], flags := 1 },
    { word := 0xF00281D3, xs := [(5, 0x13F800000)], outF := [(3, 0xFFFFFFFF3F800000)] },
    { word := 0xC0209353, fs := [(1, 0xFFFFFFFF4F32D05E)], outX := [(6, 0xB2D05E00)] },
    { word := 0xC0309353, fs := [(1, 0xFFFFFFFFBF800000)], outX := [(6, 0x0)], flags := 16 },
    { word := 0xD022F1D3, xs := [(5, 0xFFFFFFFFFFFFFFFF)], outF := [(3, 0xFFFFFFFFBF800000)] },
    { word := 0xD032F1D3, xs := [(5, 0xFFFFFFFFFFFFFFFF)], outF := [(3, 0xFFFFFFFF5F800000)], flags := 1 }] : List Row).all (Row.ok Config.default) = true := by
  decide

/-- 45_float_double.md, the Example lines. -/
theorem test_run_double_1 : ([
    { word := 0x82B187, xs := [(5, 0x2000)], ms := [(0x2008, 8, 0x3FF0000000000000)], outF := [(3, 0x3FF0000000000000)] },
    { word := 0x32B427, xs := [(5, 0x2000)], fs := [(3, 0xFFFFFFFF3F800000)], outM := [(0x2008, 8, 0xFFFFFFFF3F800000)] },
    { word := 0x1A20F243, fs := [(1, 0x4000000000000000), (2, 0x4008000000000000), (3, 0x3FF0000000000000)], outF := [(4, 0x401C000000000000)] },
    { word := 0x1A20F247, fs := [(1, 0x4000000000000000), (2, 0x4008000000000000), (3, 0x3FF0000000000000)], outF := [(4, 0x4014000000000000)] },
    { word := 0x1A20F24B, fs := [(1, 0x4000000000000000), (2, 0x4008000000000000), (3, 0x3FF0000000000000)], outF := [(4, 0xC014000000000000)] },
    { word := 0x1A20F24F, fs := [(1, 0x4000000000000000), (2, 0x4008000000000000), (3, 0x3FF0000000000000)], outF := [(4, 0xC01C000000000000)] },
    { word := 0x220F1D3, fs := [(1, 0x3FF0000000000000), (2, 0x4008000000000000)], outF := [(3, 0x4010000000000000)] },
    { word := 0xA20F1D3, fs := [(1, 0x3FF0000000000000), (2, 0x4008000000000000)], outF := [(3, 0xC000000000000000)] }] : List Row).all (Row.ok Config.default) = true := by
  decide

/-- 45_float_double.md, the Example lines. -/
theorem test_run_double_2 : ([
    { word := 0x1220F1D3, fs := [(1, 0x3FF0000000000000), (2, 0x4008000000000000)], outF := [(3, 0x4008000000000000)] },
    { word := 0x1A20F1D3, fs := [(1, 0x3FF0000000000000), (2, 0x4008000000000000)], outF := [(3, 0x3FD5555555555555)], flags := 1 },
    { word := 0x5A00F1D3, fs := [(1, 0x4000000000000000)], outF := [(3, 0x3FF6A09E667F3BCD)], flags := 1 },
    { word := 0x222081D3, fs := [(1, 0xBFF0000000000000), (2, 0x8000000000000000)], outF := [(3, 0xBFF0000000000000)] },
    { word := 0x222091D3, fs := [(1, 0xBFF0000000000000), (2, 0x8000000000000000)], outF := [(3, 0x3FF0000000000000)] },
    { word := 0x2220A1D3, fs := [(1, 0xBFF0000000000000), (2, 0x8000000000000000)], outF := [(3, 0x3FF0000000000000)] },
    { word := 0x2A2081D3, fs := [(1, 0x8000000000000000), (2, 0x0)], outF := [(3, 0x8000000000000000)] },
    { word := 0x2A2091D3, fs := [(1, 0x8000000000000000), (2, 0x0)], outF := [(3, 0x0)] }] : List Row).all (Row.ok Config.default) = true := by
  decide

/-- 45_float_double.md, the Example lines. -/
theorem test_run_double_3 : ([
    { word := 0x4010F1D3, fs := [(1, 0x3FB999999999999A)], outF := [(3, 0xFFFFFFFF3DCCCCCD)], flags := 1 },
    { word := 0x420081D3, fs := [(1, 0xFFFFFFFF3DCCCCCD)], outF := [(3, 0x3FB99999A0000000)] },
    { word := 0xA220A353, fs := [(1, 0x3FF0000000000000), (2, 0x7FF8000000000000)], outX := [(6, 0x0)] },
    { word := 0xA2209353, fs := [(1, 0x3FF0000000000000), (2, 0x7FF8000000000000)], outX := [(6, 0x0)], flags := 16 },
    { word := 0xA2208353, fs := [(1, 0x3FF0000000000000), (2, 0x7FF8000000000000)], outX := [(6, 0x0)], flags := 16 },
    { word := 0xE2009353, fs := [(1, 0xBFF8000000000000)], outX := [(6, 0x2)] },
    { word := 0xC2009353, fs := [(1, 0xBFF8000000000000)], outX := [(6, 0xFFFFFFFFFFFFFFFF)], flags := 1 },
    { word := 0xC2109353, fs := [(1, 0x41E65A0BC0000000)], outX := [(6, 0xFFFFFFFFB2D05E00)] }] : List Row).all (Row.ok Config.default) = true := by
  decide

/-- 45_float_double.md, the Example lines. -/
theorem test_run_double_4 : ([
    { word := 0xD202F1D3, xs := [(5, 0xFFFFFFFFFFFFFFFD)], outF := [(3, 0xC008000000000000)] },
    { word := 0xD212F1D3, xs := [(5, 0xFFFFFFFFFFFFFFFD)], outF := [(3, 0x41EFFFFFFFA00000)] },
    { word := 0xC2209353, fs := [(1, 0x41E65A0BC0000000)], outX := [(6, 0xB2D05E00)] },
    { word := 0xC2309353, fs := [(1, 0xBFF0000000000000)], outX := [(6, 0x0)], flags := 16 },
    { word := 0xE2008353, fs := [(1, 0xBFF8000000000000)], outX := [(6, 0xBFF8000000000000)] },
    { word := 0xD222F1D3, xs := [(5, 0xFFFFFFFFFFFFFFFD)], outF := [(3, 0xC008000000000000)] },
    { word := 0xD232F1D3, xs := [(5, 0xFFFFFFFFFFFFFFFF)], outF := [(3, 0x43F0000000000000)], flags := 1 },
    { word := 0xF20281D3, xs := [(5, 0x3FF0000000000000)], outF := [(3, 0x3FF0000000000000)] }] : List Row).all (Row.ok Config.default) = true := by
  decide

/-- 46_bitmanip.md, the Example lines. -/
theorem test_run_bitmanip_1 : ([
    { word := 0x2062A3B3, xs := [(5, 0x3), (6, 0x1000)], outX := [(7, 0x1006)] },
    { word := 0x2062C3B3, xs := [(5, 0x3), (6, 0x1000)], outX := [(7, 0x100C)] },
    { word := 0x2062E3B3, xs := [(5, 0x3), (6, 0x1000)], outX := [(7, 0x1018)] },
    { word := 0x86283BB, xs := [(5, 0xFFFFFFFF80000001), (6, 0x1000)], outX := [(7, 0x80001001)] },
    { word := 0x2062A3BB, xs := [(5, 0xFFFFFFFF80000001), (6, 0x1000)], outX := [(7, 0x100001002)] },
    { word := 0x2062C3BB, xs := [(5, 0xFFFFFFFF80000001), (6, 0x1000)], outX := [(7, 0x200001004)] },
    { word := 0x2062E3BB, xs := [(5, 0xFFFFFFFF80000001), (6, 0x1000)], outX := [(7, 0x400001008)] },
    { word := 0x842931B, xs := [(5, 0xFFFFFFFF80000001)], outX := [(6, 0x800000010)] }] : List Row).all (Row.ok Config.default) = true := by
  decide

/-- 46_bitmanip.md, the Example lines. -/
theorem test_run_bitmanip_2 : ([
    { word := 0x4062F3B3, xs := [(5, 0xF0), (6, 0x3C)], outX := [(7, 0xC0)] },
    { word := 0x4062E3B3, xs := [(5, 0xF0), (6, 0x3C)], outX := [(7, 0xFFFFFFFFFFFFFFF3)] },
    { word := 0x4062C3B3, xs := [(5, 0xF0), (6, 0x3C)], outX := [(7, 0xFFFFFFFFFFFFFF33)] },
    { word := 0x60029313, xs := [(5, 0x10000)], outX := [(6, 0x2F)] },
    { word := 0x60129313, xs := [(5, 0x10000)], outX := [(6, 0x10)] },
    { word := 0x60229313, xs := [(5, 0x10000)], outX := [(6, 0x1)] },
    { word := 0x6002931B, xs := [(5, 0xFFFFFFFF00010000)], outX := [(6, 0xF)] },
    { word := 0x6012931B, xs := [(5, 0xFFFFFFFF00010000)], outX := [(6, 0x10)] }] : List Row).all (Row.ok Config.default) = true := by
  decide

/-- 46_bitmanip.md, the Example lines. -/
theorem test_run_bitmanip_3 : ([
    { word := 0x6022931B, xs := [(5, 0xFFFFFFFF00010000)], outX := [(6, 0x1)] },
    { word := 0xA62E3B3, xs := [(5, 0xFFFFFFFFFFFFFFFF), (6, 0x1)], outX := [(7, 0x1)] },
    { word := 0xA62F3B3, xs := [(5, 0xFFFFFFFFFFFFFFFF), (6, 0x1)], outX := [(7, 0xFFFFFFFFFFFFFFFF)] },
    { word := 0xA62C3B3, xs := [(5, 0xFFFFFFFFFFFFFFFF), (6, 0x1)], outX := [(7, 0xFFFFFFFFFFFFFFFF)] },
    { word := 0xA62D3B3, xs := [(5, 0xFFFFFFFFFFFFFFFF), (6, 0x1)], outX := [(7, 0x1)] },
    { word := 0x60429313, xs := [(5, 0x1280)], outX := [(6, 0xFFFFFFFFFFFFFF80)] },
    { word := 0x60529313, xs := [(5, 0x18000)], outX := [(6, 0xFFFFFFFFFFFF8000)] },
    { word := 0x802C33B, xs := [(5, 0xFFFF8000)], outX := [(6, 0x8000)] }] : List Row).all (Row.ok Config.default) = true := by
  decide

/-- 46_bitmanip.md, the Example lines. -/
theorem test_run_bitmanip_4 : ([
    { word := 0x606293B3, xs := [(5, 0x8000000000000001), (6, 0x4)], outX := [(7, 0x18)] },
    { word := 0x6062D3B3, xs := [(5, 0x8000000000000001), (6, 0x4)], outX := [(7, 0x1800000000000000)] },
    { word := 0x6042D313, xs := [(5, 0x8000000000000001)], outX := [(6, 0x1800000000000000)] },
    { word := 0x606293BB, xs := [(5, 0x80000001), (6, 0x4)], outX := [(7, 0x18)] },
    { word := 0x6062D3BB, xs := [(5, 0x80000001), (6, 0x4)], outX := [(7, 0x18000000)] },
    { word := 0x6012D31B, xs := [(5, 0x80000001)], outX := [(6, 0xFFFFFFFFC0000000)] },
    { word := 0x2872D313, xs := [(5, 0x100000000FF0002)], outX := [(6, 0xFF00000000FF00FF)] },
    { word := 0x6B82D313, xs := [(5, 0x123456789ABCDEF)], outX := [(6, 0xEFCDAB8967452301)] }] : List Row).all (Row.ok Config.default) = true := by
  decide

/-- 46_bitmanip.md, the Example lines. -/
theorem test_run_bitmanip_5 : ([
    { word := 0xA6293B3, xs := [(5, 0xFFFFFFFFFFFFFFFF), (6, 0x3)], outX := [(7, 0x1)] },
    { word := 0xA62B3B3, xs := [(5, 0xFFFFFFFFFFFFFFFF), (6, 0x3)], outX := [(7, 0x1)] },
    { word := 0xA62A3B3, xs := [(5, 0xFFFFFFFFFFFFFFFF), (6, 0x3)], outX := [(7, 0x2)] },
    { word := 0x486293B3, xs := [(5, 0xFF), (6, 0x43)], outX := [(7, 0xF7)] },
    { word := 0x4BF29313, xs := [(5, 0xFF)], outX := [(6, 0xFF)] },
    { word := 0x4862D3B3, xs := [(5, 0xFF), (6, 0x43)], outX := [(7, 0x1)] },
    { word := 0x4BF2D313, xs := [(5, 0xFF)], outX := [(6, 0x0)] },
    { word := 0x686293B3, xs := [(5, 0xFF), (6, 0x43)], outX := [(7, 0xF7)] }] : List Row).all (Row.ok Config.default) = true := by
  decide

/-- 46_bitmanip.md, the Example lines. -/
theorem test_run_bitmanip_6 : ([
    { word := 0x6BF29313, xs := [(5, 0xFF)], outX := [(6, 0x80000000000000FF)] },
    { word := 0x286293B3, xs := [(5, 0xFF), (6, 0x43)], outX := [(7, 0xFF)] },
    { word := 0x2BF29313, xs := [(5, 0xFF)], outX := [(6, 0x80000000000000FF)] }] : List Row).all (Row.ok Config.default) = true := by
  decide

/-- 41_compressed.md, the instructions of XLEN = 32 alone. -/
theorem test_run_rv32_1 : ([
    { word := 0x6144, xs := [(10, 0x2000)], ms := [(0x2004, 4, 0x3F800000)], next := 0x1002, outF := [(9, 0xFFFFFFFF3F800000)] },
    { word := 0xE144, xs := [(10, 0x2000)], fs := [(9, 0xFFFFFFFF40000000)], next := 0x1002, outM := [(0x2004, 8, 0x40000000)] },
    { word := 0x61A2, xs := [(2, 0x3000)], ms := [(0x3008, 4, 0x40400000)], next := 0x1002, outF := [(3, 0xFFFFFFFF40400000)] },
    { word := 0xE40E, xs := [(2, 0x3000)], fs := [(3, 0x40400000)], next := 0x1002, outM := [(0x3008, 8, 0x40400000)] },
    { word := 0x2021, next := 0x1008, outX := [(1, 0x1002)] }] : List Row).all (Row.ok Config.default32) = true := by
  decide

/-! ## System instructions, traps and reservations -/

/-- A property of the state after one step from `s`, with a word placed where the step fetches. -/
def runs (s : State) (word : BitVec 32) (p : State → Bool) : Bool :=
  match step (placeWord s word) with
  | .next t => p t
  | _ => false

/-- A state in another mode, with mstatus replaced. -/
def inMode (p : Priv) (mstatus : Word) : State :=
  let s := start Config.default
  { s with priv := p, csr := { s.csr with mstatus := mstatus } }

/-- 47_system_csr.md R632, Example. -/
theorem test_csrrw :
    (let s := withX [(6, 0x22)] (start Config.default)
     runs { s with csr := { s.csr with mscratch := 0x11 } } 0x340312F3
       fun t => (t.getX 5 == 0x11) && (t.csr.mscratch == 0x22) && (t.pc == 0x1004)) = true
      ∧ (runs (start Config.default) 0xF1401073 fun t => (t.csr.mcause == 2) && (t.csr.mtval == 0xF1401073)) = true
      ∧ (runs (start Config.default) 0xC0029073 fun t => (t.csr.mcause == 2) && (t.csr.mtval == 0xC0029073)) = true := by
  decide

/-- R633, Example. -/
theorem test_csrrs :
    (runs (State.resetOf Config.default) 0x300022F3 fun t => t.getX 5 == 0x0000000A00000000) = true
      ∧ (runs (inMode .U 0) 0xC00022F3 fun t => (t.csr.mcause == 2) && (t.priv == .M)) = true
      ∧ (runs (withX [(6, 0x888)] (start Config.default)) 0x30432073 fun t => t.csr.mie == 0x888) = true := by decide

/-- R634 and R637, Examples. -/
theorem test_csrrc :
    (runs (withX [(6, 8)] (inMode .M 8)) 0x300332F3
       fun t => (t.getX 5 == 0x0000000A00000008) && !getBit posMIE t.csr.mstatus) = true
      ∧ (runs (inMode .M 8) 0x30047073 fun t => !getBit posMIE t.csr.mstatus) = true := by decide

/-- R635, Example. -/
theorem test_csrrwi :
    (runs (start Config.default) 0x0021D073 fun t => (t.frm == 3) && (fieldFS t.csr.mstatus == 3)) = true
      ∧ (runs (State.resetOf Config.default) 0x0021D073 fun t => t.csr.mcause == 2) = true := by decide

/-- R636, Example. -/
theorem test_csrrsi :
    (runs (State.resetOf Config.default32) 0x300462F3
       fun t => (t.getX 5 == 0) && getBit posMIE t.csr.mstatus && (t.mcycle == 1)) = true := by decide

/-- R640, Example. -/
theorem test_mret :
    (let s := inMode .M 0x80
     runs { s with csr := { s.csr with mepc := 0x2000 } } 0x30200073
       fun t => (t.csr.mstatus == 0x88) && (t.priv == .U) && (t.pc == 0x2000)) = true := by decide

/-- R641, Example. -/
theorem test_sret :
    (let s := inMode .S 0x120
     runs { s with csr := { s.csr with sepc := 0x8000 } } 0x10200073
       fun t => (t.csr.mstatus == 0x22) && (t.priv == .S) && (t.pc == 0x8000)) = true := by decide

/-- R642, Example, and 60_exceptions.md R711: the step after it is Idle until a bit of mip that is set in mie is set. -/
theorem test_wfi :
    (runs (start Config.default) 0x10500073
       fun t => t.powerDown && (t.pc == 0x1004) && (t.minstret == 1)
         && (match step t with
             | .next u => decide (u.out.outcome = .idle) && (u.pc == 0x1004) && (u.mcycle == 1)
             | _ => false)
         && (match step { t with csr := { t.csr with mip := 0x80, mie := 0x80 } } with
             | .next u => !u.powerDown
             | _ => false)) = true := by decide

/-- R644, Example. -/
theorem test_sfence :
    (runs { start Config.default with tlbData := [⟨0, 0, 4096⟩] } 0x12628073
       fun t => decide (t.tlbData = []) && (t.pc == 0x1004)) = true := by decide

/-- 40_base_integer.md R304, R305, Examples; 41_compressed.md R380. -/
theorem test_software_traps :
    (runs (inMode .U 0x2000) 0x00000073
       fun t => (t.csr.mcause == 8) && (t.csr.mepc == 0x1000) && (t.csr.mtval == 0) && (t.priv == .M) && (t.pc == 0x200)) = true
      ∧ (runs (start Config.default) 0x00100073
        fun t => (t.csr.mcause == 3) && (t.csr.mepc == 0x1000) && (t.csr.mtval == 0x1000)) = true
      ∧ (runs (start Config.default) 0x9002 fun t => (t.csr.mcause == 3) && (t.csr.mtval == 0x1000)) = true := by decide

/-- 60_exceptions.md R719, R720, by hand: a U-mode breakpoint that medeleg delegates goes to S and leaves the M registers. -/
theorem test_delegation :
    (let s := inMode .U 0x2
     runs { s with csr := { s.csr with medeleg := 0x8 } } 0x00100073
       fun t => (t.priv == .S) && (t.csr.scause == 3) && (t.csr.sepc == 0x1000) && (t.csr.mcause == 0) && (t.pc == 0x300)
         && (t.csr.mstatus == 0x20)) = true := by decide

/-- 10_state.md R63, R66, 60_exceptions.md R720, by hand: a machine timer interrupt in vectored mode, at both XLENs. -/
theorem test_vectored_interrupt :
    ([Config.default, Config.default32].all fun c =>
      let s := start c
      let v := { s with csr := { s.csr with mstatus := s.csr.mstatus ||| 8, mip := 0x80, mie := 0x80, mtvec := 0x201 } }
      runs v 0x00000013 fun t => (t.pc == 0x200 + 4 * 7) && (t.csr.mepc == 0x1000) && (t.mcycle == 0)
        && (t.csr.mcause == match c.xlen with
            | .rv32 => 0x80000007
            | .rv64 => 0x8000000000000007)) = true := by decide

/-- 43_atomics.md R433, R434, Examples, one step each. -/
theorem test_reservation :
    (let s := withMem [(0x2000, 4, 0x80000001)] (withX [(5, 0x2000), (6, 0x77)] { start Config.default with memSeq := 7 })
     let r := { s with resValid := true, resAddr := 0x2000, resSeq := 7 }
     runs s 0x1002A32F (fun t => t.resValid && (t.resAddr == 0x2000) && (t.resSeq == 7) && (t.memSeq == 7))
       && runs r 0x1862A3AF (fun t => (t.getX 7 == 0) && (ramAt t 0x2000 4 == 0x77) && !t.resValid && (t.memSeq == 8))
       && runs { r with memSeq := 8 } 0x1862A3AF
         (fun t => (t.getX 7 == 1) && (ramAt t 0x2000 4 == 0x80000001) && !t.resValid && (t.memSeq == 8))) = true := by decide

/-- 43_atomics.md R444, R445, Examples, one step each. -/
theorem test_reservation_d :
    (let s := withMem [(0x2000, 8, 0x8000000000000001)]
       (withX [(5, 0x2000), (6, 0x1122334455667788)] { start Config.default with memSeq := 7 })
     let r := { s with resValid := true, resAddr := 0x2000, resSeq := 7 }
     runs r 0x1862B3AF (fun t => (t.getX 7 == 0) && (ramAt t 0x2000 8 == 0x1122334455667788) && !t.resValid)
       && runs { r with memSeq := 8 } 0x1862B3AF (fun t => (t.getX 7 == 1) && (ramAt t 0x2000 4 == 1))) = true := by decide

/-! ## The interface the host reads -/

/-- A table word is decoded at XLEN = 64, or at 32 for a row that only XLEN = 32 has (C.JAL). -/
theorem test_table_words : decodeTableWord 32 0x006283B3 = some (.add 7 5 6)
    ∧ decodeTableWord 16 0x2021 = some (.c_jal 4) := by decide

/-- A word placed by `withFetchWord` is the next instruction, also from reset. -/
theorem test_fetch_word : (match step (State.reset.withFetchWord 32 0xFFD28313) with
    | .next t => t.getX 6 == 0xFFFFFFFFFFFFFFFD
    | _ => false) = true := by decide

/-- 80_interfaces.md R812: a call with a budget of two retires two instructions. -/
theorem test_execute :
    (let s := placeWord (start Config.default) 0x00100093
     let r := execute 0 2 { s with mem := Memory.writeBytes s.mem 0x1004 [0x13, 0x01, 0x20, 0x00] }
     (r.count == 2) && (match r.final with
       | .next t => (t.getX 1 == 1) && (t.getX 2 == 2)
       | _ => false)) = true := by decide

/-- Two harts at the same ECALL; the shutdown hook holds in hart 0 only. -/
def twoHarts : State :=
  placeWord (start { Config.default with nhart := 2, shutdownHook := .csrEq 0xF14 0 }) 0x00000073

/-- R812, R815: after the terminate signal no further hart is called; a call steps the hart it names, whatever the queue chooses. -/
theorem test_driver :
    ((driverRound 1 [0, 1] twoHarts).1 = [0] ∧ (driverLoop false 1 5 twoHarts).1 = [[0]])
      ∧ (match (execute 1 1 { twoHarts with inputs := [[.switchHart 0]] }).final with
          | .next t => t.out.hart == 1 && decide (t.out.outcome = .trapped) && !t.terminate
          | _ => false) = true := by decide

/-- R817: the pc compared is that of the hart stepped; a refused step gives the mismatch code (log 30). -/
theorem test_cosim :
    (cosimStep 1 { placeWord (start { Config.default with nhart := 2 }) 0x00100093 with inputs := [[.switchHart 0]] } 0x1000 0x00100093 1 0 true).1 = 0
      ∧ (cosimStep 0 (placeWord (start Config.default) 0x00100093) 0x1000 0x00100093 2 0 true).1 = 1
      ∧ (cosimStep 0 (start { Config.default with vendorExt := true }) 0 0 0 0 false).1 = 1 := by decide

/-- 20_memory.md R155, R167: a layer may answer by hart, by width, and by the contents of RAM. -/
theorem test_layer_by_request :
    (let line (h : Option Word) (w : Option Nat) (m : List (Nat × Byte)) : LayerEntry :=
       { flatRam with base := 0x100, size := 0x10, hart := h, width := w, memory := m, target := .fault .access }
     let machine (e : LayerEntry) : State := start { Config.default with layer := [e, flatRam] }
     let answer (e : LayerEntry) (n : Nat) : Bool := match (machine e).places .data 0x104 n with
       | .ok _ => true
       | .error _ => false
     answer (line (some 1) none []) 4 && !answer (line (some 0) none []) 4
       && answer (line none (some 8) []) 4 && !answer (line none (some 4) []) 4
       && answer (line none none [(0x2000, 1)]) 4 && !answer (line none none [(0x2000, 0)]) 4) = true := by decide

/-- 20_memory.md R173: a write to a device drops the other harts' translations of it. -/
theorem test_device_write_drops :
    (let s := withX [(5, 0x300)] (start { Config.default with
       layer := [{ flatRam with base := 0x300, size := 0x40, target := .device 0x300 }, flatRam], nhart := 2 })
     let s := { s with others := s.others.map fun h => { h with tlbData := [⟨0x300, 0x300, 64⟩, ⟨0x400, 0x400, 64⟩] } }
     runs s 0x0052A023 fun t => t.others.all fun h => decide (h.tlbData = [⟨0x400, 0x400, 64⟩])) = true := by decide

/-- 49_arith_helpers.md R678 with R677: signed halves from both kinds of partial products. -/
theorem test_wallace :
    wallaceTree (plainProducts 8 true true 0x80#8 0x7F#8) = BitVec.ofInt 16 (-128 * 127)
      ∧ wallaceTree (boothProducts 4 true true 0x80#8 0x7F#8) = BitVec.ofInt 16 (-128 * 127)
      ∧ wallaceTree (boothProducts 4 true false 0x80#8 0xFF#8) = BitVec.ofInt 16 (-128 * 255)
      ∧ (wallaceTree (plainProducts 8 false false 0xFF#8 0xFF#8)).toNat = 255 * 255 := by decide

/-! ## Witnesses: for every obligation with hypotheses, a state and operands that meet them -/

/-- A map with holes: an access fault at 0x100, a page fault at 0x200, a device at 0x300, a misaligned fault at 0x400, RAM elsewhere. -/
def holes : Config :=
  let hole (base : Nat) (t : LayerTarget) : LayerEntry := { flatRam with base := base, size := 0x40, target := t }
  { Config.default with satpModes := [0, 8], layer := [hole 0x100 (.fault .access), hole 0x200 (.fault .page), hole 0x300 (.device 0x300),
      hole 0x400 (.fault .misaligned), flatRam] }

/-- A two-hart machine in S mode with a program word, data, a reservation and status bits set: no reset state. -/
def legalState : State :=
  let s := placeWord (withX [(5, 0x2000), (31, 0xFFFFFFFFFFFFFFFF)] (start { holes with nhart := 2 })) 0xFFD28313
  { s with
    priv := .S, memSeq := 3, resValid := true, resAddr := 0x2000, resSeq := 3
    csr := { s.csr with mepc := 0x3000, mideleg := 0x222, mie := 0xAAA, satp := 0x8000000000000001, mcause := 7, fcsr := 0xE1 } }

theorem legalHart_parked : LegalHart legalState.cfg (Hart.reset legalState.cfg 1) where
  noPendingException := by decide
  noPendingInterrupt := by decide
  x0 := by decide
  xWidth := by unfold fits; decide
  fWidth := by decide
  vWidth := by decide
  pcWidth := by unfold fits; decide
  csrs := {
    mstatusFixed := by decide
    mpp := by decide
    medeleg := by unfold within; decide
    mideleg := by unfold within; decide
    mie := by unfold within; decide
    mip := by unfold within; decide
    mtvec := by unfold fits; decide
    stvec := by unfold fits; decide
    mepc := by unfold fits; decide
    sepc := by unfold fits; decide
    mscratch := by unfold fits; decide
    sscratch := by unfold fits; decide
    mcause := by unfold fits; decide
    scause := by unfold fits; decide
    mtval := by unfold fits; decide
    stval := by unfold fits; decide
    satp := by decide
    mcounteren := by decide
    scounteren := by decide }

/-- CsrReadsBack, StepKeepsLegal: a legal state that is not the reset state. -/
theorem witness_legal : Legal legalState where
  active := {
    noPendingException := by decide
    noPendingInterrupt := by decide
    x0 := by decide
    xWidth := by unfold fits; decide
    fWidth := by decide
    vWidth := by decide
    pcWidth := by unfold fits; decide
    csrs := {
      mstatusFixed := by decide
      mpp := by decide
      medeleg := by unfold within; decide
      mideleg := by unfold within; decide
      mie := by unfold within; decide
      mip := by unfold within; decide
      mtvec := by unfold fits; decide
      stvec := by unfold fits; decide
      mepc := by unfold fits; decide
      sepc := by unfold fits; decide
      mscratch := by unfold fits; decide
      sscratch := by unfold fits; decide
      mcause := by unfold fits; decide
      scause := by unfold fits; decide
      mtval := by unfold fits; decide
      stval := by unfold fits; decide
      satp := by decide
      mcounteren := by decide
      scounteren := by decide } }
  parked := by
    have e : legalState.others = [Hart.reset legalState.cfg 1] := by decide
    rw [e]; simpa using legalHart_parked
  memory := by decide

theorem legalState_steps : ∃ t, step legalState = .next t := ⟨_, next_of (s := legalState) (by decide)⟩

/-- ResetIsLegal: a configuration that is valid, at each XLEN. -/
theorem witness_resetIsLegal : Config.default32.valid = true ∧ { holes with nhart := 2, vlen := 128 }.valid = true := by decide

theorem witness_stepKeepsLegal : legalState.cfg.valid = true ∧ Legal legalState ∧ ∃ t, step legalState = .next t :=
  ⟨by decide, witness_legal, legalState_steps⟩

theorem witness_stepKeepsPcEven :
    (EvenHart legalState.toHart ∧ ∀ h ∈ legalState.others, EvenHart h) ∧ ∃ t, step legalState = .next t := by
  refine ⟨⟨⟨by decide, by decide, by decide⟩, ?_⟩, legalState_steps⟩
  have e : legalState.others = [Hart.reset legalState.cfg 1] := by decide
  rw [e]
  intro h hh
  obtain rfl : h = Hart.reset legalState.cfg 1 := by simpa using hh
  exact ⟨by decide, by decide, by decide⟩

theorem witness_stepKeepsConstants : ∃ t, step legalState = .next t := legalState_steps

/-- DecodeOfEncode: well-formed instructions at both XLENs, operands at the ends of their ranges. -/
theorem witness_decodeOfEncode : (Instr.beq 31 0 0x800).wellFormed Config.default = true
    ∧ (Instr.c_jal 0x400).wellFormed Config.default32 = true ∧ (Instr.srai 31 31 31).wellFormed Config.default32 = true := by decide

/-- EncodeOfDecode: words that decode. -/
theorem witness_encodeOfDecode : decode Config.default (.w 0xFE209EE3) = some (.bne 1 2 0xFFE)
    ∧ decode Config.default32 (.c 0x2021) = some (.c_jal 4) := by decide

/-- A state from which a step reaches the fetch of a word. -/
def fetching (c : Config) (v : BitVec 32) : State := placeWord (start c) v

theorem reaches (c : Config) (v : BitVec 32) (hv : c.valid = true) (he : c.vendorExt = false)
    (h : (fetching c v).cfg = c) (ha : ¬ Dormant (takeInputs (fetching c v)))
    (hi : selectInterrupt (takeInputs (fetching c v)) = none) : ReachesFetch (fetching c v) :=
  ⟨⟨by rw [h]; exact hv, by rw [h]; exact he⟩, ha, hi⟩

/-- The word a fetch gives, and the state it leaves. -/
def fetched (s : State) : Option (Insn × State) :=
  match fetch (atFetch s) with
  | .ok n u => some (n, u)
  | .raise _ _ _ => none

theorem fetch_of {s : State} {n : Insn} (h : (fetched s).map Prod.fst = some n) : ∃ u, fetch (atFetch s) = .ok n u := by
  unfold fetched at h
  cases e : fetch (atFetch s) with
  | ok m u => rw [e] at h; simp at h; exact ⟨u, by rw [h]⟩
  | raise c t u => rw [e] at h; simp at h

/-- StepRunsDecoded: a 32-bit and a 16-bit instruction. -/
theorem witness_stepRunsDecoded :
    (ReachesFetch (fetching Config.default 0x006283B3)
      ∧ (∃ u, fetch (atFetch (fetching Config.default 0x006283B3)) = .ok (.w 0x006283B3) u)
      ∧ decode Config.default (.w 0x006283B3) = some (.add 7 5 6))
      ∧ ReachesFetch (fetching Config.default 0x929A)
      ∧ (∃ u, fetch (atFetch (fetching Config.default 0x929A)) = .ok (.c 0x929A) u)
      ∧ decode Config.default (.c 0x929A) = some (.c_add 5 6) :=
  ⟨⟨reaches _ _ (by decide) (by decide) (by decide) (by decide) (by decide), fetch_of (by decide), by decide⟩,
    reaches _ _ (by decide) (by decide) (by decide) (by decide) (by decide), fetch_of (by decide), by decide⟩

/-- The layer answers. -/
def answered : Except LayerFault (List Place) → Bool
  | .ok _ => true
  | .error _ => false

/-- The code of a fetch at a pc in the machine with holes. -/
def parcelAt (pc : Word) : Except LayerFault (List Place) :=
  (start holes).places .code pc 2

/-- FetchFollowsRule: each clause at the end of its range. An odd pc; without C a pc that is 2 modulo 4; a first parcel that faults; a
16-bit and a 32-bit word at the last parcel before a hole; without C a parcel whose low bits are not 3. -/
theorem witness_fetchFollowsRule :
    (¬ (0x1001#64).toNat % 2 = 0) ∧ (¬ (0x1002#64).toNat % 4 = 0) ∧ ((0x1002#64).toNat % 2 = 0)
      ∧ parcelAt 0x100 = .error .access ∧ parcelAt 0x13E = .error .access ∧ parcelAt 0xFE = .ok [.ram 0xFE, .ram 0xFF]
      ∧ parcelAt 0x140 = .ok [.ram 0x140, .ram 0x141] ∧ parcelAt 0x33E = .ok [.device 0x33E, .device 0x33F]
      ∧ parcelAt 0xFFFFFFFFFFFFFFFE = .ok [.ram 0xFFFFFFFFFFFFFFFE, .ram 0xFFFFFFFFFFFFFFFF]
      ∧ parcelAt 0 = .ok [.ram 0, .ram 1] ∧ (0x929A#16).toNat % 4 ≠ 3 ∧ (0x83B3#16).toNat % 4 = 3 := by decide

/-- What a fetch raises. -/
def fetchRaises (s : State) : Option (Nat × Word) :=
  match fetch (atFetch s) with
  | .ok _ _ => none
  | .raise c v _ => some (c, v)

theorem raise_of {s : State} {c : Nat} {v : Word} (h : fetchRaises s = some (c, v)) : ∃ u, fetch (atFetch s) = .raise c v u := by
  unfold fetchRaises at h
  cases e : fetch (atFetch s) with
  | ok m u => rw [e] at h; simp at h
  | raise a b u => rw [e] at h; simp at h; exact ⟨u, by rw [h.1, h.2]⟩

/-- UndecodedWordTraps: the all-ones word; and a pc in a hole. -/
theorem witness_undecodedWordTraps :
    (ReachesFetch (fetching Config.default 0xFFFFFFFF)
      ∧ (∃ u, fetch (atFetch (fetching Config.default 0xFFFFFFFF)) = .ok (.w 0xFFFFFFFF) u)
      ∧ decode Config.default (.w 0xFFFFFFFF) = none ∧ Insn.isVector (.w 0xFFFFFFFF) = false)
      ∧ ReachesFetch { start holes with pc := 0x100 }
      ∧ ∃ u, fetch (atFetch { start holes with pc := 0x100 }) = .raise 1 0x100 u :=
  ⟨⟨reaches _ _ (by decide) (by decide) (by decide) (by decide) (by decide), fetch_of (by decide), by decide, by decide⟩,
    ⟨⟨by decide, by decide⟩, by decide, by decide⟩, raise_of (by decide)⟩

/-- A machine with the vector unit, mstatus.VS = 1. -/
def vectorOn : State :=
  let s := placeWord (start { Config.default with vlen := 128 }) 0x02008057
  { s with csr := { s.csr with mstatus := s.csr.mstatus ||| 0x200 } }

/-- TheOnlyStops: an invalid configuration, the vendor extension, a vector word (`vadd.vv`) with the unit on, a running machine. -/
theorem witness_theOnlyStops :
    { Config.default with nhart := 0 }.valid = false
      ∧ { Config.default with vendorExt := true }.valid = true
      ∧ (ReachesFetch vectorOn ∧ (∃ u, fetch (atFetch vectorOn) = .ok (.w 0x02008057) u) ∧ Insn.isVector (.w 0x02008057) = true
        ∧ vectorOn.cfg.vlen ≠ 0 ∧ fieldVS vectorOn.csr.mstatus ≠ 0)
      ∧ Running (start Config.default) :=
  ⟨by decide, by decide, ⟨⟨⟨by decide, by decide⟩, by decide, by decide⟩, fetch_of (by decide), by decide, by decide, by decide⟩,
    ⟨by decide, by decide⟩⟩

/-- A hart powered down with nothing pending; and one with a timer interrupt to take. -/
def sleeper : State := { start Config.default with powerDown := true }
def timerPending : State :=
  let s := start Config.default
  { s with powerDown := true, csr := { s.csr with mip := 0x80, mie := 0x80, mstatus := s.csr.mstatus ||| 8 } }

/-- A hart powered down in M mode with MIE clear, whose timer interrupt is pending and enabled in `mie`; it stands at a WFI. -/
def wokenAtWfi : State :=
  let s := fetching Config.default 0x10500073
  { s with powerDown := true, csr := { s.csr with mip := 0x80, mie := 0x80 } }

/-- StepBeforeFetch: a dormant hart, one whose interrupt is taken, and one that wakes without an interrupt to take and sleeps again. -/
theorem witness_stepBeforeFetch : (Running sleeper ∧ Dormant (takeInputs sleeper))
    ∧ (Running timerPending ∧ ¬ Dormant (takeInputs timerPending) ∧ selectInterrupt (takeInputs timerPending) = some 7)
    ∧ Running wokenAtWfi ∧ ¬ Dormant (takeInputs wokenAtWfi) ∧ selectInterrupt (takeInputs wokenAtWfi) = none
    ∧ ∃ t, step wokenAtWfi = .next t ∧ t.powerDown = true :=
  ⟨⟨⟨by decide, by decide⟩, by decide⟩, ⟨⟨by decide, by decide⟩, by decide, by decide⟩, ⟨by decide, by decide⟩, by decide, by decide,
    _, rfl, by decide⟩

/-- A powered-down hart with an interrupt pending and enabled in `mie` alone wakes: an ADD at pc runs (R711, D30). -/
theorem test_wakesWithoutMie :
    (let s := fetching Config.default 0x006283B3
     (match step { s with powerDown := true, csr := { s.csr with mip := 0x80, mie := 0x80 } } with
      | .next t => !t.powerDown && t.out.outcome == .retired && t.pc == s.pc + 4
      | _ => false)) = true := by decide

/-- StepBeforeFetch, both sets: an interrupt for S is taken in S with SIE set, and one for M before it. -/
theorem test_interruptSelection :
    (let s := inMode .S 0x2
     selectInterrupt { s with csr := { s.csr with mip := 0xAAA, mie := 0xAAA, mideleg := 0x222 } } = some 11
       ∧ selectInterrupt { s with csr := { s.csr with mip := 0x222, mie := 0xAAA, mideleg := 0x222 } } = some 9
       ∧ selectInterrupt { inMode .S 0 with csr := { s.csr with mstatus := 0, mip := 0x222, mie := 0xAAA, mideleg := 0x222 } } = none) := by
  decide

/-- SoftwareTraps: the shutdown predicate false and true. -/
theorem witness_softwareTraps : evalHook (start Config.default) (start Config.default).cfg.shutdownHook = false
    ∧ evalHook (start { Config.default with shutdownHook := .and (.xEq 0 0) (.privEq .M) })
        (.and (.xEq 0 0) (.privEq .M)) = true := by decide

/-- TrapReturns and WaitAndFences: the modes and the bits TSR, TW, TVM that each clause asks for. -/
theorem witness_trapReturns_waitAndFences :
    (start Config.default).priv = .M ∧ (inMode .U 0).priv ≠ .M
      ∧ ((inMode .S 0).priv = .S ∧ getBit posTSR (inMode .S 0).csr.mstatus = false)
      ∧ ((inMode .S 0x700000).priv = .S ∧ getBit posTSR (inMode .S 0x700000).csr.mstatus = true)
      ∧ (getBit posTW (inMode .S 0x700000).csr.mstatus = true ∧ getBit posTVM (inMode .S 0x700000).csr.mstatus = true)
      ∧ (getBit posTW (inMode .U 0).csr.mstatus = false ∧ getBit posTVM (inMode .S 0).csr.mstatus = false) := by decide

/-- PrivilegeChanges: an ECALL in U mode rises, an MRET to U mode falls; and so do steps: a fetch from a hole in S mode, an MRET. -/
theorem witness_privilegeChanges :
    (∃ t, exec .ecall (inMode .U 0) = .next t ∧ (privBits (inMode .U 0).priv).toNat < (privBits t.priv).toNat)
      ∧ (∃ t, exec .mret (inMode .M 0) = .next t ∧ (privBits t.priv).toNat < (privBits (inMode .M 0).priv).toNat)
      ∧ (∃ t, step { start holes with pc := 0x100, priv := .S } = .next t ∧ (privBits Priv.S).toNat < (privBits t.priv).toNat)
      ∧ ∃ t, step (placeWord (start Config.default) 0x30200073) = .next t
          ∧ (privBits t.priv).toNat < (privBits (placeWord (start Config.default) 0x30200073).priv).toNat :=
  ⟨⟨_, next_of (s := inMode .U 0) (by decide), by decide⟩, ⟨_, next_of (s := inMode .U 0) (by decide), by decide⟩,
    ⟨_, next_of (s := inMode .U 0) (by decide), by decide⟩, ⟨_, next_of (s := inMode .U 0) (by decide), by decide⟩⟩

/-- CsrInstructionsComplete, CsrAccessRule: accesses that are allowed, and one that each check denies. -/
theorem witness_csrAccess :
    (start Config.default).csrAccess 0x340 true = some .mscratch ∧ (start Config.default).csrAccess 0xF14 false = some .mhartid
      ∧ (inMode .U 0x2000).csrAccess 0x003 true = some .fcsr ∧ (inMode .S 0).csrAccess 0x180 true = some .satp
      ∧ (start Config.default32).csrAccess 0xB80 true = some .mcycleh
      ∧ { inMode .U 0 with csr := { (inMode .U 0).csr with mcounteren := 1, scounteren := 1 } }.csrAccess 0xC00 false = some .cycle
      ∧ (start Config.default).csrAccess 0x7C0 false = none ∧ (start Config.default).csrAccess 0xB80 false = none
      ∧ (inMode .U 0x2000).csrAccess 0x100 false = none ∧ (start Config.default).csrAccess 0xF14 true = none
      ∧ (inMode .U 0).csrAccess 0x001 false = none ∧ (inMode .S 0x100000).csrAccess 0x180 false = none
      ∧ { inMode .U 0 with csr := { (inMode .U 0).csr with mcounteren := 1 } }.csrAccess 0xC00 false = none
      ∧ (inMode .S 0).csrAccess 0xC02 false = none := by decide

/-- CsrReadsBack: a MODE that is accepted and one that is not; MPP = 2 and not; XLEN = 32. -/
theorem witness_csrReadsBack : Legal legalState
    ∧ legalState.cfg.satpModes.contains (satpMode .rv64 0x8000000000000001) = true
    ∧ legalState.cfg.satpModes.contains (satpMode .rv64 0x9000000000000001) = false
    ∧ getField2 posMPP 0x1000 = 2#2 ∧ getField2 posMPP 0x1800 ≠ 2#2 ∧ (start Config.default32).cfg.xlen = .rv32 :=
  ⟨witness_legal, by decide, by decide, by decide, by decide, by decide⟩

/-- A machine that splits misaligned accesses. -/
def splitting : State := withX [(5, 0x2000), (6, 0xFE), (7, 0x300), (8, 0x13F)] (start { holes with misaligned := .split })

/-- The loads and stores: an aligned access of RAM, one of a device, a split one that wraps around the address space, all eight bytes. -/
theorem witness_completes :
    ReadCompletes splitting ((⟨.ld 6 5 0, 4, 6, 5, 0, 8, true⟩ : MemForm).address splitting) 8
        [.ram 0x2000, .ram 0x2001, .ram 0x2002, .ram 0x2003, .ram 0x2004, .ram 0x2005, .ram 0x2006, .ram 0x2007]
      ∧ ReadCompletes splitting ((⟨.lh 6 7 0, 4, 6, 7, 0, 2, true⟩ : MemForm).address splitting) 2 [.device 0x300, .device 0x301]
      ∧ WriteCompletes splitting ((⟨.sh 6 0 0xFFF, 4, 6, 0, -1, 2, false⟩ : MemForm).address splitting) (splitting.getX 6) 2
        [.ram 0xFFFFFFFFFFFFFFFF, .ram 0]
      ∧ WriteCompletes splitting ((⟨.c_fsdsp 6 0, 2, 6, 2#5, 0, 8, false⟩ : MemForm).address splitting) (splitting.getF 6) 8
        [.ram 0, .ram 1, .ram 2, .ram 3, .ram 4, .ram 5, .ram 6, .ram 7]
      ∧ Memory.wf splitting.mem = true ∧ splitting.fpEnabled = true
      ∧ (⟨.ld 6 5 0, 4, 6, 5, 0, 8, true⟩ : MemForm) ∈ integerLoads 6 5 0 0 0 0 0
      ∧ (⟨.sh 6 0 0xFFF, 4, 6, 0, -1, 2, false⟩ : MemForm) ∈ integerStores 6 0 0 0 0xFFF 0 0
      ∧ (⟨.fld 6 5 0, 4, 6, 5, 0, 8, false⟩ : MemForm) ∈ floatLoads 6 5 0 0 0 0 0
      ∧ (⟨.c_fsdsp 6 0, 2, 6, 2#5, 0, 8, false⟩ : MemForm) ∈ floatStores 6 0 0 0 0 0 0 :=
  ⟨⟨by decide, by decide⟩, ⟨by decide, by decide⟩,
    ⟨by decide, fun _ => ⟨by decide, by decide, fun k t hk => by
      have hlen : k < 2 := by
        by_contra hge
        rw [List.getElem?_eq_none (by simp; omega)] at hk
        cases hk
      obtain rfl | rfl : k = 0 ∨ k = 1 := by omega
      · obtain rfl : Place.ram 0xFFFFFFFFFFFFFFFF = t := by simpa using hk
        decide
      · obtain rfl : Place.ram 0 = t := by simpa using hk
        decide⟩⟩,
    ⟨by decide, fun h => absurd (by decide) h⟩, by decide, by decide, by decide, by decide, by decide, by decide⟩

/-- AccessTraps, split: a load and a store whose second byte is in the hole at 0x100 (a store at 0xFF of two bytes). -/
theorem witness_splitTraps :
    (let s := splitting
     s.cfg.xlen.toNat 0xFF % 2 ≠ 0 ∧ s.cfg.misaligned = .split
       ∧ resolve s.cfg s.mem (s.request .data 1) 0xFF 1 = .ok [.ram 0xFF] ∧ s.places .data (0xFF + BitVec.ofNat 64 1) 1 = .error .access
       ∧ (s.afterBytes 0x1234 [.ram 0xFF]).places .store (0xFF + BitVec.ofNat 64 1) 1 = .error .access ∧ Memory.wf s.mem = true)
      ∧ AnswersBytes splitting 0xFF 0x1234 [.ram 0xFF] := by
  refine ⟨by decide, fun k t hk => ?_⟩
  obtain rfl : k = 0 := by
    by_contra hne
    rw [List.getElem?_eq_none (by simp; omega)] at hk
    cases hk
  obtain rfl : Place.ram 0xFF = t := by simpa using hk
  decide

/-- IdentityTranslation: a valid configuration with SATP_MODES = {0} whose layer answers, and a step of it. -/
theorem witness_identityTranslation :
    Config.default.valid = true ∧ (∀ m ∈ Config.default.satpModes, m = 0)
      ∧ (start Config.default).places .data 0x2000 2 = .ok [.ram 0x2000, .ram 0x2001]
      ∧ { holes with satpModes := [0] }.valid = false ∧ ∃ t, step (start Config.default) = .next t :=
  ⟨by decide, by decide, by decide, by decide, _, next_of (s := start Config.default) (by decide)⟩

/-- AccessTraps and AtomicTraps: a misaligned address under MISALIGNED = trap; each of the three faults of the layer, data and store. -/
theorem witness_accessTraps :
    (let s := start holes
     (s.cfg.xlen.toNat 0x2001 % 4 ≠ 0 ∧ s.cfg.misaligned = .trap ∧ s.fpEnabled = true)
       ∧ (∀ k ∈ [AccessKind.data, .store],
         s.places k 0x100 8 = .error .access ∧ s.places k 0x238 8 = .error .page
           ∧ s.places k 0x43C 4 = .error .misaligned)
       ∧ s.cfg.xlen.toNat 0x238 % 8 = 0 ∧ s.cfg.xlen.toNat 0x43C % 4 = 0) := by decide

/-- CompressedExpansion: an integer and a floating-point form. -/
theorem witness_compressedExpansion : expansion (.c_addi 5 63) = some (.addi 5 5 0xFFF)
    ∧ expansion (.c_fldsp 3 2) = some (.fld 3 2 16) ∧ (start Config.default).fpEnabled = true := by decide

/-- DivisionHelpers, HalfwordMultiply: the three kinds of divisor; a positive half width. -/
theorem witness_division : (0x80#8 = BitVec.intMin 8 ∧ 0xFF#8 = -1) ∧ (0x80#8 ≠ 0 ∧ ¬ (0x7F#8 = BitVec.intMin 8 ∧ 0xFF#8 = -1))
    ∧ 0 < 4 := by decide

/-- BitwiseResults, RORI: the largest amount at each XLEN. -/
theorem witness_bitwiseResults : (63#6).toNat < (start Config.default).cfg.xlen.bits
    ∧ (31#6).toNat < (start Config.default32).cfg.xlen.bits := by decide

/-- A state whose reservation is on 0x2000. -/
def reserving : State :=
  { withX [(5, 0x2000), (7, 0x2008), (8, 0x2004)] (start holes) with memSeq := 3, resValid := true, resAddr := 0x2000, resSeq := 3 }

/-- LoadReservedResults, StoreConditionalResults, AmoResults: aligned and resolved; reserved, and not. -/
theorem witness_atomics :
    (let s := reserving
     (s.cfg.xlen.toNat (s.getX 5) % 8 = 0
       ∧ s.places .data (s.getX 5) 4 = .ok [.ram 0x2000, .ram 0x2001, .ram 0x2002, .ram 0x2003]
       ∧ s.places .store (s.getX 5) 8
         = .ok [.ram 0x2000, .ram 0x2001, .ram 0x2002, .ram 0x2003, .ram 0x2004, .ram 0x2005, .ram 0x2006, .ram 0x2007])
       ∧ (s.resValid = true ∧ s.resAddr = s.getX 5 ∧ s.resSeq = s.memSeq) ∧ Memory.wf s.mem = true
       ∧ ¬ (s.resAddr = s.getX 7) ∧ s.cfg.xlen.toNat (s.getX 8) % 8 ≠ 0
       ∧ (let r := { withX [(5, 0x100)] s with resAddr := 0x100 }
          (r.resValid = true ∧ r.resAddr = r.getX 5 ∧ r.resSeq = r.memSeq)
            ∧ r.places .store (r.getX 5) 8 = .error .access)) := by decide

/-- ReservationRules: a store that is performed; an instruction that is neither a write nor LR. -/
theorem witness_reservationRules :
    (Instr.writesMemory (.sw 6 5 0) = true ∧ reserving.resSeq ≤ reserving.memSeq
        ∧ ∃ t, exec (.sw 6 5 0) reserving = .next t ∧ t.memSeq ≠ reserving.memSeq)
      ∧ Instr.writesMemory (.add 7 5 6) = false
      ∧ (∀ rd rs1 aq rl, Instr.add 7 5 6 ≠ .lr_w rd rs1 aq rl ∧ Instr.add 7 5 6 ≠ .lr_d rd rs1 aq rl)
      ∧ (∃ t, exec (.add 7 5 6) reserving = .next t) ∧ reserving.cfg.resInvalidateOn = .store :=
  ⟨⟨by decide, by decide, _, next_of (s := reserving) (by decide), by decide⟩, by decide, fun _ _ _ _ => ⟨nofun, nofun⟩,
    ⟨_, next_of (s := reserving) (by decide)⟩, by decide⟩

/-- FloatSingleResults, FloatDoubleResults, FloatIllegal: the unit on with a legal mode (static, and dynamic at the last code), the unit on
with a mode that is none, the unit off. -/
theorem witness_float :
    (start Config.default).fpEnabled = true ∧ (start Config.default).roundMode 4 = some .rmm
      ∧ { start Config.default with csr := { (start Config.default).csr with fcsr := 0x80 } }.roundMode 7 = some .rmm
      ∧ { start Config.default with csr := { (start Config.default).csr with fcsr := 0xA0 } }.roundMode 7 = none
      ∧ (State.resetOf Config.default).fpEnabled = false ∧ (Instr.fsw 1 2 0).isFloat = true ∧ (Instr.c_fldsp 1 2).isFloat = true
      ∧ (Instr.fadd_d 1 2 3 7).rmField = some 7 := by decide

/-- FloatComparisons: finite values and infinities; two zeros; a NaN on either side. -/
theorem witness_floatComparisons : (∃ p, (FFmt.unpack .s 0x3F800000).toExt = some p) ∧ (FFmt.unpack .s 0xFF800000).toExt = some ⊥
    ∧ (FFmt.unpack .d 0x8000000000000000) = .num true 0 (-1074)
    ∧ (FFmt.unpack .s 0x7FC00000).isNaN = true ∧ (FFmt.unpack .s 0x3F800000).isNaN = false
    ∧ (FFmt.unpack .d 0x7FF0000000000001).isSignaling = true := by
  refine ⟨⟨_, rfl⟩, rfl, by decide, by decide, by decide, by decide⟩

/-- FloatToInteger, RoundingIsFaithful: a finite value, a NaN and both infinities; a width. -/
theorem witness_rounding : (∃ q, (FFmt.unpack .s 0xBFC00000).toRat = some q) ∧ (FFmt.unpack .s 0x7FC00000).isNaN = true
    ∧ FFmt.unpack .s 0x7F800000 = .inf false ∧ FFmt.unpack .s 0xFF800000 = .inf true ∧ 0 < 32 ∧ 0 < 3 := by
  refine ⟨⟨_, rfl⟩, by decide, by decide, by decide, by decide, by decide⟩

/-- The value of 1.0, 2.0 and -1.0 as the statements speak of it. -/
theorem toRat_witness : (FFmt.unpack .s 0x3F800000).toRat = some 1 ∧ (FFmt.unpack .s 0x40000000).toRat = some 2
    ∧ (FFmt.unpack .s 0xBF800000).toRat = some (-1) ∧ (FFmt.unpack .s 0x80000000).toRat = some 0 := by
  refine ⟨?_, ?_, ?_, ?_⟩
  · rw [show FFmt.unpack .s 0x3F800000 = .num false (2 ^ 23) (-23) by decide]; norm_num [FVal.toRat]
  · rw [show FFmt.unpack .s 0x40000000 = .num false (2 ^ 23) (-22) by decide]; norm_num [FVal.toRat]
  · rw [show FFmt.unpack .s 0xBF800000 = .num true (2 ^ 23) (-23) by decide]; norm_num [FVal.toRat]
  · rw [show FFmt.unpack .s 0x80000000 = .num true 0 (-149) by decide]; norm_num [FVal.toRat]

/-- FloatArithmetic, FloatSquareRoot: 1, 2 and -1, for which every exact result is a nonzero number. -/
theorem witness_floatArithmetic : (1 + 2 : ℚ) ≠ 0 ∧ (1 - 2 : ℚ) ≠ 0 ∧ (1 * 2 : ℚ) ≠ 0 ∧ (0 : ℚ) < 1
    ∧ (1 * 2 + -1 : ℚ) ≠ 0 ∧ (-(1 * 2) - -1 : ℚ) ≠ 0 ∧ (FFmt.unpack .s 0x3F800000).toRat = some 1
    ∧ (FFmt.unpack .s 0x40000000).toRat = some 2 ∧ (FFmt.unpack .s 0xBF800000).toRat = some (-1) := by
  refine ⟨by norm_num, by norm_num, by norm_num, by norm_num, by norm_num, by norm_num, toRat_witness.1, toRat_witness.2.1,
    toRat_witness.2.2.1⟩

/-- FloatSpecialValues: a NaN of each kind, both infinities, a zero of each sign, x and -x; 0 times an infinity and not. -/
theorem witness_floatSpecialValues :
    (FFmt.unpack .s 0x7F800001 = .nan true ∧ FFmt.unpack .s 0x7FC00000 = .nan false ∧ FFmt.unpack .s 0x7F800000 = .inf false
        ∧ FFmt.unpack .s 0xFF800000 = .inf true ∧ zeroTimesInf (FFmt.unpack .s 0x7F800000) (FFmt.unpack .s 0x3F800000) = false
        ∧ zeroTimesInf (FFmt.unpack .s 0x7F800000) (FFmt.unpack .s 0x80000000) = true)
      ∧ ((1 + -1 : ℚ) = 0 ∧ (FFmt.unpack .s 0x3F800000).toRat = some 1 ∧ (FFmt.unpack .s 0xBF800000).toRat = some (-1)
        ∧ (FFmt.unpack .s 0x80000000).toRat = some 0) := by
  refine ⟨by decide, by norm_num, toRat_witness.1, toRat_witness.2.2⟩

/-- RetireCounts, OnlyStoresWriteMemory, UserModeIsolation: an instruction that retires in U mode, and one that traps. -/
theorem witness_userMode :
    (Instr.isCsr (.add 7 5 6) = false ∧ (inMode .U 0).priv = .U ∧ Instr.writesMemory (.add 7 5 6) = false
        ∧ ∃ t, exec (.add 7 5 6) (inMode .U 0) = .next t ∧ t.out.outcome = .retired)
      ∧ Instr.isCsr .mret = false ∧ ∃ t, exec .mret (inMode .U 0) = .next t ∧ t.out.outcome ≠ .retired :=
  ⟨⟨by decide, by decide, by decide, _, next_of (s := inMode .U 0) (by decide), by decide⟩, by decide, _,
    next_of (s := inMode .U 0) (by decide), by decide⟩

end Sys2Proof.Tests
end

section
/-! What every instruction keeps: the dispatch read once, an instruction at a time, as uses of the lemmas on the shared operations. -/

namespace Sys2Proof

/-- Not a CSR instruction, LR, SC, ECALL or a return: the instruction leaves the reservation alone, and the privilege when it retires. -/
def Instr.isOrdinary : Instr → Bool
  | .csrrw .. | .csrrs .. | .csrrc .. | .csrrwi .. | .csrrsi .. | .csrrci .. | .lr_w .. | .lr_d .. | .sc_w .. | .sc_d .. | .ecall
  | .mret | .sret => false
  | _ => true

end Sys2Proof

namespace Sys2Proof.Machine

theorem answers_wfi (w : Bool) (s : State) : Answers w s (execWfi s) := by
  unfold execWfi
  split
  · exact answers_illegal _ _ _
  · exact answers_retire_of (quiet_pd _ _ _) _ (by decide)

theorem answers_sfenceVma (w : Bool) (s : State) (rs1 rs2 : RegIdx) : Answers w s (execSfenceVma rs1 rs2 s) := by
  unfold execSfenceVma
  split
  · exact answers_illegal _ _ _
  · exact answers_retire_of (quiet_tlb _ _ _ _ _) _ (by decide)

/-- Each ordinary instruction is one shared operation, and each of these has its lemma (Laws/Effects.lean). -/
theorem exec_answers (i : Instr) (s : State) (h : i.isOrdinary = true) : Answers i.writesMemory s (exec i s) := by
  cases i with
  | lui | auipc | addi | slti | sltiu | xori | ori | andi | slli | srli | srai | add | sub | sll | slt | sltu | xor | srl | sra | or | and |
  addiw | slliw | srliw | sraiw | addw | subw | sllw | srlw | sraw | c_addi4spn | c_addi | c_addiw | c_li | c_addi16sp | c_lui | c_srli |
  c_srai | c_andi | c_sub | c_xor | c_or | c_and | c_subw | c_addw | c_slli | c_mv | c_add | mul | mulh | mulhsu | mulhu | div | divu | rem
  | remu | mulw | divw | divuw | remw | remuw | sh1add | sh2add | sh3add | add_uw | sh1add_uw | sh2add_uw | sh3add_uw | slli_uw | andn | orn
  | xnor | clz | ctz | cpop | clzw | ctzw | cpopw | max | maxu | min | minu | sext_b | sext_h | zext_h | rol | ror | rori | rolw | rorw |
  roriw | orc_b | rev8 | clmul | clmulh | clmulr | bclr | bclri | bext | bexti | binv | binvi | bset | bseti =>
    exact answers_retireX _ _ _ _ _
  | fence | c_nop => exact answers_retire _ _ _
  | fence_i => exact answers_retire_of (quiet_tlb _ _ _ _ _) _ (by decide)
  | jal | c_jal | c_j => exact answers_jumpAndLink _ _ _ _ _
  | jalr | c_jr | c_jalr => exact answers_jumpAndLinkReg _ _ _ _ _ _
  | beq | bne | blt | bge | bltu | bgeu | c_beqz | c_bnez => exact answers_branch _ _ _ _ _
  | lb | lh | lw | lbu | lhu | lwu | ld | c_lw | c_ld | c_lwsp | c_ldsp => exact answers_loadX _ _ _ _ _ _ _ _
  | sb | sh | sw | sd | c_sw | c_sd | c_swsp | c_sdsp => exact answers_storeX _ _ _ _ _ _
  | c_flw | c_flwsp | flw => exact answers_loadS _ _ _ _ _ _ _
  | c_fld | c_fldsp | fld => exact answers_loadD _ _ _ _ _ _ _
  | c_fsd | c_fsw | c_fsdsp | c_fswsp | fsw | fsd => exact answers_storeF _ _ _ _ _ _ _
  | amoswap_w | amoadd_w | amoxor_w | amoand_w | amoor_w | amomin_w | amomax_w | amominu_w | amomaxu_w | amoswap_d | amoadd_d | amoxor_d |
  amoand_d | amoor_d | amomin_d | amomax_d | amominu_d | amomaxu_d =>
    exact answers_fetchAndOp _ _ _ _ _ _
  | fmadd_s | fmsub_s | fnmsub_s | fnmadd_s | fadd_s | fsub_s | fmul_s | fdiv_s | fsqrt_s | fcvt_s_w | fcvt_s_wu | fcvt_s_l | fcvt_s_lu |
  fcvt_s_d =>
    exact answers_fpRounded _ _ _ _ _ fun hf _ => answers_writeS _ _ _ _ hf
  | fmadd_d | fmsub_d | fnmsub_d | fnmadd_d | fadd_d | fsub_d | fmul_d | fdiv_d | fsqrt_d | fcvt_d_s | fcvt_d_w | fcvt_d_wu | fcvt_d_l |
  fcvt_d_lu =>
    exact answers_fpRounded _ _ _ _ _ fun hf _ => answers_writeD _ _ _ _ hf
  | fcvt_w_s | fcvt_wu_s | fcvt_l_s | fcvt_lu_s | fcvt_w_d | fcvt_wu_d | fcvt_l_d | fcvt_lu_d =>
    exact answers_fpRounded _ _ _ _ _ fun hf _ => answers_writeInteger _ _ _ _ hf
  | fsgnj_s | fsgnjn_s | fsgnjx_s | fmin_s | fmax_s | fmv_w_x => exact answers_fpGate _ _ _ _ fun hf => answers_writeS _ _ _ _ hf
  | fsgnj_d | fsgnjn_d | fsgnjx_d | fmin_d | fmax_d | fmv_d_x => exact answers_fpGate _ _ _ _ fun hf => answers_writeD _ _ _ _ hf
  | feq_s | flt_s | fle_s | feq_d | flt_d | fle_d => exact answers_fpGate _ _ _ _ fun hf => answers_writeCompare _ _ _ _ hf
  | fmv_x_w | fclass_s | fclass_d | fmv_x_d => exact answers_fpGate _ _ _ _ fun _ => answers_retireX _ _ _ _ _
  | ebreak | c_ebreak => exact answers_raise _ _ _ _
  | sfence_vma => exact answers_sfenceVma _ _ _ _
  | wfi => exact answers_wfi _ _
  | csrrw | csrrs | csrrc | csrrwi | csrrsi | csrrci | lr_w | lr_d | sc_w | sc_d | ecall | mret | sret => cases h

/-! ## Returns, ECALL and the CSR instructions -/

/-- MRET and SRET as one operation: mstatus, the privilege and pc change. -/
theorem answersRes_return {s : State} (w : Bool) (m : Word) (p : Priv) (next : Word)
    (hfixed : m &&& ~~~mstatusMask s.cfg = s.csr.mstatus &&& ~~~mstatusMask s.cfg)
    (hmpp : getField2 posMPP s.csr.mstatus ≠ 2#2 → getField2 posMPP m ≠ 2#2)
    (heven : EvenHart s.toHart → getBit 0 next = false) (hp : privLevel p ≤ privLevel s.priv) (hU : s.priv ≠ .U) :
    AnswersRes w s (retireTo { s with csr := { s.csr with mstatus := m }, priv := p } next .jump none) := by
  refine ⟨_, rfl, ⟨{ (Quiet.refl w s).kept with }, ⟨?_, ?_, ?_⟩, .inl ⟨rfl, rfl, rfl, hp⟩, fun _ h => absurd h hU⟩⟩
  · exact fun l => { l with mstatusFixed := hfixed.trans l.mstatusFixed, mpp := hmpp l.mpp }
  · exact fun _ => norm_idem _ _
  · exact fun e => ⟨(getBit_zero_norm _ _).trans (heven e), e.mepc, e.sepc⟩

theorem answersRes_mret (w : Bool) (s : State) : AnswersRes w s (execMret s) := by
  unfold execMret
  split
  · exact (answers_illegal _ _ _).res
  · rename_i h
    have hM : s.priv = .M := by simpa using h
    refine answersRes_return w _ _ _ ?_ ?_ (fun e => e.mepc) (by rw [hM]; exact privLevel_le_M _) (by rw [hM]; decide)
    · exact mstatusFixed_of _ _ _ fun i _ h3 _ h7 _ h11 h12 => leaveM_bits _ i h3 h7 h11 h12
    · rw [getField2_leaveM]; exact fun _ => by decide

theorem getField2_leaveS (m : Word) : getField2 posMPP (leaveS m) = getField2 posMPP m :=
  getField2_eq_bits _ _ _ (leaveS_bits _ _ (by decide) (by decide) (by decide))
    (leaveS_bits _ _ (by decide) (by decide) (by decide))

theorem answersRes_sret (w : Bool) (s : State) : AnswersRes w s (execSret s) := by
  unfold execSret
  split
  · exact (answers_illegal _ _ _).res
  · rename_i h
    have hU : s.priv ≠ .U := fun e => h (by simp [e])
    have hlevel : ∀ (p : Priv) (spp : Bool), p ≠ .U → privLevel (if spp then .S else .U) ≤ privLevel p := by
      intro p spp; cases p <;> cases spp <;> decide
    refine answersRes_return w _ _ _ ?_ ?_ (fun e => e.sepc) (hlevel _ _ hU) hU
    · exact mstatusFixed_of _ _ _ fun i h1 _ h5 _ h8 _ _ => leaveS_bits _ i h1 h5 h8
    · rw [getField2_leaveS]; exact id

/-- Every instruction but ECALL and the CSR instructions answers a state with all of `Finished`. -/
theorem exec_answersRes (i : Instr) (s : State) (hcsr : i.isCsr = false) (hecall : i ≠ .ecall) :
    AnswersRes i.writesMemory s (exec i s) := by
  by_cases h : i.isOrdinary = true
  · exact (exec_answers i s h).res
  · cases i with
    | lr_w | lr_d => exact answers_loadReserved _ _ _ _ _
    | sc_w | sc_d => exact answers_storeConditional _ _ _ _ _
    | mret => exact answersRes_mret _ _
    | sret => exact answersRes_sret _ _
    | ecall => exact absurd rfl hecall
    | csrrw | csrrs | csrrc | csrrwi | csrrsi | csrrci => cases hcsr
    | _ => exact absurd rfl h

/-- What every instruction keeps, from one state to another: `Kept` and `KeepsLegal`, which compose. -/
structure Preserves (w : Bool) (s t : State) : Prop where
  kept : Kept w s t
  legal : KeepsLegal s t

theorem Quiet.preserves {w : Bool} {s t : State} (h : Quiet w s t) : Preserves w s t := ⟨h.kept, h.legal⟩

theorem CsrWritten.preserves {s t : State} (h : CsrWritten s t) : Preserves false s t := ⟨h.kept, h.legal⟩

theorem AnswersRes.preserves {w : Bool} {s t : State} {r : StepResult} (h : AnswersRes w s r) (hr : r = .next t) :
    Preserves w s t := by
  obtain ⟨u, hu, hf⟩ := h
  cases hu.symm.trans hr
  exact ⟨hf.kept, hf.legal⟩

theorem Kept.trans {w : Bool} {s u t : State} (a : Kept w s u) (b : Kept w u t) : Kept w s t where
  cfg := b.cfg.trans a.cfg
  timeIn := b.timeIn.trans a.timeIn
  inputs := b.inputs.trans a.inputs
  v := b.v.trans a.v
  hartid := b.hartid.trans a.hartid
  x0 := b.x0.trans a.x0
  seq := a.seq.trans b.seq
  mem := fun hw => ⟨(b.mem hw).1.trans (a.mem hw).1, (b.mem hw).2.trans (a.mem hw).2⟩
  wf := fun h => b.wf (a.wf h)
  oth := by
    obtain ⟨first, ha⟩ := a.oth
    obtain ⟨second, hb⟩ := b.oth
    exact ⟨first ++ second, by rw [hb, ha]; simp [Function.comp_def]⟩
  xw := fun h => a.cfg ▸ b.xw (a.cfg ▸ a.xw h)
  fw := fun h => a.cfg ▸ b.fw (a.cfg ▸ a.fw h)
  pend := fun he hi => (a.pend he hi).elim b.pend

theorem KeepsLegal.trans {s u t : State} (hcfg : u.cfg = s.cfg) (a : KeepsLegal s u) (b : KeepsLegal u t) : KeepsLegal s t where
  csrs := fun h => hcfg ▸ b.csrs (hcfg ▸ a.csrs h)
  pcw := fun h => hcfg ▸ b.pcw (hcfg ▸ a.pcw h)
  even := fun h => b.even (a.even h)

theorem Preserves.trans {w : Bool} {s u t : State} (a : Preserves w s u) (b : Preserves w u t) : Preserves w s t :=
  ⟨a.kept.trans b.kept, a.legal.trans a.kept.cfg b.legal⟩

theorem Preserves.weaken {w : Bool} {s t : State} (h : Preserves w s t) : Preserves true s t :=
  ⟨{ h.kept with mem := fun e => (by cases e) }, h.legal⟩

theorem preserves_goTo_count (w : Bool) (s : State) (next : Word) (cls : TransferClass) (regs : Option (RegIdx × RegIdx))
    (cycle instret : Bool) (he : getBit 0 s.pc = false → getBit 0 next = false) :
    Preserves w s ((s.goTo next cls regs).count cycle instret) := by
  refine ⟨{ (Quiet.refl w s).kept with }, id, ?_, ?_⟩
  · exact fun _ => norm_idem _ _
  · exact fun e => ⟨(getBit_zero_norm _ _).trans (he e.pc), e.mepc, e.sepc⟩

theorem present_of_lookupCsr {c : Config} {n : BitVec 12} {r : CsrName} (h : lookupCsr c n = some r) : r.present c = true := by
  unfold lookupCsr at h
  split at h
  · split at h
    · rename_i hpresent
      cases h
      exact hpresent
    · cases h
  · cases h

theorem lookupCsr_of_csrAccess {s : State} {n : BitVec 12} {w : Bool} {r : CsrName} (h : s.csrAccess n w = some r) :
    lookupCsr s.cfg n = some r := by
  unfold State.csrAccess at h
  split at h
  · rename_i hlookup
    split at h
    · cases h
      exact hlookup
    · cases h
  · cases h

theorem flen_of_csrAccess {s : State} {n : BitVec 12} {w : Bool} {r : CsrName} (h : s.csrAccess n w = some r)
    (hr : r = .fflags ∨ r = .frm ∨ r = .fcsr) : s.cfg.flen ≠ .f0 := by
  have hpresent := present_of_lookupCsr (lookupCsr_of_csrAccess h)
  rcases hr with rfl | rfl | rfl <;> simpa [CsrName.present] using hpresent

theorem preserves_csrOp {s t : State} {i : Instr} {n : BitVec 12} {writes : Bool} {rd : RegIdx} {new : Word → Word}
    (h : csrOp s i n writes rd new = .next t) : Preserves false s t := by
  unfold csrOp at h
  split at h
  · exact (answers_illegal false s i).res.preserves h
  · rename_i r hr
    cases h
    have hw : CsrWritten s (if writes then s.writeCsr r (new (s.readCsr r)) else s) := by
      split
      · exact csrWritten s r _ (flen_of_csrAccess hr)
      · exact csrWritten_refl s
    refine (hw.preserves.trans (quiet_setX _ _ _ _).preserves).trans (preserves_goTo_count _ _ _ _ _ _ _ fun e => ?_)
    rw [State.setX_pc, hw.pc] at e
    exact getBit_zero_add _ _ e (by decide)

theorem quiet_terminated (w : Bool) (s : State) : Quiet w s (terminated s) :=
  { Quiet.refl w s with }

theorem preserves_ecall {s t : State} (h : execEcall s = .next t) : Preserves false s t := by
  unfold execEcall at h
  split at h
  · cases h
    exact (quiet_terminated false s).preserves
  · have hcause : (match s.priv with | .U => 8 | .S => 9 | .M => 11) < 16 := by cases s.priv <;> decide
    exact (answers_raise false s _ 0 hcause).res.preserves h

/-- Every instruction: an ordinary one, LR, SC and the returns by `exec_answersRes`, the others by their own lemmas. -/
theorem exec_preserves {i : Instr} {s t : State} (h : exec i s = .next t) : Preserves i.writesMemory s t := by
  by_cases hcsr : i.isCsr = true
  · cases i with
    | csrrw | csrrs | csrrc | csrrwi | csrrsi | csrrci =>
      unfold exec at h
      exact preserves_csrOp h
    | _ => cases hcsr
  · by_cases hecall : i = .ecall
    · subst hecall
      exact preserves_ecall h
    · exact (exec_answersRes i s (by simpa using hcsr) hecall).preserves h

end Sys2Proof.Machine
end

section
/-! What a step keeps of the whole machine: its inputs, then an Idle step, an interrupt, or a fetch and an instruction. -/

namespace Sys2Proof.Machine

/-- A property of every hart, the active one and the parked ones. -/
def AllHarts (P : Hart → Prop) (s : State) : Prop := P s.toHart ∧ ∀ h ∈ s.others, P h

theorem legal_iff (s : State) : Legal s ↔ AllHarts (LegalHart s.cfg) s ∧ Memory.wf s.mem = true :=
  ⟨fun l => ⟨⟨l.active, l.parked⟩, l.memory⟩, fun ⟨⟨a, p⟩, m⟩ => ⟨a, p, m⟩⟩

/-- What each part of a step keeps of the whole machine, and the step with it: the invariants `Legal` and evenness, the configuration,
and the order of time and of the store counter. -/
structure Maintains (s t : State) : Prop where
  cfg : t.cfg = s.cfg
  time : s.timeIn.toNat ≤ t.timeIn.toNat
  seq : s.memSeq ≤ t.memSeq
  legal : Legal s → Legal t
  even : AllHarts EvenHart s → AllHarts EvenHart t

theorem Maintains.refl (s : State) : Maintains s s := ⟨rfl, Nat.le_refl _, Nat.le_refl _, id, id⟩

theorem Maintains.trans {s u t : State} (a : Maintains s u) (b : Maintains u t) : Maintains s t where
  cfg := b.cfg.trans a.cfg
  time := a.time.trans b.time
  seq := a.seq.trans b.seq
  legal := b.legal ∘ a.legal
  even := b.even ∘ a.even

/-- A parked hart meets what it met before: an instruction changes no more of it than the translation caches. -/
theorem Kept.others_forall {w : Bool} {s t : State} {P : Hart → Prop} (k : Kept w s t)
    (hP : ∀ h (tss : List (List Place)), P h → P (tss.foldl Hart.dropRange h)) (hs : ∀ h ∈ s.others, P h) :
    ∀ h ∈ t.others, P h := by
  obtain ⟨tss, htss⟩ := k.oth
  intro h hmem
  rw [htss] at hmem
  obtain ⟨g, hg, rfl⟩ := List.mem_map.1 hmem
  exact hP g tss (hs g hg)

theorem Preserves.legalHart {w : Bool} {s t : State} (h : Preserves w s t) (l : LegalHart s.cfg s.toHart) :
    LegalHart s.cfg t.toHart where
  noPendingException := (h.kept.pend l.noPendingException l.noPendingInterrupt).1
  noPendingInterrupt := (h.kept.pend l.noPendingException l.noPendingInterrupt).2
  x0 := h.kept.x0.trans l.x0
  xWidth := h.kept.xw l.xWidth
  fWidth := h.kept.fw l.fWidth
  vWidth := by rw [h.kept.v]; exact l.vWidth
  pcWidth := h.legal.pcw l.pcWidth
  csrs := h.legal.csrs l.csrs

theorem Preserves.maintains {w : Bool} {s t : State} (h : Preserves w s t) : Maintains s t where
  cfg := h.kept.cfg
  time := by rw [h.kept.timeIn]
  seq := h.kept.seq
  legal := fun l => by
    refine ⟨?_, ?_, h.kept.wf l.memory⟩ <;> rw [h.kept.cfg]
    · exact h.legalHart l.active
    · exact h.kept.others_forall (fun _ tss => legal_drops tss) l.parked
  even := fun e => ⟨h.legal.even e.1, h.kept.others_forall (fun _ tss => even_drops tss) e.2⟩

/-! ## Inputs -/

theorem maintains_onInput (s : State) (a : Input) :
    Maintains s { s with toHart := Hart.onInput s.toHart a, others := s.others.map fun h => Hart.onInput h a } where
  cfg := rfl
  time := Nat.le_refl _
  seq := Nat.le_refl _
  legal := fun l => ⟨legal_input a l.active, List.forall_mem_map.2 fun h hm => legal_input a (l.parked h hm), l.memory⟩
  even := fun e => ⟨even_input a e.1, List.forall_mem_map.2 fun h hm => even_input a (e.2 h hm)⟩

theorem maintains_switchTo {s : State} {id : Word} {g : Hart} {rest : List Hart} (h : switchTo s.toHart id s.others = some (g, rest)) :
    Maintains s { s with toHart := g, others := rest } where
  cfg := rfl
  time := Nat.le_refl _
  seq := Nat.le_refl _
  legal := fun l => (legal_iff _).2 ⟨switch_all (LegalHart s.cfg) h l.active l.parked, l.memory⟩
  even := fun e => switch_all EvenHart h e.1 e.2

theorem maintains_applyInput (s : State) (a : Input) : Maintains s (applyInput s a) := by
  refine (maintains_onInput s a).trans ?_
  unfold applyInput
  generalize { s with toHart := Hart.onInput s.toHart a, others := s.others.map fun h => Hart.onInput h a } = u
  cases a with
  | mip | cacheFill => exact Maintains.refl u
  | time t =>
    dsimp only
    split
    · rename_i hle
      exact ⟨rfl, hle, Nat.le_refl _, fun l => ⟨l.active, l.parked, l.memory⟩, id⟩
    · exact Maintains.refl u
  | writeRam pa bytes =>
    exact ⟨rfl, Nat.le_refl _, Nat.le_succ _, fun l => ⟨l.active, l.parked, Memory.writeBytes_wf _ _ l.memory⟩, id⟩
  | switchHart id =>
    dsimp only
    split
    · rename_i hswitch
      exact maintains_switchTo hswitch
    · exact Maintains.refl u

theorem maintains_foldl_applyInput (acts : List Input) (s : State) : Maintains s (acts.foldl applyInput s) := by
  induction acts generalizing s with
  | nil => exact Maintains.refl s
  | cons a acts ih => exact (maintains_applyInput s a).trans (ih _)

theorem maintains_takeInputs (s : State) : Maintains s (takeInputs s) := by
  unfold takeInputs
  split
  · exact Maintains.refl s
  · rename_i rest _
    have hqueue : Maintains s { s with inputs := rest } :=
      ⟨rfl, Nat.le_refl _, Nat.le_refl _, fun l => ⟨l.active, l.parked, l.memory⟩, id⟩
    exact hqueue.trans (maintains_foldl_applyInput _ _)

/-! ## The hart's step -/

theorem quiet_openReport (w : Bool) (s : State) : Quiet w s (openReport s) := quiet_out _ _ _

theorem quiet_atFetch (w : Bool) (s : State) : Quiet w (takeInputs s) (atFetch s) :=
  (quiet_openReport w _).trans (quiet_pd w _ false)

theorem preserves_trapped {s t : State} {interrupt : Bool} {code : Nat} {tval : Word} (T : Trapped s t interrupt code tval)
    (hc : code < 16) : Preserves false s t := by
  refine ⟨?_, trapped_keepsLegal (Quiet.refl false s) T hc⟩
  have hpend := T.pending
  rw [T.frame] at hpend ⊢
  exact { (Quiet.refl false s).kept with pend := fun _ _ => hpend }

theorem stepInsn_preserves {s t : State} {n : Insn} (h : stepInsn s n = .next t) : Preserves true s t := by
  unfold stepInsn at h
  split at h
  · exact (exec_preserves h).weaken
  · split at h
    · cases h
    · exact (answers_raise true s 2 n.zext).res.preserves h

theorem stepFetch_preserves {s t : State} (h : stepFetch s = .next t) : Preserves true s t := by
  obtain ⟨hquiet, hcause⟩ := quiet_fetch s
  unfold stepFetch at h
  split at h
  · rename_i c v u hf
    rw [hf] at hquiet
    exact (answers_raise_of hquiet c v (hcause c v u hf)).res.preserves h |>.weaken
  · rename_i n u hf
    rw [hf] at hquiet
    exact (Quiet.preserves (hquiet.trans (quiet_out _ _ _))).weaken.trans (stepInsn_preserves h)

theorem running_of_step {s t : State} (h : step s = .next t) : Running s := by
  unfold step at h
  split at h
  · rename_i hvalid
    split at h
    · cases h
    · rename_i hvendor
      exact ⟨hvalid, Bool.eq_false_iff.2 hvendor⟩
  · cases h

/-- What a step can be: Idle, an interrupt, or the fetch and what follows it (60_exceptions.md R700). -/
theorem step_cases {s t : State} (h : step s = .next t) :
    t = openReport (takeInputs s) ∨ (∃ i < 16, t = takeInterrupt (atFetch s) i) ∨ stepFetch (atFetch s) = .next t := by
  have hrun : Running s := running_of_step h
  by_cases hd : Dormant (takeInputs s)
  · rw [step_of_dormant hrun hd] at h
    cases h
    exact .inl rfl
  · cases hi : selectInterrupt (takeInputs s) with
    | some i =>
      rw [step_of_interrupt hrun hd hi] at h
      cases h
      exact .inr (.inl ⟨i, selectInterrupt_lt hi, rfl⟩)
    | none => exact .inr (.inr (step_of_reaches ⟨hrun, hd, hi⟩ ▸ h))

theorem step_maintains {s t : State} (h : step s = .next t) : Maintains s t := by
  refine (maintains_takeInputs s).trans ?_
  have hfetch : Maintains (takeInputs s) (atFetch s) := (quiet_atFetch false s).preserves.maintains
  rcases step_cases h with rfl | ⟨i, hi, rfl⟩ | hstep
  · exact (quiet_openReport false _).preserves.maintains
  · exact hfetch.trans (preserves_trapped (takeInterrupt_spec _ i) hi).maintains
  · exact hfetch.trans (stepFetch_preserves hstep).maintains

end Sys2Proof.Machine
end

section
/-! The machine after reset (10_state.md R80, 70_reset_and_hazards.md R770) is legal. -/

namespace Sys2Proof.Machine

/-- The parts of R8 that bear on the reset state. -/
theorem valid_reset {c : Config} (h : c.valid = true) :
    c.satpModes.contains 0 = true ∧ (c.xlen = .rv64 ∨ c.resetVector.toNat < 2 ^ 32) := by
  simp only [Config.valid, Bool.and_eq_true, Bool.or_eq_true, beq_iff_eq, decide_eq_true_eq] at h
  obtain ⟨⟨⟨⟨_, hsatp⟩, _⟩, hxlen⟩, _⟩ := h
  exact ⟨hsatp, hxlen.imp_right fun ⟨⟨⟨hreset, _⟩, _⟩, _⟩ => hreset⟩

theorem fits_of_lt {xl : Xlen} {v : Word} (h : xl = .rv64 ∨ v.toNat < 2 ^ 32) : fits xl v := by
  cases xl with
  | rv64 => rfl
  | rv32 =>
    have hv : v.toNat < 2 ^ 32 := h.resolve_left (by decide)
    refine BitVec.eq_of_toNat_eq ?_
    simp only [Xlen.norm, BitVec.toNat_setWidth]
    omega

theorem mstatusReset_outside_mask (c : Config) : mstatusReset c.xlen &&& ~~~mstatusMask c = mstatusReset c.xlen := by
  unfold mstatusMask
  cases c.xlen <;> split <;> split <;> decide

theorem within_zero (mask : Word) : within mask 0 := by simp [within]

theorem getBit_of_zero (i : Nat) : getBit i 0 = false := BitVec.getLsbD_zero

theorem legalCsrs_reset {c : Config} (h : c.satpModes.contains 0 = true) : LegalCsrs c (Csrs.reset c.xlen) where
  mstatusFixed := mstatusReset_outside_mask c
  mpp := by cases c.xlen <;> decide
  medeleg := within_zero _
  mideleg := within_zero _
  mie := within_zero _
  mip := within_zero _
  mtvec := ⟨getBit_of_zero _, norm_zero _⟩
  stvec := ⟨getBit_of_zero _, norm_zero _⟩
  mepc := ⟨getBit_of_zero _, norm_zero _⟩
  sepc := ⟨getBit_of_zero _, norm_zero _⟩
  mscratch := norm_zero _
  sscratch := norm_zero _
  mcause := norm_zero _
  scause := norm_zero _
  mtval := norm_zero _
  stval := norm_zero _
  satp := by cases c.xlen <;> exact ⟨rfl, h⟩
  mcounteren := BitVec.zero_and
  scounteren := BitVec.zero_and

theorem legalHart_reset {c : Config} (h : c.valid = true) (id : Word) : LegalHart c (Hart.reset c id) where
  noPendingException := rfl
  noPendingInterrupt := rfl
  x0 := by simp [Hart.reset]
  xWidth := fun i => by simpa [Hart.reset, fits] using norm_zero c.xlen
  fWidth := fun i => by cases c.flen <;> simp [Hart.reset, Flen.norm]
  vWidth := fun i => by simp [Hart.reset]
  pcWidth := fits_of_lt (valid_reset h).2
  csrs := legalCsrs_reset (valid_reset h).1

theorem legal_resetOf {c : Config} (h : c.valid = true) : Legal (State.resetOf c) where
  active := legalHart_reset h 0
  parked := List.forall_mem_map.2 fun _ _ => legalHart_reset h _
  memory := reset_memory_wf c

end Sys2Proof.Machine
end

section
/-! The statements on the state and its invariants. -/

namespace Sys2Proof.Machine

/-- Settles O3: each part of a step keeps `Legal`. -/
theorem stepKeepsLegal : Obligations.StepKeepsLegal := fun _ _ _ hlegal hstep => (step_maintains hstep).legal hlegal

/-- Settles O4: each part of a step keeps every hart even. -/
theorem stepKeepsPcEven : Obligations.StepKeepsPcEven := fun _ _ heven hstep => (step_maintains hstep).even heven

/-- Settles O60: only an input changes time, and no part of a step lowers the store counter. -/
theorem stepKeepsConstants : Obligations.StepKeepsConstants := by
  intro s t hstep
  obtain ⟨hcfg, htime, hseq, _, _⟩ := step_maintains hstep
  exact ⟨hcfg, htime, hseq⟩

/-- Settles O2: every hart starts in `Hart.reset`, over empty memory. -/
theorem resetIsLegal : Obligations.ResetIsLegal := ⟨legal_resetOf (by decide), fun _ => legal_resetOf⟩

end Sys2Proof.Machine
end

section
/-! Only stores write memory; the fetch (20_memory.md R158, R159). -/

namespace Sys2Proof.Machine

/-- Settles O58: what an instruction keeps is `Kept`. -/
theorem onlyStoresWriteMemory : Obligations.OnlyStoresWriteMemory := by
  intro i s t hexec
  obtain ⟨hkept, _⟩ := exec_preserves hexec
  exact ⟨hkept.mem, hkept.cfg, hkept.timeIn, hkept.inputs, hkept.x0, hkept.v, hkept.hartid⟩

/-! ## The fetch -/

/-- A parcel fits XLEN bits at both widths. -/
theorem zext_parcel (xl : Xlen) (lo : BitVec 16) : xl.zext lo = lo.setWidth 64 := by
  cases xl
  · simp [Xlen.zext, Xlen.norm]
  · rfl

section
variable {s u : State} {lo hi : BitVec 16}

theorem fetch_unaligned (h : s.pcAligned = false) : fetch s = .raise 0 (s.cfg.xlen.norm s.pc) s := by
  simp [fetch, h]

theorem fetch_of_fault {flt : LayerFault} (h : s.pcAligned = true) (hlo : s.places .code s.pc 2 = .error flt) :
    fetch s = .raise (faultCause .code flt) (s.cfg.xlen.norm s.pc) s := by
  simp [fetch, h, fetch16_err hlo]

theorem fetch_of_short (h : s.pcAligned = true) (hlo : fetch16 s s.pc = .ok lo u) (h3 : lo.toNat % 4 ≠ 3) :
    fetch s = if s.cfg.ext.c then .ok (.c lo) u else .raise 2 (lo.setWidth 64) u := by
  simp [fetch, h, hlo, parcel_low_bits, h3, zext_parcel]

theorem fetch_of_long_fault {c : Nat} {v : Word} {w : State} (h : s.pcAligned = true) (hlo : fetch16 s s.pc = .ok lo u)
    (h3 : lo.toNat % 4 = 3) (hhi : fetch16 u (s.pc + 2) = .raise c v w) : fetch s = .raise c v w := by
  simp only [fetch, h, hlo, parcel_low_bits, h3, hhi, if_true]

theorem fetch_of_long {w : State} (h : s.pcAligned = true) (hlo : fetch16 s s.pc = .ok lo u)
    (h3 : lo.toNat % 4 = 3) (hhi : fetch16 u (s.pc + 2) = .ok hi w) : fetch s = .ok (.w (hi ++ lo)) w := by
  simp only [fetch, h, hlo, parcel_low_bits, h3, hhi, if_true]

end

/-- Settles O9: the cases of `fetch`, the second parcel asked for in the state that the first one left. -/
theorem fetchFollowsRule : Obligations.FetchFollowsRule := by
  intro s
  dsimp only
  rw [← pcAligned_iff]
  refine ⟨fun hpc => fetch_unaligned (by simpa using hpc), fun hpc flt hlo => ?_, fun hpc ts hts => ?_⟩
  · have hfetch := fetch_of_fault hpc hlo
    cases flt <;> exact hfetch
  obtain ⟨u, hu, hframe⟩ := fetch16_ok hts
  have hsecond : u.places .code (s.pc + 2) 2 = s.places .code (s.pc + 2) 2 := by
    rw [hframe]
    exact places_of_eq rfl rfl rfl rfl rfl _ _ _
  refine ⟨fun h3 hc => ⟨u, ?_, hframe⟩, fun h3 hc => ⟨u, ?_, hframe⟩, fun h3 flt hhi => ⟨u, ?_, hframe⟩,
    fun h3 ts' hhi => ?_⟩
  · rw [fetch_of_short hpc hu h3, if_pos hc]
  · rw [fetch_of_short hpc hu h3, if_neg (by simp [hc])]
  · have hfetch := fetch_of_long_fault hpc hu h3 (fetch16_err (hsecond.trans hhi))
    rw [show u.cfg = s.cfg by rw [hframe]] at hfetch
    cases flt <;> exact hfetch
  · obtain ⟨w, hw, hwframe⟩ := fetch16_ok (hsecond.trans hhi)
    rw [show u.mem = s.mem by rw [hframe], show u.devSeq = s.devSeq + deviceCount ts by rw [hframe]] at hw
    refine ⟨w, fetch_of_long hpc hu h3 hw, ?_⟩
    rw [hwframe, hframe]

end Sys2Proof.Machine
end

section
/-! Loads and stores that trap (20_memory.md R156, R157, R160): each form is one access at its address, and a raise of the access is the trap. -/

namespace Sys2Proof.Machine

/-! ## Raises -/

theorem raise_norm (s : State) (c : Nat) (v : Word) : raise s c (s.cfg.xlen.norm v) = raise s c v := by
  simp [raise, trapEntry, trapRegisters]

/-- An instruction whose access raises traps, in the state the access left. -/
theorem trapped_of_raise {α : Type} {i : Instr} {s u : State} {r : MemResult α} {k : α → State → StepResult} {c : Nat} {v : Word}
    (hexec : exec i s = r.andThen k) (hr : r = .raise c (s.cfg.xlen.norm v) u) (hcfg : u.cfg = s.cfg) :
    ∃ t, exec i s = .next t ∧ Trapped u t false c v := by
  rw [hexec, hr, ← hcfg, MemResult.andThen, raise_norm]
  exact raise_spec u c v

theorem memRead_split {s : State} {a : Word} {n : Nat} (ha : s.cfg.xlen.toNat a % n ≠ 0) (hm : s.cfg.misaligned = .split) :
    memRead s a n = memReadSplit s a n := by
  simp [memRead, aligned, ha, hm]

theorem memWrite_split {s : State} {a : Word} {n : Nat} (v : Word) (ha : s.cfg.xlen.toNat a % n ≠ 0)
    (hm : s.cfg.misaligned = .split) : memWrite s a n v = memWriteSplit s a v n := by
  simp [memWrite, aligned, ha, hm]

/-! ## Addresses of the forms -/

theorem creg_eq_x8 (r : BitVec 3) : creg r = x8 r := by
  revert r
  decide

theorem effAddr_immS (s : State) (base : RegIdx) (imm : BitVec 12) :
    s.effAddr base (s.cfg.xlen.immS 0 imm) = s.cfg.xlen.norm (s.getX base + BitVec.ofInt 64 imm.toInt) := by
  rw [State.effAddr, immI, norm_add]

theorem effAddr_immU (s : State) (base : RegIdx) {w z : Nat} (imm : BitVec w) {scale : Int} (hscale : scale = 2 ^ z) :
    s.effAddr base (s.cfg.xlen.immU z imm) = s.cfg.xlen.norm (s.getX base + BitVec.ofInt 64 (scale * imm.toNat)) := by
  rw [State.effAddr, immU_eq, norm_add, hscale, Int.mul_comm]

/-! ## Every form is one access -/

/-- The form is a load in the state: a read of its bytes at its address, then what the load does with the value. -/
def MemForm.Loads (f : MemForm) (s : State) : Prop :=
  ∃ k, exec f.instr s = (memRead s (f.address s) f.bytes).andThen k

/-- The form is a store of the low bytes of `v` in the state. -/
def MemForm.Stores (f : MemForm) (s : State) (v : Word) : Prop :=
  ∃ k, exec f.instr s = (memWrite s (f.address s) f.bytes v).andThen k

section
variable {s : State} {instr i : Instr} {len offset v : Word} {reg base : RegIdx} {z : Int} {n : Nat} {signed : Bool}
  (ha : s.effAddr base offset = s.cfg.xlen.norm (s.getX base + BitVec.ofInt 64 z))
include ha

theorem loads_of_loadX {widen : Word → Word} (he : exec instr s = loadX s len reg base offset n widen) :
    MemForm.Loads ⟨instr, len, reg, base, z, n, signed⟩ s :=
  ⟨_, by rw [he, loadX, ha]; rfl⟩

theorem loads_of_loadS (hfp : s.fpEnabled = true) (he : exec instr s = loadS s i len reg base offset) :
    MemForm.Loads ⟨instr, len, reg, base, z, 4, signed⟩ s :=
  ⟨_, by rw [he, loadS, fpGate, if_pos hfp, ha]; rfl⟩

theorem loads_of_loadD (hfp : s.fpEnabled = true) (he : exec instr s = loadD s i len reg base offset) :
    MemForm.Loads ⟨instr, len, reg, base, z, 8, signed⟩ s :=
  ⟨_, by rw [he, loadD, fpGate, if_pos hfp, ha]; rfl⟩

theorem stores_of_storeX (he : exec instr s = storeX s len base offset n v) :
    MemForm.Stores ⟨instr, len, reg, base, z, n, signed⟩ s v :=
  ⟨_, by rw [he, storeX, ha]; rfl⟩

theorem stores_of_storeF (hfp : s.fpEnabled = true) (he : exec instr s = storeF s i len base offset n reg) :
    MemForm.Stores ⟨instr, len, reg, base, z, n, signed⟩ s (s.getF reg) :=
  stores_of_storeX ha (he.trans (by rw [storeF, fpGate, if_pos hfp]))

end

section
variable (s : State) (r rs1 : RegIdx) (cd c1 : BitVec 3) (i : BitVec 12) (i5 : BitVec 5) (i6 : BitVec 6)

theorem integerLoads_load : ∀ f ∈ integerLoads r rs1 cd c1 i i5 i6, f.Loads s := by
  simp only [integerLoads, ← creg_eq_x8, List.forall_mem_cons]
  have hsigned := effAddr_immS s rs1 i
  refine ⟨loads_of_loadX hsigned rfl, loads_of_loadX hsigned rfl, loads_of_loadX hsigned rfl, loads_of_loadX hsigned rfl,
    loads_of_loadX hsigned rfl, loads_of_loadX hsigned rfl, loads_of_loadX hsigned rfl,
    loads_of_loadX (effAddr_immU s _ i5 (by decide)) rfl, loads_of_loadX (effAddr_immU s _ i5 (by decide)) rfl,
    loads_of_loadX (effAddr_immU s _ i6 (by decide)) rfl, loads_of_loadX (effAddr_immU s _ i6 (by decide)) rfl, ?_⟩
  exact List.forall_mem_nil _

theorem floatLoads_load (hfp : s.fpEnabled = true) : ∀ f ∈ floatLoads r rs1 cd c1 i i5 i6, f.Loads s := by
  simp only [floatLoads, ← creg_eq_x8, List.forall_mem_cons]
  have hsigned := effAddr_immS s rs1 i
  refine ⟨loads_of_loadS hsigned hfp rfl, loads_of_loadD hsigned hfp rfl,
    loads_of_loadS (effAddr_immU s _ i5 (by decide)) hfp rfl, loads_of_loadD (effAddr_immU s _ i5 (by decide)) hfp rfl,
    loads_of_loadS (effAddr_immU s _ i6 (by decide)) hfp rfl, loads_of_loadD (effAddr_immU s _ i6 (by decide)) hfp rfl, ?_⟩
  exact List.forall_mem_nil _

theorem integerStores_store : ∀ f ∈ integerStores r rs1 cd c1 i i5 i6, f.Stores s (s.getX f.reg) := by
  simp only [integerStores, ← creg_eq_x8, List.forall_mem_cons]
  have hsigned := effAddr_immS s rs1 i
  refine ⟨stores_of_storeX hsigned rfl, stores_of_storeX hsigned rfl, stores_of_storeX hsigned rfl, stores_of_storeX hsigned rfl,
    stores_of_storeX (effAddr_immU s _ i5 (by decide)) rfl, stores_of_storeX (effAddr_immU s _ i5 (by decide)) rfl,
    stores_of_storeX (effAddr_immU s _ i6 (by decide)) rfl, stores_of_storeX (effAddr_immU s _ i6 (by decide)) rfl, ?_⟩
  exact List.forall_mem_nil _

theorem floatStores_store (hfp : s.fpEnabled = true) : ∀ f ∈ floatStores r rs1 cd c1 i i5 i6, f.Stores s (s.getF f.reg) := by
  simp only [floatStores, ← creg_eq_x8, List.forall_mem_cons]
  have hsigned := effAddr_immS s rs1 i
  refine ⟨stores_of_storeF hsigned hfp rfl, stores_of_storeF hsigned hfp rfl,
    stores_of_storeF (effAddr_immU s _ i5 (by decide)) hfp rfl, stores_of_storeF (effAddr_immU s _ i5 (by decide)) hfp rfl,
    stores_of_storeF (effAddr_immU s _ i6 (by decide)) hfp rfl, stores_of_storeF (effAddr_immU s _ i6 (by decide)) hfp rfl, ?_⟩
  exact List.forall_mem_nil _

end

/-! ## The traps of a load and of a store -/

section
variable {f : MemForm} {s : State}

theorem load_traps_misaligned (h : f.Loads s) (ha : s.cfg.xlen.toNat (f.address s) % f.bytes ≠ 0) (hm : s.cfg.misaligned = .trap) :
    ∃ t, exec f.instr s = .next t ∧ Trapped s t false 4 (f.address s) := by
  obtain ⟨k, hexec⟩ := h
  exact trapped_of_raise hexec (memRead_misaligned ha hm) rfl

theorem load_traps_fault (h : f.Loads s) (ha : s.cfg.xlen.toNat (f.address s) % f.bytes = 0) {flt : LayerFault}
    (hf : s.places .data (f.address s) f.bytes = .error flt) :
    ∃ t, exec f.instr s = .next t ∧ Trapped s t false (faultCause .data flt) (f.address s) := by
  obtain ⟨k, hexec⟩ := h
  exact trapped_of_raise hexec (memRead_fault ha hf) rfl

theorem load_traps_split (h : f.Loads s) (ha : s.cfg.xlen.toNat (f.address s) % f.bytes ≠ 0) (hm : s.cfg.misaligned = .split)
    {ts : List Place} {flt : LayerFault} (hn : ts.length < f.bytes)
    (hts : resolve s.cfg s.mem (s.request .data 1) (f.address s) ts.length = .ok ts)
    (hf : s.places .data (f.address s + BitVec.ofNat 64 ts.length) 1 = .error flt) :
    ∃ u t, exec f.instr s = .next t ∧ Trapped u t false (faultCause .data flt) (f.address s + BitVec.ofNat 64 ts.length)
      ∧ u = { s with
          devSeq := s.devSeq + deviceCount ts
          memSeq := s.memSeq + (if s.cfg.resInvalidateOn = .anyAccess then ts.length else 0)
          out := u.out } := by
  obtain ⟨k, hexec⟩ := h
  obtain ⟨u, hu, hframe⟩ := memReadSplit_fault hn hts hf
  obtain ⟨t, ht, htrap⟩ := trapped_of_raise hexec ((memRead_split ha hm).trans hu) (by rw [hframe])
  exact ⟨u, t, ht, htrap, hframe⟩

theorem store_traps_misaligned {v : Word} (h : f.Stores s v) (ha : s.cfg.xlen.toNat (f.address s) % f.bytes ≠ 0)
    (hm : s.cfg.misaligned = .trap) : ∃ t, exec f.instr s = .next t ∧ Trapped s t false 6 (f.address s) := by
  obtain ⟨k, hexec⟩ := h
  exact trapped_of_raise hexec (memWrite_misaligned v ha hm) rfl

theorem store_traps_fault {v : Word} (h : f.Stores s v) (ha : s.cfg.xlen.toNat (f.address s) % f.bytes = 0) {flt : LayerFault}
    (hf : s.places .store (f.address s) f.bytes = .error flt) :
    ∃ t, exec f.instr s = .next t ∧ Trapped s t false (faultCause .store flt) (f.address s) := by
  obtain ⟨k, hexec⟩ := h
  exact trapped_of_raise hexec (memWrite_fault v ha hf) rfl

theorem store_traps_split {v : Word} (h : f.Stores s v) (ha : s.cfg.xlen.toNat (f.address s) % f.bytes ≠ 0)
    (hm : s.cfg.misaligned = .split) (hwf : Memory.wf s.mem = true) {ts : List Place} {flt : LayerFault} (hn : ts.length < f.bytes)
    (hts : AnswersBytes s (f.address s) v ts)
    (hf : (s.afterBytes v ts).places .store (f.address s + BitVec.ofNat 64 ts.length) 1 = .error flt) :
    ∃ u t, exec f.instr s = .next t ∧ Trapped u t false (faultCause .store flt) (f.address s + BitVec.ofNat 64 ts.length)
      ∧ u = { s with mem := u.mem, memSeq := u.memSeq, others := u.others, out := u.out } ∧ WriteEffect s u ts.length ts v := by
  obtain ⟨k, hexec⟩ := h
  obtain ⟨u, hu, hframe⟩ := memWriteSplit_fault hn hts hf
  obtain ⟨t, ht, htrap⟩ := trapped_of_raise hexec ((memWrite_split v ha hm).trans hu) (by rw [hframe])
  refine ⟨u, t, ht, htrap, ?_, writeEffect_of hwf ?_ ?_ ?_⟩ <;> rw [hframe]

end

/-- Settles O29: every form is one access, and the access raises as the rule says. -/
theorem accessTraps : Obligations.AccessTraps := by
  intro s r rs1 cd c1 i i5 i6
  dsimp only
  refine ⟨fun f hmem => ?_, fun p hmem => ?_⟩
  · have hload : f.Loads s := by
      rcases List.mem_append.1 hmem with hint | hfloat
      · exact integerLoads_load s _ _ _ _ _ _ _ f hint
      · split at hfloat
        · rename_i hfp
          exact floatLoads_load s _ _ _ _ _ _ _ hfp f hfloat
        · cases hfloat
    refine ⟨load_traps_misaligned hload, fun ha flt hf => ?_, fun ha hm ts flt hn hts hf => ?_⟩
    · have htrap := load_traps_fault hload ha hf
      cases flt <;> exact htrap
    · have htrap := load_traps_split hload ha hm hn hts hf
      cases flt <;> exact htrap
  · have hstore : p.1.Stores s p.2 := by
      rcases List.mem_append.1 hmem with hint | hfloat
      · obtain ⟨f, hf, rfl⟩ := List.mem_map.1 hint
        exact integerStores_store s _ _ _ _ _ _ _ f hf
      · split at hfloat
        · rename_i hfp
          obtain ⟨f, hf, rfl⟩ := List.mem_map.1 hfloat
          exact floatStores_store s _ _ _ _ _ _ _ hfp f hf
        · cases hfloat
    refine ⟨store_traps_misaligned hstore, fun ha flt hf => ?_, fun ha hm hwf ts flt hn hts hf => ?_⟩
    · have htrap := store_traps_fault hstore ha hf
      cases flt <;> exact htrap
    · have htrap := store_traps_split hstore ha hm hwf hn hts hf
      cases flt <;> exact htrap

end Sys2Proof.Machine
end

section
/-! The memory layer (20_memory.md R155, R167): what its answer depends on, and what it is where translation is the identity. -/

namespace Sys2Proof.Machine

/-- MPRV, MPP, SUM and MXR are all that a request takes from mstatus (R155). -/
theorem request_of_bits {s t : State} (hh : t.hartid = s.hartid) (hp : t.priv = s.priv) (hsatp : t.csr.satp = s.csr.satp)
    (hbits : ∀ i ∈ [posMPRV, posMPP, posMPP + 1, posSUM, posMXR], getBit i t.csr.mstatus = getBit i s.csr.mstatus)
    (kind : AccessKind) (n : Nat) : t.request kind n = s.request kind n := by
  have hmpp : fieldMPP t.csr.mstatus = fieldMPP s.csr.mstatus :=
    congrArg privOfBits (getField2_eq_bits _ _ _ (hbits _ (by decide)) (hbits _ (by decide)))
  simp only [State.request, hh, hp, hsatp, hmpp, hbits posMPRV (by decide), hbits posSUM (by decide), hbits posMXR (by decide)]

/-! ## The contract of R167 -/

theorem identity_of_valid {c : Config} (hv : c.valid = true) (hm : ∀ m ∈ c.satpModes, m = 0) : ∀ e ∈ c.layer, e.isIdentity = true := by
  have hcontract : c.layerKeepsContract = true := by
    simp only [Config.valid, Bool.and_eq_true] at hv
    exact hv.2
  have hmodes : c.satpModes.any (· != 0) = false := List.any_eq_false.2 fun m hmem => by simp [hm m hmem]
  rw [Config.layerKeepsContract, hmodes, Bool.false_or] at hcontract
  exact List.all_eq_true.1 hcontract

theorem base_le_of_covers {e : LayerEntry} {mem : List Host.Cell} {q : Request} {a : Nat} (h : LayerEntry.covers e mem q a = true) :
    e.base ≤ a := by
  simp only [LayerEntry.covers, Bool.and_eq_true, decide_eq_true_eq] at h
  tauto

/-- What a line of such a layer answers at an address it covers. -/
theorem translate_identity {c : Config} (hid : ∀ e ∈ c.layer, e.isIdentity = true) (mem : List Host.Cell) (q : Request) (a : Nat) :
    translate c mem q a ≠ .error .page ∧ ∀ t, translate c mem q a = .ok t → t.addr = a := by
  unfold translate
  split
  · simp
  · rename_i e hfind
    have hcovers := List.find?_some hfind
    have hbase : e.base ≤ a := base_le_of_covers hcovers
    have hline := hid e (List.mem_of_find?_eq_some hfind)
    unfold LayerEntry.isIdentity at hline
    cases htarget : e.target with
    | fault flt =>
      simp only [htarget, bne_iff_ne] at hline
      simpa using hline
    | ram p | device p =>
      simp only [htarget, beq_iff_eq] at hline
      dsimp only
      split
      · simp; omega
      · simp

theorem resolve_error {c : Config} {mem : List Host.Cell} {q : Request} {a : Word} {n : Nat} {flt : LayerFault}
    (h : resolve c mem q a n = .error flt) : ∃ b, translate c mem q b = .error flt := by
  induction n generalizing a with
  | zero => cases h
  | succ n ih =>
    unfold resolve at h
    split at h
    · rename_i ht
      cases h
      exact ⟨_, ht⟩
    · split at h
      · rename_i hrest
        cases h
        exact ih hrest
      · cases h

theorem norm_toNat (xl : Xlen) (a : Word) : (xl.norm a).toNat = xl.toNat a := by
  cases xl
  · exact BitVec.toNat_setWidth_of_le (by decide)
  · rfl

theorem resolve_identity {c : Config} (hid : ∀ e ∈ c.layer, e.isIdentity = true) {mem : List Host.Cell} {q : Request} {a : Word}
    {n : Nat} {ts : List Place} (h : resolve c mem q a n = .ok ts) :
    ts.map Place.addr = (List.range n).map fun k => c.xlen.toNat (a + BitVec.ofNat 64 k) := by
  induction n generalizing a ts with
  | zero => cases h; rfl
  | succ n ih =>
    obtain ⟨t, ts', ht, hts, rfl⟩ := resolve_succ h
    have hfirst : t.addr = c.xlen.toNat (a + BitVec.ofNat 64 0) := by
      rw [(translate_identity hid mem q _).2 t ht, norm_toNat, BitVec.add_zero]
    rw [List.map_cons, ih hts, List.range_succ_eq_map, List.map_cons, List.map_map, hfirst]
    simp only [Function.comp_def, addr_succ, Nat.succ_eq_add_one]

end Sys2Proof.Machine
end

section
/-! Where the layer answers no page fault, no step reports one (60_exceptions.md R705). -/

namespace Sys2Proof.Machine

/-- A cause that is no page fault. -/
abbrev NoPageCause (c : Nat) : Prop := c ≠ 12 ∧ c ≠ 13 ∧ c ≠ 15

/-- The layer of this machine answers no page fault, and none stands in the trace record. Every part of a step keeps it. -/
structure PageFree (s : State) : Prop where
  layer : ∀ mem q a, translate s.cfg mem q a ≠ .error .page
  record : ∀ c v, s.out.trap = some (false, c, v) → NoPageCause c

/-- The next state, if there is one, is free of page faults. -/
def NextPageFree (r : StepResult) : Prop := ∀ t, r = .next t → PageFree t

/-- An access leaves a state free of page faults, and raises no page fault. -/
def AccessPageFree {α : Type} : MemResult α → Prop
  | .ok _ t => PageFree t
  | .raise c _ t => PageFree t ∧ NoPageCause c

theorem pageFree_of_eq {s t : State} (h : PageFree s) (hcfg : t.cfg = s.cfg) (htrap : t.out.trap = s.out.trap) : PageFree t :=
  ⟨hcfg ▸ h.layer, htrap ▸ h.record⟩

/-! ## The shared operations -/

section
variable {s : State} {i : Instr} {len offset next a v : Word} {rd rs1 rs2 : RegIdx} {fl : FFlags} {n : Nat} {cls : TransferClass}

theorem pageFree_setX (h : PageFree s) : PageFree (s.setX rd v) := by
  unfold State.setX
  split
  · exact h
  · exact pageFree_of_eq h rfl rfl

theorem pageFree_setF (h : PageFree s) : PageFree (s.setF rd v) := pageFree_of_eq h rfl rfl

theorem pageFree_accrue (h : PageFree s) : PageFree (s.accrue fl) := by
  unfold State.accrue
  split
  · exact h
  · exact pageFree_of_eq h rfl rfl

theorem pageFree_trapped {t : State} {interrupt : Bool} {c : Nat} (h : PageFree s) (T : Trapped s t interrupt c v)
    (hc : interrupt = false → NoPageCause c) : PageFree t := by
  obtain ⟨_, _, _, _, htrap⟩ := T.report
  refine ⟨?_, fun c' v' he => ?_⟩
  · rw [T.frame]
    exact h.layer
  · cases htrap.symm.trans he
    exact hc rfl

theorem pageFree_raise {c : Nat} (h : PageFree s) (hc : NoPageCause c) : NextPageFree (raise s c v) := by
  obtain ⟨u, hu, T⟩ := raise_spec s c v
  intro t ht
  cases hu.symm.trans ht
  exact pageFree_trapped h T fun _ => hc

theorem pageFree_illegal (h : PageFree s) : NextPageFree (raiseIllegal s i) :=
  pageFree_raise h (by decide)

theorem pageFree_andThen {α : Type} {r : MemResult α} {k : α → State → StepResult} (hr : AccessPageFree r)
    (hk : ∀ v u, PageFree u → NextPageFree (k v u)) : NextPageFree (r.andThen k) := by
  cases r with
  | ok v u => exact hk v u hr
  | raise c v u => exact pageFree_raise hr.1 hr.2

theorem pageFree_retireTo {regs : Option (RegIdx × RegIdx)} (h : PageFree s) : NextPageFree (retireTo s next cls regs) := by
  intro t ht
  cases ht
  exact pageFree_of_eq h rfl rfl

theorem pageFree_retire (h : PageFree s) : NextPageFree (retire s len) := pageFree_retireTo h

theorem pageFree_retireX (h : PageFree s) : NextPageFree (retireX s len rd v) :=
  pageFree_retire (pageFree_setX h)

theorem pageFree_retireF (h : PageFree s) : NextPageFree (retireF s len rd v fl) :=
  pageFree_retire (pageFree_accrue (pageFree_setF h))

theorem pageFree_retireXF (h : PageFree s) : NextPageFree (retireXF s len rd v fl) :=
  pageFree_retire (pageFree_accrue (pageFree_setX h))

theorem pageFree_branch {cond : Bool} (h : PageFree s) : NextPageFree (branch s len cond offset) := by
  unfold branch
  split <;> exact pageFree_retireTo h

theorem pageFree_fpGate {k : StepResult} (h : PageFree s) (hk : NextPageFree k) : NextPageFree (fpGate s i k) := by
  unfold fpGate
  split
  · exact hk
  · exact pageFree_illegal h

theorem pageFree_fpRounded {rm : BitVec 3} {k : RoundMode → StepResult} (h : PageFree s)
    (hk : ∀ m, NextPageFree (k m)) : NextPageFree (fpRounded s i rm k) := by
  unfold fpRounded
  split
  · split
    · exact hk _
    · exact pageFree_illegal h
  · exact pageFree_illegal h

/-! ## Memory accesses -/

theorem noPageCause_faultCause (h : PageFree s) {kind : AccessKind} {flt : LayerFault}
    (hf : s.places kind a n = .error flt) (kind' : AccessKind) : NoPageCause (faultCause kind' flt) := by
  obtain ⟨b, hb⟩ := resolve_error hf
  cases flt with
  | page => exact absurd hb (h.layer _ _ _)
  | misaligned | access => cases kind' <;> decide

theorem pageFree_layerRead {t : State} (h : PageFree s) {kind : AccessKind} (hr : layerRead s kind a n = .ok (v, t)) : PageFree t := by
  unfold layerRead at hr
  split at hr
  · cases hr
  · cases hr
    exact pageFree_of_eq h rfl rfl

theorem layerRead_error {kind : AccessKind} {flt : LayerFault}
    (hr : layerRead s kind a n = .error flt) : s.places kind a n = .error flt := by
  unfold layerRead at hr
  split at hr
  · rename_i hplaces
    cases hr
    exact hplaces
  · cases hr

theorem pageFree_layerWrite {t : State} (h : PageFree s) (hw : layerWrite s a n v = .ok t) : PageFree t := by
  unfold layerWrite at hw
  split at hw
  · cases hw
  · cases hw
    exact pageFree_of_eq h rfl rfl

theorem layerWrite_error {flt : LayerFault} (hw : layerWrite s a n v = .error flt) : s.places .store a n = .error flt := by
  unfold layerWrite at hw
  split at hw
  · rename_i hplaces
    cases hw
    exact hplaces
  · cases hw

theorem pageFree_memReadOnce (h : PageFree s) : AccessPageFree (memReadOnce s a n) := by
  unfold memReadOnce
  split
  · rename_i hr
    exact ⟨h, noPageCause_faultCause h (layerRead_error hr) _⟩
  · rename_i hr
    exact pageFree_of_eq (pageFree_layerRead h hr) (State.bumpSeqOnRead_cfg _) (by unfold State.bumpSeqOnRead; split <;> rfl)

theorem pageFree_memReadSplit (h : PageFree s) : AccessPageFree (memReadSplit s a n) := by
  induction n generalizing s a with
  | zero => exact h
  | succ n ih =>
    have hbyte : AccessPageFree (memReadOnce s a 1) := pageFree_memReadOnce h
    unfold memReadSplit
    split
    · rename_i he
      rwa [he] at hbyte
    · rename_i u he
      rw [he] at hbyte
      have hrest := ih (a := a + 1) hbyte
      split <;> rename_i he' <;> rwa [he'] at hrest

theorem pageFree_memRead (h : PageFree s) : AccessPageFree (memRead s a n) := by
  unfold memRead
  split
  · exact pageFree_memReadOnce h
  · split
    · exact ⟨h, by decide⟩
    · exact pageFree_memReadSplit h

theorem pageFree_memWriteOnce (h : PageFree s) : AccessPageFree (memWriteOnce s a n v) := by
  unfold memWriteOnce
  split
  · rename_i hw
    exact ⟨h, noPageCause_faultCause h (layerWrite_error hw) _⟩
  · rename_i hw
    exact pageFree_of_eq (pageFree_layerWrite h hw) rfl rfl

theorem pageFree_memWriteSplit (h : PageFree s) : AccessPageFree (memWriteSplit s a v n) := by
  induction n generalizing s a v with
  | zero => exact h
  | succ n ih =>
    have hbyte : AccessPageFree (memWriteOnce s a 1 v) := pageFree_memWriteOnce h
    unfold memWriteSplit
    split
    · rename_i he
      rwa [he] at hbyte
    · rename_i u he
      rw [he] at hbyte
      exact ih hbyte

theorem pageFree_memWrite (h : PageFree s) : AccessPageFree (memWrite s a n v) := by
  unfold memWrite
  split
  · exact pageFree_memWriteOnce h
  · split
    · exact ⟨h, by decide⟩
    · exact pageFree_memWriteSplit h

theorem pageFree_memAmo {op : Word → Word} (h : PageFree s) : AccessPageFree (memAmo s a n op) := by
  unfold memAmo
  split
  · rename_i hr
    exact ⟨h, noPageCause_faultCause h (layerRead_error hr) _⟩
  · rename_i t hr
    have ht := pageFree_layerRead h hr
    split
    · rename_i hw
      exact ⟨h, noPageCause_faultCause ht (layerWrite_error hw) _⟩
    · rename_i hw
      exact pageFree_of_eq (pageFree_layerWrite ht hw) rfl rfl

theorem pageFree_fetch16 (h : PageFree s) : AccessPageFree (fetch16 s a) := by
  unfold fetch16
  split
  · rename_i hr
    exact ⟨h, noPageCause_faultCause h (layerRead_error hr) _⟩
  · rename_i hr
    exact pageFree_layerRead h hr

theorem pageFree_fetch (h : PageFree s) : AccessPageFree (fetch s) := by
  unfold fetch
  split
  · have hlow : AccessPageFree (fetch16 s s.pc) := pageFree_fetch16 h
    split
    · rename_i he
      rwa [he] at hlow
    · rename_i u he
      rw [he] at hlow
      have hu : PageFree u := hlow
      split
      · have hhigh : AccessPageFree (fetch16 u (s.pc + 2)) := pageFree_fetch16 hu
        split <;> rename_i he' <;> rwa [he'] at hhigh
      · split
        · exact hu
        · exact ⟨hu, by decide⟩
  · exact ⟨h, by decide⟩

/-! ## Loads, stores, atomics and the system instructions -/

theorem pageFree_loadX {widen : Word → Word} (h : PageFree s) : NextPageFree (loadX s len rd rs1 offset n widen) :=
  pageFree_andThen (pageFree_memRead h) fun _ _ hu => pageFree_retireX hu

theorem pageFree_storeX (h : PageFree s) : NextPageFree (storeX s len rs1 offset n v) :=
  pageFree_andThen (pageFree_memWrite h) fun _ _ hu => pageFree_retire hu

theorem pageFree_loadS (h : PageFree s) : NextPageFree (loadS s i len rd rs1 offset) :=
  pageFree_fpGate h (pageFree_andThen (pageFree_memRead h) fun _ _ hu => pageFree_retireF hu)

theorem pageFree_loadD (h : PageFree s) : NextPageFree (loadD s i len rd rs1 offset) :=
  pageFree_fpGate h (pageFree_andThen (pageFree_memRead h) fun _ _ hu => pageFree_retireF hu)

theorem pageFree_storeF (h : PageFree s) : NextPageFree (storeF s i len rs1 offset n rs2) :=
  pageFree_fpGate h (pageFree_storeX h)

theorem pageFree_fetchAndOp {op : BitVec (8 * n) → BitVec (8 * n) → BitVec (8 * n)} {src : Word} (h : PageFree s) :
    NextPageFree (fetchAndOp s rd rs1 n op src) := by
  unfold fetchAndOp
  split
  · exact pageFree_andThen (pageFree_memAmo h) fun _ _ hu => pageFree_retireX hu
  · exact pageFree_raise h (by decide)

theorem pageFree_loadReserved (h : PageFree s) : NextPageFree (loadReserved s rd rs1 n) := by
  unfold loadReserved
  split
  · exact pageFree_andThen (pageFree_memRead h) fun _ _ hu => pageFree_retireX (pageFree_of_eq hu rfl rfl)
  · exact pageFree_raise h (by decide)

theorem pageFree_storeConditional (h : PageFree s) : NextPageFree (storeConditional s rd rs1 n v) := by
  unfold storeConditional
  split
  · split
    · exact pageFree_andThen (pageFree_memWrite h) fun _ _ hu => pageFree_retireX (pageFree_of_eq hu rfl rfl)
    · exact pageFree_retireX (pageFree_of_eq h rfl rfl)
  · exact pageFree_raise h (by decide)

theorem pageFree_writeCsr {r : CsrName} (h : PageFree s) : PageFree (s.writeCsr r v) := by
  rw [writeCsr_frame]
  exact pageFree_of_eq h rfl rfl

theorem pageFree_csrOp {n : BitVec 12} {writes : Bool} {new : Word → Word} (h : PageFree s) : NextPageFree (csrOp s i n writes rd new) := by
  unfold csrOp
  split
  · exact pageFree_illegal h
  · intro t ht
    cases ht
    refine pageFree_of_eq (pageFree_setX (?_ : PageFree (if writes then _ else s))) rfl rfl
    split
    · exact pageFree_writeCsr h
    · exact h

theorem pageFree_ecall (h : PageFree s) : NextPageFree (execEcall s) := by
  unfold execEcall
  split
  · intro t ht
    cases ht
    exact pageFree_of_eq h rfl rfl
  · exact pageFree_raise h (by cases s.priv <;> decide)

/-- An instruction that is illegal in some modes and retires in the others. -/
theorem pageFree_unless {u : State} {c : Bool} (h : PageFree s) (hcfg : u.cfg = s.cfg) (htrap : u.out.trap = s.out.trap) :
    NextPageFree (if c then raiseIllegal s i else retireTo u next cls none) := by
  split
  · exact pageFree_illegal h
  · exact pageFree_retireTo (pageFree_of_eq h hcfg htrap)

end

/-! ## Every instruction, and the step -/

theorem exec_pageFree {s : State} {i : Instr} (h : PageFree s) : NextPageFree (exec i s) := by
  cases i with
  | lui | auipc | addi | slti | sltiu | xori | ori | andi | slli | srli | srai | add | sub | sll | slt | sltu | xor | srl | sra | or | and |
  addiw | slliw | srliw | sraiw | addw | subw | sllw | srlw | sraw | c_addi4spn | c_addi | c_addiw | c_li | c_addi16sp | c_lui | c_srli |
  c_srai | c_andi | c_sub | c_xor | c_or | c_and | c_subw | c_addw | c_slli | c_mv | c_add | mul | mulh | mulhsu | mulhu | div | divu | rem
  | remu | mulw | divw | divuw | remw | remuw | sh1add | sh2add | sh3add | add_uw | sh1add_uw | sh2add_uw | sh3add_uw | slli_uw | andn | orn
  | xnor | clz | ctz | cpop | clzw | ctzw | cpopw | max | maxu | min | minu | sext_b | sext_h | zext_h | rol | ror | rori | rolw | rorw |
  roriw | orc_b | rev8 | clmul | clmulh | clmulr | bclr | bclri | bext | bexti | binv | binvi | bset | bseti =>
    exact pageFree_retireX h
  | fence | c_nop => exact pageFree_retire h
  | fence_i => exact pageFree_retire (pageFree_of_eq h rfl rfl)
  | jal | c_jal | c_j | jalr | c_jr | c_jalr => exact pageFree_retireTo (pageFree_setX h)
  | beq | bne | blt | bge | bltu | bgeu | c_beqz | c_bnez => exact pageFree_branch h
  | lb | lh | lw | lbu | lhu | lwu | ld | c_lw | c_ld | c_lwsp | c_ldsp => exact pageFree_loadX h
  | sb | sh | sw | sd | c_sw | c_sd | c_swsp | c_sdsp => exact pageFree_storeX h
  | c_flw | c_flwsp | flw => exact pageFree_loadS h
  | c_fld | c_fldsp | fld => exact pageFree_loadD h
  | c_fsd | c_fsw | c_fsdsp | c_fswsp | fsw | fsd => exact pageFree_storeF h
  | amoswap_w | amoadd_w | amoxor_w | amoand_w | amoor_w | amomin_w | amomax_w | amominu_w | amomaxu_w | amoswap_d | amoadd_d | amoxor_d |
  amoand_d | amoor_d | amomin_d | amomax_d | amominu_d | amomaxu_d =>
    exact pageFree_fetchAndOp h
  | lr_w | lr_d => exact pageFree_loadReserved h
  | sc_w | sc_d => exact pageFree_storeConditional h
  | fmadd_s | fmsub_s | fnmsub_s | fnmadd_s | fadd_s | fsub_s | fmul_s | fdiv_s | fsqrt_s | fcvt_s_w | fcvt_s_wu | fcvt_s_l | fcvt_s_lu |
  fcvt_s_d | fmadd_d | fmsub_d | fnmsub_d | fnmadd_d | fadd_d | fsub_d | fmul_d | fdiv_d | fsqrt_d | fcvt_d_s | fcvt_d_w | fcvt_d_wu |
  fcvt_d_l | fcvt_d_lu =>
    exact pageFree_fpRounded h fun _ => pageFree_retireF h
  | fcvt_w_s | fcvt_wu_s | fcvt_l_s | fcvt_lu_s | fcvt_w_d | fcvt_wu_d | fcvt_l_d | fcvt_lu_d =>
    exact pageFree_fpRounded h fun _ => pageFree_retireXF h
  | fsgnj_s | fsgnjn_s | fsgnjx_s | fmin_s | fmax_s | fmv_w_x | fsgnj_d | fsgnjn_d | fsgnjx_d | fmin_d | fmax_d | fmv_d_x =>
    exact pageFree_fpGate h (pageFree_retireF h)
  | feq_s | flt_s | fle_s | feq_d | flt_d | fle_d => exact pageFree_fpGate h (pageFree_retireXF h)
  | fmv_x_w | fclass_s | fclass_d | fmv_x_d => exact pageFree_fpGate h (pageFree_retireX h)
  | ebreak | c_ebreak => exact pageFree_raise h (by decide)
  | csrrw | csrrs | csrrc | csrrwi | csrrsi | csrrci =>
    unfold exec
    exact pageFree_csrOp h
  | ecall => exact pageFree_ecall h
  | mret | sret | wfi | sfence_vma => exact pageFree_unless h rfl rfl

theorem pageFree_stepInsn {s : State} {n : Insn} (h : PageFree s) : NextPageFree (stepInsn s n) := by
  unfold stepInsn
  split
  · exact exec_pageFree h
  · split
    · intro t ht
      cases ht
    · exact pageFree_raise h (by decide)

theorem pageFree_stepFetch {s : State} (h : PageFree s) : NextPageFree (stepFetch s) := by
  have hfetch := pageFree_fetch h
  unfold stepFetch
  split
  · rename_i he
    rw [he] at hfetch
    exact pageFree_raise hfetch.1 hfetch.2
  · rename_i u he
    rw [he] at hfetch
    have hu : PageFree u := hfetch
    exact pageFree_stepInsn (pageFree_of_eq hu rfl rfl)

/-- The record that a step opens is empty, so only the layer bears on what the step reports. -/
theorem step_pageFree {s : State} (hlayer : ∀ mem q a, translate s.cfg mem q a ≠ .error .page) : NextPageFree (step s) := by
  intro t hstep
  have hopen : PageFree (openReport (takeInputs s)) := by
    refine ⟨?_, fun c v he => (by cases he)⟩
    rw [show (openReport (takeInputs s)).cfg = s.cfg from takeInputs_cfg s]
    exact hlayer
  have hfetch : PageFree (atFetch s) := pageFree_of_eq hopen rfl rfl
  rcases step_cases hstep with rfl | ⟨i, _, rfl⟩ | hnext
  · exact hopen
  · exact pageFree_trapped hfetch (takeInterrupt_spec _ i) nofun
  · exact pageFree_stepFetch hfetch t hnext

/-- Settles O30: every line of the layer is the identity, so no access, fetch or step meets a page fault. -/
theorem identityTranslation : Obligations.IdentityTranslation := by
  refine ⟨fun s kind a n hv hm => ⟨fun hpage => ?_, fun ts => resolve_identity (identity_of_valid hv hm)⟩, fun s t hm hstep v => ?_,
    fun s t kind a n hcfg hmem hh hp hsatp hbits => ?_⟩
  · obtain ⟨b, hb⟩ := resolve_error hpage
    exact (translate_identity (identity_of_valid hv hm) _ _ b).1 hb
  · have hid := identity_of_valid (running_of_step hstep).1 hm
    have hfree : PageFree t := step_pageFree (fun mem q a => (translate_identity hid mem q a).1) t hstep
    exact ⟨fun he => (hfree.record _ _ he).1 rfl, fun he => (hfree.record _ _ he).2.1 rfl, fun he => (hfree.record _ _ he).2.2 rfl⟩
  · rw [State.places, State.places, hcfg, hmem, request_of_bits hh hp hsatp hbits]

end Sys2Proof.Machine
end

section
/-! A word and its fields: splitting and putting together are inverse (30_encoding.md R201, R206). -/

namespace Sys2Proof
open BitVec

theorem fields32_word (f : Fields32) : fields32 f.word = f := by
  simp (disch := omega) only [fields32, Fields32.word, extractLsb'_append_eq_of_add_le, extractLsb'_append_eq_of_le,
    extractLsb'_eq_self, Nat.reduceSub]

theorem word_fields32 (v : BitVec 32) : (fields32 v).word = v := by
  simp (disch := omega) only [fields32, Fields32.word, extractLsb'_append_extractLsb'_eq_extractLsb', extractLsb'_eq_self]

theorem fields16_parcel (f : Fields16) : fields16 f.parcel = f := by
  simp (disch := omega) only [fields16, Fields16.parcel, extractLsb'_append_eq_of_add_le, extractLsb'_append_eq_of_le,
    extractLsb'_eq_self, Nat.reduceSub]

theorem parcel_fields16 (p : BitVec 16) : (fields16 p).parcel = p := by
  simp (disch := omega) only [fields16, Fields16.parcel, extractLsb'_append_extractLsb'_eq_extractLsb', extractLsb'_eq_self]

theorem decodePattern_word (xl : Xlen) (f : Fields32) : decodePattern xl (.w f.word) = decode32 xl f := by
  rw [decodePattern, fields32_word]

theorem decodePattern_parcel (xl : Xlen) (f : Fields16) : decodePattern xl (.c f.parcel) = decode16 xl f := by
  rw [decodePattern, fields16_parcel]

/-! ## The pattern of a word put together from its operands, by format

Each lemma asks for the row, `h`, at every value of the fields that hold the immediate, and gives it at the fields the encoder fills. -/

section
variable {xl : Xlen} {f3 : BitVec 3} {op : BitVec 7} {rd rs1 rs2 : RegIdx}

section
variable {k : BitVec 12 → Instr}

theorem decodePattern_encI (h : ∀ f7 rs2, decode32 xl ⟨f7, rs2, rs1, f3, rd, op⟩ = some (k (f7 ++ rs2))) (imm : BitVec 12) :
    decodePattern xl (encI f3 op rd rs1 imm) = some (k imm) := by
  rw [encI, decodePattern_word, h]
  simp (disch := omega) only [extractLsb'_append_extractLsb'_eq_extractLsb', extractLsb'_eq_self]

theorem decodePattern_encS (h : ∀ f7 rd, decode32 xl ⟨f7, rs2, rs1, f3, rd, op⟩ = some (k (f7 ++ rd))) (imm : BitVec 12) :
    decodePattern xl (encS f3 op rs2 rs1 imm) = some (k imm) := by
  rw [encS, decodePattern_word, h]
  simp (disch := omega) only [extractLsb'_append_extractLsb'_eq_extractLsb', extractLsb'_eq_self]

theorem decodePattern_encB
    (h : ∀ f7 rd, decode32 xl ⟨f7, rs2, rs1, f3, rd, 0x63#7⟩ = some (k (Fields32.immB ⟨f7, rs2, rs1, f3, rd, 0x63#7⟩)))
    (imm : BitVec 12) : decodePattern xl (encB f3 rs1 rs2 imm) = some (k imm) := by
  rw [encB, decodePattern_word, h, Fields32.immB]
  simp (disch := omega) only [extractLsb'_append_eq_of_add_le, extractLsb'_append_eq_of_le, extractLsb'_eq_self, Nat.reduceSub,
    extractLsb'_append_extractLsb'_eq_extractLsb']

end

theorem decodePattern_encU {k : BitVec 20 → Instr}
    (h : ∀ f7 rs2 rs1 f3, decode32 xl ⟨f7, rs2, rs1, f3, rd, op⟩ = some (k (f7 ++ rs2 ++ rs1 ++ f3))) (imm : BitVec 20) :
    decodePattern xl (encU op rd imm) = some (k imm) := by
  rw [encU, decodePattern_word, h]
  simp (disch := omega) only [extractLsb'_append_extractLsb'_eq_extractLsb', extractLsb'_eq_self]

theorem decodePattern_encJ (imm : BitVec 20) : decodePattern xl (encJ rd imm) = some (.jal rd imm) := by
  have h : ∀ f7 rs2 rs1 f3, decode32 xl ⟨f7, rs2, rs1, f3, rd, 0x6f#7⟩
      = some (.jal rd (Fields32.immJ ⟨f7, rs2, rs1, f3, rd, 0x6f#7⟩)) := fun _ _ _ _ => rfl
  rw [encJ, decodePattern_word, h, Fields32.immJ]
  simp (disch := omega) only [extractLsb'_append_eq_of_add_le, extractLsb'_append_eq_of_le, extractLsb'_eq_self, Nat.reduceSub,
    extractLsb'_append_extractLsb'_eq_extractLsb']

theorem decodePattern_encShift {f6 : BitVec 6} {k : BitVec 6 → Instr}
    (h : ∀ f7 rs2, f7.extractLsb' 1 6 = f6 → decode32 xl ⟨f7, rs2, rs1, f3, rd, op⟩ = some (k (f7.extractLsb' 0 1 ++ rs2)))
    (shamt : BitVec 6) : decodePattern xl (encShift f6 f3 op rd rs1 shamt) = some (k shamt) := by
  rw [encShift, decodePattern_word, h _ _ extractLsb'_append_eq_left, extractLsb'_append_eq_right]
  simp (disch := omega) only [extractLsb'_append_extractLsb'_eq_extractLsb', extractLsb'_eq_self]

theorem decodePattern_encAmo {f5 : BitVec 5} {k : BitVec 1 → BitVec 1 → Instr}
    (h : ∀ f7, f7.extractLsb' 2 5 = f5 → decode32 xl ⟨f7, rs2, rs1, f3, rd, 0x2f#7⟩ = some (k (f7.extractLsb' 1 1) (f7.extractLsb' 0 1)))
    (aq rl : BitVec 1) : decodePattern xl (encAmo f5 f3 rd rs1 rs2 aq rl) = some (k aq rl) := by
  rw [encAmo, decodePattern_word, h] <;>
  simp (disch := omega) only [extractLsb'_append_eq_of_add_le, extractLsb'_append_eq_of_le, extractLsb'_eq_self, Nat.reduceSub]

theorem decodePattern_encR4 {fmt : BitVec 2} {rm : BitVec 3} {k : RegIdx → Instr}
    (h : ∀ f7, f7.extractLsb' 0 2 = fmt → decode32 xl ⟨f7, rs2, rs1, rm, rd, op⟩ = some (k (f7.extractLsb' 2 5)))
    (rs3 : RegIdx) : decodePattern xl (encR4 fmt op rd rs1 rs2 rs3 rm) = some (k rs3) := by
  rw [encR4, decodePattern_word, h] <;>
  simp (disch := omega) only [extractLsb'_append_eq_of_add_le, extractLsb'_append_eq_of_le, extractLsb'_eq_self, Nat.reduceSub]

theorem decodePattern_encFence (fm pred succ : BitVec 4) :
    decodePattern xl (encFence fm pred succ rs1 rd) = some (.fence fm pred succ rs1 rd) := by
  rw [encFence, decodePattern_word]
  simp (disch := omega) only [decode32, decodeMiscMem, Fields32.fm, Fields32.pred, Fields32.succ, extractLsb'_append_eq_of_add_le,
    extractLsb'_append_eq_of_le, extractLsb'_eq_self, Nat.reduceSub, extractLsb'_append_extractLsb'_eq_extractLsb']
end

/-! ## The pattern of a parcel put together from its operands, by format, in the same way -/

section
variable {xl : Xlen} {f3 r1 r2 : BitVec 3}

section
variable {k : BitVec 5 → Instr}

theorem decodePattern_encCLW
    (h : ∀ b12 hi mid, decode16 xl ⟨f3, b12, hi, r1, mid, r2, 0#2⟩ = some (k (Fields16.immCLW ⟨f3, b12, hi, r1, mid, r2, 0#2⟩)))
    (imm : BitVec 5) : decodePattern xl (encCLW f3 r2 r1 imm) = some (k imm) := by
  rw [encCLW, decodePattern_parcel, h, Fields16.immCLW]
  simp (disch := omega) only [extractLsb'_append_eq_of_add_le, extractLsb'_append_eq_of_le, extractLsb'_eq_self, Nat.reduceSub,
    extractLsb'_append_extractLsb'_eq_extractLsb']

theorem decodePattern_encCLD
    (h : ∀ b12 hi mid, decode16 xl ⟨f3, b12, hi, r1, mid, r2, 0#2⟩ = some (k (mid ++ b12 ++ hi)))
    (imm : BitVec 5) : decodePattern xl (encCLD f3 r2 r1 imm) = some (k imm) := by
  rw [encCLD, decodePattern_parcel, h]
  simp (disch := omega) only [extractLsb'_append_extractLsb'_eq_extractLsb', extractLsb'_eq_self]

end

theorem decodePattern_encCIW (imm : BitVec 8) : decodePattern xl (encCIW 0#3 r2 imm) = some (.c_addi4spn r2 imm) := by
  rw [encCIW, decodePattern_parcel]
  simp (disch := omega) only [decode16, decodeQuadrant0, Fields16.immCIW, extractLsb'_append_eq_of_add_le,
    extractLsb'_append_eq_of_le, extractLsb'_eq_self, Nat.reduceSub, extractLsb'_append_extractLsb'_eq_extractLsb']

theorem decodePattern_encC16 (imm : BitVec 6) : decodePattern xl (encC16 imm) = some (.c_addi16sp imm) := by
  have h : ∀ b12 mid r2, decode16 xl ⟨3#3, b12, 0#2, 2#3, mid, r2, 1#2⟩
      = some (.c_addi16sp (Fields16.immC16 ⟨3#3, b12, 0#2, 2#3, mid, r2, 1#2⟩)) := by
    simp [decode16, decodeQuadrant1, Fields16.rd]
  rw [encC16, decodePattern_parcel, h, Fields16.immC16]
  simp (disch := omega) only [extractLsb'_append_eq_of_add_le, extractLsb'_append_eq_of_le, extractLsb'_eq_self, Nat.reduceSub,
    extractLsb'_append_extractLsb'_eq_extractLsb']

theorem decodePattern_encCBI {f2 : BitVec 2} {k : BitVec 6 → Instr}
    (h : ∀ b12 mid r2, decode16 xl ⟨4#3, b12, f2, r1, mid, r2, 1#2⟩ = some (k (b12 ++ mid ++ r2))) (imm : BitVec 6) :
    decodePattern xl (encCBI f2 r1 imm) = some (k imm) := by
  rw [encCBI, decodePattern_parcel, h]
  simp (disch := omega) only [extractLsb'_append_extractLsb'_eq_extractLsb', extractLsb'_eq_self]

theorem decodePattern_encCJ {k : BitVec 11 → Instr}
    (h : ∀ b12 hi r1 mid r2, decode16 xl ⟨f3, b12, hi, r1, mid, r2, 1#2⟩ = some (k (Fields16.immCJ ⟨f3, b12, hi, r1, mid, r2, 1#2⟩)))
    (imm : BitVec 11) : decodePattern xl (encCJ f3 imm) = some (k imm) := by
  rw [encCJ, decodePattern_parcel, h, Fields16.immCJ]
  simp (disch := omega) only [extractLsb'_append_eq_of_add_le, extractLsb'_append_eq_of_le, extractLsb'_eq_self, Nat.reduceSub,
    extractLsb'_append_extractLsb'_eq_extractLsb']

theorem decodePattern_encCB {k : BitVec 8 → Instr}
    (h : ∀ b12 hi mid r2, decode16 xl ⟨f3, b12, hi, r1, mid, r2, 1#2⟩ = some (k (Fields16.immCB ⟨f3, b12, hi, r1, mid, r2, 1#2⟩)))
    (imm : BitVec 8) : decodePattern xl (encCB f3 r1 imm) = some (k imm) := by
  rw [encCB, decodePattern_parcel, h, Fields16.immCB]
  simp (disch := omega) only [extractLsb'_append_eq_of_add_le, extractLsb'_append_eq_of_le, extractLsb'_eq_self, Nat.reduceSub,
    extractLsb'_append_extractLsb'_eq_extractLsb']

section
variable {k : RegIdx → BitVec 6 → Instr}

theorem decodePattern_encLWSP
    (h : ∀ b12 hi r1 mid r2,
      decode16 xl ⟨f3, b12, hi, r1, mid, r2, 2#2⟩ = some (k (hi ++ r1) (Fields16.immLWSP ⟨f3, b12, hi, r1, mid, r2, 2#2⟩)))
    (rd : RegIdx) (imm : BitVec 6) : decodePattern xl (encLWSP f3 rd imm) = some (k rd imm) := by
  rw [encLWSP, decodePattern_parcel, h, Fields16.immLWSP]
  simp (disch := omega) only [extractLsb'_append_eq_of_add_le, extractLsb'_append_eq_of_le, extractLsb'_eq_self, Nat.reduceSub,
    extractLsb'_append_extractLsb'_eq_extractLsb']

theorem decodePattern_encLDSP
    (h : ∀ b12 hi r1 mid r2, decode16 xl ⟨f3, b12, hi, r1, mid, r2, 2#2⟩ = some (k (hi ++ r1) (r2 ++ b12 ++ mid)))
    (rd : RegIdx) (imm : BitVec 6) : decodePattern xl (encLDSP f3 rd imm) = some (k rd imm) := by
  rw [encLDSP, decodePattern_parcel, h]
  simp (disch := omega) only [extractLsb'_append_extractLsb'_eq_extractLsb', extractLsb'_eq_self]

theorem decodePattern_encSWSP
    (h : ∀ b12 hi r1 mid r2,
      decode16 xl ⟨f3, b12, hi, r1, mid, r2, 2#2⟩ = some (k (mid ++ r2) (Fields16.immSWSP ⟨f3, b12, hi, r1, mid, r2, 2#2⟩)))
    (rs2 : RegIdx) (imm : BitVec 6) : decodePattern xl (encSWSP f3 rs2 imm) = some (k rs2 imm) := by
  rw [encSWSP, decodePattern_parcel, h, Fields16.immSWSP]
  simp (disch := omega) only [extractLsb'_append_eq_of_add_le, extractLsb'_append_eq_of_le, extractLsb'_eq_self, Nat.reduceSub,
    extractLsb'_append_extractLsb'_eq_extractLsb']

theorem decodePattern_encSDSP
    (h : ∀ b12 hi r1 mid r2, decode16 xl ⟨f3, b12, hi, r1, mid, r2, 2#2⟩ = some (k (mid ++ r2) (r1 ++ b12 ++ hi)))
    (rs2 : RegIdx) (imm : BitVec 6) : decodePattern xl (encSDSP f3 rs2 imm) = some (k rs2 imm) := by
  rw [encSDSP, decodePattern_parcel, h]
  simp (disch := omega) only [extractLsb'_append_extractLsb'_eq_extractLsb', extractLsb'_eq_self]

end

/-- Some forms of format CI are told apart by the register alone, so the pattern may depend on it. -/
theorem decodePattern_encCI {op : BitVec 2} {rd : RegIdx} {k : BitVec 6 → Instr}
    (h : ∀ f : Fields16, f.f3 = f3 → f.op = op → f.rd = rd → decode16 xl f = some (k f.immCI)) (imm : BitVec 6) :
    decodePattern xl (encCI f3 op rd imm) = some (k imm) := by
  rw [encCI, decodePattern_parcel, h _ rfl rfl] <;>
  simp (disch := omega) only [Fields16.rd, Fields16.immCI, extractLsb'_append_extractLsb'_eq_extractLsb', extractLsb'_eq_self]

/-- The forms of format CR are told apart by their registers, which the pattern may depend on. -/
theorem decodePattern_encCR {b12 : BitVec 1} {rd rs2 : RegIdx} {i : Instr}
    (h : ∀ f : Fields16, f.op = 2#2 → f.f3 = 4#3 → f.b12 = b12 → f.rd = rd → f.rs2 = rs2 → decode16 xl f = some i) :
    decodePattern xl (encCR b12 rd rs2) = some i := by
  rw [encCR, decodePattern_parcel, h _ rfl rfl rfl] <;>
  simp (disch := omega) only [Fields16.rd, Fields16.rs2, extractLsb'_append_extractLsb'_eq_extractLsb', extractLsb'_eq_self]

end

/-! ## Decoding what was encoded -/

theorem wellFormed_iff {c : Config} {i : Instr} :
    i.wellFormed c = true ↔ i.availableIn c = true ∧ i.fieldsOk c.xlen = true := by
  rw [Instr.wellFormed, Bool.and_eq_true]

theorem xlen_of_availableIn {c : Config} {i : Instr} (h : i.availableIn c = true) :
    (i.needs.rv64 = false → c.xlen = .rv32) ∧ (i.needs.rv32 = false → c.xlen = .rv64) := by
  unfold Instr.availableIn at h
  cases hx : c.xlen <;> simp_all

theorem f7_of_slli_uw : ∀ {f7 : BitVec 7}, f7.extractLsb' 1 6 = 0x02#6 → f7 = 0x04#7 ∨ f7 = 0x05#7 := by
  decide

/-- The pattern of each well-formed instruction's word, by the instruction's format. XLEN is asked for where a row exists at one width
only, and the fields' constraints where another row has the same fixed bits. -/
theorem decodePattern_encode {c : Config} {i : Instr} (h : i.wellFormed c = true) :
    decodePattern c.xlen (encode c.xlen i) = some i := by
  obtain ⟨havail, hfields⟩ := wellFormed_iff.1 h
  obtain ⟨h32, h64⟩ := xlen_of_availableIn havail
  cases i with
  | lui | auipc => exact decodePattern_encU (fun _ _ _ _ => rfl) _
  | jal => exact decodePattern_encJ _
  | jalr | lb | lh | lw | lbu | lhu | lwu | ld | addi | slti | sltiu | xori | ori | andi | addiw | flw | fld =>
    exact decodePattern_encI (fun _ _ => rfl) _
  | fence_i | csrrw | csrrs | csrrc | csrrwi | csrrsi | csrrci =>
    apply decodePattern_encI
    exact fun _ _ => rfl
  | beq | bne | blt | bge | bltu | bgeu => exact decodePattern_encB (fun _ _ => rfl) _
  | sb | sh | sw | sd | fsw | fsd => exact decodePattern_encS (fun _ _ => rfl) _
  | slli | srli | srai | rori | bclri | bexti | binvi | bseti =>
    exact decodePattern_encShift (fun f7 rs2 hf6 => by simp [decode32, decodeOpImm, Fields32.f6, hf6, Fields32.shamt]) _
  | slli_uw =>
    exact decodePattern_encShift (fun f7 rs2 hf6 => by rcases f7_of_slli_uw hf6 with rfl | rfl <;> rfl) _
  | add | sub | sll | slt | sltu | xor | srl | sra | or | and | slliw | srliw | sraiw | addw | subw | sllw | srlw | sraw | mul | mulh |
  mulhsu | mulhu | div | divu | rem | remu | mulw | divw | divuw | remw | remuw | sh1add | sh2add | sh3add | add_uw | sh1add_uw |
  sh2add_uw | sh3add_uw | andn | orn | xnor | max | maxu | min | minu | rol | ror | rolw | rorw | roriw | clmul | clmulh | clmulr | bclr |
  bext | binv | bset | fadd_s | fsub_s | fmul_s | fdiv_s | fsqrt_s | fsgnj_s | fsgnjn_s | fsgnjx_s | fmin_s | fmax_s | fcvt_w_s |
  fcvt_wu_s | fmv_x_w | feq_s | flt_s | fle_s | fclass_s | fcvt_s_w | fcvt_s_wu | fmv_w_x | fcvt_l_s | fcvt_lu_s | fcvt_s_l | fcvt_s_lu |
  fadd_d | fsub_d | fmul_d | fdiv_d | fsqrt_d | fsgnj_d | fsgnjn_d | fsgnjx_d | fmin_d | fmax_d | fcvt_s_d | fcvt_d_s | feq_d | flt_d |
  fle_d | fclass_d | fcvt_w_d | fcvt_wu_d | fcvt_d_w | fcvt_d_wu | fcvt_l_d | fcvt_lu_d | fmv_x_d | fcvt_d_l | fcvt_d_lu | fmv_d_x |
  clzw | ctzw | cpopw | ecall | ebreak | mret | sret | wfi | sfence_vma =>
    exact decodePattern_word _ _
  | clz | ctz | cpop | sext_b | sext_h | orc_b =>
    exact (decodePattern_word _ _).trans (by simp [decode32, decodeOpImm, Fields32.f6, Fields32.shamt])
  | zext_h => cases c.xlen <;> exact decodePattern_word _ _
  | rev8 => cases c.xlen <;> exact (decodePattern_word _ _).trans (by simp [decode32, decodeOpImm, Fields32.f6, Fields32.shamt])
  | fence => exact decodePattern_encFence _ _ _
  | lr_w | lr_d | sc_w | sc_d | amoswap_w | amoadd_w | amoxor_w | amoand_w | amoor_w | amomin_w | amomax_w | amominu_w | amomaxu_w |
  amoswap_d | amoadd_d | amoxor_d | amoand_d | amoor_d | amomin_d | amomax_d | amominu_d | amomaxu_d =>
    exact decodePattern_encAmo (fun f7 hf5 => by simp [decode32, decodeAmo, Fields32.f5, hf5, Fields32.aq, Fields32.rl]) _ _
  | fmadd_s | fmsub_s | fnmsub_s | fnmadd_s | fmadd_d | fmsub_d | fnmsub_d | fnmadd_d =>
    apply decodePattern_encR4
    intro f7 hfmt
    simp [decode32, decodeFused, Fields32.fmt, hfmt, Fields32.rs3]
  | c_addi4spn => exact decodePattern_encCIW _
  | c_lw | c_sw => exact decodePattern_encCLW (fun _ _ _ => rfl) _
  | c_fld | c_fsd => exact decodePattern_encCLD (fun _ _ _ => rfl) _
  | c_flw | c_fsw => rw [h32 rfl]; exact decodePattern_encCLW (fun _ _ _ => rfl) _
  | c_ld | c_sd => rw [h64 rfl]; exact decodePattern_encCLD (fun _ _ _ => rfl) _
  | c_nop => exact decodePattern_encCI (fun f h3 hop hrd => by simp [decode16, hop, decodeQuadrant1, h3, hrd]) _
  | c_addi =>
    have hrd' := by simpa [Instr.fieldsOk] using hfields
    exact decodePattern_encCI (fun f h3 hop hrd => by simp [decode16, hop, decodeQuadrant1, h3, hrd, hrd']) _
  | c_lui =>
    obtain ⟨hrd', _⟩ := by simpa [Instr.fieldsOk] using hfields
    exact decodePattern_encCI (fun f h3 hop hrd => by simp [decode16, hop, decodeQuadrant1, h3, hrd, hrd']) _
  | c_addiw =>
    rw [h64 rfl]
    exact decodePattern_encCI (fun f h3 hop hrd => by simp [decode16, hop, decodeQuadrant1, h3, hrd]) _
  | c_li => exact decodePattern_encCI (fun f h3 hop hrd => by simp [decode16, hop, decodeQuadrant1, h3, hrd]) _
  | c_slli => exact decodePattern_encCI (fun f h3 hop hrd => by simp [decode16, hop, decodeQuadrant2, h3, hrd]) _
  | c_addi16sp => exact decodePattern_encC16 _
  | c_srli | c_srai | c_andi => exact decodePattern_encCBI (fun _ _ _ => rfl) _
  | c_sub | c_xor | c_or | c_and | c_subw | c_addw => exact decodePattern_parcel _ _
  | c_jal => rw [h32 rfl]; exact decodePattern_encCJ (fun _ _ _ _ _ => rfl) _
  | c_j => exact decodePattern_encCJ (fun _ _ _ _ _ => rfl) _
  | c_beqz | c_bnez => exact decodePattern_encCB (fun _ _ _ _ => rfl) _
  | c_fldsp => exact decodePattern_encLDSP (fun _ _ _ _ _ => rfl) _ _
  | c_lwsp => exact decodePattern_encLWSP (fun _ _ _ _ _ => rfl) _ _
  | c_flwsp => rw [h32 rfl]; exact decodePattern_encLWSP (fun _ _ _ _ _ => rfl) _ _
  | c_ldsp => rw [h64 rfl]; exact decodePattern_encLDSP (fun _ _ _ _ _ => rfl) _ _
  | c_fsdsp => exact decodePattern_encSDSP (fun _ _ _ _ _ => rfl) _ _
  | c_swsp => exact decodePattern_encSWSP (fun _ _ _ _ _ => rfl) _ _
  | c_fswsp => rw [h32 rfl]; exact decodePattern_encSWSP (fun _ _ _ _ _ => rfl) _ _
  | c_sdsp => rw [h64 rfl]; exact decodePattern_encSDSP (fun _ _ _ _ _ => rfl) _ _
  | c_ebreak => exact decodePattern_parcel _ _
  | c_jr | c_mv | c_jalr | c_add =>
    have hreg := by simpa [Instr.fieldsOk] using hfields
    exact decodePattern_encCR fun f hop h3 hb hrd hrs2 => by simp [decode16, hop, decodeQuadrant2, h3, hb, hrd, hrs2, hreg]

/-- Settles O5: by format, the fields of an encoded word are the instruction's operands. -/
theorem decodeOfEncode : Obligations.DecodeOfEncode := by
  intro c i h
  simp only [decode, decodePattern_encode h, h, if_true]

end Sys2Proof
end

section
/-! The other direction: a word that decodes is put together again from the operands it decodes to (30_encoding.md R204), by format and
then by major opcode or quadrant. -/

namespace Sys2Proof
open BitVec

/-! ## The word put together again, by format -/

section
variable {f : Fields32} {f7 : BitVec 7} {f3 : BitVec 3} {rd rs1 rs2 : RegIdx}

theorem encI_immI (f : Fields32) : encI f.f3 f.op f.rd f.rs1 f.immI = .w f.word := by
  rw [encI, Fields32.immI, extractLsb'_append_eq_left, extractLsb'_append_eq_right]

theorem encS_immS (f : Fields32) : encS f.f3 f.op f.rs2 f.rs1 f.immS = .w f.word := by
  rw [encS, Fields32.immS, extractLsb'_append_eq_left, extractLsb'_append_eq_right]

theorem encB_immB : encB f3 rs1 rs2 (Fields32.immB ⟨f7, rs2, rs1, f3, rd, 0x63#7⟩)
    = .w (Fields32.word ⟨f7, rs2, rs1, f3, rd, 0x63#7⟩) := by
  simp (disch := omega) only [encB, Fields32.immB, extractLsb'_append_eq_of_add_le, extractLsb'_append_eq_of_le,
    extractLsb'_eq_self, Nat.reduceSub, extractLsb'_append_extractLsb'_eq_extractLsb']

theorem encU_immU (f : Fields32) : encU f.op f.rd f.immU = .w f.word := by
  simp (disch := omega) only [encU, Fields32.immU, extractLsb'_append_eq_of_add_le, extractLsb'_append_eq_of_le,
    extractLsb'_eq_self, Nat.reduceSub]

theorem encJ_immJ : encJ rd (Fields32.immJ ⟨f7, rs2, rs1, f3, rd, 0x6f#7⟩)
    = .w (Fields32.word ⟨f7, rs2, rs1, f3, rd, 0x6f#7⟩) := by
  simp (disch := omega) only [encJ, Fields32.immJ, extractLsb'_append_eq_of_add_le, extractLsb'_append_eq_of_le,
    extractLsb'_eq_self, Nat.reduceSub, extractLsb'_append_extractLsb'_eq_extractLsb']

theorem encShift_shamt {f6 : BitVec 6} (h6 : f.f6 = f6) : encShift f6 f.f3 f.op f.rd f.rs1 f.shamt = .w f.word := by
  rw [← h6, encShift, Fields32.f6, Fields32.shamt, extractLsb'_append_eq_left, extractLsb'_append_eq_right]
  simp (disch := omega) only [extractLsb'_append_extractLsb'_eq_extractLsb', extractLsb'_eq_self]

/-- The rows of OP-IMM whose shift amount is fixed have all twelve upper bits fixed. -/
theorem upper_of_shamt {f6 shamt : BitVec 6} (h6 : f.f6 = f6) (hs : f.shamt = shamt) :
    f6 ++ shamt.extractLsb' 5 1 = f.f7 ∧ shamt.extractLsb' 0 5 = f.rs2 := by
  rw [← h6, ← hs, Fields32.f6, Fields32.shamt, extractLsb'_append_eq_left, extractLsb'_append_eq_right]
  refine ⟨?_, rfl⟩
  simp (disch := omega) only [extractLsb'_append_extractLsb'_eq_extractLsb', extractLsb'_eq_self]

theorem encAmo_fields {f5 : BitVec 5} (h5 : Fields32.f5 ⟨f7, rs2, rs1, f3, rd, 0x2f#7⟩ = f5) :
    encAmo f5 f3 rd rs1 rs2 (f7.extractLsb' 1 1) (f7.extractLsb' 0 1) = .w (Fields32.word ⟨f7, rs2, rs1, f3, rd, 0x2f#7⟩) := by
  simp (disch := omega) only [← h5, encAmo, Fields32.f5, extractLsb'_append_extractLsb'_eq_extractLsb', extractLsb'_eq_self]

theorem encR4_fields {fmt : BitVec 2} (hfmt : f.fmt = fmt) : encR4 fmt f.op f.rd f.rs1 f.rs2 f.rs3 f.f3 = .w f.word := by
  simp (disch := omega) only [← hfmt, encR4, Fields32.fmt, Fields32.rs3, extractLsb'_append_extractLsb'_eq_extractLsb',
    extractLsb'_eq_self]

theorem encFence_fields (f : Fields32) :
    encFence f.fm f.pred f.succ f.rs1 f.rd = .w (Fields32.word ⟨f.f7, f.rs2, f.rs1, 0#3, f.rd, 0x0f#7⟩) := by
  simp (disch := omega) only [encFence, Fields32.fm, Fields32.pred, Fields32.succ, extractLsb'_append_eq_of_add_le,
    extractLsb'_append_eq_of_le, extractLsb'_eq_self, Nat.reduceSub, extractLsb'_append_extractLsb'_eq_extractLsb']

end

/-! ## By major opcode -/

section
variable {xl : Xlen} {f : Fields32} {f7 : BitVec 7} {f3 : BitVec 3} {rd rs1 rs2 : RegIdx} {i : Instr}

theorem encode_of_decodeLoad (h : decodeLoad ⟨f7, rs2, rs1, f3, rd, 0x03#7⟩ = some i) :
    encode xl i = .w (Fields32.word ⟨f7, rs2, rs1, f3, rd, 0x03#7⟩) := by
  dsimp only [decodeLoad] at h
  split at h <;> cases h <;> exact encI_immI _

theorem encode_of_decodeLoadFp (h : decodeLoadFp ⟨f7, rs2, rs1, f3, rd, 0x07#7⟩ = some i) :
    encode xl i = .w (Fields32.word ⟨f7, rs2, rs1, f3, rd, 0x07#7⟩) := by
  dsimp only [decodeLoadFp] at h
  split at h <;> cases h <;> exact encI_immI _

theorem encode_of_decodeMiscMem (h : decodeMiscMem ⟨f7, rs2, rs1, f3, rd, 0x0f#7⟩ = some i) :
    encode xl i = .w (Fields32.word ⟨f7, rs2, rs1, f3, rd, 0x0f#7⟩) := by
  dsimp only [decodeMiscMem] at h
  split at h <;> cases h
  case h_1 => exact encFence_fields ⟨f7, rs2, rs1, _, rd, _⟩
  case h_2 => exact encI_immI _

theorem encode_of_decodeOpImm (h : decodeOpImm xl ⟨f7, rs2, rs1, f3, rd, 0x13#7⟩ = some i) :
    encode xl i = .w (Fields32.word ⟨f7, rs2, rs1, f3, rd, 0x13#7⟩) := by
  dsimp only [decodeOpImm] at h
  split at h
  case h_2 =>
    split at h
    case h_5 =>
      rename_i h6
      split at h <;> cases h
      all_goals
        rename_i hs
        obtain ⟨rfl, rfl⟩ := upper_of_shamt h6 hs
        rfl
    all_goals cases h <;> rename_i h6 <;> exact encShift_shamt h6
  case h_6 =>
    split at h
    case h_5 | h_6 =>
      rename_i h6
      split at h <;> cases h
      all_goals
        rename_i hs
        obtain ⟨rfl, rfl⟩ := upper_of_shamt h6 hs
        rfl
    all_goals cases h <;> rename_i h6 <;> exact encShift_shamt h6
  all_goals cases h <;> exact encI_immI _

theorem encode_of_decodeOpImm32 (h : decodeOpImm32 ⟨f7, rs2, rs1, f3, rd, 0x1b#7⟩ = some i) :
    encode xl i = .w (Fields32.word ⟨f7, rs2, rs1, f3, rd, 0x1b#7⟩) := by
  dsimp only [decodeOpImm32] at h
  split at h
  case h_1 => cases h; exact encI_immI _
  case h_2 =>
    split at h
    case h_2 | h_3 => cases h; exact encShift_shamt (by simp [Fields32.f6])
    case h_4 => split at h <;> cases h <;> rfl
    all_goals cases h <;> rfl
  case h_3 => split at h <;> cases h <;> rfl
  case h_4 => cases h

theorem encode_of_decodeStore (h : decodeStore ⟨f7, rs2, rs1, f3, rd, 0x23#7⟩ = some i) :
    encode xl i = .w (Fields32.word ⟨f7, rs2, rs1, f3, rd, 0x23#7⟩) := by
  dsimp only [decodeStore] at h
  split at h <;> cases h <;> exact encS_immS _

theorem encode_of_decodeStoreFp (h : decodeStoreFp ⟨f7, rs2, rs1, f3, rd, 0x27#7⟩ = some i) :
    encode xl i = .w (Fields32.word ⟨f7, rs2, rs1, f3, rd, 0x27#7⟩) := by
  dsimp only [decodeStoreFp] at h
  split at h <;> cases h <;> exact encS_immS _

theorem encode_of_decodeAmo (h : decodeAmo ⟨f7, rs2, rs1, f3, rd, 0x2f#7⟩ = some i) :
    encode xl i = .w (Fields32.word ⟨f7, rs2, rs1, f3, rd, 0x2f#7⟩) := by
  dsimp only [decodeAmo] at h
  split at h
  case h_1 | h_12 =>
    rename_i h5
    split at h <;> cases h
    subst rs2
    exact encAmo_fields h5
  all_goals cases h <;> rename_i h5 <;> exact encAmo_fields h5

theorem encode_of_decodeOp (h : decodeOp xl ⟨f7, rs2, rs1, f3, rd, 0x33#7⟩ = some i) :
    encode xl i = .w (Fields32.word ⟨f7, rs2, rs1, f3, rd, 0x33#7⟩) := by
  dsimp only [decodeOp] at h
  split at h
  case h_20 =>
    split at h <;> cases h
    rename_i hzext
    obtain ⟨rfl, rfl⟩ := hzext
    rfl
  all_goals cases h <;> rfl

theorem encode_of_decodeOp32 (h : decodeOp32 xl ⟨f7, rs2, rs1, f3, rd, 0x3b#7⟩ = some i) :
    encode xl i = .w (Fields32.word ⟨f7, rs2, rs1, f3, rd, 0x3b#7⟩) := by
  dsimp only [decodeOp32] at h
  split at h
  case h_9 =>
    split at h <;> cases h
    rename_i hzext
    obtain ⟨rfl, rfl⟩ := hzext
    rfl
  all_goals cases h <;> rfl

theorem encode_of_decodeFused (h : decodeFused f = some i) : encode xl i = .w f.word := by
  obtain ⟨f7, rs2, rs1, f3, rd, op⟩ := f
  dsimp only [decodeFused] at h
  split at h <;> cases h <;> rename_i hfmt <;> exact encR4_fields hfmt

theorem encode_of_decodeOpFp (h : decodeOpFp ⟨f7, rs2, rs1, f3, rd, 0x53#7⟩ = some i) :
    encode xl i = .w (Fields32.word ⟨f7, rs2, rs1, f3, rd, 0x53#7⟩) := by
  dsimp only [decodeOpFp] at h
  split at h
  case h_1 | h_2 | h_3 | h_4 | h_5 | h_6 | h_7 | h_8 => cases h; rfl
  case h_27 => cases h
  all_goals split at h <;> cases h <;> rfl

theorem encode_of_decodeBranch (h : decodeBranch ⟨f7, rs2, rs1, f3, rd, 0x63#7⟩ = some i) :
    encode xl i = .w (Fields32.word ⟨f7, rs2, rs1, f3, rd, 0x63#7⟩) := by
  dsimp only [decodeBranch] at h
  split at h <;> cases h <;> exact encB_immB

theorem encode_of_decodeSystem (h : decodeSystem ⟨f7, rs2, rs1, f3, rd, 0x73#7⟩ = some i) :
    encode xl i = .w (Fields32.word ⟨f7, rs2, rs1, f3, rd, 0x73#7⟩) := by
  dsimp only [decodeSystem] at h
  split at h
  case h_1 => split at h <;> cases h <;> rfl
  all_goals cases h <;> exact encI_immI _

theorem encode_of_decode32 (h : decode32 xl f = some i) : encode xl i = .w f.word := by
  obtain ⟨f7, rs2, rs1, f3, rd, op⟩ := f
  dsimp only [decode32] at h
  split at h
  case h_1 => exact encode_of_decodeLoad h
  case h_2 => exact encode_of_decodeLoadFp h
  case h_3 => exact encode_of_decodeMiscMem h
  case h_4 => exact encode_of_decodeOpImm h
  case h_5 | h_11 => cases h; exact encU_immU _
  case h_6 => exact encode_of_decodeOpImm32 h
  case h_7 => exact encode_of_decodeStore h
  case h_8 => exact encode_of_decodeStoreFp h
  case h_9 => exact encode_of_decodeAmo h
  case h_10 => exact encode_of_decodeOp h
  case h_12 => exact encode_of_decodeOp32 h
  case h_13 | h_14 | h_15 | h_16 => exact encode_of_decodeFused h
  case h_17 => exact encode_of_decodeOpFp h
  case h_18 => exact encode_of_decodeBranch h
  case h_19 =>
    split at h <;> cases h
    subst f3
    exact encI_immI _
  case h_20 => cases h; exact encJ_immJ
  case h_21 => exact encode_of_decodeSystem h
  case h_22 => cases h

end

/-! ## Parcels, by format -/

section
variable {f3 : BitVec 3} {b12 : BitVec 1} {hi : BitVec 2} {r1 : BitVec 3} {mid : BitVec 2} {r2 : BitVec 3} {rd rs2 : RegIdx}

theorem encCIW_immCIW : encCIW f3 r2 (Fields16.immCIW ⟨f3, b12, hi, r1, mid, r2, 0#2⟩)
    = .c (Fields16.parcel ⟨f3, b12, hi, r1, mid, r2, 0#2⟩) := by
  simp (disch := omega) only [encCIW, Fields16.immCIW, extractLsb'_append_eq_of_add_le, extractLsb'_append_eq_of_le,
    extractLsb'_eq_self, Nat.reduceSub, extractLsb'_append_extractLsb'_eq_extractLsb']

theorem encCLW_immCLW : encCLW f3 r2 r1 (Fields16.immCLW ⟨f3, b12, hi, r1, mid, r2, 0#2⟩)
    = .c (Fields16.parcel ⟨f3, b12, hi, r1, mid, r2, 0#2⟩) := by
  simp (disch := omega) only [encCLW, Fields16.immCLW, extractLsb'_append_eq_of_add_le, extractLsb'_append_eq_of_le,
    extractLsb'_eq_self, Nat.reduceSub, extractLsb'_append_extractLsb'_eq_extractLsb']

theorem encCLD_immCLD : encCLD f3 r2 r1 (Fields16.immCLD ⟨f3, b12, hi, r1, mid, r2, 0#2⟩)
    = .c (Fields16.parcel ⟨f3, b12, hi, r1, mid, r2, 0#2⟩) := by
  simp (disch := omega) only [encCLD, Fields16.immCLD, extractLsb'_append_eq_of_add_le, extractLsb'_append_eq_of_le,
    extractLsb'_eq_self, Nat.reduceSub]

theorem encCI_immCI {op : BitVec 2} (hrd : hi ++ r1 = rd) : encCI f3 op rd (Fields16.immCI ⟨f3, b12, hi, r1, mid, r2, op⟩)
    = .c (Fields16.parcel ⟨f3, b12, hi, r1, mid, r2, op⟩) := by
  simp (disch := omega) only [← hrd, encCI, Fields16.immCI, extractLsb'_append_eq_of_add_le, extractLsb'_append_eq_of_le,
    extractLsb'_eq_self, Nat.reduceSub]

theorem encC16_immC16 (hrd : hi ++ r1 = 2#5) : encC16 (Fields16.immC16 ⟨3#3, b12, hi, r1, mid, r2, 1#2⟩)
    = .c (Fields16.parcel ⟨3#3, b12, hi, r1, mid, r2, 1#2⟩) := by
  have hhi : (hi ++ r1).extractLsb' 3 2 = hi := extractLsb'_append_eq_left
  have hr1 : (hi ++ r1).extractLsb' 0 3 = r1 := extractLsb'_append_eq_right
  rw [hrd] at hhi hr1
  subst hhi hr1
  simp (disch := omega) only [encC16, Fields16.immC16, extractLsb'_append_eq_of_add_le, extractLsb'_append_eq_of_le,
    extractLsb'_eq_self, Nat.reduceSub, extractLsb'_append_extractLsb'_eq_extractLsb']
  rfl

theorem encCBI_immCI : encCBI hi r1 (Fields16.immCI ⟨4#3, b12, hi, r1, mid, r2, 1#2⟩)
    = .c (Fields16.parcel ⟨4#3, b12, hi, r1, mid, r2, 1#2⟩) := by
  simp (disch := omega) only [encCBI, Fields16.immCI, extractLsb'_append_eq_of_add_le, extractLsb'_append_eq_of_le,
    extractLsb'_eq_self, Nat.reduceSub]

theorem encCJ_immCJ : encCJ f3 (Fields16.immCJ ⟨f3, b12, hi, r1, mid, r2, 1#2⟩)
    = .c (Fields16.parcel ⟨f3, b12, hi, r1, mid, r2, 1#2⟩) := by
  simp (disch := omega) only [encCJ, Fields16.immCJ, extractLsb'_append_eq_of_add_le, extractLsb'_append_eq_of_le,
    extractLsb'_eq_self, Nat.reduceSub, extractLsb'_append_extractLsb'_eq_extractLsb']

theorem encCB_immCB : encCB f3 r1 (Fields16.immCB ⟨f3, b12, hi, r1, mid, r2, 1#2⟩)
    = .c (Fields16.parcel ⟨f3, b12, hi, r1, mid, r2, 1#2⟩) := by
  simp (disch := omega) only [encCB, Fields16.immCB, extractLsb'_append_eq_of_add_le, extractLsb'_append_eq_of_le,
    extractLsb'_eq_self, Nat.reduceSub, extractLsb'_append_extractLsb'_eq_extractLsb']

theorem encLWSP_immLWSP : encLWSP f3 (hi ++ r1) (Fields16.immLWSP ⟨f3, b12, hi, r1, mid, r2, 2#2⟩)
    = .c (Fields16.parcel ⟨f3, b12, hi, r1, mid, r2, 2#2⟩) := by
  simp (disch := omega) only [encLWSP, Fields16.immLWSP, extractLsb'_append_eq_of_add_le, extractLsb'_append_eq_of_le,
    extractLsb'_eq_self, Nat.reduceSub, extractLsb'_append_extractLsb'_eq_extractLsb']

theorem encLDSP_immLDSP : encLDSP f3 (hi ++ r1) (Fields16.immLDSP ⟨f3, b12, hi, r1, mid, r2, 2#2⟩)
    = .c (Fields16.parcel ⟨f3, b12, hi, r1, mid, r2, 2#2⟩) := by
  simp (disch := omega) only [encLDSP, Fields16.immLDSP, extractLsb'_append_eq_of_add_le, extractLsb'_append_eq_of_le,
    extractLsb'_eq_self, Nat.reduceSub]

theorem encSWSP_immSWSP : encSWSP f3 (mid ++ r2) (Fields16.immSWSP ⟨f3, b12, hi, r1, mid, r2, 2#2⟩)
    = .c (Fields16.parcel ⟨f3, b12, hi, r1, mid, r2, 2#2⟩) := by
  simp (disch := omega) only [encSWSP, Fields16.immSWSP, extractLsb'_append_eq_of_add_le, extractLsb'_append_eq_of_le,
    extractLsb'_eq_self, Nat.reduceSub, extractLsb'_append_extractLsb'_eq_extractLsb']

theorem encSDSP_immSDSP : encSDSP f3 (mid ++ r2) (Fields16.immSDSP ⟨f3, b12, hi, r1, mid, r2, 2#2⟩)
    = .c (Fields16.parcel ⟨f3, b12, hi, r1, mid, r2, 2#2⟩) := by
  simp (disch := omega) only [encSDSP, Fields16.immSDSP, extractLsb'_append_eq_of_add_le, extractLsb'_append_eq_of_le,
    extractLsb'_eq_self, Nat.reduceSub]

theorem encCR_fields (hrd : hi ++ r1 = rd) (hrs2 : mid ++ r2 = rs2) :
    encCR b12 rd rs2 = .c (Fields16.parcel ⟨4#3, b12, hi, r1, mid, r2, 2#2⟩) := by
  rw [← hrd, ← hrs2, encCR, extractLsb'_append_eq_left, extractLsb'_append_eq_right, extractLsb'_append_eq_left,
    extractLsb'_append_eq_right]

end

/-! ## By quadrant -/

section
variable {xl : Xlen} {f : Fields16} {f3 : BitVec 3} {b12 : BitVec 1} {hi : BitVec 2} {r1 : BitVec 3} {mid : BitVec 2} {r2 : BitVec 3}
  {i : Instr}

theorem encode_of_decodeQuadrant0 (h : decodeQuadrant0 xl ⟨f3, b12, hi, r1, mid, r2, 0#2⟩ = some i) :
    encode xl i = .c (Fields16.parcel ⟨f3, b12, hi, r1, mid, r2, 0#2⟩) := by
  dsimp only [decodeQuadrant0] at h
  split at h
  case h_1 => cases h; exact encCIW_immCIW
  case h_2 | h_5 => cases h; exact encCLD_immCLD
  case h_3 | h_6 => cases h; exact encCLW_immCLW
  case h_4 | h_7 =>
    split at h <;> cases h
    case h_1 => exact encCLW_immCLW
    case h_2 => exact encCLD_immCLD
  case h_8 => cases h

theorem eq_seven_of_ne {f3 : BitVec 3} :
    f3 ≠ 0#3 → f3 ≠ 1#3 → f3 ≠ 2#3 → f3 ≠ 3#3 → f3 ≠ 4#3 → f3 ≠ 5#3 → f3 ≠ 6#3 → f3 = 7#3 := by
  bv_omega

theorem eq_three_of_ne {hi : BitVec 2} : hi ≠ 0#2 → hi ≠ 1#2 → hi ≠ 2#2 → hi = 3#2 := by
  bv_omega

theorem eq_one_of_ne_zero {b : BitVec 1} : b ≠ 0#1 → b = 1#1 := by
  bv_omega

theorem encode_of_decodeQuadrant1 (h : decodeQuadrant1 xl ⟨f3, b12, hi, r1, mid, r2, 1#2⟩ = some i) :
    encode xl i = .c (Fields16.parcel ⟨f3, b12, hi, r1, mid, r2, 1#2⟩) := by
  dsimp only [decodeQuadrant1] at h
  split at h
  case h_1 =>
    split at h <;> cases h
    case isTrue hrd => exact encCI_immCI hrd
    case isFalse => exact encCI_immCI rfl
  case h_2 =>
    split at h <;> cases h
    case h_1 => exact encCJ_immCJ
    case h_2 => exact encCI_immCI rfl
  case h_3 => cases h; exact encCI_immCI rfl
  case h_4 =>
    split at h <;> cases h
    case isTrue hrd => exact encC16_immC16 hrd
    case isFalse => exact encCI_immCI rfl
  case h_5 =>
    split at h
    case h_4 h0 h1 h2 =>
      obtain rfl := eq_three_of_ne h0 h1 h2
      split at h <;> cases h <;> rfl
    all_goals cases h; exact encCBI_immCI
  case h_6 => cases h; exact encCJ_immCJ
  case h_7 => cases h; exact encCB_immCB
  case h_8 h0 h1 h2 h3 h4 h5 h6 =>
    obtain rfl := eq_seven_of_ne h0 h1 h2 h3 h4 h5 h6
    cases h
    exact encCB_immCB

theorem encode_of_decodeQuadrant2 (h : decodeQuadrant2 xl ⟨f3, b12, hi, r1, mid, r2, 2#2⟩ = some i) :
    encode xl i = .c (Fields16.parcel ⟨f3, b12, hi, r1, mid, r2, 2#2⟩) := by
  dsimp only [decodeQuadrant2] at h
  split at h
  case h_1 => cases h; exact encCI_immCI rfl
  case h_2 => cases h; exact encLDSP_immLDSP
  case h_3 => cases h; exact encLWSP_immLWSP
  case h_4 =>
    split at h <;> cases h
    case h_1 => exact encLWSP_immLWSP
    case h_2 => exact encLDSP_immLDSP
  case h_5 =>
    split at h
    case isTrue hb =>
      subst hb
      split at h <;> cases h
      case isTrue hrs2 => exact encCR_fields rfl hrs2
      case isFalse => exact encCR_fields rfl rfl
    case isFalse hb =>
      obtain rfl := eq_one_of_ne_zero hb
      split at h
      case isTrue hrs2 =>
        split at h <;> cases h
        case isTrue hrd => exact encCR_fields hrd hrs2
        case isFalse => exact encCR_fields rfl hrs2
      case isFalse => cases h; exact encCR_fields rfl rfl
  case h_6 => cases h; exact encSDSP_immSDSP
  case h_7 => cases h; exact encSWSP_immSWSP
  case h_8 h0 h1 h2 h3 h4 h5 h6 =>
    obtain rfl := eq_seven_of_ne h0 h1 h2 h3 h4 h5 h6
    split at h <;> cases h
    case h_1 => exact encSWSP_immSWSP
    case h_2 => exact encSDSP_immSDSP

theorem encode_of_decode16 (h : decode16 xl f = some i) : encode xl i = .c f.parcel := by
  obtain ⟨f3, b12, hi, r1, mid, r2, op⟩ := f
  dsimp only [decode16] at h
  split at h
  case h_1 => exact encode_of_decodeQuadrant0 h
  case h_2 => exact encode_of_decodeQuadrant1 h
  case h_3 => exact encode_of_decodeQuadrant2 h
  case h_4 => cases h

end

/-! ## Every word that decodes -/

theorem encode_of_decodePattern {xl : Xlen} {n : Insn} {i : Instr} (h : decodePattern xl n = some i) : encode xl i = n := by
  cases n with
  | c p => rw [encode_of_decode16 h, parcel_fields16]
  | w v => rw [encode_of_decode32 h, word_fields32]

/-- Settles O6: by format, the operands of a word are the fields that are put together again. -/
theorem encodeOfDecode : Obligations.EncodeOfDecode := by
  intro c n i h
  unfold decode at h
  split at h
  case h_1 j hj =>
    split at h <;> cases h
    case isTrue hwf => exact ⟨hwf, encode_of_decodePattern hj⟩
  case h_2 => cases h

end Sys2Proof
end

section
/-! Fixed words; words without a row; the stops (30_encoding.md R204, R207, R208, 60_exceptions.md R700). -/

namespace Sys2Proof

/-- Settles O7: each word is decoded. -/
theorem decodedWords : Obligations.DecodedWords := by
  unfold Obligations.DecodedWords
  decide

/-- No row of the table has a vector encoding: major opcode 0x57 has no row, and the rows of LOAD-FP and STORE-FP have other widths. -/
theorem decodePattern_of_isVector {xl : Xlen} {n : Insn} (h : n.isVector = true) : decodePattern xl n = none := by
  cases n with
  | c p => cases h
  | w v =>
    dsimp only [Insn.isVector, decodePattern] at h ⊢
    generalize fields32 v = f at h ⊢
    obtain ⟨f7, rs2, rs1, f3, rd, op⟩ := f
    dsimp only at h
    split at h
    case h_1 => rfl
    case h_2 | h_3 =>
      split at h
      case h_5 => cases h
      all_goals rfl
    case h_4 => cases h

theorem decode_of_isVector {c : Config} {n : Insn} (h : n.isVector = true) : decode c n = none := by
  rw [decode, decodePattern_of_isVector h]

end Sys2Proof

namespace Sys2Proof.Machine

/-! ## What a step does once it reaches the fetch -/

section
variable {s u : State} {n : Insn}

theorem cfg_of_fetch (h : fetch (atFetch s) = .ok n u) : u.cfg = s.cfg := by
  obtain ⟨_, _, rfl⟩ := fetch_frame h
  exact takeInputs_cfg s

theorem step_of_fetch (hr : ReachesFetch s) (h : fetch (atFetch s) = .ok n u) : step s = stepInsn (noteInsn u n) n := by
  rw [step_of_reaches hr, stepFetch, h]

theorem step_of_fetch_raise {c : Nat} {v : Word} (hr : ReachesFetch s) (h : fetch (atFetch s) = .raise c v u) :
    step s = raise u c v := by
  rw [step_of_reaches hr, stepFetch, h]

theorem step_of_decode {i : Instr} (hr : ReachesFetch s) (h : fetch (atFetch s) = .ok n u) (hd : decode s.cfg n = some i) :
    step s = exec i (noteInsn u n) := by
  rw [← cfg_of_fetch h] at hd
  rw [step_of_fetch hr h, stepInsn, show decode (noteInsn u n).cfg n = some i from hd]

theorem step_of_undecoded (hr : ReachesFetch s) (h : fetch (atFetch s) = .ok n u) (hd : decode s.cfg n = none) :
    step s = if u.refusesVector n then .refused .vectorEncoding else raiseUndecoded (noteInsn u n) n := by
  rw [← cfg_of_fetch h] at hd
  rw [step_of_fetch hr h, stepInsn, show decode (noteInsn u n).cfg n = none from hd]
  rfl

/-- Settles O10: both are a raise, and a raise is the trap. -/
theorem undecodedWordTraps : Obligations.UndecodedWordTraps := by
  refine fun s u hr => ⟨fun n hf hd hv => ?_, fun c v hf => ?_⟩
  · rw [step_of_undecoded hr hf hd, if_neg (by simp [hv])]
    exact raise_spec _ 2 n.zext
  · rw [step_of_fetch_raise hr hf]
    exact raise_spec u c v

/-! ## The stops -/

theorem csrOp_answers (s : State) (i : Instr) (n : BitVec 12) (writes : Bool) (rd : RegIdx) (new : Word → Word) :
    ∃ t, csrOp s i n writes rd new = .next t := by
  cases h : s.csrAccess n writes with
  | none =>
    obtain ⟨t, ht, _⟩ := csrOp_denied s i n writes rd new h
    exact ⟨t, ht⟩
  | some r =>
    obtain ⟨t, ht, _⟩ := csrOp_done s i n writes rd new r h
    exact ⟨t, ht⟩

theorem execEcall_answers (s : State) : ∃ t, execEcall s = .next t := by
  unfold execEcall
  split <;> exact ⟨_, rfl⟩

/-- No instruction stops: an ordinary one, LR, SC and the returns by `exec_answersRes`, the others by their own lemmas. -/
theorem exec_answers_next (i : Instr) (s : State) : ∃ t, exec i s = .next t := by
  by_cases hcsr : i.isCsr = true
  · cases i with
    | csrrw | csrrs | csrrc | csrrwi | csrrsi | csrrci =>
      unfold exec
      exact csrOp_answers _ _ _ _ _ _
    | _ => cases hcsr
  · by_cases hecall : i = .ecall
    · subst hecall
      exact execEcall_answers s
    · obtain ⟨t, ht, _⟩ := exec_answersRes i s (by simpa using hcsr) hecall
      exact ⟨t, ht⟩

theorem refusesVector_iff (hf : fetch (atFetch s) = .ok n u) :
    u.refusesVector n = true ↔ n.isVector = true ∧ s.cfg.vlen ≠ 0 ∧ fieldVS u.csr.mstatus ≠ 0 := by
  simp [State.refusesVector, cfg_of_fetch hf, and_assoc]

/-- A step that reaches the fetch answers, unless the word is a vector word that the machine refuses. -/
theorem step_next_or_refused (hr : ReachesFetch s) :
    (∃ t, step s = .next t) ∨ (step s = .refused .vectorEncoding ∧ ∃ n u, fetch (atFetch s) = .ok n u ∧ u.refusesVector n = true) := by
  cases hf : fetch (atFetch s) with
  | raise c v u =>
    obtain ⟨t, ht, _⟩ := raise_spec u c v
    exact .inl ⟨t, (step_of_fetch_raise hr hf).trans ht⟩
  | ok n u =>
    cases hd : decode s.cfg n with
    | some i =>
      obtain ⟨t, ht⟩ := exec_answers_next i (noteInsn u n)
      exact .inl ⟨t, (step_of_decode hr hf hd).trans ht⟩
    | none =>
      have hstep := step_of_undecoded hr hf hd
      by_cases hv : u.refusesVector n = true
      · exact .inr ⟨by rw [hstep, if_pos hv], n, u, rfl, hv⟩
      · obtain ⟨t, ht, _⟩ := raise_spec (noteInsn u n) 2 n.zext
        exact .inl ⟨t, by rw [hstep, if_neg hv]; exact ht⟩

/-- Settles O11: the guards of `step`, then Idle, an interrupt, or the fetch, where only a vector word is refused. -/
theorem theOnlyStops : Obligations.TheOnlyStops := by
  refine ⟨fun s hv => ?_, fun s hv he => ?_, fun s u n hr hf hvec hvlen hvs => ?_, fun s hrun => ?_⟩
  · simp [step, hv]
  · simp [step, hv, he]
  · rw [step_of_undecoded hr hf (decode_of_isVector hvec), if_pos ((refusesVector_iff hf).2 ⟨hvec, hvlen, hvs⟩)]
  · by_cases hd : Dormant (takeInputs s)
    · exact .inl ⟨_, step_of_dormant hrun hd⟩
    · cases hi : selectInterrupt (takeInputs s) with
      | some i => exact .inl ⟨_, step_of_interrupt hrun hd hi⟩
      | none =>
        have hr : ReachesFetch s := ⟨hrun, hd, hi⟩
        rcases step_next_or_refused hr with hnext | ⟨hstep, n, u, hf, hv⟩
        · exact .inl hnext
        · exact .inr ⟨hstep, hr, n, u, hf, (refusesVector_iff hf).1 hv⟩

end

end Sys2Proof.Machine
end

section
/-! Base integer instructions: results on integers, jumps, branches (40_base_integer.md R261 to R274, R283 to R301, R309 to R317). -/

namespace Sys2Proof.Machine

/-! ## Results written to `x[rd]` -/

/-- An instruction that is a register write and a retire: its value may be any word with the same low XLEN bits. -/
theorem retiredX_of_retireX {i : Instr} {s : State} {len v w : Word} {rd : RegIdx} (hexec : exec i s = retireX s len rd v)
    (hv : s.cfg.xlen.norm v = s.cfg.xlen.norm w) : ∃ t, exec i s = .next t ∧ RetiredX s t len rd w := by
  rw [hexec]
  exact retireX_norm hv

section
variable (xl : Xlen) (a : Word) (imm : BitVec 12)

theorem immS_upper (up : BitVec 20) : xl.immS 12 up = xl.norm (BitVec.ofInt 64 (up.toInt * 4096)) := immS_eq xl 12 (by decide) up

theorem toInt_immS : xl.toInt (xl.immS 0 imm) = imm.toInt := by
  have hlow := BitVec.le_toInt (x := imm)
  have hhigh := BitVec.toInt_lt (x := imm)
  rw [immI, toInt_norm, toInt_ofInt_small xl _ (by omega) (by omega)]

theorem toNat_immS : xl.toNat (xl.immS 0 imm) = xl.toNat (BitVec.ofInt 64 imm.toInt) := by
  rw [immI, toNat_norm]

theorem norm_addi : xl.norm (a + xl.immS 0 imm) = xl.norm (BitVec.ofInt 64 (xl.toInt a + imm.toInt)) := by
  rw [immI, norm_add, add_toInt]

/-- A comparison writes 1 or 0. -/
theorem norm_boolWord {c c' : Prop} [Decidable c] [Decidable c'] (h : c ↔ c') :
    xl.norm (boolWord (decide c)) = xl.norm (if c' then 1 else 0) := by
  rw [boolWord_decide, if_congr h rfl rfl]

end

/-- Settles O20: each form is a write of its value; the values agree modulo 2^XLEN, the immediate being its sign extension. -/
theorem integerImmediateResults : Obligations.IntegerImmediateResults := by
  intro s rd rs1 imm up sh
  simp only [List.forall_mem_cons]
  refine ⟨retiredX_of_retireX rfl ?lui, retiredX_of_retireX rfl ?auipc, retiredX_of_retireX rfl (norm_addi _ _ _),
    retiredX_of_retireX rfl (norm_boolWord _ (by rw [toInt_immS])), retiredX_of_retireX rfl (norm_boolWord _ (by rw [toNat_immS])),
    retiredX_of_retireX rfl ?xori, retiredX_of_retireX rfl ?ori, retiredX_of_retireX rfl ?andi,
    retiredX_of_retireX rfl (lift1_shl _ _ _), retiredX_of_retireX rfl (lift1_shr _ _ _), retiredX_of_retireX rfl (lift1_sra _ _ _),
    List.forall_mem_nil _⟩
  case lui => rw [immS_upper, norm_norm]
  case auipc => rw [immS_upper, norm_add]
  case xori => rw [immI, norm_xor]
  case ori => rw [immI, norm_or]
  case andi => rw [immI, norm_and]

/-- Settles O21: each form is a write of its value, and the values agree modulo 2^XLEN. -/
theorem integerRegisterResults : Obligations.IntegerRegisterResults := by
  intro s rd rs1 rs2
  simp only [List.forall_mem_cons, ← amount_eq]
  exact ⟨retiredX_of_retireX rfl (add_toInt2 _ _ _), retiredX_of_retireX rfl (sub_toInt2 _ _ _), retiredX_of_retireX rfl (lift1_shl _ _ _),
    retiredX_of_retireX rfl (norm_boolWord _ .rfl), retiredX_of_retireX rfl (norm_boolWord _ .rfl),
    retiredX_of_retireX rfl rfl, retiredX_of_retireX rfl rfl, retiredX_of_retireX rfl rfl,
    retiredX_of_retireX rfl (lift1_shr _ _ _), retiredX_of_retireX rfl (lift1_sra _ _ _), List.forall_mem_nil _⟩

/-! ## Word results -/

section
variable (a b : BitVec 32) (n : Nat)

theorem shiftL_eq_ofInt : shiftL n 32 a = BitVec.ofInt 32 (a.toNat * 2 ^ n : Nat) := by
  rw [BitVec.ofInt_natCast]
  apply BitVec.eq_of_toNat_eq
  simp [shiftL, Nat.shiftLeft_eq]

theorem shiftRL_eq_ofInt : shiftRL n 32 a = BitVec.ofInt 32 (a.toNat / 2 ^ n : Nat) := by
  apply BitVec.eq_of_toNat_eq
  rw [shiftRL, BitVec.ofInt_natCast, BitVec.toNat_ushiftRight, BitVec.toNat_ofNat, Nat.shiftRight_eq_div_pow, Nat.mod_eq_of_lt]
  exact Nat.lt_of_le_of_lt (Nat.div_le_self _ _) a.isLt

theorem add_eq_ofInt : a + b = BitVec.ofInt 32 (a.toInt + b.toInt) := by
  rw [BitVec.ofInt_add, BitVec.ofInt_toInt, BitVec.ofInt_toInt]

theorem sub_eq_ofInt : a - b = BitVec.ofInt 32 (a.toInt - b.toInt) := by
  rw [ofInt_sub_eq, BitVec.ofInt_toInt, BitVec.ofInt_toInt]

end

/-- Settles O22: each form is a write of a sign-extended 32-bit value, which is its integer modulo 2^32. -/
theorem wordResults : Obligations.WordResults := by
  intro s rd rs1 rs2 imm sh
  simp only [List.forall_mem_cons]
  refine ⟨retiredX_of_retireX rfl (wrap_of _ _ _ ?addiw), retiredX_of_retireX rfl (wrap_of _ _ _ (add_eq_ofInt _ _)),
    retiredX_of_retireX rfl (wrap_of _ _ _ (sub_eq_ofInt _ _)),
    retiredX_of_retireX rfl (wrap_of _ _ _ (shiftL_eq_ofInt _ _)), retiredX_of_retireX rfl (wrap_of _ _ _ (shiftL_eq_ofInt _ _)),
    retiredX_of_retireX rfl (wrap_of _ _ _ (shiftRL_eq_ofInt _ _)), retiredX_of_retireX rfl (wrap_of _ _ _ (shiftRL_eq_ofInt _ _)),
    retiredX_of_retireX rfl (wrap_of _ _ _ (sra_ofInt _ _)), retiredX_of_retireX rfl (wrap_of _ _ _ (sra_ofInt _ _)),
    List.forall_mem_nil _⟩
  case addiw => rw [add_eq_ofInt, BitVec.toInt_signExtend_of_le (by decide)]; rfl

/-! ## Jumps and branches -/

theorem retiredJump_of_retireTo {i : Instr} {s : State} {next target link : Word} {cls cls' : TransferClass} {rd : RegIdx}
    {regs : Option (RegIdx × RegIdx)} (hexec : exec i s = retireTo (s.setX rd link) next cls regs)
    (htarget : s.cfg.xlen.norm next = s.cfg.xlen.norm target) (hcls : cls = cls') :
    ∃ t, exec i s = .next t ∧ RetiredJump s t target cls' rd link := by
  obtain ⟨t, ht, hjump⟩ := jump_spec s rd link next cls regs
  subst hcls
  exact ⟨t, hexec.trans ht, { hjump with pc := hjump.pc.trans htarget }⟩

theorem norm_add_immS (xl : Xlen) (a : Word) {w : Nat} (hw : w + 1 ≤ 64) (imm : BitVec w) :
    xl.norm (a + xl.immS 1 imm) = xl.norm (a + BitVec.ofInt 64 (2 * imm.toInt)) := by
  rw [immS_eq _ 1 hw, norm_add, Int.mul_comm, Int.pow_one]

theorem norm_jalrTarget (xl : Xlen) (a : Word) (imm : BitVec 12) :
    xl.norm ((a + xl.immS 0 imm) &&& ~~~1) = xl.norm ((a + BitVec.ofInt 64 imm.toInt) &&& ~~~1) := by
  rw [BitVec.and_comm, ← norm_and, immI, norm_add, norm_and, BitVec.and_comm]

theorem isLink_iff (r : RegIdx) : isLink r = true ↔ r = 1#5 ∨ r = 5#5 := by simp [isLink]

/-- The hint table of R813, in its words. -/
theorem jalrClass_eq (rd rs1 : RegIdx) :
    jalrClass rd rs1 =
      if rd = 1#5 ∨ rd = 5#5 then (if (rs1 = 1#5 ∨ rs1 = 5#5) ∧ rd ≠ rs1 then .retAndCall else .call)
      else if rs1 = 1#5 ∨ rs1 = 5#5 then .ret else .jump := by
  simp only [jalrClass, Bool.and_eq_true, isLink_iff, bne_iff_ne]

/-- JAL has the class of a JALR whose base is x0. -/
theorem jalClass_eq (rd : RegIdx) : jalClass rd = jalrClass rd 0 := by
  have hzero : isLink 0#5 = false := by decide
  simp [jalClass, jalrClass, hzero]

/-- Settles O23: each jump is a link write and a transfer; targets agree modulo 2^XLEN, classes by the hint table. -/
theorem jumpResults : Obligations.JumpResults := by
  intro s rd rs1 imm j cj
  simp only [List.forall_mem_cons, ← jalrClass_eq]
  refine ⟨retiredJump_of_retireTo rfl (norm_add_immS _ _ (by decide) j) (jalClass_eq rd),
    retiredJump_of_retireTo rfl (norm_jalrTarget _ _ imm) rfl, retiredJump_of_retireTo rfl (norm_add_immS _ _ (by decide) cj) rfl,
    retiredJump_of_retireTo rfl (norm_add_immS _ _ (by decide) cj) rfl, retiredJump_of_retireTo rfl ?_ rfl,
    retiredJump_of_retireTo rfl ?_ rfl, List.forall_mem_nil _⟩ <;> rw [add_zero]

/-- A branch: both outcomes, neither with a link. -/
theorem retiredJump_of_branch {i : Instr} {s : State} {len : Word} {cond cond' : Bool} {w : Nat} {imm : BitVec w}
    (hexec : exec i s = branch s len cond (s.cfg.xlen.immS 1 imm)) (hw : w + 1 ≤ 64) (hcond : cond = cond') :
    ∃ t, exec i s = .next t
      ∧ RetiredJump s t (if cond' then s.pc + BitVec.ofInt 64 (2 * imm.toInt) else s.pc + len)
          (if cond' then .branchTaken else .branchNotTaken) 0#5 0 := by
  subst hcond
  rw [branch, ← State.setX_zero s 0] at hexec
  cases cond with
  | true => exact retiredJump_of_retireTo hexec (by simpa using norm_add_immS s.cfg.xlen s.pc hw imm) rfl
  | false => exact retiredJump_of_retireTo hexec (by simp) rfl

/-- Settles O24: each form is the branch on its condition. -/
theorem branchResults : Obligations.BranchResults := by
  intro s rs1 rs2 c1 imm ci
  simp only [List.forall_mem_cons, ← creg_eq_x8]
  exact ⟨retiredJump_of_branch rfl (by decide) rfl, retiredJump_of_branch rfl (by decide) (decide_not ..).symm,
    retiredJump_of_branch rfl (by decide) rfl, retiredJump_of_branch rfl (by decide) rfl, retiredJump_of_branch rfl (by decide) rfl,
    retiredJump_of_branch rfl (by decide) rfl, retiredJump_of_branch rfl (by decide) rfl,
    retiredJump_of_branch rfl (by decide) (decide_not ..).symm, List.forall_mem_nil _⟩

end Sys2Proof.Machine
end

section
/-! Integer loads and stores that complete (40_base_integer.md R263, R275 to R282, R306 to R308): each form is the shared load or store at its
address. -/

namespace Sys2Proof.Machine

/-! ## Loads -/

theorem ReadCompletes.length {s : State} {a : Word} {n : Nat} {ts : List Place} (h : ReadCompletes s a n ts) : ts.length = n := by
  by_cases ha : s.cfg.xlen.toNat a % n = 0
  · exact resolve_length (h.once ha)
  · exact resolve_length (h.split ha).2

theorem littleEndian_placeBytes_lt (mem : List Host.Cell) (dev : Nat) (ts : List Place) :
    littleEndian (placeBytes mem dev ts) < 2 ^ (8 * ts.length) := by
  have h := littleEndian_lt (placeBytes mem dev ts)
  rwa [placeBytes_length] at h

theorem Loaded.of_norm {s t : State} {len v w a : Word} {rd : RegIdx} {n : Nat} {ts : List Place} (h : Loaded s t len rd v a n ts)
    (e : s.cfg.xlen.norm v = s.cfg.xlen.norm w) : Loaded s t len rd w a n ts :=
  { h with dest := fun hd => (h.dest hd).trans e }

/-- A value of `n` bytes as a load writes it: sign-extended or not. -/
def widened (n : Nat) (signed : Bool) (v : Nat) : Word :=
  if signed then BitVec.ofInt 64 ((v : Int).bmod (2 ^ (8 * n))) else BitVec.ofNat 64 v

/-- The function makes of each value of `n` bytes what a load writes, modulo 2^XLEN. -/
def Widens (xl : Xlen) (n : Nat) (signed : Bool) (widen : Word → Word) : Prop :=
  ∀ v < 2 ^ (8 * n), xl.norm (widen (BitVec.ofNat 64 v)) = xl.norm (widened n signed v)

theorem widens_sext (xl : Xlen) (n : Nat) (hn : 8 * n ≤ 64) : Widens xl n true fun v => xl.sext (v.setWidth (8 * n)) := by
  intro v _
  dsimp only [Xlen.sext]
  rw [norm_norm, sext_ofInt hn, BitVec.setWidth_ofNat_of_le hn, BitVec.toInt_ofNat']
  rfl

theorem widens_zext (xl : Xlen) (n : Nat) (hn : 8 * n ≤ 64) : Widens xl n false fun v => xl.zext (v.setWidth (8 * n)) := by
  intro v hv
  dsimp only [Xlen.zext]
  rw [norm_norm, BitVec.setWidth_ofNat_of_le hn, BitVec.setWidth_ofNat_of_le_of_lt hn hv]
  rfl

/-- A value of eight bytes is neither: its sign and zero extension to 64 bits are the same word. -/
theorem widens_doubleword (xl : Xlen) : Widens xl 8 true fun v => xl.zext (v.setWidth 64) := by
  intro v hv
  have hsext := widens_sext xl 8 (by decide) v hv
  dsimp only [Xlen.sext] at hsext
  rwa [BitVec.signExtend_eq_setWidth_of_le _ (by decide)] at hsext

/-- The form is the shared load at its address, widening as it says. -/
def MemForm.IsLoadX (f : MemForm) (s : State) : Prop :=
  ∃ offset widen, s.effAddr f.base offset = f.address s ∧ exec f.instr s = loadX s f.len f.reg f.base offset f.bytes widen
    ∧ Widens s.cfg.xlen f.bytes f.signed widen

theorem MemForm.IsLoadX.loaded {f : MemForm} {s : State} (h : f.IsLoadX s) {ts : List Place}
    (hts : ReadCompletes s (f.address s) f.bytes ts) :
    ∃ t, exec f.instr s = .next t
      ∧ Loaded s t f.len f.reg (widened f.bytes f.signed (littleEndian (placeBytes s.mem s.devSeq ts))) (f.address s) f.bytes ts := by
  obtain ⟨offset, widen, haddr, hexec, hwiden⟩ := h
  have hvalue := littleEndian_placeBytes_lt s.mem s.devSeq ts
  rw [hts.length] at hvalue
  rw [← haddr] at hts ⊢
  obtain ⟨t, ht, hloaded⟩ := loadX_spec s f.len f.reg f.base offset f.bytes widen ts hts
  exact ⟨t, hexec.trans ht, hloaded.of_norm (hwiden _ hvalue)⟩

/-! ## Stores -/

/-- The form is the shared store of its register at its address. -/
def MemForm.IsStoreX (f : MemForm) (s : State) : Prop :=
  ∃ offset, s.effAddr f.base offset = f.address s ∧ exec f.instr s = storeX s f.len f.base offset f.bytes (s.getX f.reg)

theorem MemForm.IsStoreX.stored {f : MemForm} {s : State} (h : f.IsStoreX s) (hwf : Memory.wf s.mem = true) {ts : List Place}
    (hts : WriteCompletes s (f.address s) (s.getX f.reg) f.bytes ts) :
    ∃ t, exec f.instr s = .next t ∧ Stored s t f.len (s.getX f.reg) (f.address s) f.bytes ts := by
  obtain ⟨offset, haddr, hexec⟩ := h
  rw [← haddr] at hts ⊢
  obtain ⟨t, ht, hstored⟩ := storeX_spec s f.len f.base offset f.bytes (s.getX f.reg) ts hwf hts
  exact ⟨t, hexec.trans ht, hstored⟩

/-! ## The forms -/

section
variable (s : State) (r rs1 : RegIdx) (cd c1 : BitVec 3) (i : BitVec 12) (i5 : BitVec 5) (i6 : BitVec 6)

theorem integerLoads_isLoadX : ∀ f ∈ integerLoads r rs1 cd c1 i i5 i6, f.IsLoadX s := by
  simp only [integerLoads, ← creg_eq_x8, List.forall_mem_cons]
  have haddr := effAddr_immS s rs1 i
  exact ⟨⟨_, _, haddr, rfl, widens_sext _ 1 (by decide)⟩, ⟨_, _, haddr, rfl, widens_sext _ 2 (by decide)⟩,
    ⟨_, _, haddr, rfl, widens_sext _ 4 (by decide)⟩, ⟨_, _, haddr, rfl, widens_zext _ 1 (by decide)⟩,
    ⟨_, _, haddr, rfl, widens_zext _ 2 (by decide)⟩, ⟨_, _, haddr, rfl, widens_zext _ 4 (by decide)⟩,
    ⟨_, _, haddr, rfl, widens_doubleword _⟩,
    ⟨_, _, effAddr_immU s _ i5 (by decide), rfl, widens_sext _ 4 (by decide)⟩,
    ⟨_, _, effAddr_immU s _ i5 (by decide), rfl, widens_doubleword _⟩,
    ⟨_, _, effAddr_immU s _ i6 (by decide), rfl, widens_sext _ 4 (by decide)⟩,
    ⟨_, _, effAddr_immU s _ i6 (by decide), rfl, widens_doubleword _⟩, List.forall_mem_nil _⟩

theorem integerStores_isStoreX : ∀ f ∈ integerStores r rs1 cd c1 i i5 i6, f.IsStoreX s := by
  simp only [integerStores, ← creg_eq_x8, List.forall_mem_cons]
  have haddr := effAddr_immS s rs1 i
  exact ⟨⟨_, haddr, rfl⟩, ⟨_, haddr, rfl⟩, ⟨_, haddr, rfl⟩, ⟨_, haddr, rfl⟩,
    ⟨_, effAddr_immU s _ i5 (by decide), rfl⟩, ⟨_, effAddr_immU s _ i5 (by decide), rfl⟩,
    ⟨_, effAddr_immU s _ i6 (by decide), rfl⟩, ⟨_, effAddr_immU s _ i6 (by decide), rfl⟩, List.forall_mem_nil _⟩

end

/-- Settles O25: every form is the shared load at its address. -/
theorem integerLoadResults : Obligations.IntegerLoadResults := by
  intro s rd rs1 cd c1 i i5 i6 f hf ts hts
  exact (integerLoads_isLoadX s rd rs1 cd c1 i i5 i6 f hf).loaded hts

/-- Settles O26: every form is the shared store of its register at its address. -/
theorem integerStoreResults : Obligations.IntegerStoreResults := by
  intro s rs2 rs1 c2 c1 i i5 i6 hwf f hf ts hts
  exact (integerStores_isStoreX s rs2 rs1 c2 c1 i i5 i6 f hf).stored hwf hts

end Sys2Proof.Machine
end

section
/-! ECALL, EBREAK and C.EBREAK; the cause word and the vector target (40_base_integer.md R304, R305; 10_state.md R63, R66). -/

namespace Sys2Proof.Machine

/-- The interrupt bit stands alone above the code. -/
theorem causeWord_eq (xl : Xlen) (interrupt : Bool) {code : Nat} (hcode : code < 2 ^ 31) :
    causeWord xl interrupt code = BitVec.ofNat 64 ((if interrupt then 2 ^ (xl.bits - 1) else 0) + code) := by
  cases interrupt with
  | false => simp [causeWord]
  | true =>
    have hor (k : Nat) (hk : code < 2 ^ k) : BitVec.ofNat 64 (2 ^ k) ||| BitVec.ofNat 64 code = BitVec.ofNat 64 (2 ^ k + code) := by
      have hdisjoint := Nat.two_pow_add_eq_or_of_lt hk 1
      rw [Nat.mul_one] at hdisjoint
      rw [← BitVec.ofNat_or, hdisjoint]
    cases xl with
    | rv32 => exact hor 31 hcode
    | rv64 => exact hor 63 (by omega)

theorem vectorTarget_eq (tvec : Word) (interrupt : Bool) (code : Nat) :
    vectorTarget tvec interrupt code =
      (tvec &&& ~~~3) + BitVec.ofNat 64 (if interrupt = true ∧ getBit 0 tvec = true then 4 * code else 0) := by
  simp only [vectorTarget, Bool.and_eq_true]
  split
  · rfl
  · exact (BitVec.add_zero _).symm

/-- Settles O13: ECALL by the two values of the shutdown predicate, the breakpoints by the raise they are. -/
theorem softwareTraps : Obligations.SoftwareTraps := by
  refine fun s => ⟨fun hhook => ?_, fun hhook => ?_, ?_, fun xl tvec interrupt code hcode => ?_⟩
  · have hexec : exec .ecall s = raise s _ 0 := if_neg (by rw [hhook]; decide)
    rw [hexec]
    exact raise_spec s _ 0
  · exact ⟨terminated s, if_pos hhook, rfl, rfl⟩
  · simp only [List.forall_mem_cons]
    exact ⟨raise_spec s 3 s.pc, raise_spec s 3 s.pc, List.forall_mem_nil _⟩
  · exact ⟨causeWord_eq xl interrupt hcode, vectorTarget_eq tvec interrupt code⟩

end Sys2Proof.Machine
end

section
/-! The compressed instructions that only write a register (41_compressed.md R345, R354, R355, R357 to R369, R373, R379, R382). -/

namespace Sys2Proof.Machine

theorem immS_zero (xl : Xlen) {w : Nat} (hw : w ≤ 64) (imm : BitVec w) : xl.immS 0 imm = xl.norm (BitVec.ofInt 64 imm.toInt) := by
  rw [immS_eq xl 0 hw, Int.pow_zero, Int.mul_one]

/-- Settles O31: each form is a write of its value; the values agree modulo 2^XLEN, the immediate being its scaled extension. -/
theorem compressedResults : Obligations.CompressedResults := by
  intro s rd rs2 cd c2 i6 sh i8
  simp only [List.forall_mem_cons, ← creg_eq_x8]
  refine ⟨retiredX_of_retireX rfl ?addi4spn, retire_spec s 2, retiredX_of_retireX rfl ?addi, retiredX_of_retireX rfl (wrap_of _ _ _ ?addiw),
    retiredX_of_retireX rfl ?li, retiredX_of_retireX rfl ?addi16sp, retiredX_of_retireX rfl ?lui,
    retiredX_of_retireX rfl (lift1_shr _ _ _), retiredX_of_retireX rfl (lift1_sra _ _ _), retiredX_of_retireX rfl ?andi,
    retiredX_of_retireX rfl (sub_toInt2 _ _ _), retiredX_of_retireX rfl rfl, retiredX_of_retireX rfl rfl, retiredX_of_retireX rfl rfl,
    retiredX_of_retireX rfl (wrap_of _ _ _ (sub_eq_ofInt _ _)), retiredX_of_retireX rfl (wrap_of _ _ _ (add_eq_ofInt _ _)),
    retiredX_of_retireX rfl (lift1_shl _ _ _), retiredX_of_retireX rfl rfl, retiredX_of_retireX rfl (add_toInt2 _ _ _),
    List.forall_mem_nil _⟩
  case addi4spn => rw [immU_eq, norm_add, add_toInt, Int.mul_comm]; rfl
  case addi => rw [immS_zero _ (by decide), norm_add, add_toInt]
  case addiw => rw [add_eq_ofInt, BitVec.toInt_signExtend_of_le (by decide)]; rfl
  case li => rw [immS_zero _ (by decide), norm_norm]
  case addi16sp => rw [immS_eq _ 4 (by decide), norm_add, add_toInt, Int.mul_comm]; rfl
  case lui => rw [immS_eq _ 12 (by decide), norm_norm, Int.mul_comm]; rfl
  case andi => rw [immS_zero _ (by decide), norm_and]

end Sys2Proof.Machine
end

section
/-! A compressed instruction and its 32-bit instruction (41_compressed.md R342): each is the same shared operation, which knows of the
length only in the pc of its retire. -/

namespace Sys2Proof.Machine

/-! ## One operation at two lengths -/

/-- From `s`, the first result is a next state, and the second is the same one with the length 2. -/
def ShortForm (s : State) (long short : StepResult) : Prop := ∃ t, long = .next t ∧ short = .next (withLen2 s t)

section
variable {s t : State}

theorem withLen2_of_retired (h : t.out.outcome = .retired) :
    withLen2 s t = { t with pc := s.cfg.xlen.norm (s.pc + 2), out := { t.out with nextPc := s.cfg.xlen.norm (s.pc + 2) } } :=
  if_pos h

theorem withLen2_of_trapped (h : t.out.outcome = .trapped) : withLen2 s t = t := if_neg (by rw [h]; decide)

end

section
variable {s u : State} (hcfg : u.cfg = s.cfg) (hpc : u.pc = s.pc)

/-- A trap does not depend on the length. -/
theorem shortForm_raise (code : Nat) (tval : Word) : ShortForm s (raise u code tval) (raise u code tval) :=
  ⟨_, rfl, congrArg Host.Outcome.next (withLen2_of_trapped rfl).symm⟩

include hcfg hpc

theorem shortForm_retire : ShortForm s (retire u 4) (retire u 2) := by
  refine ⟨_, rfl, ?_⟩
  rw [withLen2_of_retired rfl, ← hcfg, ← hpc]
  rfl

theorem shortForm_retireX (rd : RegIdx) (v : Word) : ShortForm s (retireX u 4 rd v) (retireX u 2 rd v) :=
  shortForm_retire ((State.setX_cfg u rd v).trans hcfg) ((State.setX_pc u rd v).trans hpc)

theorem shortForm_retireF (rd : RegIdx) (v : Word) (fl : FFlags) : ShortForm s (retireF u 4 rd v fl) (retireF u 2 rd v fl) :=
  shortForm_retire ((State.accrue_cfg _ fl).trans hcfg) ((State.accrue_pc _ fl).trans hpc)

end

/-- After an access of the same bytes: it raises the same, or leaves the configuration and pc to what follows. -/
theorem shortForm_andThen {s : State} {α : Type} {w : Bool} {r : MemResult α} {long short : α → State → StepResult}
    (hr : MemQuiet w s r) (hk : ∀ v u, u.cfg = s.cfg → u.pc = s.pc → ShortForm s (long v u) (short v u)) :
    ShortForm s (r.andThen long) (r.andThen short) := by
  cases r with
  | ok v u => exact hk v u hr.cfg hr.pc
  | raise c v u => exact shortForm_raise c v

/-! ## The shared operations, on equal operands -/

section
variable {s : State} {rd base src : RegIdx} {n : Nat} {offset offset' v w : Word}

theorem shortForm_writeX (h : v = w) : ShortForm s (retireX s 4 rd v) (retireX s 2 rd w) := by
  subst h
  exact shortForm_retireX rfl rfl rd v

theorem shortForm_storeX (h : offset = offset') : ShortForm s (storeX s 4 base offset n v) (storeX s 2 base offset' n v) := by
  subst h
  exact shortForm_andThen (quiet_write s _ n v) fun _ _ => shortForm_retire

theorem shortForm_loadX {widen : Word → Word} (h : offset = offset') :
    ShortForm s (loadX s 4 rd base offset n widen) (loadX s 2 rd base offset' n widen) := by
  subst h
  exact shortForm_andThen (quiet_read s _ n) fun _ _ hcfg hpc => shortForm_retireX hcfg hpc rd _

variable {i c : Instr} (hfp : s.fpEnabled = true)
include hfp

theorem shortForm_fpGate {long short : StepResult} (h : ShortForm s long short) : ShortForm s (fpGate s i long) (fpGate s c short) := by
  rwa [fpGate, fpGate, if_pos hfp, if_pos hfp]

theorem shortForm_loadS (h : offset = offset') : ShortForm s (loadS s i 4 rd base offset) (loadS s c 2 rd base offset') := by
  subst h
  exact shortForm_fpGate hfp (shortForm_andThen (quiet_read s _ 4) fun _ _ hcfg hpc => shortForm_retireF hcfg hpc rd _ 0)

theorem shortForm_loadD (h : offset = offset') : ShortForm s (loadD s i 4 rd base offset) (loadD s c 2 rd base offset') := by
  subst h
  exact shortForm_fpGate hfp (shortForm_andThen (quiet_read s _ 8) fun _ _ hcfg hpc => shortForm_retireF hcfg hpc rd _ 0)

theorem shortForm_storeF (h : offset = offset') : ShortForm s (storeF s i 4 base offset n src) (storeF s c 2 base offset' n src) :=
  shortForm_fpGate hfp (shortForm_storeX h)

end

/-! ## The immediates agree -/

theorem signExtend_signExtend {w k m : Nat} (hw : w ≤ k) (hk : k ≤ m) (imm : BitVec w) :
    (imm.signExtend k).signExtend m = imm.signExtend m := by
  apply BitVec.eq_of_toInt_eq
  rw [BitVec.toInt_signExtend_of_le hk, BitVec.toInt_signExtend_of_le hw, BitVec.toInt_signExtend_of_le (hw.trans hk)]

section
variable (xl : Xlen) {w : Nat} (imm : BitVec w)

/-- A compressed signed immediate is that of the 32-bit instruction, sign-extended to its field. -/
theorem immS_signExtend (z : Nat) {k : Nat} (hw : w ≤ k) (hk : k + z ≤ 64) : xl.immS z (imm.signExtend k) = xl.immS z imm := by
  rw [immS_eq xl z hk, immS_eq xl z (by omega), BitVec.toInt_signExtend_of_le hw]

theorem immS_scaled {z : Nat} (hw : w + z ≤ 12) : xl.immS 0 ((imm ++ 0#z).signExtend 12) = xl.immS z imm := by
  rw [immI, BitVec.toInt_signExtend_of_le hw, append0_toInt, immS_eq xl z (by omega)]

/-- A compressed unsigned immediate is too short to reach the sign bit of the 32-bit instruction's field. -/
theorem immS_setWidth {z : Nat} (hw : w + z < 12) : xl.immS 0 ((imm ++ 0#z).setWidth 12) = xl.immU z imm := by
  have happend : (imm ++ 0#z).toNat = imm.toNat * 2 ^ z := by simp [Nat.shiftLeft_eq]
  have hsmall : (imm ++ 0#z).toNat < 2 ^ 11 := Nat.lt_of_lt_of_le (imm ++ 0#z).isLt (Nat.pow_le_pow_right (by decide) (by omega))
  have hwide : ((imm ++ 0#z).setWidth 12).toNat = (imm ++ 0#z).toNat := BitVec.toNat_setWidth_of_le (by omega)
  rw [immI, immU_eq, BitVec.toInt_eq_toNat_of_lt (by omega), hwide, happend, Int.natCast_mul, Int.natCast_pow]
  rfl

end

/-- Settles O32: both forms are one shared operation on the same operands. -/
theorem compressedExpansion : Obligations.CompressedExpansion := by
  intro s c i hexpansion hfp
  change ShortForm s (exec i s) (exec c s)
  cases c with
  | c_addi4spn _ imm =>
    cases hexpansion
    rw [← creg_eq_x8]
    exact shortForm_writeX (congrArg (s.getX 2#5 + ·) (immS_setWidth _ imm (by decide)))
  | c_lw _ _ imm | c_ld _ _ imm =>
    cases hexpansion
    rw [← creg_eq_x8, ← creg_eq_x8]
    exact shortForm_loadX (immS_setWidth _ imm (by decide))
  | c_lwsp _ imm | c_ldsp _ imm =>
    cases hexpansion
    exact shortForm_loadX (immS_setWidth _ imm (by decide))
  | c_sw _ _ imm | c_sd _ _ imm =>
    cases hexpansion
    rw [← creg_eq_x8, ← creg_eq_x8]
    exact shortForm_storeX (immS_setWidth _ imm (by decide))
  | c_swsp _ imm | c_sdsp _ imm =>
    cases hexpansion
    exact shortForm_storeX (immS_setWidth _ imm (by decide))
  | c_flw _ _ imm =>
    cases hexpansion
    rw [← creg_eq_x8, ← creg_eq_x8]
    exact shortForm_loadS (hfp rfl) (immS_setWidth _ imm (by decide))
  | c_flwsp _ imm =>
    cases hexpansion
    exact shortForm_loadS (hfp rfl) (immS_setWidth _ imm (by decide))
  | c_fld _ _ imm =>
    cases hexpansion
    rw [← creg_eq_x8, ← creg_eq_x8]
    exact shortForm_loadD (hfp rfl) (immS_setWidth _ imm (by decide))
  | c_fldsp _ imm =>
    cases hexpansion
    exact shortForm_loadD (hfp rfl) (immS_setWidth _ imm (by decide))
  | c_fsw _ _ imm | c_fsd _ _ imm =>
    cases hexpansion
    rw [← creg_eq_x8, ← creg_eq_x8]
    exact shortForm_storeF (hfp rfl) (immS_setWidth _ imm (by decide))
  | c_fswsp _ imm | c_fsdsp _ imm =>
    cases hexpansion
    exact shortForm_storeF (hfp rfl) (immS_setWidth _ imm (by decide))
  | c_nop imm =>
    cases hexpansion
    have hnop : exec (.c_nop imm) s = retireX s 2 0#5 (s.getX 0#5 + s.cfg.xlen.immS 0 (imm.signExtend 12)) :=
      congrArg (retire · 2) (State.setX_zero s _).symm
    rw [hnop]
    exact shortForm_writeX rfl
  | c_addi rd imm =>
    cases hexpansion
    exact shortForm_writeX (congrArg (s.getX rd + ·) (immS_signExtend _ imm 0 (by decide) (by decide)))
  | c_addiw rd imm =>
    cases hexpansion
    exact shortForm_writeX (by rw [signExtend_signExtend (by decide) (by decide)])
  | c_li rd imm =>
    cases hexpansion
    exact shortForm_writeX (by rw [State.getX_zero, zero_add, immS_signExtend _ imm 0 (by decide) (by decide)])
  | c_addi16sp imm =>
    cases hexpansion
    exact shortForm_writeX (congrArg (s.getX 2#5 + ·) (immS_scaled _ imm (by decide)))
  | c_lui rd imm =>
    cases hexpansion
    exact shortForm_writeX (immS_signExtend _ imm 12 (by decide) (by decide))
  | c_andi rd imm =>
    cases hexpansion
    rw [← creg_eq_x8]
    exact shortForm_writeX (congrArg (s.getX (creg rd) &&& ·) (immS_signExtend _ imm 0 (by decide) (by decide)))
  | c_srli | c_srai =>
    cases hexpansion
    rw [← creg_eq_x8]
    exact shortForm_writeX rfl
  | c_sub | c_xor | c_or | c_and | c_subw | c_addw =>
    cases hexpansion
    rw [← creg_eq_x8, ← creg_eq_x8]
    exact shortForm_writeX rfl
  | c_slli | c_add =>
    cases hexpansion
    exact shortForm_writeX rfl
  | c_mv rd rs2 =>
    cases hexpansion
    exact shortForm_writeX (by rw [State.getX_zero, zero_add])
  | _ => cases hexpansion

end Sys2Proof.Machine
end

section
/-! Multiply and divide (42_muldiv.md R401 to R415): an operation on XLEN bits is its width-generic function at XLEN, and each such
function is its integer result modulo 2^w. The same facts serve the XLEN forms and, at width 32, the word forms. -/

namespace Sys2Proof.Machine

/-! ## Operands and results on XLEN bits -/

section
variable (xl : Xlen) (a b : Word)

theorem xlen_toInt_eq : xl.toInt a = (a.setWidth xl.bits).toInt := by
  cases xl with
  | rv32 => rfl
  | rv64 => exact congrArg BitVec.toInt (BitVec.setWidth_eq a).symm

theorem xlen_toNat_eq : xl.toNat a = (a.setWidth xl.bits).toNat := by
  cases xl with
  | rv32 => rfl
  | rv64 => exact congrArg BitVec.toNat (BitVec.setWidth_eq a).symm

variable {xl a b} {f : (w : Nat) → BitVec w → BitVec w → BitVec w}

/-- What the operation is modulo 2^XLEN, its value in the register is. -/
theorem norm_lift2_ofInt {z : Int} (h : f xl.bits (a.setWidth xl.bits) (b.setWidth xl.bits) = BitVec.ofInt xl.bits z) :
    xl.norm (xl.lift2 f a b) = xl.norm (BitVec.ofInt 64 z) := by
  cases xl with
  | rv32 =>
    have h32 : f 32 (a.setWidth 32) (b.setWidth 32) = BitVec.ofInt 32 z := h
    rw [norm32_eq, Xlen.lift2, h32, setWidth_ofInt, BitVec.setWidth_setWidth_of_le _ (by decide), BitVec.setWidth_eq]
  | rv64 =>
    have h64 : f 64 (a.setWidth 64) (b.setWidth 64) = BitVec.ofInt 64 z := h
    rw [BitVec.setWidth_eq, BitVec.setWidth_eq] at h64
    rw [Xlen.lift2, h64]

theorem norm_lift2_ofNat {n : Nat} (h : f xl.bits (a.setWidth xl.bits) (b.setWidth xl.bits) = BitVec.ofInt xl.bits (n : Int)) :
    xl.norm (xl.lift2 f a b) = xl.norm (BitVec.ofNat 64 n) := by
  rw [norm_lift2_ofInt h, BitVec.ofInt_natCast]

end

/-! ## The operations as integers modulo 2^w -/

section
variable {w : Nat} (a b : BitVec w)

theorem toInt_eq_zero_iff : b.toInt = 0 ↔ b = 0#w := by
  rw [← BitVec.toInt_inj, BitVec.toInt_zero]

theorem toNat_eq_zero_iff : b.toNat = 0 ↔ b = 0#w := by
  rw [← BitVec.toNat_inj, BitVec.toNat_ofNat, Nat.zero_mod]

theorem mulhSS_eq_ofInt : mulhSS w a b = BitVec.ofInt w (a.toInt * b.toInt / 2 ^ w) := by
  rw [mulhSS, Int.natCast_pow]; rfl

theorem mulhSU_eq_ofInt : mulhSU w a b = BitVec.ofInt w (a.toInt * b.toNat / 2 ^ w) := by
  rw [mulhSU, Int.natCast_pow]; rfl

theorem mulhUU_eq_ofInt : mulhUU w a b = BitVec.ofInt w (a.toNat * b.toNat / 2 ^ w : Nat) := (BitVec.ofInt_natCast _ _).symm

/-- All ones, the quotient by zero, is -1 (R402). -/
theorem allOnes_eq_ofInt : BitVec.allOnes w = BitVec.ofInt w (-1) := by
  have hone : BitVec.ofInt w 1 = 1#w := BitVec.ofInt_natCast w 1
  rw [BitVec.ofInt_neg, hone, BitVec.neg_one_eq_allOnes]

theorem divS_eq_ofInt : divS w a b = BitVec.ofInt w (if b.toInt = 0 then -1 else a.toInt.tdiv b.toInt) := by
  by_cases hb : b = 0#w
  · rw [divS, if_pos hb, if_pos ((toInt_eq_zero_iff b).2 hb), allOnes_eq_ofInt]
  · rw [divS, if_neg hb, if_neg (mt (toInt_eq_zero_iff b).1 hb)]

theorem divU_eq_ofInt : divU w a b = BitVec.ofInt w (if b.toNat = 0 then -1 else (a.toNat / b.toNat : Nat)) := by
  by_cases hb : b = 0#w
  · rw [divU, if_pos hb, if_pos ((toNat_eq_zero_iff b).2 hb), allOnes_eq_ofInt]
  · rw [divU, if_neg hb, if_neg (mt (toNat_eq_zero_iff b).1 hb), BitVec.ofInt_natCast]

theorem remS_eq_ofInt : remS w a b = BitVec.ofInt w (if b.toInt = 0 then a.toInt else a.toInt.tmod b.toInt) := by
  by_cases hb : b = 0#w
  · rw [remS, if_pos hb, if_pos ((toInt_eq_zero_iff b).2 hb), BitVec.ofInt_toInt]
  · rw [remS, if_neg hb, if_neg (mt (toInt_eq_zero_iff b).1 hb)]

/-- The remainder by zero of the natural numbers is the dividend too. -/
theorem remU_eq_ofInt : remU w a b = BitVec.ofInt w (a.toNat % b.toNat : Nat) := by
  rw [BitVec.ofInt_natCast]
  by_cases hb : b = 0#w
  · rw [remU, if_pos hb, (toNat_eq_zero_iff b).2 hb, Nat.mod_zero, BitVec.ofNat_toNat, BitVec.setWidth_eq]
  · rw [remU, if_neg hb]

end

/-- Settles O33: each form is a write of its operation's value, at width XLEN or, sign-extended, at width 32; the operation is its integer
result modulo 2^w, the zero divisor included. -/
theorem mulDivResults : Obligations.MulDivResults := by
  intro s rd rs1 rs2
  simp only [List.forall_mem_cons, xlen_toInt_eq, xlen_toNat_eq]
  refine ⟨retiredX_of_retireX rfl (norm_lift2_ofInt rfl), retiredX_of_retireX rfl (norm_lift2_ofInt (mulhSS_eq_ofInt _ _)),
    retiredX_of_retireX rfl (norm_lift2_ofInt (mulhSU_eq_ofInt _ _)), retiredX_of_retireX rfl (norm_lift2_ofNat (mulhUU_eq_ofInt _ _)),
    retiredX_of_retireX rfl (norm_lift2_ofInt (divS_eq_ofInt _ _)), retiredX_of_retireX rfl ?divu,
    retiredX_of_retireX rfl (norm_lift2_ofInt (remS_eq_ofInt _ _)), retiredX_of_retireX rfl (norm_lift2_ofNat (remU_eq_ofInt _ _)),
    retiredX_of_retireX rfl (wrap_of _ _ _ rfl), retiredX_of_retireX rfl (wrap_of _ _ _ (divS_eq_ofInt _ _)),
    retiredX_of_retireX rfl (wrap_of _ _ _ (divU_eq_ofInt _ _)), retiredX_of_retireX rfl (wrap_of _ _ _ (remS_eq_ofInt _ _)),
    retiredX_of_retireX rfl (wrap_of _ _ _ (remU_eq_ofInt _ _)), List.forall_mem_nil _⟩
  case divu => rw [← BitVec.ofInt_natCast, ← apply_ite (BitVec.ofInt 64), norm_lift2_ofInt (divU_eq_ofInt _ _)]

end Sys2Proof.Machine
end

section
/-! LR, SC and the AMOs (43_atomics.md R426 to R454): each form is one shared operation, and what that operation does depends on its alignment
check, the reservation and the layer's answer. -/

namespace Sys2Proof.Machine

/-! ## LR -/

theorem widens_loadReserved (xl : Xlen) {n : Nat} (hn : n = 4 ∨ n = 8) :
    Widens xl n true fun v => if n = 4 then xl.sext (v.setWidth 32) else v := by
  rcases hn with rfl | rfl
  · exact widens_sext xl 4 (by decide)
  · intro v hv
    rw [← widens_doubleword xl v hv]
    simp [Xlen.zext]

theorem Loaded.reserved {s t : State} {len v a b : Word} {rd : RegIdx} {n : Nat} {ts : List Place}
    (h : Loaded { s with resValid := true, resAddr := b, resSeq := t.memSeq } t len rd v a n ts) : t.reserved b = true := by
  have hvalid : t.resValid = true := congrArg (fun u : State => u.resValid) h.frame
  have haddr : t.resAddr = b := congrArg (fun u : State => u.resAddr) h.frame
  have hseq : t.resSeq = t.memSeq := congrArg (fun u : State => u.resSeq) h.frame
  simp [State.reserved, hvalid, haddr, hseq]

/-- Settles O42: both forms are the shared load-reserved, whose widening of a value of `n` bytes is the load's. -/
theorem loadReservedResults : Obligations.LoadReservedResults := by
  intro s rd rs1 aq rl p hp ts ha hts v
  have hform : exec p.1 s = loadReserved s rd rs1 p.2 ∧ (p.2 = 4 ∨ p.2 = 8) := by
    simp only [List.mem_cons, List.not_mem_nil, or_false] at hp
    rcases hp with rfl | rfl
    · exact ⟨rfl, .inl rfl⟩
    · exact ⟨rfl, .inr rfl⟩
  obtain ⟨hexec, hn⟩ := hform
  have hv : v < 2 ^ (8 * p.2) := resolve_length hts ▸ littleEndian_placeBytes_lt s.mem s.devSeq ts
  obtain ⟨t, ht, hloaded⟩ := loadReserved_spec s rd rs1 p.2 ts ha hts
  exact ⟨t, hexec.trans ht, hloaded.of_norm (widens_loadReserved s.cfg.xlen hn v hv), hloaded.reserved⟩

/-! ## SC -/

section
variable {s : State} {rd rs1 : RegIdx} {n : Nat} {v : Word}

theorem reserved_iff (s : State) (a : Word) : s.reserved a = true ↔ s.resValid = true ∧ s.resAddr = a ∧ s.resSeq = s.memSeq := by
  simp [State.reserved, and_assoc]

theorem storeConditional_misaligned (ha : s.cfg.xlen.toNat (s.getX rs1) % n ≠ 0) :
    storeConditional s rd rs1 n v = raise s 6 (s.getX rs1) := by
  simp [storeConditional, aligned, ha]

theorem storeConditional_unreserved (ha : s.cfg.xlen.toNat (s.getX rs1) % n = 0) (hr : ¬ s.reserved (s.getX rs1) = true) :
    storeConditional s rd rs1 n v = retireX { s with resValid := false } 4 rd 1 := by
  simp [storeConditional, aligned, ha, hr]

theorem storeConditional_reserved (ha : s.cfg.xlen.toNat (s.getX rs1) % n = 0) (hr : s.reserved (s.getX rs1) = true) :
    storeConditional s rd rs1 n v
      = (memWrite s (s.getX rs1) n v).andThen fun _ t => retireX { t with resValid := false } 4 rd 0 := by
  simp [storeConditional, aligned, ha, hr]

theorem storeConditional_fault (ha : s.cfg.xlen.toNat (s.getX rs1) % n = 0) (hr : s.reserved (s.getX rs1) = true) {flt : LayerFault}
    (hf : s.places .store (s.getX rs1) n = .error flt) :
    storeConditional s rd rs1 n v = raise s (faultCause .store flt) (s.getX rs1) := by
  rw [storeConditional_reserved ha hr, memWrite_fault v ha hf, MemResult.andThen, raise_norm]

/-- An SC that succeeds is a write, then a retire with the reservation dropped. -/
theorem storeConditional_stores (ha : s.cfg.xlen.toNat (s.getX rs1) % n = 0) (hr : s.reserved (s.getX rs1) = true)
    (hwf : Memory.wf s.mem = true) {ts : List Place} (hts : s.places .store (s.getX rs1) n = .ok ts) :
    ∃ t, storeConditional s rd rs1 n v = .next t
      ∧ RetiredX { s with resValid := false, mem := t.mem, memSeq := t.memSeq, others := t.others } t 4 rd 0
      ∧ WriteEffect s t 1 ts v := by
  obtain ⟨u, hu, hframe⟩ := memWrite_ok (s := s) v ⟨fun _ => hts, fun h => absurd ha h⟩
  obtain ⟨t, ht, hx⟩ := retireX_spec { u with resValid := false } 4 rd 0
  refine ⟨t, ?_, ?_, writeEffect_of hwf ?mem ?seq ?others⟩
  · rw [storeConditional_reserved ha hr, hu, MemResult.andThen, ht]
  · refine ⟨?_, fun hd => ?_, fun r h => ?_, ?_, ?_, hx.report⟩
    · rw [hx.frame, hframe]
    · rw [hx.dest hd, hframe]
    · rw [hx.kept r h, hframe]
    · rw [hx.pc, hframe]
    · rw [hx.counters.1, hx.counters.2, hframe]
      exact ⟨rfl, rfl⟩
  case mem | others => rw [hx.frame, hframe]
  case seq => rw [hx.frame, hframe, requests, if_pos ha]

end

/-- Settles O43: both forms are the shared store-conditional, whose cases are its checks in order and the layer's answer. -/
theorem storeConditionalResults : Obligations.StoreConditionalResults := by
  intro s rd rs1 rs2 aq rl addr reserved p hp target isAligned
  have hexec : exec p.1 s = storeConditional s rd rs1 p.2 (s.getX rs2) := by
    simp only [List.mem_cons, List.not_mem_nil, or_false] at hp
    rcases hp with rfl | rfl <;> rfl
  have hreserved : s.reserved addr = true ↔ reserved := reserved_iff s addr
  rw [hexec]
  refine ⟨fun ha => ?_, fun ha hr hwf ts hts => ?_, fun ha hr flt hf => ?_, fun ha hr => ?_⟩
  · rw [storeConditional_misaligned ha]
    exact raise_spec s 6 addr
  · exact storeConditional_stores ha (hreserved.2 hr) hwf hts
  · rw [storeConditional_fault ha (hreserved.2 hr) hf]
    cases flt <;> exact raise_spec s _ addr
  · rw [storeConditional_unreserved ha (mt hreserved.1 hr)]
    exact retireX_spec _ 4 rd 1

/-! ## The operations of the AMOs -/

section
variable {w : Nat} (a b : BitVec w)

theorem amoMin_eq : amoMin w a b = BitVec.ofInt w (min a.toInt b.toInt) := by
  unfold amoMin
  split
  · next h => rw [min_eq_left h.le, BitVec.ofInt_toInt]
  · next h => rw [min_eq_right (not_lt.1 h), BitVec.ofInt_toInt]

theorem amoMax_eq : amoMax w a b = BitVec.ofInt w (max a.toInt b.toInt) := by
  unfold amoMax
  split
  · next h => rw [max_eq_left h.le, BitVec.ofInt_toInt]
  · next h => rw [max_eq_right (not_lt.1 h), BitVec.ofInt_toInt]

theorem amoMinU_eq : amoMinU w a b = BitVec.ofNat w (min a.toNat b.toNat) := by
  unfold amoMinU
  split
  · next h => rw [min_eq_left h.le, BitVec.ofNat_toNat, BitVec.setWidth_eq]
  · next h => rw [min_eq_right (not_lt.1 h), BitVec.ofNat_toNat, BitVec.setWidth_eq]

theorem amoMaxU_eq : amoMaxU w a b = BitVec.ofNat w (max a.toNat b.toNat) := by
  unfold amoMaxU
  split
  · next h => rw [max_eq_left h.le, BitVec.ofNat_toNat, BitVec.setWidth_eq]
  · next h => rw [max_eq_right (not_lt.1 h), BitVec.ofNat_toNat, BitVec.setWidth_eq]

end

/-- Settles O44: each form is the shared fetch-and-op of its operation at its width. -/
theorem amoResults : Obligations.AmoResults := by
  intro s rd rs1 rs2 aq rl ts hwf old ow od bw bd
  refine ⟨fun ha hts => ?_, fun ha hts => ?_⟩
  · have hform {i : Instr} {op : BitVec 32 → BitVec 32 → BitVec 32} {new : BitVec 32}
        (hexec : exec i s = fetchAndOp s rd rs1 4 op (s.getX rs2)) (hnew : op ow bw = new) :
        ∃ t, exec i s = .next t ∧ Swapped s t rd (ow.signExtend 64) (new.setWidth 64) ts := by
      rw [hexec, ← hnew]
      exact fetchAndOp_spec s rd rs1 4 op (s.getX rs2) ts (by decide) hwf ha hts
    simp only [List.forall_mem_cons]
    exact ⟨hform rfl rfl, hform rfl rfl, hform rfl rfl, hform rfl rfl, hform rfl rfl, hform rfl (amoMin_eq ow bw),
      hform rfl (amoMax_eq ow bw), hform rfl (amoMinU_eq ow bw), hform rfl (amoMaxU_eq ow bw), List.forall_mem_nil _⟩
  · have hform {i : Instr} {op : BitVec 64 → BitVec 64 → BitVec 64} {new : BitVec 64}
        (hexec : exec i s = fetchAndOp s rd rs1 8 op (s.getX rs2)) (hnew : op od bd = new) :
        ∃ t, exec i s = .next t ∧ Swapped s t rd od new ts := by
      have hspec := fetchAndOp_spec s rd rs1 8 op (s.getX rs2) ts (by decide) hwf ha hts
      rw [hexec, ← hnew]
      simpa only [BitVec.signExtend_eq, BitVec.setWidth_eq] using hspec
    simp only [List.forall_mem_cons]
    exact ⟨hform rfl rfl, hform rfl rfl, hform rfl rfl, hform rfl rfl, hform rfl rfl, hform rfl (amoMin_eq od bd),
      hform rfl (amoMax_eq od bd), hform rfl (amoMinU_eq od bd), hform rfl (amoMaxU_eq od bd), List.forall_mem_nil _⟩

/-! ## Atomics that trap -/

section
variable {s : State} {rd rs1 : RegIdx} {n : Nat} {flt : LayerFault}

theorem loadReserved_misaligned (ha : s.cfg.xlen.toNat (s.getX rs1) % n ≠ 0) :
    loadReserved s rd rs1 n = raise s 4 (s.getX rs1) := by
  simp [loadReserved, aligned, ha]

theorem loadReserved_fault (ha : s.cfg.xlen.toNat (s.getX rs1) % n = 0) (hf : s.places .data (s.getX rs1) n = .error flt) :
    loadReserved s rd rs1 n = raise s (faultCause .data flt) (s.getX rs1) := by
  simp [loadReserved, aligned, ha, memRead_fault ha hf, MemResult.andThen, raise_norm]

variable {op : BitVec (8 * n) → BitVec (8 * n) → BitVec (8 * n)} {src : Word}

theorem fetchAndOp_misaligned (ha : s.cfg.xlen.toNat (s.getX rs1) % n ≠ 0) :
    fetchAndOp s rd rs1 n op src = raise s 6 (s.getX rs1) := by
  simp [fetchAndOp, aligned, ha]

theorem memAmo_fault {a : Word} (f : Word → Word) (h : s.places .store a n = .error flt) :
    memAmo s a n f = .raise (faultCause .store flt) (s.cfg.xlen.norm a) s := by
  simp [memAmo, layerRead, h]

theorem fetchAndOp_fault (ha : s.cfg.xlen.toNat (s.getX rs1) % n = 0) (hf : s.places .store (s.getX rs1) n = .error flt) :
    fetchAndOp s rd rs1 n op src = raise s (faultCause .store flt) (s.getX rs1) := by
  simp [fetchAndOp, aligned, ha, memAmo_fault _ hf, MemResult.andThen, raise_norm]

end

/-- An access of `n` bytes at `a` that traps before it changes anything: when misaligned, and when the layer answers a fault, with the cause
that the fault has. -/
def TrapsWith (cause : LayerFault → Nat) (s : State) (i : Instr) (kind : AccessKind) (a : Word) (n : Nat) : Prop :=
  (s.cfg.xlen.toNat a % n ≠ 0 → ∃ t, exec i s = .next t ∧ Trapped s t false (cause .misaligned) a)
    ∧ (s.cfg.xlen.toNat a % n = 0 → ∀ flt, s.places kind a n = .error flt →
        ∃ t, exec i s = .next t ∧ Trapped s t false (cause flt) a)

section
variable {s : State} {i : Instr} {rd rs1 : RegIdx} {n : Nat}

theorem trapsWith_of_loadReserved (hexec : exec i s = loadReserved s rd rs1 n) :
    TrapsWith (faultCause .data) s i .data (s.getX rs1) n := by
  refine ⟨fun ha => ?_, fun ha flt hf => ?_⟩
  · rw [hexec, loadReserved_misaligned ha]
    exact raise_spec s 4 _
  · rw [hexec, loadReserved_fault ha hf]
    exact raise_spec s _ _

theorem trapsWith_of_fetchAndOp {op : BitVec (8 * n) → BitVec (8 * n) → BitVec (8 * n)} {src : Word}
    (hexec : exec i s = fetchAndOp s rd rs1 n op src) : TrapsWith (faultCause .store) s i .store (s.getX rs1) n := by
  refine ⟨fun ha => ?_, fun ha flt hf => ?_⟩
  · rw [hexec, fetchAndOp_misaligned ha]
    exact raise_spec s 6 _
  · rw [hexec, fetchAndOp_fault ha hf]
    exact raise_spec s _ _

end

/-- Settles O45: each form is the shared load-reserved, store-conditional or fetch-and-op, which raises before it changes anything. -/
theorem atomicTraps : Obligations.AtomicTraps := by
  intro s rd rs1 rs2 aq rl addr cause
  have hdata : faultCause .data = cause .data := by funext flt; cases flt <;> rfl
  have hstore : faultCause .store = cause .store := by funext flt; cases flt <;> rfl
  have hsc {i : Instr} {n : Nat} (hexec : exec i s = storeConditional s rd rs1 n (s.getX rs2)) (ha : s.cfg.xlen.toNat addr % n ≠ 0) :
      ∃ t, exec i s = .next t ∧ Trapped s t false 6 addr := by
    rw [hexec, storeConditional_misaligned ha]
    exact raise_spec s 6 addr
  have hlr {i : Instr} {n : Nat} (hexec : exec i s = loadReserved s rd rs1 n) : TrapsWith (cause .data) s i .data addr n :=
    hdata ▸ trapsWith_of_loadReserved hexec
  have hamo {i : Instr} {n : Nat} {op : BitVec (8 * n) → BitVec (8 * n) → BitVec (8 * n)}
      (hexec : exec i s = fetchAndOp s rd rs1 n op (s.getX rs2)) : TrapsWith (cause .store) s i .store addr n :=
    hstore ▸ trapsWith_of_fetchAndOp hexec
  simp only [List.forall_mem_cons]
  exact ⟨⟨hsc rfl, hsc rfl, List.forall_mem_nil _⟩,
    hlr rfl, hlr rfl, hamo rfl, hamo rfl, hamo rfl, hamo rfl, hamo rfl, hamo rfl, hamo rfl, hamo rfl, hamo rfl,
    hamo rfl, hamo rfl, hamo rfl, hamo rfl, hamo rfl, hamo rfl, hamo rfl, hamo rfl, hamo rfl, List.forall_mem_nil _⟩

end Sys2Proof.Machine
end

section
/-! What breaks a reservation and what does not (43_atomics.md R429, R430; 20_memory.md R161): of the instructions other than LR only SC writes
the reservation, to drop it, and a performed store advances the counter past the one it holds. -/

namespace Sys2Proof

/-- LR or SC: the instructions that write the reservation itself. -/
def Instr.isReserving : Instr → Bool
  | .lr_w .. | .lr_d .. | .sc_w .. | .sc_d .. => true
  | _ => false

theorem Instr.isReserving_eq_false {i : Instr} (hw : i.writesMemory = false)
    (hlr : ∀ rd rs1 aq rl, i ≠ .lr_w rd rs1 aq rl ∧ i ≠ .lr_d rd rs1 aq rl) : i.isReserving = false := by
  cases i with
  | lr_w rd rs1 aq rl => exact absurd rfl (hlr rd rs1 aq rl).1
  | lr_d rd rs1 aq rl => exact absurd rfl (hlr rd rs1 aq rl).2
  | sc_w | sc_d => cases hw
  | _ => rfl

end Sys2Proof

namespace Sys2Proof.Machine

/-! ## The reservation dropped -/

/-- Where the counter has advanced past the one that a kept reservation holds, no address is reserved. -/
theorem KeepsReservation.unreserved {w : Bool} {s t : State} (h : KeepsReservation w s t) (hle : s.resSeq ≤ s.memSeq)
    (hlt : s.memSeq < t.memSeq) (a : Word) : t.reserved a = false := by
  obtain ⟨_, _, hseq, _⟩ := h
  have hne : t.resSeq ≠ t.memSeq := by omega
  simp [State.reserved, hne]

theorem unreserved_of_not_valid {t : State} (h : t.resValid = false) (a : Word) : t.reserved a = false := by
  simp [State.reserved, h]

/-- An SC drops the reservation, or it traps and keeps it. -/
theorem storeConditional_reservation {s t : State} {rd rs1 : RegIdx} {n : Nat} {v : Word}
    (h : storeConditional s rd rs1 n v = .next t) : t.resValid = false ∨ KeepsReservation true s t := by
  have hretire {u : State} {x : Word} (hu : retireX { u with resValid := false } 4 rd x = .next t) : t.resValid = false := by
    obtain ⟨t', ht', hx⟩ := retireX_spec { u with resValid := false } 4 rd x
    cases ht'.symm.trans hu
    rw [hx.frame]
  have hraise {u : State} {c : Nat} {x : Word} (hquiet : Quiet true s u) (hc : c < 16) (hu : raise u c x = .next t) :
      KeepsReservation true s t := by
    obtain ⟨t', ht', _, hkeeps, _⟩ := answers_raise_of hquiet c x hc
    cases ht'.symm.trans hu
    exact hkeeps
  unfold storeConditional at h
  split at h
  · split at h
    · have hwrite := quiet_write s (s.getX rs1) n v
      cases he : memWrite s (s.getX rs1) n v with
      | ok _ u =>
        rw [he] at h
        exact .inl (hretire h)
      | raise c x u =>
        rw [he] at h hwrite
        exact .inr (hraise hwrite (cause_write he) h)
    · exact .inl (hretire h)
  · exact .inr (hraise (Quiet.refl _ _) (by decide) h)

/-! ## The reservation kept -/

theorem Answers.keepsReservation {w : Bool} {s t : State} {r : StepResult} (h : Answers w s r) (hr : r = .next t) :
    KeepsReservation w s t := by
  obtain ⟨u, hu, _, hkeeps, _⟩ := h
  cases hu.symm.trans hr
  exact hkeeps

theorem csrOp_keepsReservation {s t : State} {i : Instr} {n : BitVec 12} {writes : Bool} {rd : RegIdx} {new : Word → Word}
    (h : csrOp s i n writes rd new = .next t) : KeepsReservation false s t := by
  cases ha : s.csrAccess n writes with
  | none =>
    have hill : csrOp s i n writes rd new = raiseIllegal s i := by rw [csrOp, ha]
    exact (answers_illegal false s i).keepsReservation (hill.symm.trans h)
  | some r =>
    obtain ⟨u, hu, hdone⟩ := csrOp_done s i n writes rd new r ha
    cases hu.symm.trans h
    rw [hdone.frame]
    cases writes
    · exact ⟨rfl, rfl, rfl, fun _ _ => rfl⟩
    · rw [if_pos rfl, writeCsr_frame]
      exact ⟨rfl, rfl, rfl, fun _ _ => rfl⟩

/-- Illegal in some modes, a return in the others: mstatus, the privilege and pc change. -/
theorem return_keepsReservation {s t : State} {i : Instr} {illegal : Bool} {csr : Csrs} {p : Priv} {next : Word}
    (h : (if illegal then raiseIllegal s i else retireTo { s with csr := csr, priv := p } next .jump none) = .next t) :
    KeepsReservation false s t := by
  split at h
  · exact (answers_illegal false s i).keepsReservation h
  · cases h
    exact ⟨rfl, rfl, rfl, fun _ _ => rfl⟩

theorem ecall_keepsReservation {s t : State} (h : execEcall s = .next t) : KeepsReservation false s t := by
  unfold execEcall at h
  split at h
  · cases h
    exact ⟨rfl, rfl, rfl, fun _ _ => rfl⟩
  · exact (answers_raise false s _ 0 (by cases s.priv <;> decide)).keepsReservation h

/-- Every instruction but LR and SC keeps the reservation. -/
theorem exec_keepsReservation {i : Instr} {s t : State} (hi : i.isReserving = false) (h : exec i s = .next t) :
    KeepsReservation i.writesMemory s t := by
  by_cases hord : i.isOrdinary = true
  · exact (exec_answers i s hord).keepsReservation h
  · cases i with
    | csrrw | csrrs | csrrc | csrrwi | csrrsi | csrrci =>
      unfold exec at h
      exact csrOp_keepsReservation h
    | ecall => exact ecall_keepsReservation h
    | mret | sret => exact return_keepsReservation h
    | lr_w | lr_d | sc_w | sc_d => cases hi
    | _ => exact absurd rfl hord

/-- An instruction that writes memory drops the reservation, which only SC does, or keeps it. -/
theorem write_reservation {i : Instr} {s t : State} (hw : i.writesMemory = true) (h : exec i s = .next t) :
    t.resValid = false ∨ KeepsReservation true s t := by
  by_cases hi : i.isReserving = true
  · cases i with
    | sc_w | sc_d => exact storeConditional_reservation h
    | lr_w | lr_d => cases hw
    | _ => cases hi
  · exact .inr (hw ▸ exec_keepsReservation (by simpa using hi) h)

/-- Settles O46: a write keeps the reservation and advances the counter past it, or is an SC, which drops it; the other instructions but LR keep
it, and the counter with it. -/
theorem reservationRules : Obligations.ReservationRules := by
  refine ⟨fun i s t hw hle h hne a => ?_, fun i s t hw hlr h => ?_⟩
  · have hlt : s.memSeq < t.memSeq := lt_of_le_of_ne (exec_preserves h).kept.seq hne.symm
    rcases write_reservation hw h with hvalid | hkeeps
    · exact unreserved_of_not_valid hvalid a
    · exact hkeeps.unreserved hle hlt a
  · obtain ⟨hvalid, haddr, hseq, hmem⟩ := exec_keepsReservation (Instr.isReserving_eq_false hw hlr) h
    exact ⟨hvalid, haddr, hseq, hmem hw⟩

end Sys2Proof.Machine
end

section
/-! Floating-point loads and stores that complete with the unit on (44_float_single.md R469 to R471; 45_float_double.md R522, R523): each form is
one access at its address. -/

namespace Sys2Proof.Machine

/-- The form is a read of its bytes at its address, whose value goes to its f register as `bits` makes it. -/
def MemForm.IsLoadF (f : MemForm) (s : State) (bits : Word → Word) : Prop :=
  ∀ ts, ReadCompletes s (f.address s) f.bytes ts →
    ∃ t, exec f.instr s = .next t
      ∧ LoadedF s t f.len f.reg (bits (BitVec.ofNat 64 (littleEndian (placeBytes s.mem s.devSeq ts)))) (f.address s) f.bytes ts

/-- What a load does with its value may name the configuration of the state before the read: the read keeps it. -/
theorem andThen_memRead_cfg (s : State) (a : Word) (n : Nat) (k : Config → Word → State → StepResult) :
    ((memRead s a n).andThen fun v u => k u.cfg v u) = (memRead s a n).andThen (k s.cfg) := by
  have hquiet := quiet_read s a n
  cases hread : memRead s a n with
  | ok v u =>
    rw [hread] at hquiet
    exact congrArg (fun c => k c v u) hquiet.cfg
  | raise c v u => rfl

section
variable {s : State} {instr i : Instr} {len offset : Word} {reg base : RegIdx} {z : Int} {signed : Bool} (hfp : s.fpEnabled = true)
  (ha : s.effAddr base offset = s.cfg.xlen.norm (s.getX base + BitVec.ofInt 64 z))
include hfp ha

theorem isLoadF_of_loadS (he : exec instr s = loadS s i len reg base offset) :
    MemForm.IsLoadF ⟨instr, len, reg, base, z, 4, signed⟩ s fun v => s.cfg.flen.box (v.setWidth 32) := by
  intro ts hts
  dsimp only
  rw [he, loadS, fpGate, if_pos hfp, ha,
    andThen_memRead_cfg s _ 4 fun c v u => retireF u len reg (c.flen.box (v.setWidth 32)) 0]
  exact loadF_spec len reg (fun v => s.cfg.flen.box (v.setWidth 32)) hts

theorem isLoadF_of_loadD (he : exec instr s = loadD s i len reg base offset) :
    MemForm.IsLoadF ⟨instr, len, reg, base, z, 8, signed⟩ s id := by
  intro ts hts
  dsimp only
  rw [he, loadD, fpGate, if_pos hfp, ha]
  exact loadF_spec len reg id hts

end

section
variable (s : State) (r rs1 : RegIdx) (cd c1 : BitVec 3) (i : BitVec 12) (i5 : BitVec 5) (i6 : BitVec 6)

theorem floatLoads_isLoadF (hfp : s.fpEnabled = true) : ∀ f ∈ floatLoads r rs1 cd c1 i i5 i6,
    f.IsLoadF s fun v => if f.bytes = 4 then s.cfg.flen.box (v.setWidth 32) else v := by
  simp only [floatLoads, ← creg_eq_x8, List.forall_mem_cons]
  have haddr := effAddr_immS s rs1 i
  exact ⟨isLoadF_of_loadS hfp haddr rfl, isLoadF_of_loadD hfp haddr rfl,
    isLoadF_of_loadS hfp (effAddr_immU s _ i5 (by decide)) rfl, isLoadF_of_loadD hfp (effAddr_immU s _ i5 (by decide)) rfl,
    isLoadF_of_loadS hfp (effAddr_immU s _ i6 (by decide)) rfl, isLoadF_of_loadD hfp (effAddr_immU s _ i6 (by decide)) rfl,
    List.forall_mem_nil _⟩

/-- The form is the shared store of its f register at its address. -/
def MemForm.IsStoreF (f : MemForm) (s : State) : Prop :=
  ∃ offset, s.effAddr f.base offset = f.address s ∧ exec f.instr s = storeF s f.instr f.len f.base offset f.bytes f.reg

theorem floatStores_isStoreF : ∀ f ∈ floatStores r rs1 cd c1 i i5 i6, f.IsStoreF s := by
  simp only [floatStores, ← creg_eq_x8, List.forall_mem_cons]
  have haddr := effAddr_immS s rs1 i
  exact ⟨⟨_, haddr, rfl⟩, ⟨_, haddr, rfl⟩, ⟨_, effAddr_immU s _ i5 (by decide), rfl⟩, ⟨_, effAddr_immU s _ i5 (by decide), rfl⟩,
    ⟨_, effAddr_immU s _ i6 (by decide), rfl⟩, ⟨_, effAddr_immU s _ i6 (by decide), rfl⟩, List.forall_mem_nil _⟩

end

theorem MemForm.IsStoreF.stored {f : MemForm} {s : State} (h : f.IsStoreF s) (hfp : s.fpEnabled = true) (hwf : Memory.wf s.mem = true)
    {ts : List Place} (hts : WriteCompletes s (f.address s) (s.getF f.reg) f.bytes ts) :
    ∃ t, exec f.instr s = .next t ∧ Stored s t f.len (s.getF f.reg) (f.address s) f.bytes ts := by
  obtain ⟨offset, haddr, hexec⟩ := h
  rw [hexec, storeF, fpGate, if_pos hfp]
  rw [← haddr] at hts ⊢
  exact storeX_spec s f.len f.base offset f.bytes (s.getF f.reg) ts hwf hts

/-- Settles O27: every form is one read whose value is written boxed or whole. -/
theorem floatLoadResults : Obligations.FloatLoadResults := by
  intro s rd rs1 cd c1 i i5 i6 hfp f hf ts hts
  have hload := floatLoads_isLoadF s rd rs1 cd c1 i i5 i6 hfp f hf ts hts
  dsimp only at hload
  rwa [BitVec.setWidth_ofNat_of_le (by decide)] at hload

/-- Settles O28: every form is the shared store of its f register at its address. -/
theorem floatStoreResults : Obligations.FloatStoreResults := by
  intro s rs2 rs1 c2 c1 i i5 i6 hfp hwf f hf ts hts
  exact (floatStores_isStoreF s rs2 rs1 c2 c1 i i5 i6 f hf).stored hfp hwf hts

end Sys2Proof.Machine
end

section
/-! Floating-point instructions behind the unit's gate: illegal when it is off or the rounding mode is reserved (44_float_single.md R460, R461),
otherwise the write of the result (R469; 10_state.md R37). -/

namespace Sys2Proof.Machine

/-! ## The gates closed -/

/-- Illegal with the unit off, and with an `rm` that names no mode. -/
def IllegalWhenGated (i : Instr) (s : State) : Prop :=
  (s.fpEnabled = false → exec i s = raiseIllegal s i)
    ∧ ∀ rm, i.rmField = some rm → s.roundMode rm = none → exec i s = raiseIllegal s i

theorem illegalWhenGated_of_fpGate {i : Instr} {s : State} {k : StepResult} (hexec : exec i s = fpGate s i k) (hrm : i.rmField = none) :
    IllegalWhenGated i s := by
  refine ⟨fun hoff => ?_, fun rm hsome => ?_⟩
  · rw [hexec, fpGate, hoff]
    rfl
  · rw [hrm] at hsome
    cases hsome

theorem illegalWhenGated_of_fpRounded {i : Instr} {s : State} {rm : BitVec 3} {k : RoundMode → StepResult}
    (hexec : exec i s = fpRounded s i rm k) (hrm : i.rmField = some rm) : IllegalWhenGated i s := by
  refine ⟨fun hoff => ?_, fun rm' hsome hnone => ?_⟩
  · rw [hexec, fpRounded, hoff]
    rfl
  · obtain rfl : rm = rm' := Option.some.inj (hrm.symm.trans hsome)
    rw [hexec, fpRounded, hnone]
    exact ite_self _

/-- Each floating-point instruction passes one of the two gates. -/
theorem exec_illegalWhenGated (i : Instr) (s : State) (h : i.isFloat = true) : IllegalWhenGated i s := by
  cases i with
  | flw | fsw | fld | fsd | c_fld | c_flw | c_fsd | c_fsw | c_fldsp | c_flwsp | c_fsdsp | c_fswsp | fsgnj_s | fsgnjn_s | fsgnjx_s | fmin_s |
  fmax_s | fmv_w_x | fmv_x_w | feq_s | flt_s | fle_s | fclass_s | fsgnj_d | fsgnjn_d | fsgnjx_d | fmin_d | fmax_d | fmv_d_x | fmv_x_d |
  feq_d | flt_d | fle_d | fclass_d =>
    exact illegalWhenGated_of_fpGate rfl rfl
  | fmadd_s | fmsub_s | fnmsub_s | fnmadd_s | fadd_s | fsub_s | fmul_s | fdiv_s | fsqrt_s | fcvt_s_w | fcvt_s_wu | fcvt_s_l | fcvt_s_lu |
  fcvt_w_s | fcvt_wu_s | fcvt_l_s | fcvt_lu_s | fcvt_s_d | fcvt_d_s | fmadd_d | fmsub_d | fnmsub_d | fnmadd_d | fadd_d | fsub_d | fmul_d |
  fdiv_d | fsqrt_d | fcvt_d_w | fcvt_d_wu | fcvt_d_l | fcvt_d_lu | fcvt_w_d | fcvt_wu_d | fcvt_l_d | fcvt_lu_d =>
    exact illegalWhenGated_of_fpRounded rfl rfl
  | _ => cases h

/-! ## What the gates ask -/

theorem fpEnabled_iff (s : State) : s.fpEnabled = true ↔ s.cfg.flen ≠ .f0 ∧ fieldFS s.csr.mstatus ≠ 0 := by
  simp [State.fpEnabled]

theorem frm_toNat (s : State) : s.frm.toNat = s.csr.fcsr.toNat / 32 := by
  have hbound := s.csr.fcsr.isLt
  rw [State.frm, BitVec.extractLsb'_toNat, Nat.shiftRight_eq_div_pow]
  omega

/-- The modes in the order of their codes. -/
theorem ofCode_eq (c : BitVec 3) : RoundMode.ofCode c = [RoundMode.rne, .rtz, .rdn, .rup, .rmm][c.toNat]? := by
  revert c
  decide

/-- Settles O49: each instruction by its gate; the modes by their codes. -/
theorem floatIllegal : Obligations.FloatIllegal := by
  refine ⟨fun i s hfloat => ?_, fpEnabled_iff, fun s rm => ?_⟩
  · obtain ⟨hoff, hreserved⟩ := exec_illegalWhenGated i s hfloat
    refine ⟨fun h => ?_, fun rm hrm h => ?_⟩
    · rw [hoff h]
      exact raise_spec s 2 _
    · rw [hreserved rm hrm h]
      exact raise_spec s 2 _
  · dsimp only
    rw [State.roundMode, ofCode_eq, ofCode_eq, frm_toNat]
    by_cases hdynamic : rm = 7#3
    · simp [hdynamic]
    · simp [hdynamic]

/-! ## The gates passed -/

section
variable {i : Instr} {s : State} {rd : RegIdx} {rm : BitVec 3} {r : RoundMode} (hfp : s.fpEnabled = true)
include hfp

theorem fpGate_open (k : StepResult) : fpGate s i k = k := if_pos hfp

theorem fpRounded_open (hr : s.roundMode rm = some r) (k : RoundMode → StepResult) : fpRounded s i rm k = k r := by
  rw [fpRounded, if_pos hfp, hr]

end

/-- The f register receives the result boxed. -/
theorem writeS_spec (s : State) (rd : RegIdx) (res : FResult) :
    ∃ t, writeS s rd res = .next t ∧ RetiredF s t 4 rd (s.cfg.flen.box (res.bits.setWidth 32)) res.flags :=
  retireF_spec s 4 rd _ _

theorem RetiredXF.of_norm {s t : State} {len v w : Word} {rd : RegIdx} {fl : FFlags} (h : RetiredXF s t len rd v fl)
    (e : s.cfg.xlen.norm v = s.cfg.xlen.norm w) : RetiredXF s t len rd w fl :=
  { h with dest := fun hd => (h.dest hd).trans e }

/-- An integer result is written sign-extended. -/
theorem writeInteger_spec (s : State) (rd : RegIdx) {w : Nat} (res : BitVec w × FFlags) :
    ∃ t, writeInteger s rd res = .next t ∧ RetiredXF s t 4 rd (res.1.signExtend 64) res.2 := by
  obtain ⟨t, ht, hr⟩ := retireXF_spec s 4 rd (s.cfg.xlen.sext res.1) res.2
  exact ⟨t, ht, hr.of_norm (norm_norm _ _)⟩

theorem statusAfter_clean (r : Csrs) : statusAfter r false 0 = r := by
  simp [statusAfter]

/-- A write of an x register is one that accrues no flag. -/
theorem retireX_asXF (s : State) (rd : RegIdx) {v w : Word} (e : s.cfg.xlen.norm v = s.cfg.xlen.norm w) :
    ∃ t, retireX s 4 rd v = .next t ∧ RetiredXF s t 4 rd w 0 := by
  obtain ⟨t, ht, hr⟩ := retireX_norm e
  refine ⟨t, ht, ?_, hr.dest, hr.kept, hr.pc, hr.counters, hr.report⟩
  rw [statusAfter_clean]
  exact hr.frame

section
variable {i : Instr} {s : State} {rd : RegIdx} {rm : BitVec 3} {r : RoundMode} {k : RoundMode → StepResult} (hfp : s.fpEnabled = true)
  (hr : s.roundMode rm = some r)
include hfp

theorem retiredF_of_gate {res : FResult} (hexec : exec i s = fpGate s i (writeS s rd res)) :
    ∃ t, exec i s = .next t ∧ RetiredF s t 4 rd (s.cfg.flen.box (res.bits.setWidth 32)) res.flags := by
  rw [hexec, fpGate_open hfp]
  exact writeS_spec s rd res

theorem retiredXF_of_compare {res : Bool × FFlags} (hexec : exec i s = fpGate s i (writeCompare s rd res)) :
    ∃ t, exec i s = .next t ∧ RetiredXF s t 4 rd (boolWord res.1) res.2 := by
  rw [hexec, fpGate_open hfp]
  exact retireXF_spec s 4 rd _ _

theorem retiredXF_of_move {v w : Word} (hexec : exec i s = fpGate s i (retireX s 4 rd v)) (e : s.cfg.xlen.norm v = s.cfg.xlen.norm w) :
    ∃ t, exec i s = .next t ∧ RetiredXF s t 4 rd w 0 := by
  rw [hexec, fpGate_open hfp]
  exact retireX_asXF s rd e

include hr

theorem retiredF_of_rounded {res : FResult} (hexec : exec i s = fpRounded s i rm k) (hk : k r = writeS s rd res) :
    ∃ t, exec i s = .next t ∧ RetiredF s t 4 rd (s.cfg.flen.box (res.bits.setWidth 32)) res.flags := by
  rw [hexec, fpRounded_open hfp hr, hk]
  exact writeS_spec s rd res

theorem retiredXF_of_rounded {w : Nat} {res : BitVec w × FFlags} (hexec : exec i s = fpRounded s i rm k)
    (hk : k r = writeInteger s rd res) : ∃ t, exec i s = .next t ∧ RetiredXF s t 4 rd (res.1.signExtend 64) res.2 := by
  rw [hexec, fpRounded_open hfp hr, hk]
  exact writeInteger_spec s rd res

/-- A 64-bit result is its own sign extension. -/
theorem retiredXF_of_rounded_doubleword {res : Word × FFlags} (hexec : exec i s = fpRounded s i rm k)
    (hk : k r = writeInteger s rd res) : ∃ t, exec i s = .next t ∧ RetiredXF s t 4 rd res.1 res.2 := by
  have h := retiredXF_of_rounded hfp hr hexec hk
  rwa [BitVec.signExtend_eq] at h

end

/-! ## Boxing -/

theorem getS_eq (s : State) (i : RegIdx) :
    s.getS i = if s.cfg.flen = .f64 then
        (if (s.getF i).toNat / 2 ^ 32 = 2 ^ 32 - 1 then BitVec.ofNat 64 ((s.getF i).toNat % 2 ^ 32) else 0x7FC00000)
      else s.getF i := by
  have hupper (v : Word) : v.extractLsb' 32 32 = 0xFFFFFFFF#32 ↔ v.toNat / 2 ^ 32 = 2 ^ 32 - 1 := by
    have hbound := v.isLt
    rw [← BitVec.toNat_inj, BitVec.extractLsb'_toNat, Nat.shiftRight_eq_div_pow, BitVec.toNat_ofNat]
    omega
  have hlower (v : Word) : (v.setWidth 32).setWidth 64 = BitVec.ofNat 64 (v.toNat % 2 ^ 32) := by
    apply BitVec.eq_of_toNat_eq
    simp
  rw [State.getS]
  cases s.cfg.flen with
  | f64 => simp only [hupper, hlower, if_true]
  | f0 | f32 => rfl

theorem box_toNat (fl : Flen) (v : BitVec 32) : (fl.box v).toNat = (if fl = .f64 then 2 ^ 64 - 2 ^ 32 else 0) + v.toNat := by
  cases fl with
  | f64 =>
    rw [Flen.box, BitVec.toNat_append, Nat.shiftLeft_eq, Nat.mul_comm, ← Nat.two_pow_add_eq_or_of_lt v.isLt]
    rfl
  | f0 | f32 => exact (BitVec.toNat_setWidth_of_le (by decide)).trans (Nat.zero_add _).symm

/-- Settles O47: each form is its operation behind one gate. -/
theorem floatSingleResults : Obligations.FloatSingleResults := by
  intro s rd rs1 rs2 rs3 rm r hfp
  simp only [List.forall_mem_cons]
  refine ⟨fun hr => ⟨?_, ?_, ?_⟩, ?_, ?_, getS_eq s rs1, box_toNat s.cfg.flen⟩
  · exact ⟨retiredF_of_rounded hfp hr rfl rfl, retiredF_of_rounded hfp hr rfl rfl, retiredF_of_rounded hfp hr rfl rfl,
      retiredF_of_rounded hfp hr rfl rfl, retiredF_of_rounded hfp hr rfl rfl, retiredF_of_rounded hfp hr rfl rfl,
      retiredF_of_rounded hfp hr rfl rfl, retiredF_of_rounded hfp hr rfl rfl, retiredF_of_rounded hfp hr rfl rfl,
      retiredF_of_rounded hfp hr rfl rfl, retiredF_of_rounded hfp hr rfl rfl,
      retiredF_of_rounded hfp hr rfl (by rw [BitVec.setWidth_eq]), retiredF_of_rounded hfp hr rfl (by rw [BitVec.setWidth_eq]),
      List.forall_mem_nil _⟩
  · exact ⟨retiredXF_of_rounded hfp hr rfl rfl, retiredXF_of_rounded hfp hr rfl rfl, List.forall_mem_nil _⟩
  · exact ⟨retiredXF_of_rounded_doubleword hfp hr rfl rfl, retiredXF_of_rounded_doubleword hfp hr rfl rfl, List.forall_mem_nil _⟩
  · exact ⟨retiredF_of_gate hfp rfl, retiredF_of_gate hfp rfl, retiredF_of_gate hfp rfl, retiredF_of_gate hfp rfl, retiredF_of_gate hfp rfl,
      retiredF_of_gate hfp rfl, List.forall_mem_nil _⟩
  · exact ⟨retiredXF_of_compare hfp rfl, retiredXF_of_compare hfp rfl, retiredXF_of_compare hfp rfl, retiredXF_of_move hfp rfl rfl,
      retiredXF_of_move hfp rfl (norm_norm _ _), List.forall_mem_nil _⟩

end Sys2Proof.Machine
end

section
/-! The rounding function is `Round` (44_float_single.md R463): a magnitude rounded in units of the spacing at its binary exponent, the overflow
test on the magnitude field, and the flags. -/

namespace Sys2Proof.Machine

/-! ## A quotient rounded in units of a power of two -/

/-- `p/q` in units of `2^t`, rounded to an integer. -/
def roundedUnits (rm : RoundMode) (neg : Bool) (p q : Nat) (t : Int) : Nat :=
  roundNat rm neg ((inUnits p q t).1 / (inUnits p q t).2) ((inUnits p q t).1 % (inUnits p q t).2) (inUnits p q t).2

/-- The remainder that rounding in units of `2^t` drops. -/
def unitsRemainder (p q : Nat) (t : Int) : Nat := (inUnits p q t).1 % (inUnits p q t).2

section
variable (rm : RoundMode) (neg : Bool) {p q : Nat} (hp : 0 < p) (hq : 0 < q) (t : Int)

include hp hq in
theorem roundedUnits_rounds : RoundsMagnitude rm neg ((p : ℝ) / q / 2 ^ t) (roundedUnits rm neg p q t) := by
  rw [← inUnits_value p hq]
  exact roundNat_div rm neg _ (inUnits_pos hp hq t).2

include hp hq in
theorem unitsRemainder_ne_zero_iff :
    unitsRemainder p q t ≠ 0 ↔ (roundedUnits rm neg p q t : ℝ) * 2 ^ t ≠ (p : ℝ) / q := by
  have hpow : (2 : ℝ) ^ t ≠ 0 := zpow_ne_zero _ two_ne_zero
  rw [unitsRemainder, mod_ne_zero_iff_rounds rm neg _ (inUnits_pos hp hq t).2, inUnits_value p hq, Ne, eq_div_iff hpow]
  rfl

end

/-- A number of at least `2^e` is at least `2^M` units of `2^(e - M)`. -/
theorem two_pow_le_units {y : ℝ} {e : ℤ} (M : ℕ) (h : (2 : ℝ) ^ e ≤ y) : ((2 ^ M : ℕ) : ℝ) ≤ y / 2 ^ (e - M) := by
  rw [le_div_iff₀ (zpow_pos two_pos _)]
  push_cast
  rwa [← zpow_natCast, ← zpow_add₀ two_ne_zero, add_sub_cancel]

/-- A number below `2^(e + 1)` is at most `2^(M + 1)` units of `2^(e' - M)`, for `e' ≥ e`. -/
theorem units_le_two_pow {y : ℝ} {e e' : ℤ} (M : ℕ) (h : y < 2 ^ (e + 1)) (he : e ≤ e') : y / 2 ^ (e' - M) ≤ ((2 ^ (M + 1) : ℕ) : ℝ) := by
  rw [div_le_iff₀ (zpow_pos two_pos _)]
  push_cast
  rw [← zpow_natCast, ← zpow_add₀ two_ne_zero]
  refine h.le.trans (zpow_le_zpow_right₀ one_le_two ?_)
  push_cast
  omega

/-! ## Overflow -/

/-- `m` units of the spacing `k` binades above the subnormal one exceed the largest finite value, `2^(M+1) - 1` units `X - 2` binades above,
exactly when the magnitude field reaches the exponent field `X`. -/
theorem overflow_iff_field {M X k m : ℕ} (hX : 3 ≤ X) (hm : m ≤ 2 ^ (M + 1)) (hk : 0 < k → 2 ^ M ≤ m) :
    (2 ^ (M + 1) - 1) * 2 ^ (X - 2) < m * 2 ^ k ↔ X * 2 ^ M ≤ k * 2 ^ M + m := by
  have hM : 0 < 2 ^ M := Nat.two_pow_pos M
  have hpow : 2 ^ (M + 1) = 2 * 2 ^ M := by rw [pow_succ, mul_comm]
  generalize 2 ^ M = B at *
  rw [hpow] at hm ⊢
  have htop : 0 < 2 ^ (X - 2) := Nat.two_pow_pos _
  rcases lt_trichotomy k (X - 2) with h | h | h
  · -- below the top binade neither holds
    have hle : 2 * 2 ^ k ≤ 2 ^ (X - 2) := by
      rw [mul_comm, ← pow_succ]
      exact Nat.pow_le_pow_right two_pos h
    have hsmall : m * 2 ^ k ≤ (2 * B - 1) * 2 ^ (X - 2) := by
      calc m * 2 ^ k ≤ 2 * B * 2 ^ k := Nat.mul_le_mul_right _ hm
        _ = B * (2 * 2 ^ k) := by ring
        _ ≤ (2 * B - 1) * 2 ^ (X - 2) := Nat.mul_le_mul (by omega) hle
    have hfield : k * B + m < X * B := by
      have : (k + 3) * B ≤ X * B := Nat.mul_le_mul_right _ (by omega)
      rw [Nat.add_mul] at this
      omega
    exact iff_of_false (not_lt.mpr hsmall) (not_le.mpr hfield)
  · -- in the top binade only the carry overflows
    have hfield : X * B = k * B + 2 * B := by rw [h, ← Nat.add_mul]; congr 1; omega
    rw [h, Nat.mul_lt_mul_right htop, ← h, hfield]
    omega
  · -- above it every value does
    have hle : 2 * 2 ^ (X - 2) ≤ 2 ^ k := by
      rw [mul_comm, ← pow_succ]
      exact Nat.pow_le_pow_right two_pos h
    have hlarge : (2 * B - 1) * 2 ^ (X - 2) < m * 2 ^ k := by
      calc (2 * B - 1) * 2 ^ (X - 2) < 2 * B * 2 ^ (X - 2) := Nat.mul_lt_mul_of_pos_right (by omega) htop
        _ = B * (2 * 2 ^ (X - 2)) := by ring
        _ ≤ m * 2 ^ k := Nat.mul_le_mul (hk (by omega)) hle
    have hfield : X * B ≤ k * B + m := by
      have : X * B ≤ (k + 1) * B := Nat.mul_le_mul_right _ (by omega)
      have := hk (by omega)
      rw [Nat.add_mul] at *
      omega
    exact iff_of_true hlarge hfield

/-- The same of the real values. -/
theorem overflow_iff (fmt : FFmt) {k m : ℕ} (hm : m ≤ 2 ^ (fmt.fracBits + 1)) (hk : 0 < k → 2 ^ fmt.fracBits ≤ m) :
    ((2 : ℝ) ^ (fmt.fracBits + 1) - 1) * 2 ^ ((fmt.bias : ℤ) - fmt.fracBits) < m * 2 ^ (fmt.emin + k - fmt.fracBits)
      ↔ fmt.expMax * 2 ^ fmt.fracBits ≤ k * 2 ^ fmt.fracBits + m := by
  have hX : 3 ≤ fmt.expMax := by cases fmt <;> decide
  have hbias : (fmt.bias : ℤ) = fmt.emin + (fmt.expMax - 2 : ℕ) := by cases fmt <;> decide
  have hscale (n : ℕ) : (2 : ℝ) ^ (fmt.emin + n - fmt.fracBits) = 2 ^ n * 2 ^ (fmt.emin - fmt.fracBits) := by
    rw [← zpow_natCast, ← zpow_add₀ two_ne_zero]
    congr 1
    ring
  have hones : ((2 : ℝ) ^ (fmt.fracBits + 1) - 1) = ((2 ^ (fmt.fracBits + 1) - 1 : ℕ) : ℝ) := by
    rw [Nat.cast_sub Nat.one_le_two_pow]
    push_cast
    rfl
  rw [← overflow_iff_field hX hm hk, hbias, hscale, hscale, hones, ← mul_assoc, ← mul_assoc,
    mul_lt_mul_iff_left₀ (zpow_pos two_pos _)]
  exact_mod_cast Iff.rfl

theorem overflowResult_eq (fmt : FFmt) (neg : Bool) (rm : RoundMode) :
    overflowResult fmt neg rm = if overflowsToInf rm neg then fmt.inf neg else fmt.maxFinite neg := by
  cases rm <;> cases neg <;> rfl

/-! ## Flags -/

theorem inexact_flags (inexact tiny : Bool) :
    let flags := flagIf inexact flagNX ||| flagIf tiny flagUF
    flags.getLsbD 0 = inexact ∧ flags.getLsbD 1 = tiny ∧ flags.getLsbD 2 = false ∧ flags.getLsbD 3 = false ∧ flags.getLsbD 4 = false := by
  cases inexact <;> cases tiny <;> decide

/-- Tiny after rounding (R463): the magnitude rounded with the exponent unbounded below is under the least normal value. At or above that
exponent it never is. -/
theorem tiny_iff {M m : ℕ} {e emin : ℤ} (hm : 2 ^ M ≤ m) :
    (m : ℝ) * 2 ^ (e - M) < 2 ^ emin ↔ e < emin ∧ m < 2 ^ (M + (emin - e).toNat) := by
  have hcast : (m : ℝ) * 2 ^ (e - M) < 2 ^ emin ↔ (m : ℝ) < 2 ^ (M + (emin - e)) := by
    rw [← lt_div_iff₀ (zpow_pos two_pos _), ← zpow_sub₀ two_ne_zero]
    ring_nf
  rw [hcast]
  rcases lt_or_ge e emin with h | h
  · have hexp : (M : ℤ) + (emin - e) = ((M + (emin - e).toNat : ℕ) : ℤ) := by push_cast; omega
    rw [hexp, zpow_natCast, ← Nat.cast_lt (α := ℝ)]
    push_cast
    exact (and_iff_right h).symm
  · refine iff_of_false (not_lt.mpr ?_) fun hlt => absurd hlt.1 (not_lt.mpr h)
    calc (2 : ℝ) ^ (M + (emin - e)) ≤ 2 ^ (M : ℤ) := zpow_le_zpow_right₀ one_le_two (by omega)
      _ ≤ m := by rw [zpow_natCast]; exact_mod_cast hm

/-! ## The rounding function -/

/-- The rounding function, in the binade `k` above the subnormal one. -/
theorem roundRat_eq (fmt : FFmt) (neg : Bool) (p q : ℕ) (rm : RoundMode) {k : ℕ} (hk : max (floorLog2 p q) fmt.emin = fmt.emin + k) :
    roundRat fmt neg p q rm =
      let e := floorLog2 p q
      let m := roundedUnits rm neg p q (fmt.emin + k - fmt.fracBits)
      let r := unitsRemainder p q (fmt.emin + k - fmt.fracBits)
      let m' := roundedUnits rm neg p q (e - fmt.fracBits)
      let tiny := e < fmt.emin && m' < 2 ^ (fmt.fracBits + (fmt.emin - e).toNat)
      if fmt.expMax * 2 ^ fmt.fracBits ≤ k * 2 ^ fmt.fracBits + m then
        { bits := overflowResult fmt neg rm, flags := flagOF ||| flagNX }
      else
        { bits := fmt.pattern neg (k * 2 ^ fmt.fracBits + m), flags := flagIf (r != 0) flagNX ||| flagIf (tiny && r != 0) flagUF } := by
  have hfield : (fmt.emin + k - fmt.fracBits + fmt.fracBits - fmt.emin : ℤ).toNat = k := by omega
  simp only [roundRat, hk, hfield]
  rfl

/-- The rounding function rounds the real number of its sign and magnitude. -/
theorem rounded_roundRat (fmt : FFmt) (rm : RoundMode) {neg : Bool} {p q : ℕ} (hp : 0 < p) (hq : 0 < q) {x : ℝ}
    (hneg : neg = true ↔ x < 0) (hx : |x| = (p : ℝ) / q) : Rounded fmt rm x (roundRat fmt neg p q rm) := by
  obtain ⟨hlow, hhigh⟩ := floorLog2_spec hp hq
  obtain ⟨k, hk⟩ : ∃ k : ℕ, max (floorLog2 p q) fmt.emin = fmt.emin + k :=
    ⟨(max (floorLog2 p q) fmt.emin - fmt.emin).toNat, by have := le_max_right (floorLog2 p q) fmt.emin; omega⟩
  rw [roundRat_eq fmt neg p q rm hk]
  dsimp only
  have hrounds := roundedUnits_rounds rm neg hp hq (fmt.emin + k - fmt.fracBits)
  have hrounds' := roundedUnits_rounds rm neg hp hq (floorLog2 p q - fmt.fracBits)
  have hremainder := unitsRemainder_ne_zero_iff rm neg hp hq (fmt.emin + k - fmt.fracBits)
  have hinteger := hrounds.upper (by rw [← hk]; exact units_le_two_pow _ hhigh (le_max_left _ _))
  have hnormal (h : 0 < k) : 2 ^ fmt.fracBits ≤ roundedUnits rm neg p q (fmt.emin + k - fmt.fracBits) := by
    refine hrounds.lower ?_
    have : fmt.emin + (k : ℤ) = floorLog2 p q := by omega
    rw [this]
    exact two_pow_le_units _ hlow
  have htiny := tiny_iff (e := floorLog2 p q) (emin := fmt.emin) (hrounds'.lower (two_pow_le_units _ hlow))
  have hover := overflow_iff fmt hinteger hnormal
  -- the facts above are all that is used of the three integers and the exponent
  generalize unitsRemainder p q (fmt.emin + k - fmt.fracBits) = r at *
  generalize roundedUnits rm neg p q (fmt.emin + k - fmt.fracBits) = m at *
  generalize roundedUnits rm neg p q (floorLog2 p q - fmt.fracBits) = m' at *
  generalize floorLog2 p q = e at *
  refine ⟨neg, e, m, m', ?_⟩
  dsimp only
  rw [hx, hk]
  refine ⟨hneg, hlow, hhigh, hrounds, hrounds', fun h => ?_, fun h => ?_⟩
  · rw [if_pos (hover.mp h)]
    exact ⟨overflowResult_eq fmt neg rm, rfl⟩
  · have hfield := mt hover.mpr (not_lt.mpr h)
    rw [if_neg hfield]
    have hlt : k * 2 ^ fmt.fracBits + m < 2 ^ fmt.signPos := (not_le.mp hfield).trans (by cases fmt <;> decide)
    obtain ⟨hNX, hUF, hclear⟩ := inexact_flags (r != 0)
      ((decide (e < fmt.emin) && decide (m' < 2 ^ (fmt.fracBits + (fmt.emin - e).toNat))) && r != 0)
    refine ⟨⟨_, unpack_pattern fmt neg hinteger hnormal (not_le.mp hfield), ?_⟩, signOf_pattern fmt neg hlt, ?_, ?_, ?_, hclear⟩
    · rw [show fmt.emin + (k : ℤ) - fmt.fracBits = fmt.emin - fmt.fracBits + k by ring]
      cases neg <;> simp
    · rw [pattern_toNat fmt neg hlt, pow_succ]
      split <;> omega
    · rw [hNX, bne_iff_ne]
      exact hremainder
    · rw [hUF, htiny, ← hremainder]
      simp only [Bool.and_eq_true, decide_eq_true_eq, bne_iff_ne]

/-- Settles O52: the rounding function on the real number of its sign and magnitude. -/
theorem roundingIsFaithful : Obligations.RoundingIsFaithful := by
  intro fmt sign p q rm hp hq
  have hpos : (0 : ℝ) < (p : ℝ) / q := div_pos (by exact_mod_cast hp) (by exact_mod_cast hq)
  refine rounded_roundRat fmt rm hp hq ?_ ?_
  · cases sign <;> simp [hpos, hpos.le]
  · cases sign <;> simp [abs_of_pos hpos]

end Sys2Proof.Machine
end

section
/-! The values floating-point operations compute with (44_float_single.md R462): signed dyadic numbers, and what a pattern can denote. -/

namespace Sys2Proof.Machine

/-! ## Signed dyadic numbers -/

/-- `(-1)^s × m × 2^e`. -/
def dyadic (s : Bool) (m : Nat) (e : Int) : ℚ := (if s then -1 else 1) * (m : ℚ) * 2 ^ e

section
variable (s s' : Bool) (m m' : Nat) (e e' : Int)

@[simp] theorem toRat_num : (FVal.num s m e).toRat = some (dyadic s m e) := rfl

theorem two_zpow_pos : (0 : ℚ) < 2 ^ e := zpow_pos two_pos e

@[simp] theorem dyadic_eq_zero_iff : dyadic s m e = 0 ↔ m = 0 := by
  cases s <;> simp [dyadic, (two_zpow_pos e).ne']

@[simp] theorem dyadic_lt_zero_iff : dyadic s m e < 0 ↔ s = true ∧ m ≠ 0 := by
  have hnonneg : (0 : ℚ) ≤ m * 2 ^ e := mul_nonneg m.cast_nonneg (two_zpow_pos e).le
  cases s with
  | false => simpa [dyadic] using hnonneg
  | true => simp [dyadic, two_zpow_pos e, Nat.pos_iff_ne_zero]

theorem abs_dyadic : |dyadic s m e| = m * 2 ^ e := by
  cases s <;> simp [dyadic, abs_mul, abs_of_pos (two_zpow_pos e)]

theorem dyadic_mul : dyadic s m e * dyadic s' m' e' = dyadic (s != s') (m * m') (e + e') := by
  rw [dyadic, dyadic, dyadic, zpow_add₀ two_ne_zero, Nat.cast_mul]
  cases s <;> cases s' <;> simp <;> ring

theorem dyadic_negIf (neg : Bool) : (if neg then -dyadic s m e else dyadic s m e) = dyadic (s != neg) m e := by
  cases s <;> cases neg <;> simp [dyadic]

theorem sub_dyadic (p : ℚ) : p - dyadic s m e = p + dyadic (s != true) m e := by
  rw [← dyadic_negIf, if_pos rfl, sub_eq_add_neg]

theorem scaled_dyadic {e e' : Int} (h : e' ≤ e) : (scaled s m e e' : ℚ) * 2 ^ e' = dyadic s m e := scaled_value s m h

theorem scaled_add_dyadic :
    ((scaled s m e (min e e') + scaled s' m' e' (min e e') : ℤ) : ℚ) * 2 ^ min e e' = dyadic s m e + dyadic s' m' e' := by
  rw [Int.cast_add, add_mul, scaled_dyadic s m (min_le_left e e'), scaled_dyadic s' m' (min_le_right e e')]

theorem int_mul_two_zpow (z : ℤ) : (z : ℚ) * 2 ^ e = dyadic (z < 0) z.natAbs e := by
  have habs : ((z.natAbs : ℕ) : ℚ) = |(z : ℚ)| := by rw [Nat.cast_natAbs, Int.cast_abs]
  rw [dyadic, habs]
  rcases lt_or_ge z 0 with h | h
  · have hz : (z : ℚ) < 0 := by exact_mod_cast h
    simp [h, abs_of_neg hz]
  · have hz : (0 : ℚ) ≤ z := by exact_mod_cast h
    simp [h, abs_of_nonneg hz]

end

theorem toRat_eq_some {v : FVal} {p : ℚ} (h : v.toRat = some p) : ∃ s m e, v = .num s m e ∧ p = dyadic s m e := by
  cases v with
  | num s m e => exact ⟨s, m, e, rfl, (Option.some.inj h).symm⟩
  | inf s => cases h
  | nan q => cases h

/-! ## What a pattern denotes -/

/-- A finite pattern has its sign bit, and is below the least normal value with the least exponent, or has its leading bit. -/
theorem unpack_num {fmt : FFmt} {x : Word} {s : Bool} {m : Nat} {e : Int} (h : fmt.unpack x = .num s m e) :
    s = fmt.signOf x
      ∧ (m < 2 ^ fmt.fracBits ∧ e = fmt.emin - fmt.fracBits
        ∨ 2 ^ fmt.fracBits ≤ m ∧ m < 2 ^ (fmt.fracBits + 1) ∧ fmt.emin - fmt.fracBits ≤ e) := by
  have hfrac : fmt.fracOf x < 2 ^ fmt.fracBits := Nat.mod_lt _ (Nat.two_pow_pos _)
  rw [FFmt.unpack] at h
  split at h
  · split at h <;> cases h
  · split at h
    · cases h
      exact ⟨rfl, .inl ⟨hfrac, rfl⟩⟩
    · rename_i hexp
      cases h
      have hemin : fmt.emin = 1 - (fmt.bias : ℤ) := rfl
      refine ⟨rfl, .inr ⟨Nat.le_add_right _ _, ?_, by omega⟩⟩
      rw [pow_succ]
      omega

theorem unpack_inf {fmt : FFmt} {x : Word} {s : Bool} (h : fmt.unpack x = .inf s) : s = fmt.signOf x := by
  rw [FFmt.unpack] at h
  split at h
  · split at h
    · cases h
      rfl
    · cases h
  · split at h <;> cases h

theorem unpack_mant_lt {fmt : FFmt} {x : Word} {s : Bool} {m : Nat} {e : Int} (h : fmt.unpack x = .num s m e) :
    m < 2 ^ (fmt.fracBits + 1) := by
  rw [pow_succ]
  obtain ⟨-, ⟨hlt, -⟩ | ⟨-, hlt, -⟩⟩ := unpack_num h
  · omega
  · rwa [pow_succ] at hlt

end Sys2Proof.Machine
end

section
/-! Float to integer (44_float_single.md R463, R468): the rounded magnitude with its sign is the value rounded by the mode. -/

namespace Sys2Proof.Machine

/-- A magnitude rounded for its sign, with that sign, is the rational rounded by the mode. -/
theorem roundsTo_of_magnitude {rm : RoundMode} {neg : Bool} {w : ℚ} {m : ℕ} (hw : 0 ≤ w) (h : RoundsMagnitude rm neg (w : ℝ) m) :
    RoundsTo rm (if neg then -w else w) (if neg then -(m : ℤ) else m) := by
  have hreal : (0 : ℝ) ≤ w := by exact_mod_cast hw
  have hfloor (hm : m = ⌊(w : ℝ)⌋₊) : (m : ℤ) = ⌊w⌋ := by rw [hm, Int.natCast_floor_eq_floor hreal, Rat.floor_cast]
  have hceil (hm : m = ⌈(w : ℝ)⌉₊) : (m : ℤ) = ⌈w⌉ := by rw [hm, Int.natCast_ceil_eq_ceil hreal, Rat.ceil_cast]
  have hneg : |(-w) - ((-(m : ℤ) : ℤ) : ℚ)| = |w - m| := by
    push_cast
    rw [← abs_neg]
    ring_nf
  have hcast : |(w : ℝ) - m| = ((|w - m| : ℚ) : ℝ) := by push_cast; rfl
  have hhalf : (1 / 2 : ℝ) = ((1 / 2 : ℚ) : ℝ) := by push_cast; rfl
  have hnearest : |(w : ℝ) - m| ≤ 1 / 2 ↔ |w - m| ≤ 1 / 2 := by rw [hcast, hhalf, Rat.cast_le]
  have htie : |(w : ℝ) - m| = 1 / 2 ↔ |w - m| = 1 / 2 := by rw [hcast, hhalf, Rat.cast_inj]
  cases rm with
  | rne =>
    obtain ⟨hnear, heven⟩ := h
    rw [hnearest] at hnear
    rw [htie] at heven
    cases neg with
    | false => exact ⟨by simpa using hnear, fun ht => by simpa using heven (by simpa using ht)⟩
    | true => exact ⟨hneg.trans_le hnear, fun ht => by simpa using heven (hneg.symm.trans ht)⟩
  | rmm =>
    obtain ⟨hnear, haway⟩ := h
    rw [hnearest] at hnear
    rw [htie] at haway
    cases neg with
    | false => exact ⟨by simpa using hnear, fun ht => by simpa [abs_of_nonneg hw] using haway (by simpa using ht)⟩
    | true => exact ⟨hneg.trans_le hnear, fun ht => by simpa [abs_of_nonneg hw] using haway (hneg.symm.trans ht)⟩
  | rtz =>
    have hm := hfloor h
    cases neg with
    | false => simpa [RoundsTo, hw.not_gt] using hm
    | true =>
      rcases hw.eq_or_lt with rfl | hpos
      · simpa [RoundsTo] using hm
      · simp [RoundsTo, hpos, hm, Int.ceil_neg]
  | rdn =>
    cases neg with
    | false => exact hfloor h
    | true => simpa [RoundsTo, Int.floor_neg] using hceil h
  | rup =>
    cases neg with
    | false => exact hceil h
    | true => simpa [RoundsTo, Int.ceil_neg] using hfloor h

/-- The integer a finite value is rounded to, before the bounds. -/
def roundedInteger (rm : RoundMode) (s : Bool) (m : Nat) (e : Int) : ℤ :=
  let magnitude := roundNat rm s (m * 2 ^ e.toNat / 2 ^ (-e).toNat) (m * 2 ^ e.toNat % 2 ^ (-e).toNat) (2 ^ (-e).toNat)
  if s then -(magnitude : ℤ) else magnitude

section
variable (rm : RoundMode) (s : Bool) (m : Nat) (e : Int)

theorem dyadic_value_rat : ((m * 2 ^ e.toNat : ℕ) : ℝ) / (2 ^ (-e).toNat : ℕ) = ((m * 2 ^ e : ℚ) : ℝ) := by
  rw [dyadic_value]
  push_cast
  rfl

theorem roundsTo_roundedInteger : RoundsTo rm (dyadic s m e) (roundedInteger rm s m e) := by
  have hrounds := roundNat_div rm s (m * 2 ^ e.toNat) (Nat.two_pow_pos (-e).toNat)
  rw [dyadic_value_rat] at hrounds
  have hsign : dyadic s m e = if s then -((m : ℚ) * 2 ^ e) else m * 2 ^ e := by cases s <;> simp [dyadic]
  rw [hsign]
  exact roundsTo_of_magnitude (mul_nonneg m.cast_nonneg (two_zpow_pos e).le) hrounds

theorem roundedInteger_exact_iff : (roundedInteger rm s m e : ℚ) = dyadic s m e ↔ m * 2 ^ e.toNat % 2 ^ (-e).toNat = 0 := by
  have hinexact := mod_ne_zero_iff_rounds rm s (m * 2 ^ e.toNat) (Nat.two_pow_pos (-e).toNat)
  rw [dyadic_value_rat, not_iff_not] at hinexact
  rw [hinexact, ← Rat.cast_natCast, Rat.cast_inj]
  cases s <;> simp [roundedInteger, dyadic]

theorem toInteger_num (signed : Bool) (w : Nat) :
    toInteger rm signed w (.num s m e) =
      if intHi signed w < roundedInteger rm s m e then (BitVec.ofInt w (intHi signed w), 16)
      else if roundedInteger rm s m e < intLo signed w then (BitVec.ofInt w (intLo signed w), 16)
      else (BitVec.ofInt w (roundedInteger rm s m e), if (roundedInteger rm s m e : ℚ) = dyadic s m e then 0 else 1) := by
  have hflag : flagIf (m * 2 ^ e.toNat % 2 ^ (-e).toNat != 0) flagNX = if (roundedInteger rm s m e : ℚ) = dyadic s m e then 0 else 1 := by
    rw [if_congr (roundedInteger_exact_iff rm s m e) rfl rfl]
    by_cases h : m * 2 ^ e.toNat % 2 ^ (-e).toNat = 0 <;> simp [flagIf, flagNX, h]
  rw [← hflag]
  rfl

end

/-- Settles O51: a finite value by its rounded integer, the others by the bound. -/
theorem floatToInteger : Obligations.FloatToInteger := by
  refine fun rm signed w v _ => ⟨fun q hq => ?_, fun h => ?_, fun h => ?_⟩
  · obtain ⟨s, m, e, rfl, rfl⟩ := toRat_eq_some hq
    exact ⟨roundedInteger rm s m e, roundsTo_roundedInteger rm s m e, toInteger_num rm s m e signed w⟩
  · cases v with
    | num s m e => simp [FVal.isNaN] at h
    | inf s =>
      obtain rfl : s = false := by simpa [FVal.isNaN] using h
      rfl
    | nan q => rfl
  · rw [h]
    rfl

end Sys2Proof.Machine
end

section
/-! Arithmetic on finite values (44_float_single.md R463, R465, R468): each operation rounds its exact nonzero result once. -/

namespace Sys2Proof.Machine

section
variable (fmt : FFmt) (rm : RoundMode)

/-- Rounding a dyadic number that is not zero. -/
theorem rounded_roundDyadic {neg : Bool} {m : ℕ} {e : ℤ} (hm : m ≠ 0) {x : ℝ} (hneg : neg = true ↔ x < 0) (hx : |x| = m * 2 ^ e) :
    Rounded fmt rm x (roundDyadic fmt neg m e rm) := by
  refine rounded_roundRat fmt rm (Nat.mul_pos (Nat.pos_of_ne_zero hm) (Nat.two_pow_pos _)) (Nat.two_pow_pos _) hneg ?_
  rw [hx, dyadic_value]

theorem rounded_dyadic {s : Bool} {m : ℕ} {e : ℤ} (h : dyadic s m e ≠ 0) : Rounded fmt rm (dyadic s m e : ℚ) (roundDyadic fmt s m e rm) := by
  have hm : m ≠ 0 := mt (dyadic_eq_zero_iff s m e).mpr h
  refine rounded_roundDyadic fmt rm hm ?_ ?_
  · rw [Rat.cast_lt_zero, dyadic_lt_zero_iff]
    exact (and_iff_left hm).symm
  · rw [← Rat.cast_abs, abs_dyadic]
    push_cast
    rfl

theorem rounded_addFinite {s₁ s₂ : Bool} {m₁ m₂ : ℕ} {e₁ e₂ : ℤ} (h : dyadic s₁ m₁ e₁ + dyadic s₂ m₂ e₂ ≠ 0) :
    Rounded fmt rm (dyadic s₁ m₁ e₁ + dyadic s₂ m₂ e₂ : ℚ) (addFinite fmt rm s₁ m₁ e₁ s₂ m₂ e₂) := by
  have hsum := scaled_add_dyadic s₁ s₂ m₁ m₂ e₁ e₂
  generalize hz : scaled s₁ m₁ e₁ (min e₁ e₂) + scaled s₂ m₂ e₂ (min e₁ e₂) = z at hsum
  have hne : z ≠ 0 := by
    rintro rfl
    exact h (by rw [← hsum, Int.cast_zero, zero_mul])
  rw [← hsum, int_mul_two_zpow] at h ⊢
  simp only [addFinite, hz, if_neg hne]
  exact rounded_dyadic fmt rm h

/-- A quotient of dyadic numbers is the fraction that the division rounds. -/
theorem rounded_div {s₁ s₂ : Bool} {m₁ m₂ : ℕ} {e₁ e₂ : ℤ} (h₁ : m₁ ≠ 0) (h₂ : m₂ ≠ 0) :
    Rounded fmt rm (dyadic s₁ m₁ e₁ / dyadic s₂ m₂ e₂ : ℚ)
      (roundRat fmt (s₁ != s₂) (inUnits m₁ m₂ (e₂ - e₁)).1 (inUnits m₁ m₂ (e₂ - e₁)).2 rm) := by
  have hp₁ := Nat.pos_of_ne_zero h₁
  have hp₂ := Nat.pos_of_ne_zero h₂
  obtain ⟨hpos₁, hpos₂⟩ := inUnits_pos hp₁ hp₂ (e₂ - e₁)
  have hd₁ : dyadic s₁ m₁ e₁ ≠ 0 := mt (dyadic_eq_zero_iff s₁ m₁ e₁).mp h₁
  have hd₂ : dyadic s₂ m₂ e₂ ≠ 0 := mt (dyadic_eq_zero_iff s₂ m₂ e₂).mp h₂
  refine rounded_roundRat fmt rm hpos₁ hpos₂ ?_ ?_
  · -- the quotient is negative when the product is
    have hsign : dyadic s₁ m₁ e₁ / dyadic s₂ m₂ e₂ < 0 ↔ dyadic s₁ m₁ e₁ * dyadic s₂ m₂ e₂ < 0 := by rw [div_neg_iff, mul_neg_iff]
    rw [Rat.cast_lt_zero, hsign, dyadic_mul, dyadic_lt_zero_iff]
    exact (and_iff_left (mul_ne_zero h₁ h₂)).symm
  · rw [inUnits_value _ hp₂, ← Rat.cast_abs, abs_div, abs_dyadic, abs_dyadic, zpow_sub₀ two_ne_zero]
    push_cast
    have : (m₂ : ℝ) ≠ 0 := by exact_mod_cast h₂
    field_simp

/-! ## The operations on finite operands -/

theorem fMul_num (s₁ s₂ : Bool) (m₁ m₂ : ℕ) (e₁ e₂ : ℤ) :
    fMul fmt rm (.num s₁ m₁ e₁) (.num s₂ m₂ e₂) =
      if m₁ = 0 ∨ m₂ = 0 then exactly (fmt.zero (s₁ != s₂)) else roundDyadic fmt (s₁ != s₂) (m₁ * m₂) (e₁ + e₂) rm := by
  simp only [fMul, Bool.or_eq_true, decide_eq_true_eq]

theorem fDiv_num (s₁ s₂ : Bool) (m₁ m₂ : ℕ) (e₁ e₂ : ℤ) :
    fDiv fmt rm (.num s₁ m₁ e₁) (.num s₂ m₂ e₂) =
      if m₂ = 0 then (if m₁ = 0 then invalid fmt else { bits := fmt.inf (s₁ != s₂), flags := flagDZ })
      else if m₁ = 0 then exactly (fmt.zero (s₁ != s₂))
      else roundRat fmt (s₁ != s₂) (inUnits m₁ m₂ (e₂ - e₁)).1 (inUnits m₁ m₂ (e₂ - e₁)).2 rm := rfl

theorem fMulAdd_num (n k s₁ s₂ s₃ : Bool) (m₁ m₂ m₃ : ℕ) (e₁ e₂ e₃ : ℤ) :
    fMulAdd fmt rm n k (.num s₁ m₁ e₁) (.num s₂ m₂ e₂) (.num s₃ m₃ e₃) =
      addFinite fmt rm ((s₁ != s₂) != n) (m₁ * m₂) (e₁ + e₂) (s₃ != k) m₃ e₃ := rfl

theorem rounded_fMul {s₁ s₂ : Bool} {m₁ m₂ : ℕ} {e₁ e₂ : ℤ} (h : dyadic s₁ m₁ e₁ * dyadic s₂ m₂ e₂ ≠ 0) :
    Rounded fmt rm (dyadic s₁ m₁ e₁ * dyadic s₂ m₂ e₂ : ℚ) (fMul fmt rm (.num s₁ m₁ e₁) (.num s₂ m₂ e₂)) := by
  rw [dyadic_mul] at h ⊢
  have hm : ¬ (m₁ = 0 ∨ m₂ = 0) := by rwa [Ne, dyadic_eq_zero_iff, mul_eq_zero] at h
  rw [fMul_num, if_neg hm]
  exact rounded_dyadic fmt rm h

theorem rounded_fDiv {s₁ s₂ : Bool} {m₁ m₂ : ℕ} {e₁ e₂ : ℤ} (h₁ : dyadic s₁ m₁ e₁ ≠ 0) (h₂ : dyadic s₂ m₂ e₂ ≠ 0) :
    Rounded fmt rm (dyadic s₁ m₁ e₁ / dyadic s₂ m₂ e₂ : ℚ) (fDiv fmt rm (.num s₁ m₁ e₁) (.num s₂ m₂ e₂)) := by
  rw [Ne, dyadic_eq_zero_iff] at h₁ h₂
  rw [fDiv_num, if_neg h₂, if_neg h₁]
  exact rounded_div fmt rm h₁ h₂

theorem rounded_fMulAdd (n k : Bool) {s₁ s₂ s₃ : Bool} {m₁ m₂ m₃ : ℕ} {e₁ e₂ e₃ : ℤ} {x : ℚ}
    (hx : x = (if n then -(dyadic s₁ m₁ e₁ * dyadic s₂ m₂ e₂) else dyadic s₁ m₁ e₁ * dyadic s₂ m₂ e₂)
      + (if k then -dyadic s₃ m₃ e₃ else dyadic s₃ m₃ e₃)) (h : x ≠ 0) :
    Rounded fmt rm x (fMulAdd fmt rm n k (.num s₁ m₁ e₁) (.num s₂ m₂ e₂) (.num s₃ m₃ e₃)) := by
  rw [dyadic_mul, dyadic_negIf, dyadic_negIf] at hx
  subst hx
  rw [fMulAdd_num]
  exact rounded_addFinite fmt rm h

theorem rounded_ofInteger {i : ℤ} (h : i ≠ 0) : Rounded fmt rm (i : ℝ) (ofInteger fmt rm i) := by
  have hvalue := int_mul_two_zpow 0 i
  rw [zpow_zero, mul_one] at hvalue
  have hne : dyadic (i < 0) i.natAbs 0 ≠ 0 := by rwa [← hvalue, Int.cast_ne_zero]
  have hrounded := rounded_dyadic fmt rm hne
  rw [← hvalue, Rat.cast_intCast] at hrounded
  rwa [ofInteger, if_neg h]

theorem rounded_convert {s : Bool} {m : ℕ} {e : ℤ} (h : dyadic s m e ≠ 0) : Rounded fmt rm (dyadic s m e : ℚ) (convert fmt rm (.num s m e)) := by
  have hm : m ≠ 0 := mt (dyadic_eq_zero_iff s m e).mpr h
  rw [convert, if_neg hm]
  exact rounded_dyadic fmt rm h

end

/-- Settles O53: each operation on dyadic operands; a difference is the sum with the negated operand. -/
theorem floatArithmetic : Obligations.FloatArithmetic := by
  intro fmt other rm x y z p q r a b c ha hb hc
  obtain ⟨s₁, m₁, e₁, hx, rfl⟩ := toRat_eq_some ha
  obtain ⟨s₂, m₂, e₂, hy, rfl⟩ := toRat_eq_some hb
  obtain ⟨s₃, m₃, e₃, hz, rfl⟩ := toRat_eq_some hc
  rw [hx, hy, hz]
  refine ⟨rounded_addFinite fmt rm, fun h => ?_, rounded_fMul fmt rm, rounded_fDiv fmt rm, fun n k => rounded_fMulAdd fmt rm n k rfl,
    fun i => rounded_ofInteger fmt rm, rounded_convert other rm⟩
  rw [sub_dyadic] at h ⊢
  exact rounded_addFinite fmt rm h

end Sys2Proof.Machine
end

section
/-! The square root (44_float_single.md R463, R465; log 17): the rational the model rounds lies between the same points of the rounding grid as the
exact root. -/

namespace Sys2Proof.Machine

/-! ## Numbers that no point of a grid separates -/

/-- No multiple of `2^a` separates `x` from `y` or is one of them alone. -/
def SameGrid (a : ℤ) (x y : ℝ) : Prop := ∀ c ≥ a, ∀ k : ℤ, ((k : ℝ) * 2 ^ c ≤ x ↔ (k : ℝ) * 2 ^ c ≤ y) ∧ (x ≤ k * 2 ^ c ↔ y ≤ k * 2 ^ c)

/-- Two numbers strictly between neighbouring multiples of `2^a`. -/
theorem sameGrid_of_between {a : ℤ} {r : ℕ} {x y : ℝ} (hx : (r : ℝ) * 2 ^ a < x) (hx' : x < (r + 1) * 2 ^ a) (hy : (r : ℝ) * 2 ^ a < y)
    (hy' : y < (r + 1) * 2 ^ a) : SameGrid a x y := by
  have hpow : (0 : ℝ) < 2 ^ a := zpow_pos two_pos a
  -- a multiple of `2^a` is at most `r` of them or at least `r + 1`
  have hside {z : ℝ} (hz : (r : ℝ) * 2 ^ a < z) (hz' : z < (r + 1) * 2 ^ a) (k : ℤ) :
      ((k : ℝ) * 2 ^ a ≤ z ↔ k ≤ r) ∧ (z ≤ k * 2 ^ a ↔ (r : ℤ) < k) := by
    have hle (h : k ≤ r) : (k : ℝ) * 2 ^ a < z := by
      refine lt_of_le_of_lt (mul_le_mul_of_nonneg_right ?_ hpow.le) hz
      exact_mod_cast h
    have hlt (h : (r : ℤ) < k) : z < k * 2 ^ a := by
      refine lt_of_lt_of_le hz' (mul_le_mul_of_nonneg_right ?_ hpow.le)
      exact_mod_cast h
    exact ⟨⟨fun h => not_lt.mp fun hk => absurd (hlt hk) (not_lt.mpr h), fun h => (hle h).le⟩,
      ⟨fun h => not_le.mp fun hk => absurd (hle hk) (not_lt.mpr h), fun h => (hlt h).le⟩⟩
  intro c hc k
  have hscale : (k : ℝ) * 2 ^ c = ((k * 2 ^ (c - a).toNat : ℤ) : ℝ) * 2 ^ a := by
    push_cast
    rw [mul_assoc, ← zpow_natCast, ← zpow_add₀ two_ne_zero]
    congr 2
    omega
  rw [hscale, (hside hx hx' _).1, (hside hy hy' _).1, (hside hx hx' _).2, (hside hy hy' _).2]
  exact ⟨Iff.rfl, Iff.rfl⟩

/-- Rounding to an integer asks only how a number compares with the half-integers. -/
theorem RoundsMagnitude.congr {rm : RoundMode} {neg : Bool} {y y' : ℝ} {m : ℕ}
    (hy : ∀ k : ℤ, ((k : ℝ) ≤ 2 * y ↔ (k : ℝ) ≤ 2 * y') ∧ (2 * y ≤ k ↔ 2 * y' ≤ k)) (h : RoundsMagnitude rm neg y m) :
    RoundsMagnitude rm neg y' m := by
  have hle (n : ℕ) : (n : ℝ) ≤ y ↔ (n : ℝ) ≤ y' := by
    have := (hy (2 * n)).1
    push_cast at this
    rwa [mul_le_mul_iff_right₀ two_pos, mul_le_mul_iff_right₀ two_pos] at this
  have hge (n : ℕ) : y ≤ n ↔ y' ≤ n := by
    have := (hy (2 * n)).2
    push_cast at this
    rwa [mul_le_mul_iff_right₀ two_pos, mul_le_mul_iff_right₀ two_pos] at this
  have hfloor : ⌊y⌋₊ = ⌊y'⌋₊ := eq_of_forall_le_iff fun n => by
    rcases Nat.eq_zero_or_pos n with rfl | hn
    · simp
    · rw [Nat.le_floor_iff' hn.ne', Nat.le_floor_iff' hn.ne', hle]
  have hceil : ⌈y⌉₊ = ⌈y'⌉₊ := eq_of_forall_ge_iff fun n => by rw [Nat.ceil_le, Nat.ceil_le, hge]
  have hbelow := hy (2 * m - 1)
  have habove := hy (2 * m + 1)
  push_cast at hbelow habove
  have hnear : |y - m| ≤ 1 / 2 ↔ |y' - m| ≤ 1 / 2 := by
    have hshape (z : ℝ) : |z - m| ≤ 1 / 2 ↔ 2 * (m : ℝ) - 1 ≤ 2 * z ∧ 2 * z ≤ 2 * m + 1 := by
      rw [abs_le]
      constructor <;> rintro ⟨h₁, h₂⟩ <;> constructor <;> linarith
    rw [hshape, hshape, hbelow.1, habove.2]
  have htie : |y - m| = 1 / 2 ↔ |y' - m| = 1 / 2 := by
    have hshape (z : ℝ) : 1 / 2 ≤ |z - m| ↔ 2 * z ≤ 2 * (m : ℝ) - 1 ∨ 2 * (m : ℝ) + 1 ≤ 2 * z := by
      rw [le_abs]
      constructor <;> rintro (h₁ | h₁)
      · exact .inr (by linarith)
      · exact .inl (by linarith)
      · exact .inr (by linarith)
      · exact .inl (by linarith)
    rw [le_antisymm_iff, le_antisymm_iff, hnear, hshape, hshape, hbelow.2, habove.1]
  cases rm with
  | rne => exact ⟨hnear.mp h.1, fun ht => h.2 (htie.mpr ht)⟩
  | rtz => exact h.trans hfloor
  | rdn => simpa only [RoundsMagnitude, hfloor, hceil] using h
  | rup => simpa only [RoundsMagnitude, hfloor, hceil] using h
  | rmm => exact ⟨hnear.mp h.1, fun ht => (hge m).mp (h.2 (htie.mpr ht))⟩

section
variable {a : ℤ} {x y : ℝ} (h : SameGrid a x y)
include h

theorem SameGrid.pos (hx : 0 < x) : 0 < y := by
  have := (h a le_rfl 0).2
  simp only [Int.cast_zero, zero_mul] at this
  exact not_le.mp (mt this.mpr (not_le.mpr hx))

theorem SameGrid.two_zpow_le_iff {e : ℤ} (he : a ≤ e) : (2 : ℝ) ^ e ≤ x ↔ (2 : ℝ) ^ e ≤ y := by
  simpa using (h e he 1).1

theorem SameGrid.eq_multiple_iff {c : ℤ} (hc : a ≤ c) (m : ℕ) : (m : ℝ) * 2 ^ c = x ↔ (m : ℝ) * 2 ^ c = y := by
  have := h c hc m
  simp only [Int.cast_natCast] at this
  rw [le_antisymm_iff, le_antisymm_iff, this.1, this.2]

/-- In units of at least two grid steps the half-integers are points of the grid. -/
theorem SameGrid.rounds {t : ℤ} (ht : a < t) {rm : RoundMode} {neg : Bool} {m : ℕ} (hr : RoundsMagnitude rm neg (x / 2 ^ t) m) :
    RoundsMagnitude rm neg (y / 2 ^ t) m := by
  have hhalf (z : ℝ) : 2 * (z / 2 ^ t) = z / 2 ^ (t - 1) := by
    rw [zpow_sub₀ two_ne_zero, zpow_one, div_div_eq_mul_div, mul_comm z, mul_div_assoc]
  have hpow : (0 : ℝ) < 2 ^ (t - 1) := zpow_pos two_pos _
  refine hr.congr fun k => ?_
  rw [hhalf, hhalf, le_div_iff₀ hpow, le_div_iff₀ hpow, div_le_iff₀ hpow, div_le_iff₀ hpow]
  exact h (t - 1) (by omega) k

/-- What rounds the one number rounds the other, when the grid is finer than half the spacing at the exponent of the first. -/
theorem Rounded.of_sameGrid {fmt : FFmt} {rm : RoundMode} {res : FResult} (hx : 0 < x) (hfine : (2 : ℝ) ^ (a + fmt.fracBits + 1) ≤ x)
    (hr : Rounded fmt rm x res) : Rounded fmt rm y res := by
  obtain ⟨neg, e, m, m', hneg, hlow, hhigh, hm, hm', hover, hnormal⟩ := hr
  have hy := h.pos hx
  rw [abs_of_pos hx] at *
  have he : a + fmt.fracBits + 1 < e + 1 := (zpow_lt_zpow_iff_right₀ one_lt_two).mp (hfine.trans_lt hhigh)
  have hmax := le_max_left e fmt.emin
  refine ⟨neg, e, m, m', ?_⟩
  dsimp only
  rw [abs_of_pos hy]
  refine ⟨?_, (h.two_zpow_le_iff (by omega)).mp hlow, ?_, h.rounds (by omega) hm, h.rounds (by omega) hm', hover, ?_⟩
  · rw [hneg]
    exact iff_of_false hx.not_gt hy.not_gt
  · exact not_le.mp (mt (h.two_zpow_le_iff (by omega)).mpr (not_le.mpr hhigh))
  · have hexact := h.eq_multiple_iff (c := max e fmt.emin - fmt.fracBits) (by omega) m
    simpa only [ne_eq, hexact] using hnormal

end

/-! ## The integer root -/

/-- From a root short by less than `2^k`, the search ends at the floor of the square root. -/
theorem isqrt_bounds {n : ℕ} : ∀ (k root : ℕ), root * root ≤ n → n < (root + 2 ^ k) * (root + 2 ^ k) →
    isqrt n k root * isqrt n k root ≤ n ∧ n < (isqrt n k root + 1) * (isqrt n k root + 1)
  | 0, root, hlow, hhigh => ⟨hlow, hhigh⟩
  | k + 1, root, hlow, hhigh => by
    rw [isqrt]
    split
    · rename_i hle
      refine isqrt_bounds k _ hle ?_
      rwa [add_assoc, ← two_mul, mul_comm 2, ← pow_succ]
    · rename_i hlt
      exact isqrt_bounds k _ hlow (not_le.mp hlt)

/-! ## The proxy -/

/-- The operand of the root with an even exponent, 120 bits longer: `n · 4^c` is the operand. -/
theorem sqrtProxy_eq (m : ℕ) (e : ℤ) : ∃ (n : ℕ) (c : ℤ), (n : ℝ) * (2 ^ c * 2 ^ c) = m * 2 ^ e ∧ m * 4 ^ 60 ≤ n ∧ n ≤ 2 * m * 4 ^ 60
    ∧ sqrtProxy m e = (2 * isqrt n 96 0 + (if isqrt n 96 0 * isqrt n 96 0 = n then 0 else 1), c - 1) := by
  have hsplit (k : ℕ) (c d : ℤ) (hd : d = 2 * (c + 60)) : ((k * 4 ^ 60 : ℕ) : ℝ) * (2 ^ c * 2 ^ c) = k * 2 ^ d := by
    have hfour : ((4 ^ 60 : ℕ) : ℝ) = 2 ^ (120 : ℤ) := by norm_num
    rw [Nat.cast_mul, hfour, mul_assoc, ← zpow_add₀ two_ne_zero, ← zpow_add₀ two_ne_zero]
    congr 2
    omega
  by_cases hodd : e % 2 = 0
  · refine ⟨m * 4 ^ 60, e / 2 - 60, hsplit m _ _ (by omega), le_rfl, by omega, ?_⟩
    simp [sqrtProxy, hodd]
  · refine ⟨2 * m * 4 ^ 60, (e - 1) / 2 - 60, ?_, by omega, le_rfl, ?_⟩
    · rw [hsplit (2 * m) _ (e - 1) (by omega), zpow_sub₀ two_ne_zero, zpow_one]
      push_cast
      field_simp
    · simp [sqrtProxy, hodd]

theorem rounded_sqrtProxy (fmt : FFmt) (rm : RoundMode) {m : ℕ} (e : ℤ) (hm : m ≠ 0) (hlt : m < 2 ^ 53) :
    Rounded fmt rm (√(m * 2 ^ e)) (roundDyadic fmt false (sqrtProxy m e).1 (sqrtProxy m e).2 rm) := by
  obtain ⟨n, c, hvalue, hlow, hhigh, hproxy⟩ := sqrtProxy_eq m e
  have hpow : (0 : ℝ) < 2 ^ c := zpow_pos two_pos c
  have hstep : (2 : ℝ) ^ c = 2 * 2 ^ (c - 1) := by rw [← zpow_one_add₀ two_ne_zero, add_sub_cancel]
  have hroot : √((m : ℝ) * 2 ^ e) = √n * 2 ^ c := by
    rw [← hvalue, Real.sqrt_mul n.cast_nonneg, Real.sqrt_mul_self hpow.le]
  have hbits : n < (0 + 2 ^ 96) * (0 + 2 ^ 96) := by
    refine lt_of_le_of_lt (hhigh.trans (Nat.mul_le_mul_right _ (Nat.mul_le_mul_left 2 hlt.le))) ?_
    norm_num
  obtain ⟨hr, hr'⟩ := isqrt_bounds 96 0 (Nat.zero_le _) hbits
  rw [hproxy, hroot]
  generalize isqrt n 96 0 = r at *
  have hlarge : 2 ^ 60 ≤ r := by
    have hsquare : 2 ^ 60 * 2 ^ 60 ≤ n := by
      calc 2 ^ 60 * 2 ^ 60 = 1 * 4 ^ 60 := by norm_num
        _ ≤ m * 4 ^ 60 := Nat.mul_le_mul_right _ (Nat.pos_of_ne_zero hm)
        _ ≤ n := hlow
    exact Nat.lt_succ_iff.mp (Nat.mul_self_lt_mul_self_iff.mp (hsquare.trans_lt hr'))
  -- a natural number of half units rounds as its dyadic number
  have hdyadic (j : ℕ) (hj : j ≠ 0) : Rounded fmt rm (j * 2 ^ (c - 1)) (roundDyadic fmt false j (c - 1) rm) := by
    have hpos : (0 : ℝ) ≤ j * 2 ^ (c - 1) := by positivity
    exact rounded_roundDyadic fmt rm hj (by simp [hpos]) (abs_of_nonneg hpos)
  by_cases hexact : r * r = n
  · -- an exact root is its own proxy
    have hown : √n * 2 ^ c = ((2 * r + 0 : ℕ) : ℝ) * 2 ^ (c - 1) := by
      rw [← hexact, Nat.cast_mul, Real.sqrt_mul_self r.cast_nonneg, hstep]
      push_cast
      ring
    rw [if_pos hexact, hown]
    exact hdyadic _ (by omega)
  · -- between two integers the proxy is the middle
    have hbelow : (r : ℝ) < √n := Real.lt_sqrt_of_sq_lt (by rw [sq]; exact_mod_cast lt_of_le_of_ne hr hexact)
    have habove : √n < (r : ℝ) + 1 := (Real.sqrt_lt' (by positivity)).mpr (by rw [sq]; exact_mod_cast hr')
    have hmiddle : ((2 * r + 1 : ℕ) : ℝ) * 2 ^ (c - 1) = (r + 1 / 2) * 2 ^ c := by
      rw [hstep]
      push_cast
      ring
    have hrounded := hdyadic (2 * r + 1) (by omega)
    rw [if_neg hexact]
    rw [hmiddle] at hrounded
    have hgrid : SameGrid c ((r + 1 / 2) * 2 ^ c) (√n * 2 ^ c) :=
      sameGrid_of_between (r := r) (by gcongr; norm_num) (by gcongr; norm_num) (by gcongr) (by gcongr)
    refine hrounded.of_sameGrid hgrid (by positivity) ?_
    have hfine : (2 : ℝ) ^ (fmt.fracBits + 1) ≤ r := by
      have hbits : 2 ^ (fmt.fracBits + 1) ≤ 2 ^ 60 := Nat.pow_le_pow_right two_pos (by cases fmt <;> decide)
      exact_mod_cast hbits.trans hlarge
    calc (2 : ℝ) ^ (c + fmt.fracBits + 1) = 2 ^ (fmt.fracBits + 1) * 2 ^ c := by
          rw [← zpow_natCast, ← zpow_add₀ two_ne_zero]
          congr 1
          push_cast
          ring
      _ ≤ (r + 1 / 2) * 2 ^ c := by gcongr; linarith

/-- Settles O54: the operand is a dyadic number of at most 53 bits. -/
theorem floatSquareRoot : Obligations.FloatSquareRoot := by
  intro fmt rm x p hp hpos
  obtain ⟨s, m, e, hx, rfl⟩ := toRat_eq_some hp
  have hlt : m < 2 ^ 53 := (unpack_mant_lt hx).trans_le (Nat.pow_le_pow_right two_pos (by cases fmt <;> decide))
  have hm : m ≠ 0 := mt (dyadic_eq_zero_iff s m e).mpr hpos.ne'
  obtain rfl : s = false := by simpa [hm] using mt (dyadic_lt_zero_iff s m e).mpr hpos.not_gt
  rw [hx, fSqrt, if_neg hm]
  have hvalue : ((dyadic false m e : ℚ) : ℝ) = m * 2 ^ e := by simp [dyadic]
  simp only [hvalue, Bool.false_eq_true, if_false]
  exact rounded_sqrtProxy fmt rm e hm hlt

end Sys2Proof.Machine
end

section
/-! Comparisons, minimum and maximum (44_float_single.md R464, R466, R467): the order of the model is that of the extended rationals. -/

namespace Sys2Proof.Machine

/-! ## The order -/

theorem scaled_lt_iff (s₁ s₂ : Bool) (m₁ m₂ : ℕ) (e₁ e₂ : ℤ) :
    scaled s₁ m₁ e₁ (min e₁ e₂) < scaled s₂ m₂ e₂ (min e₁ e₂) ↔ dyadic s₁ m₁ e₁ < dyadic s₂ m₂ e₂ := by
  rw [← scaled_dyadic s₁ m₁ (min_le_left e₁ e₂), ← scaled_dyadic s₂ m₂ (min_le_right e₁ e₂), mul_lt_mul_iff_left₀ (two_zpow_pos _),
    Int.cast_lt]

theorem toExt_num (s : Bool) (m : ℕ) (e : ℤ) : (FVal.num s m e).toExt = some ((dyadic s m e : WithTop ℚ) : WithBot (WithTop ℚ)) := rfl

section
variable {a b : FVal} {p q : WithBot (WithTop ℚ)} (ha : a.toExt = some p) (hb : b.toExt = some q)
include ha

theorem isNaN_of_toExt : a.isNaN = false := by
  cases a with
  | nan q => cases ha
  | num | inf => rfl

include hb

theorem fLess_iff : fLess a b = true ↔ p < q := by
  cases a with
  | nan q => cases ha
  | inf s =>
    cases b with
    | nan q => cases hb
    | inf s' =>
      obtain rfl := Option.some.inj ha
      obtain rfl := Option.some.inj hb
      cases s <;> cases s' <;> simp [fLess]
    | num s' m e =>
      obtain rfl := Option.some.inj ha
      obtain rfl := Option.some.inj hb
      cases s <;> simp [fLess]
  | num s m e =>
    rw [toExt_num] at ha
    cases b with
    | nan q => cases hb
    | inf s' =>
      obtain rfl := Option.some.inj ha
      obtain rfl := Option.some.inj hb
      cases s' with
      | false => exact iff_of_true rfl (WithBot.coe_lt_coe.mpr (WithTop.coe_lt_top _))
      | true => simp [fLess]
    | num s' m' e' =>
      rw [toExt_num] at hb
      obtain rfl := Option.some.inj ha
      obtain rfl := Option.some.inj hb
      rw [WithBot.coe_lt_coe, WithTop.coe_lt_coe, ← scaled_lt_iff]
      simp [fLess]

theorem fSame_iff : fSame a b = true ↔ p = q := by
  rw [fSame, Bool.and_eq_true, Bool.not_eq_true', Bool.not_eq_true', ← Bool.not_eq_true, ← Bool.not_eq_true, fLess_iff ha hb, fLess_iff hb ha,
    not_lt, not_lt, and_comm, ← le_antisymm_iff]

/-- The comparisons of two values that are no NaN. -/
theorem compare_values : (fLt a b).2 = 0 ∧ (fLe a b).2 = 0 ∧ (fEq a b).2 = 0
    ∧ ((fLt a b).1 = true ↔ p < q) ∧ ((fLe a b).1 = true ↔ p ≤ q) ∧ ((fEq a b).1 = true ↔ p = q) := by
  have hle : (!fLess b a) = true ↔ p ≤ q := by rw [Bool.not_eq_true', ← Bool.not_eq_true, fLess_iff hb ha, not_lt]
  simp only [fLt, fLe, fEq, isNaN_of_toExt ha, isNaN_of_toExt hb]
  exact ⟨rfl, rfl, rfl, fLess_iff ha hb, hle, fSame_iff ha hb⟩

end

/-! ## NaN operands -/

theorem flagIf_invalid (a b : Bool) : flagIf (a || b) flagNV = if a = true ∨ b = true then 16 else 0 := by
  rw [flagIf, if_congr Bool.or_eq_true_iff rfl rfl]
  rfl

theorem compare_nan {a b : FVal} (h : a.isNaN = true ∨ b.isNaN = true) :
    fLt a b = (false, 16) ∧ fLe a b = (false, 16) ∧ fEq a b = (false, if a.isSignaling = true ∨ b.isSignaling = true then 16 else 0) := by
  have hor : (a.isNaN || b.isNaN) = true := Bool.or_eq_true_iff.mpr h
  rw [fLt, fLe, fEq, if_pos hor, if_pos hor, if_pos hor, flagIf_invalid]
  exact ⟨rfl, rfl, rfl⟩

/-! ## Minimum and maximum -/

section
variable {fmt : FFmt} {x y : Word}

theorem fMin_nan : ((fmt.unpack x).isNaN = true → (fmt.unpack y).isNaN = true → (fMin fmt x y).bits = fmt.canonicalNaN)
    ∧ ((fmt.unpack x).isNaN = true → (fmt.unpack y).isNaN = false → (fMin fmt x y).bits = y)
    ∧ ((fmt.unpack x).isNaN = false → (fmt.unpack y).isNaN = true → (fMin fmt x y).bits = x) := by
  refine ⟨fun ha hb => ?_, fun ha hb => ?_, fun ha hb => ?_⟩ <;> simp [fMin, ha, hb]

theorem fMax_nan : ((fmt.unpack x).isNaN = true → (fmt.unpack y).isNaN = true → (fMax fmt x y).bits = fmt.canonicalNaN)
    ∧ ((fmt.unpack x).isNaN = true → (fmt.unpack y).isNaN = false → (fMax fmt x y).bits = y)
    ∧ ((fmt.unpack x).isNaN = false → (fmt.unpack y).isNaN = true → (fMax fmt x y).bits = x) := by
  refine ⟨fun ha hb => ?_, fun ha hb => ?_, fun ha hb => ?_⟩ <;> simp [fMax, ha, hb]

variable {p q : WithBot (WithTop ℚ)} (ha : (fmt.unpack x).toExt = some p) (hb : (fmt.unpack y).toExt = some q)
include ha hb

theorem fMin_bits : (fMin fmt x y).bits = if p < q ∨ p = q ∧ fmt.signOf x = true then x else y := by
  simp [fMin, isNaN_of_toExt ha, isNaN_of_toExt hb, fLess_iff ha hb, fSame_iff ha hb]

theorem fMax_bits : (fMax fmt x y).bits = if q < p ∨ p = q ∧ fmt.signOf x = false then x else y := by
  simp [fMax, isNaN_of_toExt ha, isNaN_of_toExt hb, fLess_iff hb ha, fSame_iff ha hb]

theorem fMin_value : (fmt.unpack (fMin fmt x y).bits).toExt = some (min p q) := by
  rw [fMin_bits ha hb]
  split
  · rename_i h
    rw [ha, min_eq_left (h.elim le_of_lt fun h => h.1.le)]
  · rename_i h
    rw [hb, min_eq_right (not_lt.mp fun hlt => h (.inl hlt))]

theorem fMax_value : (fmt.unpack (fMax fmt x y).bits).toExt = some (max p q) := by
  rw [fMax_bits ha hb]
  split
  · rename_i h
    rw [ha, max_eq_left (h.elim le_of_lt fun h => h.1.ge)]
  · rename_i h
    rw [hb, max_eq_right (not_lt.mp fun hlt => h (.inl hlt))]

theorem fMin_sign_of_eq (h : p = q) : fmt.signOf (fMin fmt x y).bits = (fmt.signOf x || fmt.signOf y) := by
  rw [fMin_bits ha hb, h]
  cases hx : fmt.signOf x <;> simp [hx]

theorem fMax_sign_of_eq (h : p = q) : fmt.signOf (fMax fmt x y).bits = (fmt.signOf x && fmt.signOf y) := by
  rw [fMax_bits ha hb, h]
  cases hx : fmt.signOf x <;> simp [hx]

end

/-- Settles O50: the order of the model is that of the extended numbers; minimum and maximum choose by it. -/
theorem floatComparisons : Obligations.FloatComparisons := by
  refine ⟨fun a b p q => compare_values, fun a b => compare_nan, fun fmt x y => ?_⟩
  obtain ⟨hmin, hmin_left, hmin_right⟩ := fMin_nan (fmt := fmt) (x := x) (y := y)
  obtain ⟨hmax, hmax_left, hmax_right⟩ := fMax_nan (fmt := fmt) (x := x) (y := y)
  refine ⟨fun p q ha hb => ⟨fMin_value ha hb, fMax_value ha hb, ?_, ?_, fun hp hq => ?_⟩, fun ha hb => ⟨hmin ha hb, hmax ha hb⟩,
    fun ha hb => ⟨hmin_left ha hb, hmax_left ha hb⟩, fun ha hb => ⟨hmin_right ha hb, hmax_right ha hb⟩, flagIf_invalid _ _, rfl⟩
  · rw [fMin_bits ha hb]
    exact ite_eq_or_eq _ x y
  · rw [fMax_bits ha hb]
    exact ite_eq_or_eq _ x y
  · have heq : p = q := hp.trans hq.symm
    exact ⟨fMin_sign_of_eq ha hb heq, fMax_sign_of_eq ha hb heq⟩

end Sys2Proof.Machine
end

section
/-! Results where no rounding happens (44_float_single.md R464 to R466, R468): NaN operands, infinities, zeros, sign injection and classes. -/

namespace Sys2Proof.Machine

/-! ## NaN operands -/

@[simp] theorem isNaN_negIf (v : FVal) (neg : Bool) : (v.negIf neg).isNaN = v.isNaN := by cases v <;> rfl

@[simp] theorem isSignaling_negIf (v : FVal) (neg : Bool) : (v.negIf neg).isSignaling = v.isSignaling := by cases v <;> rfl

section
variable (fmt : FFmt) (rm : RoundMode) {a b c : FVal}

/-- An operation that answers a NaN on either side with the canonical NaN, NV for a signaling operand. -/
theorem nanResult_of_operand {op : FVal → FVal → FResult} (hleft : ∀ q v, op (.nan q) v = nanResult fmt (q || v.isSignaling))
    (hright : ∀ v q, v.isNaN = false → op v (.nan q) = nanResult fmt (q || v.isSignaling)) (h : a.isNaN = true ∨ b.isNaN = true) :
    op a b = nanResult fmt (a.isSignaling || b.isSignaling) := by
  cases ha : a.isNaN with
  | true =>
    cases a with
    | nan q => exact hleft q b
    | num | inf => cases ha
  | false =>
    cases b with
    | nan q => rw [hright a q ha, Bool.or_comm]; rfl
    | num | inf =>
      rw [ha] at h
      rcases h with h | h <;> cases h

theorem fAdd_nan (h : a.isNaN = true ∨ b.isNaN = true) : fAdd fmt rm a b = nanResult fmt (a.isSignaling || b.isSignaling) :=
  nanResult_of_operand fmt (op := fAdd fmt rm) (fun _ _ => rfl) 
    (fun v _ hv => match v, hv with | .num .., _ => rfl | .inf _, _ => rfl) h

theorem fSub_nan (h : a.isNaN = true ∨ b.isNaN = true) : fSub fmt rm a b = nanResult fmt (a.isSignaling || b.isSignaling) := by
  rw [fSub, fAdd_nan fmt rm (by rwa [isNaN_negIf]), isSignaling_negIf]

theorem fMul_nan (h : a.isNaN = true ∨ b.isNaN = true) : fMul fmt rm a b = nanResult fmt (a.isSignaling || b.isSignaling) :=
  nanResult_of_operand fmt (op := fMul fmt rm) (fun _ _ => rfl) 
    (fun v _ hv => match v, hv with | .num .., _ => rfl | .inf _, _ => rfl) h

theorem fDiv_nan (h : a.isNaN = true ∨ b.isNaN = true) : fDiv fmt rm a b = nanResult fmt (a.isSignaling || b.isSignaling) :=
  nanResult_of_operand fmt (op := fDiv fmt rm) (fun _ _ => rfl) 
    (fun v _ hv => match v, hv with | .num .., _ => rfl | .inf _, _ => rfl) h

theorem fSqrt_nan (h : a.isNaN = true) : fSqrt fmt rm a = nanResult fmt a.isSignaling := by
  cases a with
  | nan q => rfl
  | num | inf => cases h

theorem convert_nan (h : a.isNaN = true) : convert fmt rm a = nanResult fmt a.isSignaling := by
  cases a with
  | nan q => rfl
  | num | inf => cases h

theorem fMulAdd_nan (n k : Bool) (h : a.isNaN = true ∨ b.isNaN = true ∨ c.isNaN = true) (hz : zeroTimesInf a b = false) :
    fMulAdd fmt rm n k a b c = nanResult fmt (a.isSignaling || b.isSignaling || c.isSignaling) := by
  have hnan : (a.isNaN || b.isNaN || c.isNaN) = true := by simpa [or_assoc] using h
  rw [fMulAdd, hz, hnan]
  rfl

theorem fMulAdd_zeroTimesInf (n k : Bool) (hz : zeroTimesInf a b = true) : fMulAdd fmt rm n k a b c = invalid fmt := by
  rw [fMulAdd, if_pos hz]

/-! ## Infinities -/

/-- An infinite product meets an addend: another infinity of the other sign is invalid. -/
theorem fMulAdd_infiniteProduct (n k : Bool) {sp : Bool} (hprod : infiniteProduct a b = some sp) (hz : zeroTimesInf a b = false)
    (ha : a.isNaN = false) (hb : b.isNaN = false) (hc : c.isNaN = false) :
    fMulAdd fmt rm n k a b c = if c = .inf (!((sp != n) != k)) then invalid fmt else exactly (fmt.inf (sp != n)) := by
  rw [fMulAdd, hz, ha, hb, hc, hprod]
  cases c with
  | nan q => cases hc
  | num s m e => rfl
  | inf s =>
    simp only [FVal.negIf, FVal.inf.injEq]
    cases s <;> cases k <;> cases (sp != n) <;> rfl

end

/-! ## Zeros -/

section
variable (fmt : FFmt) (rm : RoundMode) {s₁ s₂ : Bool} {m₁ m₂ : ℕ} {e₁ e₂ : ℤ}

theorem mants_zero_iff (h : dyadic s₁ m₁ e₁ + dyadic s₂ m₂ e₂ = 0) : m₁ = 0 ↔ m₂ = 0 := by
  rw [← dyadic_eq_zero_iff s₁ m₁ e₁, ← dyadic_eq_zero_iff s₂ m₂ e₂, eq_neg_of_add_eq_zero_left h, neg_eq_zero]

/-- A zero sum has the common sign of two zeros, otherwise + except under RDN. -/
theorem addFinite_zero (h : dyadic s₁ m₁ e₁ + dyadic s₂ m₂ e₂ = 0) {bothZero : Prop} [Decidable bothZero] (hzero : bothZero ↔ m₁ = 0) :
    addFinite fmt rm s₁ m₁ e₁ s₂ m₂ e₂ = exactly (fmt.zero (if bothZero ∧ s₁ = s₂ then s₁ else decide (rm = .rdn))) := by
  have hsum := scaled_add_dyadic s₁ s₂ m₁ m₂ e₁ e₂
  rw [h, mul_eq_zero_iff_right (two_zpow_pos _).ne', Int.cast_eq_zero] at hsum
  have hsign : zeroSumSign rm s₁ s₂ (m₁ == 0 && m₂ == 0) = if bothZero ∧ s₁ = s₂ then s₁ else decide (rm = .rdn) := by
    rw [zeroSumSign]
    refine ite_congr ?_ (fun _ => rfl) fun _ => by cases rm <;> rfl
    simp only [Bool.and_eq_true, beq_iff_eq, ← mants_zero_iff h, and_self, hzero]
  rw [addFinite, if_pos hsum, hsign]

end

/-! ## Classes -/

/-- The finite values below the least normal one are those without the leading bit. -/
theorem mant_lt_iff_subnormal {fmt : FFmt} {x : Word} {s : Bool} {m : ℕ} {e : ℤ} (h : fmt.unpack x = .num s m e) :
    m < 2 ^ fmt.fracBits ↔ |dyadic s m e| < 2 ^ fmt.emin := by
  have hleast : (2 : ℚ) ^ fmt.emin = ((2 ^ fmt.fracBits : ℕ) : ℚ) * 2 ^ (fmt.emin - fmt.fracBits) := by
    push_cast
    rw [← zpow_natCast, ← zpow_add₀ two_ne_zero, add_sub_cancel]
  rw [abs_dyadic, hleast]
  obtain ⟨-, ⟨-, he⟩ | ⟨hlead, -, he⟩⟩ := unpack_num h
  · rw [he, mul_lt_mul_iff_left₀ (two_zpow_pos _), Nat.cast_lt]
  · refine iff_of_false (not_lt.mpr hlead) (not_lt.mpr ?_)
    exact mul_le_mul (by exact_mod_cast hlead) (zpow_le_zpow_right₀ one_le_two he) (two_zpow_pos _).le m.cast_nonneg

theorem fClass_num {fmt : FFmt} {x : Word} {s : Bool} {m : ℕ} {e : ℤ} (h : fmt.unpack x = .num s m e) :
    fClass fmt x =
      if dyadic s m e = 0 then (if s then 0x008 else 0x010)
      else if |dyadic s m e| < 2 ^ fmt.emin then (if s then 0x004 else 0x020) else (if s then 0x002 else 0x040) := by
  simp only [fClass, h, ← (unpack_num h).1, dyadic_eq_zero_iff, ← mant_lt_iff_subnormal h]

theorem fClass_eq_iff (fmt : FFmt) (x v : Word) : fClass fmt x = v ↔
    (fmt.unpack x = .nan true ∧ v = 0x100) ∨ (fmt.unpack x = .nan false ∧ v = 0x200) ∨ (fmt.unpack x = .inf true ∧ v = 0x001)
      ∨ (fmt.unpack x = .inf false ∧ v = 0x080)
      ∨ ∃ p : ℚ, (fmt.unpack x).toRat = some p ∧
        ((p = 0 ∧ v = if fmt.signOf x then 0x008 else 0x010)
          ∨ (p < 0 ∧ v = if |p| < 2 ^ fmt.emin then 0x004 else 0x002)
          ∨ (0 < p ∧ v = if |p| < 2 ^ fmt.emin then 0x020 else 0x040)) := by
  cases hx : fmt.unpack x with
  | nan q =>
    have hclass : fClass fmt x = if q then 0x100 else 0x200 := by rw [fClass, hx]
    rw [hclass, eq_comm]
    cases q <;> simp [FVal.toRat]
  | inf s =>
    have hclass : fClass fmt x = if s then 0x001 else 0x080 := by rw [fClass, hx]
    rw [hclass, eq_comm]
    cases s <;> simp [FVal.toRat]
  | num s m e =>
    have hneg (h : dyadic s m e < 0) : s = true := ((dyadic_lt_zero_iff s m e).mp h).1
    have hpos (h : 0 < dyadic s m e) : s = false := by
      have hm : m ≠ 0 := mt (dyadic_eq_zero_iff s m e).mpr h.ne'
      simpa [hm] using mt (dyadic_lt_zero_iff s m e).mpr h.not_gt
    rw [fClass_num hx, eq_comm, ← (unpack_num hx).1]
    simp only [toRat_num, reduceCtorEq, false_and, false_or, Option.some.injEq, exists_eq_left']
    generalize dyadic s m e = p at *
    rcases lt_trichotomy p 0 with h | h | h
    · simp [h, h.ne, h.not_gt, hneg h]
    · simp [h]
    · simp [h, h.ne', h.not_gt, hpos h]

/-! ## By patterns -/

/-- The product of an infinity has the sign of its operands' patterns. -/
theorem infiniteProduct_unpack {fmt : FFmt} {x y : Word} {s : Bool} (hx : (fmt.unpack x).isNaN = false) (hy : (fmt.unpack y).isNaN = false)
    (hinf : fmt.unpack x = .inf s ∨ fmt.unpack y = .inf s) :
    infiniteProduct (fmt.unpack x) (fmt.unpack y) = some (fmt.signOf x != fmt.signOf y) := by
  cases ha : fmt.unpack x with
  | nan q => rw [ha] at hx; cases hx
  | inf s₁ =>
    rw [← unpack_inf ha]
    cases hb : fmt.unpack y with
    | nan q => rw [hb] at hy; cases hy
    | inf s₂ => rw [← unpack_inf hb]; rfl
    | num s₂ m e => rw [← (unpack_num hb).1]; rfl
  | num s₁ m e =>
    rw [← (unpack_num ha).1]
    cases hb : fmt.unpack y with
    | nan q => rw [hb] at hy; cases hy
    | inf s₂ => rw [← unpack_inf hb]; rfl
    | num s₂ m' e' => rw [ha, hb] at hinf; rcases hinf with h | h <;> cases h

section
variable {fmt : FFmt} (other : FFmt) (rm : RoundMode) {x y z : Word} (n k : Bool)

/-- An infinity and a finite operand. -/
theorem infinity_finite {s₁ : Bool} {q : ℚ} (ha : fmt.unpack x = .inf s₁) (hq : (fmt.unpack y).toRat = some q) (c : FVal) :
    fAdd fmt rm (fmt.unpack x) (fmt.unpack y) = exactly (fmt.inf s₁) ∧ fAdd fmt rm (fmt.unpack y) (fmt.unpack x) = exactly (fmt.inf s₁)
      ∧ fSub fmt rm (fmt.unpack x) (fmt.unpack y) = exactly (fmt.inf s₁)
      ∧ fSub fmt rm (fmt.unpack y) (fmt.unpack x) = exactly (fmt.inf (!s₁))
      ∧ fMul fmt rm (fmt.unpack x) (fmt.unpack y) = (if q = 0 then invalid fmt else exactly (fmt.inf (fmt.signOf x != fmt.signOf y)))
      ∧ fMul fmt rm (fmt.unpack y) (fmt.unpack x) = (if q = 0 then invalid fmt else exactly (fmt.inf (fmt.signOf x != fmt.signOf y)))
      ∧ fDiv fmt rm (fmt.unpack x) (fmt.unpack y) = exactly (fmt.inf (fmt.signOf x != fmt.signOf y))
      ∧ fDiv fmt rm (fmt.unpack y) (fmt.unpack x) = exactly (fmt.zero (fmt.signOf x != fmt.signOf y))
      ∧ (q = 0 → fMulAdd fmt rm n k (fmt.unpack x) (fmt.unpack y) c = invalid fmt
        ∧ fMulAdd fmt rm n k (fmt.unpack y) (fmt.unpack x) c = invalid fmt) := by
  obtain ⟨s₂, m, e, hb, rfl⟩ := toRat_eq_some hq
  rw [← unpack_inf ha, ← (unpack_num hb).1, ha, hb, bne_comm]
  simp only [dyadic_eq_zero_iff]
  refine ⟨rfl, rfl, rfl, ?_, ?_, rfl, ?_, rfl, fun hm => ?_⟩
  · rw [← Bool.bne_true]
    rfl
  · rw [bne_comm]
    rfl
  · rw [bne_comm]
    rfl
  · have hzero : (m == 0) = true := beq_iff_eq.mpr hm
    exact ⟨fMulAdd_zeroTimesInf fmt rm n k hzero, fMulAdd_zeroTimesInf fmt rm n k hzero⟩

theorem infinity_infinity {s₁ s₂ : Bool} (ha : fmt.unpack x = .inf s₁) (hb : fmt.unpack y = .inf s₂) :
    fAdd fmt rm (fmt.unpack x) (fmt.unpack y) = (if s₁ = s₂ then exactly (fmt.inf s₁) else invalid fmt)
      ∧ fSub fmt rm (fmt.unpack x) (fmt.unpack y) = (if s₁ = s₂ then invalid fmt else exactly (fmt.inf s₁))
      ∧ fMul fmt rm (fmt.unpack x) (fmt.unpack y) = exactly (fmt.inf (fmt.signOf x != fmt.signOf y))
      ∧ fDiv fmt rm (fmt.unpack x) (fmt.unpack y) = invalid fmt := by
  rw [← unpack_inf ha, ← unpack_inf hb, ha, hb]
  refine ⟨rfl, ?_, rfl, rfl⟩
  cases s₁ <;> cases s₂ <;> rfl

/-- Two finite operands with an exact result or none: zeros, division by zero, the root of a negative number. -/
theorem finite_finite {p q : ℚ} (hp : (fmt.unpack x).toRat = some p) (hq : (fmt.unpack y).toRat = some q) :
    (p + q = 0 → fAdd fmt rm (fmt.unpack x) (fmt.unpack y)
        = exactly (fmt.zero (if p = 0 ∧ fmt.signOf x = fmt.signOf y then fmt.signOf x else decide (rm = .rdn))))
      ∧ (p - q = 0 → fSub fmt rm (fmt.unpack x) (fmt.unpack y)
        = exactly (fmt.zero (if p = 0 ∧ fmt.signOf x = !fmt.signOf y then fmt.signOf x else decide (rm = .rdn))))
      ∧ (p * q = 0 → fMul fmt rm (fmt.unpack x) (fmt.unpack y) = exactly (fmt.zero (fmt.signOf x != fmt.signOf y)))
      ∧ (p = 0 → q ≠ 0 → fDiv fmt rm (fmt.unpack x) (fmt.unpack y) = exactly (fmt.zero (fmt.signOf x != fmt.signOf y)))
      ∧ (p = 0 → q = 0 → fDiv fmt rm (fmt.unpack x) (fmt.unpack y) = invalid fmt)
      ∧ (p ≠ 0 → q = 0 → fDiv fmt rm (fmt.unpack x) (fmt.unpack y) = ⟨fmt.inf (fmt.signOf x != fmt.signOf y), flagDZ⟩) := by
  obtain ⟨s₁, m₁, e₁, ha, rfl⟩ := toRat_eq_some hp
  obtain ⟨s₂, m₂, e₂, hb, rfl⟩ := toRat_eq_some hq
  rw [← (unpack_num ha).1, ← (unpack_num hb).1, ha, hb, fMul_num, fDiv_num]
  refine ⟨fun h => addFinite_zero fmt rm h (dyadic_eq_zero_iff _ _ _), fun h => ?_, fun h => ?_, fun h₁ h₂ => ?_, fun h₁ h₂ => ?_,
    fun h₁ h₂ => ?_⟩
  · rw [sub_dyadic] at h
    rw [← Bool.bne_true]
    exact addFinite_zero fmt rm h (dyadic_eq_zero_iff _ _ _)
  · rw [mul_eq_zero, dyadic_eq_zero_iff, dyadic_eq_zero_iff] at h
    rw [if_pos h]
  · rw [dyadic_eq_zero_iff] at h₁
    rw [Ne, dyadic_eq_zero_iff] at h₂
    rw [if_neg h₂, if_pos h₁]
  · rw [dyadic_eq_zero_iff] at h₁ h₂
    rw [if_pos h₂, if_pos h₁]
  · rw [Ne, dyadic_eq_zero_iff] at h₁
    rw [dyadic_eq_zero_iff] at h₂
    rw [if_pos h₂, if_neg h₁]

/-- One finite operand. -/
theorem finite_alone {p : ℚ} (hp : (fmt.unpack x).toRat = some p) :
    (p < 0 → fSqrt fmt rm (fmt.unpack x) = invalid fmt) ∧ (p = 0 → fSqrt fmt rm (fmt.unpack x) = exactly (fmt.zero (fmt.signOf x)))
      ∧ (p = 0 → convert other rm (fmt.unpack x) = exactly (other.zero (fmt.signOf x))) := by
  obtain ⟨s, m, e, ha, rfl⟩ := toRat_eq_some hp
  rw [← (unpack_num ha).1, ha, dyadic_lt_zero_iff, dyadic_eq_zero_iff]
  refine ⟨fun ⟨hs, hm⟩ => ?_, fun hm => ?_, fun hm => ?_⟩
  · rw [fSqrt, if_neg hm, if_pos hs]
  · rw [fSqrt, if_pos hm]
  · rw [convert, if_pos hm]

/-- A finite product and an addend: an infinity, or one that cancels it. -/
theorem finite_product {p q : ℚ} (hp : (fmt.unpack x).toRat = some p) (hq : (fmt.unpack y).toRat = some q) :
    (∀ s₃, fmt.unpack z = .inf s₃ →
        fMulAdd fmt rm n k (fmt.unpack x) (fmt.unpack y) (fmt.unpack z) = exactly (fmt.inf (s₃ != k)))
      ∧ ∀ r : ℚ, (fmt.unpack z).toRat = some r → (if n then -(p * q) else p * q) + (if k then -r else r) = 0 →
        fMulAdd fmt rm n k (fmt.unpack x) (fmt.unpack y) (fmt.unpack z) = exactly (fmt.zero
          (if r = 0 ∧ ((fmt.signOf x != fmt.signOf y) != n) = (fmt.signOf z != k) then (fmt.signOf x != fmt.signOf y) != n
            else decide (rm = .rdn))) := by
  obtain ⟨s₁, m₁, e₁, ha, rfl⟩ := toRat_eq_some hp
  obtain ⟨s₂, m₂, e₂, hb, rfl⟩ := toRat_eq_some hq
  refine ⟨fun s₃ hc => ?_, fun r hr h => ?_⟩
  · rw [ha, hb, hc]
    rfl
  · obtain ⟨s₃, m₃, e₃, hc, rfl⟩ := toRat_eq_some hr
    rw [dyadic_mul, dyadic_negIf, dyadic_negIf] at h
    rw [← (unpack_num ha).1, ← (unpack_num hb).1, ← (unpack_num hc).1, ha, hb, hc, fMulAdd_num]
    exact addFinite_zero fmt rm h ((dyadic_eq_zero_iff _ _ _).trans (mants_zero_iff h).symm)

end

/-- Sign injection changes the sign bit alone. -/
theorem withSign_getLsbD (fmt : FFmt) (s : Bool) (x : Word) (i : ℕ) :
    (withSign fmt s x).getLsbD i = if i = fmt.signPos then s else x.getLsbD i :=
  getBit_setBit fmt.signPos i s x (by cases fmt <;> decide)

/-- Settles O55: by what the operands are, NaN, infinite or finite. -/
theorem floatSpecialValues : Obligations.FloatSpecialValues := by
  intro fmt other rm x y z s1 s2 s3 n k
  dsimp only
  refine ⟨?_, fun h => ⟨fSqrt_nan fmt rm h, convert_nan other rm h⟩, fMulAdd_nan fmt rm n k, fun q hb => ⟨fun ha => ?_, fun p ha => ?_⟩,
    infinity_infinity rm, fun ha => ?_, fun hc h hz => ?_, rfl, fun i _ => withSign_getLsbD fmt s1 x i, fClass_eq_iff fmt x⟩
  · simp only [List.forall_mem_cons]
    exact ⟨fAdd_nan fmt rm, fSub_nan fmt rm, fMul_nan fmt rm, fDiv_nan fmt rm, List.forall_mem_nil _⟩
  · exact infinity_finite rm n k ha hb (fmt.unpack z)
  · obtain ⟨hadd, hsub, hmul, hzero, hinvalid, hdz⟩ := finite_finite rm ha hb
    obtain ⟨hnegative, hroot, hconvert⟩ := finite_alone other rm ha
    obtain ⟨hinf, hcancel⟩ := finite_product (z := z) rm n k ha hb
    exact ⟨hadd, hsub, hmul, hzero, hinvalid, hdz, hnegative, hroot, hconvert, hinf s3, hcancel⟩
  · rw [ha]
    exact ⟨rfl, rfl⟩
  · have hoperands : (fmt.unpack x).isNaN = false ∧ (fmt.unpack y).isNaN = false ∧ (fmt.unpack x = .inf s1 ∨ fmt.unpack y = .inf s1) := by
      rcases h with ⟨ha, hb⟩ | ⟨hb, ha⟩
      · exact ⟨by rw [ha]; rfl, hb, .inl ha⟩
      · exact ⟨ha, by rw [hb]; rfl, .inr hb⟩
    obtain ⟨hx, hy, hinf⟩ := hoperands
    exact fMulAdd_infiniteProduct fmt rm n k (infiniteProduct_unpack hx hy hinf) hz hx hy hc

end Sys2Proof.Machine
end

section
/-! Double precision behind the unit's gate: a result is written whole, without a box (45_float_double.md R521). -/

namespace Sys2Proof.Machine

/-- The f register receives the double-precision result whole. -/
theorem writeD_spec (s : State) (rd : RegIdx) (res : FResult) :
    ∃ t, writeD s rd res = .next t ∧ RetiredF s t 4 rd res.bits res.flags :=
  retireF_spec s 4 rd res.bits res.flags

section
variable {i : Instr} {s : State} {rd : RegIdx} {rm : BitVec 3} {r : RoundMode} {k : RoundMode → StepResult} {res : FResult}
  (hfp : s.fpEnabled = true)
include hfp

theorem retiredF_of_gate_double (hexec : exec i s = fpGate s i (writeD s rd res)) :
    ∃ t, exec i s = .next t ∧ RetiredF s t 4 rd res.bits res.flags := by
  rw [hexec, fpGate_open hfp]
  exact writeD_spec s rd res

theorem retiredF_of_rounded_double (hr : s.roundMode rm = some r) (hexec : exec i s = fpRounded s i rm k)
    (hk : k r = writeD s rd res) : ∃ t, exec i s = .next t ∧ RetiredF s t 4 rd res.bits res.flags := by
  rw [hexec, fpRounded_open hfp hr, hk]
  exact writeD_spec s rd res

end

/-- Settles O48: each form is its operation behind one gate. A double-precision result is written whole; the conversion to single
precision writes its result boxed. -/
theorem floatDoubleResults : Obligations.FloatDoubleResults := by
  intro s rd rs1 rs2 rs3 rm r hfp
  simp only [List.forall_mem_cons]
  refine ⟨fun hr => ⟨?_, retiredF_of_rounded hfp hr rfl rfl, ?_, ?_⟩, ?_, ?_⟩
  · exact ⟨retiredF_of_rounded_double hfp hr rfl rfl, retiredF_of_rounded_double hfp hr rfl rfl,
      retiredF_of_rounded_double hfp hr rfl rfl, retiredF_of_rounded_double hfp hr rfl rfl, retiredF_of_rounded_double hfp hr rfl rfl,
      retiredF_of_rounded_double hfp hr rfl rfl, retiredF_of_rounded_double hfp hr rfl rfl, retiredF_of_rounded_double hfp hr rfl rfl,
      retiredF_of_rounded_double hfp hr rfl rfl, retiredF_of_rounded_double hfp hr rfl rfl, retiredF_of_rounded_double hfp hr rfl rfl,
      retiredF_of_rounded_double hfp hr rfl (by rw [BitVec.setWidth_eq]),
      retiredF_of_rounded_double hfp hr rfl (by rw [BitVec.setWidth_eq]), retiredF_of_rounded_double hfp hr rfl rfl,
      List.forall_mem_nil _⟩
  · exact ⟨retiredXF_of_rounded hfp hr rfl rfl, retiredXF_of_rounded hfp hr rfl rfl, List.forall_mem_nil _⟩
  · exact ⟨retiredXF_of_rounded_doubleword hfp hr rfl rfl, retiredXF_of_rounded_doubleword hfp hr rfl rfl, List.forall_mem_nil _⟩
  · exact ⟨retiredF_of_gate_double hfp rfl, retiredF_of_gate_double hfp rfl, retiredF_of_gate_double hfp rfl,
      retiredF_of_gate_double hfp rfl, retiredF_of_gate_double hfp rfl, retiredF_of_gate_double hfp rfl, List.forall_mem_nil _⟩
  · exact ⟨retiredXF_of_compare hfp rfl, retiredXF_of_compare hfp rfl, retiredXF_of_compare hfp rfl, retiredXF_of_move hfp rfl rfl,
      retiredXF_of_move hfp rfl rfl, List.forall_mem_nil _⟩

end Sys2Proof.Machine
end

section
/-! Bit manipulation: the address, logic, minimum, maximum, extension and rotate instructions (46_bitmanip.md R571 to R582, R589 to R601), on
integers and as rotations. -/

namespace Sys2Proof.Machine

/-! ## Operations on XLEN bits -/

section
variable (xl : Xlen) (a b : Word)

/-- An operation on XLEN bits is its width-generic function at XLEN. -/
theorem lift1_eq (f : (w : Nat) → BitVec w → BitVec w) : xl.lift1 f a = (f xl.bits (a.setWidth xl.bits)).setWidth 64 := by
  cases xl with
  | rv32 => rfl
  | rv64 => exact ((BitVec.setWidth_eq _).trans (congrArg (f 64) (BitVec.setWidth_eq a))).symm

theorem lift2_eq (f : (w : Nat) → BitVec w → BitVec w → BitVec w) :
    xl.lift2 f a b = (f xl.bits (a.setWidth xl.bits) (b.setWidth xl.bits)).setWidth 64 := by
  cases xl with
  | rv32 => rfl
  | rv64 => exact ((BitVec.setWidth_eq _).trans (congrArg₂ (f 64) (BitVec.setWidth_eq a) (BitVec.setWidth_eq b))).symm

theorem amount_lt_bits : xl.amount b < xl.bits := by
  rw [amount_eq]
  exact Nat.mod_lt _ (by cases xl <;> decide)

end

/-! ## Addresses -/

theorem shiftLeft_eq_ofInt {w : Nat} (a : BitVec w) (k : Nat) : a <<< k = BitVec.ofInt w (2 ^ k * a.toInt) := by
  have htwo : BitVec.ofInt w (2 ^ k) = BitVec.twoPow w k := by
    rw [← Nat.cast_ofNat, ← Nat.cast_pow, BitVec.ofInt_natCast]
    exact BitVec.eq_of_toNat_eq (BitVec.toNat_twoPow w k).symm
  rw [BitVec.ofInt_mul, htwo, BitVec.ofInt_toInt, BitVec.mul_comm, BitVec.shiftLeft_eq_mul_twoPow]

section
variable (xl : Xlen) (a b : Word)

theorem norm_shiftLeft (k : Nat) : xl.norm (a <<< k) = xl.norm (BitVec.ofInt 64 (2 ^ k * xl.toInt a)) := by
  cases xl with
  | rv32 => rw [norm32_eq, setWidth_ofInt, BitVec.setWidth_shiftLeft_of_le (by decide), shiftLeft_eq_ofInt]; rfl
  | rv64 => rw [shiftLeft_eq_ofInt]; rfl

theorem norm_add_shiftLeft (k : Nat) {c : Int} (hc : 2 ^ k = c) :
    xl.norm (b + a <<< k) = xl.norm (BitVec.ofInt 64 (xl.toInt b + c * xl.toInt a)) := by
  rw [← norm_add, norm_shiftLeft, norm_add, add_toInt, hc]

end

/-- The unsigned word of a register, shifted (R575 to R579). -/
theorem low32_shiftLeft (a : Word) (k : Nat) : (low32 a).setWidth 64 <<< k = BitVec.ofNat 64 (a.toNat % 2 ^ 32 * 2 ^ k) := by
  apply BitVec.eq_of_toNat_eq
  simp [low32, Nat.shiftLeft_eq]

theorem low32_setWidth (a : Word) : (low32 a).setWidth 64 = BitVec.ofNat 64 (a.toNat % 2 ^ 32) := by
  rw [← BitVec.shiftLeft_zero ((low32 a).setWidth 64), low32_shiftLeft, Nat.pow_zero, Nat.mul_one]

/-! ## Minimum and maximum -/

section
variable (xl : Xlen) (a b : Word) (c : Prop) [Decidable c]

theorem norm_ite_toInt : xl.norm (if c then a else b) = xl.norm (BitVec.ofInt 64 (if c then xl.toInt a else xl.toInt b)) := by
  split
  · exact (toInt_ofInt xl a).symm
  · exact (toInt_ofInt xl b).symm

theorem norm_ite_toNat : xl.norm (if c then a else b) = xl.norm (BitVec.ofNat 64 (if c then xl.toNat a else xl.toNat b)) := by
  split
  · exact (toNat_ofNat xl a).symm
  · exact (toNat_ofNat xl b).symm

end

/-! ## Extensions -/

theorem norm_sext_low (xl : Xlen) (a : Word) {w : Nat} (hw : w ≤ 64) :
    xl.norm (xl.sext (a.setWidth w)) = xl.norm (BitVec.ofInt 64 ((a.toNat : Int).bmod (2 ^ w))) := by
  rw [Xlen.sext, norm_norm, sext_ofInt hw, BitVec.toInt_setWidth]

theorem norm_zext (xl : Xlen) {w : Nat} (v : BitVec w) : xl.norm (xl.zext v) = xl.norm (BitVec.ofNat 64 v.toNat) := by
  rw [Xlen.zext, norm_norm, BitVec.ofNat_toNat]

/-! ## Rotates -/

section
variable {w n : Nat} (a : BitVec w) (hn : n < w)
include hn

theorem rotL_eq_rotateLeft : rotL n w a = a.rotateLeft n := by
  rw [BitVec.rotateLeft_eq_rotateLeftAux_of_lt hn, BitVec.rotateLeftAux, rotL]
  split
  · next h0 => subst h0; simp [BitVec.ushiftRight_eq_zero]
  · rfl

theorem rotR_eq_rotateRight : rotR n w a = a.rotateRight n := by
  rw [BitVec.rotateRight_eq_rotateRightAux_of_lt hn, BitVec.rotateRightAux, rotR]
  split
  · next h0 => subst h0; simp
  · rfl

end

section
variable (xl : Xlen) (a b : Word)

theorem lift1_rotL : xl.lift1 (rotL (xl.amount b)) a = xl.lift1 (fun _ v => v.rotateLeft (b.toNat % xl.bits)) a := by
  rw [lift1_eq, rotL_eq_rotateLeft _ (amount_lt_bits xl b), amount_eq, ← lift1_eq xl a fun _ v => v.rotateLeft (b.toNat % xl.bits)]

theorem lift1_rotR : xl.lift1 (rotR (xl.amount b)) a = xl.lift1 (fun _ v => v.rotateRight (b.toNat % xl.bits)) a := by
  rw [lift1_eq, rotR_eq_rotateRight _ (amount_lt_bits xl b), amount_eq, ← lift1_eq xl a fun _ v => v.rotateRight (b.toNat % xl.bits)]

theorem norm_sext_rotL {n : Nat} (hn : n < 32) :
    xl.norm (xl.sext (rotL n 32 (low32 a))) = xl.norm (((a.setWidth 32).rotateLeft n).signExtend 64) := by
  rw [Xlen.sext, norm_norm, rotL_eq_rotateLeft _ hn, low32]

theorem norm_sext_rotR {n : Nat} (hn : n < 32) :
    xl.norm (xl.sext (rotR n 32 (low32 a))) = xl.norm (((a.setWidth 32).rotateRight n).signExtend 64) := by
  rw [Xlen.sext, norm_norm, rotR_eq_rotateRight _ hn, low32]

end

/-- Settles O39: each form is a write of its value, and the values agree modulo 2^XLEN. -/
theorem bitmanipResults : Obligations.BitmanipResults := by
  intro s rd rs1 rs2 sh sw
  simp only [List.forall_mem_cons]
  refine ⟨retiredX_of_retireX rfl (norm_add_shiftLeft _ _ _ 1 rfl), retiredX_of_retireX rfl (norm_add_shiftLeft _ _ _ 2 rfl),
    retiredX_of_retireX rfl (norm_add_shiftLeft _ _ _ 3 rfl), retiredX_of_retireX rfl ?add_uw, retiredX_of_retireX rfl ?sh1add_uw,
    retiredX_of_retireX rfl ?sh2add_uw, retiredX_of_retireX rfl ?sh3add_uw, retiredX_of_retireX rfl ?slli_uw,
    retiredX_of_retireX rfl rfl, retiredX_of_retireX rfl rfl, retiredX_of_retireX rfl rfl,
    retiredX_of_retireX rfl ?max, retiredX_of_retireX rfl ?maxu, retiredX_of_retireX rfl ?min, retiredX_of_retireX rfl ?minu,
    retiredX_of_retireX rfl (norm_sext_low _ _ (by decide)), retiredX_of_retireX rfl (norm_sext_low _ _ (by decide)),
    retiredX_of_retireX rfl ?zext_h, retiredX_of_retireX rfl (congrArg _ (lift1_rotL _ _ _)),
    retiredX_of_retireX rfl (congrArg _ (lift1_rotR _ _ _)), retiredX_of_retireX rfl (norm_sext_rotL _ _ (Nat.mod_lt _ (by decide))),
    retiredX_of_retireX rfl (norm_sext_rotR _ _ (Nat.mod_lt _ (by decide))), retiredX_of_retireX rfl (norm_sext_rotR _ _ sw.isLt),
    List.forall_mem_nil _⟩
  case add_uw => rw [low32_setWidth]
  case sh1add_uw => rw [low32_shiftLeft, Nat.mul_comm]; rfl
  case sh2add_uw => rw [low32_shiftLeft, Nat.mul_comm]; rfl
  case sh3add_uw => rw [low32_shiftLeft, Nat.mul_comm]; rfl
  case slli_uw => rw [low32_shiftLeft]
  case max => rw [norm_ite_toInt, max_comm, max_def_lt]
  case maxu => rw [norm_ite_toNat, max_comm, max_def_lt]
  case min => rw [norm_ite_toInt, min_def_lt]
  case minu => rw [norm_ite_toNat, min_def_lt]
  case zext_h => rw [norm_zext, BitVec.toNat_setWidth]

end Sys2Proof.Machine
end

section
/-! Bit manipulation: the counts (46_bitmanip.md R571, R583 to R588). A run of zeros from the top ends at the highest 1 bit, one from the
bottom at the largest power of two that divides; the 1 bits are the binary digits. -/

namespace Sys2Proof.Machine

section
variable {w : Nat} (a : BitVec w)

theorem zeroRun_le_length (is : List Nat) : zeroRun a is ≤ is.length := by
  induction is with
  | nil => exact Nat.le_refl 0
  | cons i is ih =>
    rw [zeroRun, List.length_cons]
    split
    · exact Nat.zero_le _
    · exact Nat.succ_le_succ ih

/-! ## Leading zeros -/

theorem zeroRun_from_top {n : Nat} (hlt : a.toNat < 2 ^ n) :
    zeroRun a (List.range n).reverse = if a.toNat = 0 then n else n - 1 - Nat.log2 a.toNat := by
  induction n with
  | zero => rw [if_pos (by simpa using hlt)]; rfl
  | succ n ih =>
    rw [List.range_succ, List.reverse_append, List.reverse_singleton, List.singleton_append, zeroRun]
    cases hbit : a.getLsbD n with
    | true =>
      have hge : 2 ^ n ≤ a.toNat := Nat.ge_two_pow_of_testBit hbit
      have hpos : a.toNat ≠ 0 := (Nat.lt_of_lt_of_le (Nat.two_pow_pos n) hge).ne'
      rw [if_pos rfl, if_neg hpos, (Nat.log2_eq_iff hpos).2 ⟨hge, hlt⟩]
      omega
    | false =>
      have hlow : a.toNat < 2 ^ n := Nat.lt_pow_two_of_testBit _ fun i hi => by
        rcases Nat.eq_or_lt_of_le hi with rfl | hgt
        · exact hbit
        · exact Nat.testBit_lt_two_pow (Nat.lt_of_lt_of_le hlt (Nat.pow_le_pow_right (by decide) hgt))
      rw [if_neg Bool.false_ne_true, ih hlow]
      by_cases h0 : a.toNat = 0
      · rw [if_pos h0, if_pos h0]
      · have hlog : Nat.log2 a.toNat < n := (Nat.log2_lt h0).2 hlow
        rw [if_neg h0, if_neg h0]
        omega

theorem toNat_ofNat_le {n : Nat} (h : n ≤ w) : (BitVec.ofNat w n).toNat = n := by
  rw [BitVec.toNat_ofNat, Nat.mod_eq_of_lt (Nat.lt_of_le_of_lt h Nat.lt_two_pow_self)]

theorem countLeadingZeros_toNat :
    (countLeadingZeros w a).toNat = if a.toNat = 0 then w else w - 1 - Nat.log2 a.toNat := by
  have hle : zeroRun a (List.range w).reverse ≤ w := by simpa using zeroRun_le_length a (List.range w).reverse
  rw [countLeadingZeros, toNat_ofNat_le hle, zeroRun_from_top a a.isLt]

/-! ## Trailing zeros -/

theorem zeroRun_from_bottom {i n q : Nat} (hq : a.toNat = 2 ^ i * q) (hlt : q < 2 ^ n) :
    zeroRun a (List.range' i n) = if q = 0 then n else padicValNat 2 q := by
  induction n generalizing i q with
  | zero => rw [if_pos (by simpa using hlt)]; rfl
  | succ n ih =>
    have hbit : a.getLsbD i = decide (q % 2 = 1) := by
      rw [← BitVec.testBit_toNat, hq, Nat.testBit_two_pow_mul]
      simp
    rw [List.range'_succ, zeroRun, hbit]
    rcases Nat.even_or_odd' q with ⟨r, rfl | rfl⟩
    · have hrest : a.toNat = 2 ^ (i + 1) * r := by rw [hq, Nat.pow_succ, Nat.mul_assoc]
      rw [if_neg (by simp), ih hrest (by omega)]
      by_cases hr : r = 0
      · rw [if_pos hr, if_pos (by omega)]
      · rw [if_neg hr, if_neg (by omega), padicValNat.mul two_ne_zero hr, padicValNat.self one_lt_two, Nat.add_comm]
    · rw [if_pos (by simp), if_neg (by omega), padicValNat.eq_zero_of_not_dvd (by omega)]

theorem countTrailingZeros_toNat : (countTrailingZeros w a).toNat = if a.toNat = 0 then w else padicValNat 2 a.toNat := by
  have hle : zeroRun a (List.range w) ≤ w := by simpa using zeroRun_le_length a (List.range w)
  have hwhole : a.toNat = 2 ^ 0 * a.toNat := by rw [Nat.pow_zero, Nat.one_mul]
  rw [countTrailingZeros, toNat_ofNat_le hle, List.range_eq_range', zeroRun_from_bottom a hwhole a.isLt]

/-! ## The number of 1 bits -/

theorem countP_testBit {n m : Nat} (hlt : m < 2 ^ n) : (List.range n).countP m.testBit = (Nat.digits 2 m).sum := by
  induction n generalizing m with
  | zero => rw [show m = 0 by simpa using hlt]; simp
  | succ n ih =>
    have hshift : m.testBit ∘ Nat.succ = (m / 2).testBit := funext (Nat.testBit_succ m)
    rw [List.range_succ_eq_map, List.countP_cons, List.countP_map, hshift, ih (by omega), Nat.testBit_zero]
    rcases Nat.eq_zero_or_pos m with rfl | hpos
    · simp
    · rw [Nat.digits_def' one_lt_two hpos, List.sum_cons, Nat.add_comm]
      rcases Nat.mod_two_eq_zero_or_one m with h | h <;> simp [h]

theorem popCount_toNat : (popCount w a).toNat = (Nat.digits 2 a.toNat).sum := by
  have hle : ((List.range w).filter fun i => a.getLsbD i).length ≤ w := by simpa using List.length_filter_le _ (List.range w)
  rw [popCount, toNat_ofNat_le hle, ← List.countP_eq_length_filter]
  exact countP_testBit a.isLt

end

/-! ## The instructions -/

theorem norm_lift1_toNat {xl : Xlen} {a : Word} {f : (w : Nat) → BitVec w → BitVec w} {n : Nat}
    (h : (f xl.bits (a.setWidth xl.bits)).toNat = n) : xl.norm (xl.lift1 f a) = xl.norm (BitVec.ofNat 64 n) := by
  rw [lift1_eq, ← BitVec.ofNat_toNat, h]

theorem norm_zext_toNat {xl : Xlen} {w : Nat} {v : BitVec w} {n : Nat} (h : v.toNat = n) :
    xl.norm (xl.zext v) = xl.norm (BitVec.ofNat 64 n) := by
  rw [norm_zext, h]

/-- Settles O40: each form is a write of its count, at width XLEN or 32. -/
theorem bitCountResults : Obligations.BitCountResults := by
  intro s rd rs1
  simp only [List.forall_mem_cons, xlen_toNat_eq, ← BitVec.toNat_setWidth]
  exact ⟨retiredX_of_retireX rfl (norm_lift1_toNat (countLeadingZeros_toNat _)),
    retiredX_of_retireX rfl (norm_lift1_toNat (countTrailingZeros_toNat _)), retiredX_of_retireX rfl (norm_lift1_toNat (popCount_toNat _)),
    retiredX_of_retireX rfl (norm_zext_toNat (countLeadingZeros_toNat _)),
    retiredX_of_retireX rfl (norm_zext_toNat (countTrailingZeros_toNat _)), retiredX_of_retireX rfl (norm_zext_toNat (popCount_toNat _)),
    List.forall_mem_nil _⟩

end Sys2Proof.Machine
end

section
/-! Bit manipulation, bit by bit: RORI, ORC.B, REV8, the carry-less products and the single-bit instructions (46_bitmanip.md R571, R598, R602
to R614). -/

namespace Sys2Proof.Machine

/-! ## Single bits -/

section
variable {w k : Nat} (n : Nat) (a : BitVec w) (hk : k < w)
include hk

theorem getLsbD_one_shiftLeft : (1#w <<< n).getLsbD k = (k == n) := by
  rw [← BitVec.twoPow_eq, BitVec.getLsbD_twoPow, Bool.eq_iff_iff, Bool.and_eq_true, decide_eq_true_eq, decide_eq_true_eq, beq_iff_eq]
  omega

theorem getLsbD_bitClear : (bitClear n w a).getLsbD k = (a.getLsbD k && k != n) := by
  rw [bitClear, BitVec.getLsbD_and, BitVec.getLsbD_not, getLsbD_one_shiftLeft n hk, decide_eq_true hk, Bool.true_and, bne]

theorem getLsbD_bitInvert : (bitInvert n w a).getLsbD k = (a.getLsbD k != (k == n)) := by
  rw [bitInvert, BitVec.getLsbD_xor, getLsbD_one_shiftLeft n hk]

theorem getLsbD_bitSet : (bitSet n w a).getLsbD k = (a.getLsbD k || k == n) := by
  rw [bitSet, BitVec.getLsbD_or, getLsbD_one_shiftLeft n hk]

theorem getLsbD_bitExtract : (bitExtract n w a).getLsbD k = (k == 0 && a.getLsbD n) := by
  rw [bitExtract, BitVec.getLsbD_and, BitVec.getLsbD_ushiftRight, BitVec.getLsbD_one, decide_eq_true (Nat.zero_lt_of_lt hk)]
  cases k with
  | zero => simp
  | succ k => simp

end

/-! ## Rotate -/

theorem getLsbD_rotR {w k m : Nat} (a : BitVec w) (hm : m < w) (hk : k < w) : (rotR m w a).getLsbD k = a.getLsbD ((k + m) % w) := by
  rw [rotR_eq_rotateRight a hm, BitVec.getLsbD_rotateRight_of_lt hm]
  by_cases hlow : k < w - m
  · rw [decide_eq_true hlow, cond_true, Nat.mod_eq_of_lt (by omega), Nat.add_comm]
  · rw [decide_eq_false hlow, cond_false, decide_eq_true hk, Bool.true_and, Nat.mod_eq_sub_mod (by omega), Nat.mod_eq_of_lt (by omega)]
    congr 1
    omega

/-! ## Bytes -/

theorem getLsbD_ofBytes (w : Nat) (bs : List Byte) (k : Nat) :
    (ofBytes w bs).getLsbD k = (decide (k < w) && (bs[k / 8]?.getD 0#8).getLsbD (k % 8)) := by
  induction bs generalizing k with
  | nil => simp [ofBytes]
  | cons b bs ih =>
    rw [ofBytes, BitVec.getLsbD_or, BitVec.getLsbD_shiftLeft, BitVec.getLsbD_setWidth, ih]
    by_cases hlow : k < 8
    · rw [Nat.div_eq_of_lt hlow, Nat.mod_eq_of_lt hlow]
      simp [hlow]
    · have hbyte : k / 8 = (k - 8) / 8 + 1 := by omega
      have hbit : k % 8 = (k - 8) % 8 := by omega
      have hhigh : b.getLsbD k = false := BitVec.getLsbD_of_ge b k (by omega)
      rw [hbyte, hbit, hhigh, List.getElem?_cons_succ]
      by_cases hk : k < w
      · have hk' : k - 8 < w := by omega
        simp [hk, hk', hlow]
      · simp [hk]

theorem getLsbD_byteOf {w : Nat} (a : BitVec w) (i j : Nat) (hj : j < 8) : (byteOf a i).getLsbD j = a.getLsbD (8 * i + j) := by
  rw [byteOf, BitVec.getLsbD_extractLsb', decide_eq_true hj, Bool.true_and]

/-- A byte is nonzero when one of its bits is set. -/
theorem byteOf_ne_zero_iff {w : Nat} (a : BitVec w) (i : Nat) :
    byteOf a i ≠ 0#8 ↔ ((List.range 8).any fun j => a.getLsbD (8 * i + j)) = true := by
  simp only [List.any_eq_true, List.mem_range]
  constructor
  · intro h
    by_contra hnone
    refine h (BitVec.eq_of_getLsbD_eq fun j hj => ?_)
    rw [getLsbD_byteOf a i j hj, BitVec.getLsbD_zero, ← Bool.not_eq_true]
    exact fun hset => hnone ⟨j, hj, hset⟩
  · rintro ⟨j, hj, hset⟩ h
    rw [← getLsbD_byteOf a i j hj, h, BitVec.getLsbD_zero] at hset
    exact Bool.false_ne_true hset

section
variable {w k : Nat} (a : BitVec w) (h8 : 8 ∣ w) (hk : k < w)
include h8 hk

theorem getLsbD_orcB : (orcB w a).getLsbD k = (List.range 8).any fun j => a.getLsbD (8 * (k / 8) + j) := by
  have hbyte : k / 8 < w / 8 := by omega
  have hones : (0xFF#8).getLsbD (k % 8) = true :=
    BitVec.getLsbD_allOnes.trans (decide_eq_true (Nat.mod_lt k (by decide)))
  rw [orcB, getLsbD_ofBytes, decide_eq_true hk, Bool.true_and, List.getElem?_map, List.getElem?_range hbyte,
    Option.map_some, Option.getD_some]
  by_cases hzero : byteOf a (k / 8) = 0#8
  · rw [if_pos hzero, BitVec.getLsbD_zero, eq_comm, ← Bool.not_eq_true, ← byteOf_ne_zero_iff]
    exact not_not_intro hzero
  · rw [if_neg hzero, hones, (byteOf_ne_zero_iff a (k / 8)).1 hzero]

theorem getLsbD_rev8 : (rev8 w a).getLsbD k = a.getLsbD (w - 8 - 8 * (k / 8) + k % 8) := by
  have hbyte : k / 8 < (List.range (w / 8)).length := by rw [List.length_range]; omega
  rw [rev8, getLsbD_ofBytes, decide_eq_true hk, Bool.true_and, List.getElem?_map, List.getElem?_reverse hbyte, List.length_range,
    List.getElem?_range (by omega), Option.map_some, Option.getD_some, getLsbD_byteOf _ _ _ (Nat.mod_lt _ (by decide))]
  congr 1
  omega

end

/-! ## Carry-less products -/

/-- A bit of an exclusive-or of chosen words is the parity of the chosen words that have it. -/
theorem getLsbD_foldl_xor {w : Nat} (c : Nat → Bool) (v : Nat → BitVec w) (is : List Nat) (acc : BitVec w) (k : Nat) :
    (is.foldl (fun acc i => if c i then acc ^^^ v i else acc) acc).getLsbD k
      = (acc.getLsbD k ^^ ((is.filter fun i => c i && (v i).getLsbD k).length % 2 == 1)) := by
  induction is generalizing acc with
  | nil => simp
  | cons i is ih =>
    rw [List.foldl_cons, ih, List.filter_cons]
    cases hc : c i with
    | false => simp
    | true =>
      cases hv : (v i).getLsbD k with
      | false => simp [hv]
      | true =>
        rcases Nat.mod_two_eq_zero_or_one (is.filter fun i => c i && (v i).getLsbD k).length with h | h <;>
          simp [hv, h, Nat.add_mod]

section
variable {w k : Nat} (a b : Word)

theorem getLsbD_clmulFull (hk : k < 2 * w) : (clmulFull w (a.setWidth w) (b.setWidth w)).getLsbD k = clmulBit a b w k := by
  rw [clmulFull, getLsbD_foldl_xor, BitVec.getLsbD_zero, Bool.false_xor, clmulBit]
  congr 3
  refine List.filter_congr fun j hj => ?_
  rw [List.mem_range] at hj
  by_cases hjk : j ≤ k
  · simp [hj, hk, hjk, Bool.and_left_comm, Bool.and_comm]
  · simp [hjk]

variable (hk : k < w)
include hk

theorem getLsbD_clmulLow : (clmulLow w (a.setWidth w) (b.setWidth w)).getLsbD k = clmulBit a b w k := by
  rw [clmulLow, BitVec.getLsbD_setWidth, decide_eq_true hk, Bool.true_and, getLsbD_clmulFull a b (by omega)]

theorem getLsbD_clmulHigh : (clmulHigh w (a.setWidth w) (b.setWidth w)).getLsbD k = clmulBit a b w (k + w) := by
  rw [clmulHigh, BitVec.getLsbD_extractLsb', decide_eq_true hk, Bool.true_and, getLsbD_clmulFull a b (by omega), Nat.add_comm]

theorem getLsbD_clmulRev : (clmulRev w (a.setWidth w) (b.setWidth w)).getLsbD k = clmulBit a b w (k + w - 1) := by
  rw [clmulRev, BitVec.getLsbD_extractLsb', decide_eq_true hk, Bool.true_and, getLsbD_clmulFull a b (by omega)]
  congr 1
  omega

end

/-! ## The instructions -/

section
variable {i : Instr} {s : State} {rd : RegIdx} {a b : Word} {g : Nat → Bool}

theorem retiredX_of_bits {v : BitVec s.cfg.xlen.bits} (hexec : exec i s = retireX s 4 rd (v.setWidth 64))
    (hbits : ∀ k < s.cfg.xlen.bits, v.getLsbD k = g k) :
    ∃ t r, exec i s = .next t ∧ RetiredX s t 4 rd r ∧ ∀ k < s.cfg.xlen.bits, r.getLsbD k = g k := by
  obtain ⟨t, ht, hr⟩ := retiredX_of_retireX hexec rfl
  refine ⟨t, v.setWidth 64, ht, hr, fun k hk => ?_⟩
  have hk64 : k < 64 := Nat.lt_of_lt_of_le hk (by cases s.cfg.xlen <;> decide)
  rw [BitVec.getLsbD_setWidth, decide_eq_true hk64, Bool.true_and, hbits k hk]

theorem retiredX_of_lift1 {f : (w : Nat) → BitVec w → BitVec w} (hexec : exec i s = retireX s 4 rd (s.cfg.xlen.lift1 f a))
    (hbits : ∀ k < s.cfg.xlen.bits, (f s.cfg.xlen.bits (a.setWidth s.cfg.xlen.bits)).getLsbD k = g k) :
    ∃ t r, exec i s = .next t ∧ RetiredX s t 4 rd r ∧ ∀ k < s.cfg.xlen.bits, r.getLsbD k = g k := by
  rw [lift1_eq] at hexec
  exact retiredX_of_bits hexec hbits

theorem retiredX_of_lift2 {f : (w : Nat) → BitVec w → BitVec w → BitVec w}
    (hexec : exec i s = retireX s 4 rd (s.cfg.xlen.lift2 f a b))
    (hbits : ∀ k < s.cfg.xlen.bits,
      (f s.cfg.xlen.bits (a.setWidth s.cfg.xlen.bits) (b.setWidth s.cfg.xlen.bits)).getLsbD k = g k) :
    ∃ t r, exec i s = .next t ∧ RetiredX s t 4 rd r ∧ ∀ k < s.cfg.xlen.bits, r.getLsbD k = g k := by
  rw [lift2_eq] at hexec
  exact retiredX_of_bits hexec hbits

end

section
variable (xl : Xlen) (a b : Word) {k : Nat}

theorem eight_dvd_bits : 8 ∣ xl.bits := by cases xl <;> decide

theorem getLsbD_low {w : Nat} (hk : k < w) : (a.setWidth w).getLsbD k = a.getLsbD k := by
  rw [BitVec.getLsbD_setWidth, decide_eq_true hk, Bool.true_and]

end

/-- Settles O41: each form is a write of its width-generic function at width XLEN, whose bits are known. -/
theorem bitwiseResults : Obligations.BitwiseResults := by
  intro s rd rs1 rs2 sh
  have h8 := eight_dvd_bits s.cfg.xlen
  simp only [List.forall_mem_append, List.forall_mem_cons]
  refine ⟨⟨retiredX_of_lift1 rfl ?orc_b, retiredX_of_lift1 rfl ?rev8, retiredX_of_lift2 rfl fun _ => getLsbD_clmulLow _ _,
    retiredX_of_lift2 rfl fun _ => getLsbD_clmulHigh _ _, retiredX_of_lift2 rfl fun _ => getLsbD_clmulRev _ _,
    retiredX_of_lift1 rfl ?bclr, retiredX_of_lift1 rfl ?bclri, retiredX_of_lift1 rfl ?bext, retiredX_of_lift1 rfl ?binv,
    retiredX_of_lift1 rfl ?binvi, retiredX_of_lift1 rfl ?bset, retiredX_of_lift1 rfl ?bseti, retiredX_of_lift1 rfl ?bexti,
    List.forall_mem_nil _⟩, ?rori⟩
  case rori =>
    split
    · next hm =>
      rw [List.forall_mem_singleton]
      refine retiredX_of_lift1 rfl fun k hk => ?_
      rw [getLsbD_rotR _ hm hk, getLsbD_low _ (Nat.mod_lt _ (Nat.zero_lt_of_lt hk))]
    · exact List.forall_mem_nil _
  all_goals intro k hk
  case orc_b =>
    rw [getLsbD_orcB _ h8 hk, Bool.eq_iff_iff, List.any_eq_true, List.any_eq_true]
    refine exists_congr fun j => and_congr_right fun hj => ?_
    rw [List.mem_range] at hj
    rw [getLsbD_low _ (by omega)]
  case rev8 => rw [getLsbD_rev8 _ h8 hk, getLsbD_low _ (by omega)]
  case bclr => rw [getLsbD_bitClear _ _ hk, getLsbD_low _ hk, amount_eq]
  case bclri => rw [getLsbD_bitClear _ _ hk, getLsbD_low _ hk]
  case bext => rw [getLsbD_bitExtract _ _ hk, getLsbD_low _ (amount_lt_bits _ _), amount_eq]
  case binv => rw [getLsbD_bitInvert _ _ hk, getLsbD_low _ hk, amount_eq]
  case binvi => rw [getLsbD_bitInvert _ _ hk, getLsbD_low _ hk]
  case bset => rw [getLsbD_bitSet _ _ hk, getLsbD_low _ hk, amount_eq]
  case bseti => rw [getLsbD_bitSet _ _ hk, getLsbD_low _ hk]
  case bexti => rw [getLsbD_bitExtract _ _ hk, BitVec.getLsbD_setWidth, Bool.and_comm (decide _), Bool.and_assoc]

end Sys2Proof.Machine
end

section
/-! MRET and SRET; WFI and the fences (47_system_csr.md R640 to R644; 40_base_integer.md R302, R303). -/

namespace Sys2Proof.Machine

/-! ## The returns -/

theorem leaveM_enables (m : Word) : getBit posMIE (leaveM m) = getBit posMPIE m ∧ getBit posMPIE (leaveM m) = true := by
  constructor <;> unfold leaveM <;>
    rw [getBit_setField2 _ _ _ _ (by decide) (by decide), getBit_setBit _ _ _ _ (by decide)]
  · rw [if_neg (by decide), getBit_setBit _ _ _ _ (by decide), if_pos rfl]
  · exact if_pos rfl

theorem leaveS_enables (m : Word) : getBit posSIE (leaveS m) = getBit posSPIE m ∧ getBit posSPIE (leaveS m) = true := by
  constructor <;> unfold leaveS <;>
    rw [getBit_setBit _ _ _ _ (by decide), if_neg (by decide), getBit_setBit _ _ _ _ (by decide)]
  · rw [if_neg (by decide), getBit_setBit _ _ _ _ (by decide), if_pos rfl]
  · exact if_pos rfl

theorem getBit_SPP_leaveS (m : Word) : getBit posSPP (leaveS m) = false := by
  unfold leaveS
  rw [getBit_setBit _ _ _ _ (by decide), if_pos rfl]

/-- Where an instruction of S mode is legal, when a bit of mstatus may forbid it there: the negation of the model's test. -/
theorem supervisor_legal_iff (p : Priv) (b : Bool) :
    p = .M ∨ (p = .S ∧ b = false) ↔ ¬ (p == .U || (p == .S && b)) = true := by
  cases p <;> cases b <;> decide

theorem supervisor_illegal_iff (p : Priv) (b : Bool) :
    p = .U ∨ (p = .S ∧ b = true) ↔ (p == .U || (p == .S && b)) = true := by
  cases p <;> cases b <;> decide

/-- Settles O14: a legal return is a transfer to the saved pc in the state with `leaveM` or `leaveS` of mstatus; elsewhere it is a raise. -/
theorem trapReturns : Obligations.TrapReturns := by
  refine fun s => ⟨fun hM => ?_, fun hM => ?_, fun hlegal => ?_, fun hillegal => ?_⟩
  · obtain ⟨hmie, hmpie⟩ := leaveM_enables s.csr.mstatus
    have hexec : exec .mret s = retireTo (returnM s) s.csr.mepc .jump none := if_neg (by rw [hM]; decide)
    exact ⟨_, hexec, rfl, hmie, hmpie, getField2_leaveM _, leaveM_bits _, rfl, rfl⟩
  · have hexec : exec .mret s = raiseIllegal s .mret := if_pos (bne_iff_ne.2 hM)
    rw [hexec]
    exact raise_spec s 2 _
  · obtain ⟨hsie, hspie⟩ := leaveS_enables s.csr.mstatus
    have hexec : exec .sret s = retireTo (returnS s) s.csr.sepc .jump none := if_neg ((supervisor_legal_iff _ _).1 hlegal)
    exact ⟨_, hexec, rfl, hsie, hspie, getBit_SPP_leaveS _, leaveS_bits _, rfl, rfl⟩
  · have hexec : exec .sret s = raiseIllegal s .sret := if_pos ((supervisor_illegal_iff _ _).1 hillegal)
    rw [hexec]
    exact raise_spec s 2 _

/-! ## WFI and the fences -/

/-- Settles O15: a legal one retires in the state with its flag or caches changed; elsewhere it is a raise. -/
theorem waitAndFences : Obligations.WaitAndFences := by
  refine fun s fm p q imm r1 r2 => ⟨fun hlegal => ?_, fun hM hTW => ?_, fun hlegal => ?_, fun hillegal => ?_, ?_, ?_⟩
  · have htest : (s.priv != .M && getBit posTW s.csr.mstatus) = false := by
      rcases hlegal with h | h <;> rw [h]
      · rfl
      · exact Bool.and_false _
    have hexec : exec .wfi s = retire { s with powerDown := true } 4 := if_neg (by rw [htest]; decide)
    rw [hexec]
    exact retire_spec _ 4
  · have hexec : exec .wfi s = raiseIllegal s .wfi := if_pos (by rw [bne_iff_ne.2 hM, hTW]; rfl)
    rw [hexec]
    exact raise_spec s 2 _
  · have hexec : exec (.sfence_vma r1 r2) s = retire s.flushAll 4 := if_neg ((supervisor_legal_iff _ _).1 hlegal)
    rw [hexec]
    exact retire_spec _ 4
  · have hexec : exec (.sfence_vma r1 r2) s = raiseIllegal s (.sfence_vma r1 r2) :=
      if_pos ((supervisor_illegal_iff _ _).1 hillegal)
    rw [hexec]
    exact raise_spec s 2 _
  · exact retire_spec s.flushCode 4
  · exact retire_spec s 4

end Sys2Proof.Machine
end

section
/-! Which CSR a number names and who may access it (10_state.md R51; 47_system_csr.md R631). -/

namespace Sys2Proof.Machine

/-! ## The register a number names -/

/-- The table of 10_state.md R51: the numbers of the registers. -/
def csrTable : List (BitVec 12 × CsrName) :=
  [(0x001, .fflags), (0x002, .frm), (0x003, .fcsr),
    (0xC00, .cycle), (0xC01, .time), (0xC02, .instret), (0xC80, .cycleh), (0xC81, .timeh), (0xC82, .instreth),
    (0x100, .sstatus), (0x104, .sie), (0x105, .stvec), (0x106, .scounteren), (0x140, .sscratch), (0x141, .sepc),
    (0x142, .scause), (0x143, .stval), (0x144, .sip), (0x180, .satp),
    (0xF11, .mvendorid), (0xF12, .marchid), (0xF13, .mimpid), (0xF14, .mhartid),
    (0x300, .mstatus), (0x301, .misa), (0x302, .medeleg), (0x303, .mideleg), (0x304, .mie), (0x305, .mtvec),
    (0x306, .mcounteren), (0x340, .mscratch), (0x341, .mepc), (0x342, .mcause), (0x343, .mtval), (0x344, .mip),
    (0xB00, .mcycle), (0xB02, .minstret), (0xB80, .mcycleh), (0xB82, .minstreth)]

theorem ofNum_eq_some_iff (n : BitVec 12) (r : CsrName) : CsrName.ofNum n = some r ↔ (n, r) ∈ csrTable := by
  constructor
  · intro h
    unfold CsrName.ofNum at h
    split at h <;> cases h <;> decide
  · have htable : ∀ p ∈ csrTable, CsrName.ofNum p.1 = some p.2 := by decide
    exact htable (n, r)

theorem present_iff (c : Config) (r : CsrName) :
    r.present c = true ↔ (r ∈ [CsrName.fflags, .frm, .fcsr] → c.flen ≠ .f0)
      ∧ (r ∈ [CsrName.cycleh, .timeh, .instreth, .mcycleh, .minstreth] → c.xlen = .rv32) := by
  cases r <;> simp [CsrName.present]

theorem lookupCsr_eq_some_iff (c : Config) (n : BitVec 12) (r : CsrName) :
    lookupCsr c n = some r ↔ CsrName.ofNum n = some r ∧ r.present c = true := by
  have hfilter : lookupCsr c n = (CsrName.ofNum n).filter (·.present c) := by
    unfold lookupCsr
    cases CsrName.ofNum n <;> rfl
  rw [hfilter, Option.filter_eq_some_iff]

theorem csrAccess_eq_some_iff (s : State) (n : BitVec 12) (writes : Bool) (r : CsrName) :
    s.csrAccess n writes = some r ↔ lookupCsr s.cfg n = some r ∧ s.csrAllowed n r writes = true := by
  have hfilter : s.csrAccess n writes = (lookupCsr s.cfg n).filter (s.csrAllowed n · writes) := by
    unfold State.csrAccess
    cases lookupCsr s.cfg n <;> rfl
  rw [hfilter, Option.filter_eq_some_iff]

/-! ## The checks on a register that exists -/

/-- The level a number asks for: bits 9:8, the code 2 read as 3. -/
theorem privGe_csrLevel_iff (p : Priv) (n : BitVec 12) :
    privGe p (csrLevel n) = true ↔
      (if n.toNat / 256 % 4 = 2 then 3 else n.toNat / 256 % 4) ≤ (privBits p).toNat := by
  have hlevel : ∀ b : BitVec 2, (privBits (privOfBits b)).toNat = if b.toNat = 2 then 3 else b.toNat := by decide
  have hbits : (n.extractLsb' 8 2).toNat = n.toNat / 256 % 4 := by
    rw [BitVec.extractLsb'_toNat, Nat.shiftRight_eq_div_pow]
  rw [privGe, decide_eq_true_eq, csrLevel, hlevel, hbits]

theorem csrReadOnly_iff (n : BitVec 12) : csrReadOnly n = true ↔ n.toNat / 1024 = 3 := by
  rw [csrReadOnly, beq_iff_eq, ← BitVec.toNat_inj, BitVec.extractLsb'_toNat, Nat.shiftRight_eq_div_pow,
    Nat.mod_eq_of_lt (by omega)]
  rfl

theorem counterBit_eq_some_iff (r : CsrName) (b : Nat) :
    counterBit r = some b ↔ ((r = .cycle ∨ r = .cycleh) ∧ b = 0) ∨ ((r = .time ∨ r = .timeh) ∧ b = 1)
      ∨ ((r = .instret ∨ r = .instreth) ∧ b = 2) := by
  cases r <;> simp [counterBit, eq_comm]

theorem counterOk_iff (s : State) (r : CsrName) :
    s.counterOk r = true ↔ ∀ b, counterBit r = some b →
      (s.priv = .M ∨ s.csr.mcounteren.getLsbD b = true) ∧ (s.priv ≠ .U ∨ s.csr.scounteren.getLsbD b = true) := by
  unfold State.counterOk
  cases counterBit r <;> simp

theorem csrAllowed_iff (s : State) (n : BitVec 12) (r : CsrName) (writes : Bool) :
    s.csrAllowed n r writes = true ↔ privGe s.priv (csrLevel n) = true ∧ ¬ (writes = true ∧ csrReadOnly n = true)
      ∧ (r = .fflags ∨ r = .frm ∨ r = .fcsr → fieldFS s.csr.mstatus ≠ 0)
      ∧ (r = .satp → s.priv = .S → getBit posTVM s.csr.mstatus = false) ∧ s.counterOk r = true := by
  unfold State.csrAllowed
  rw [Bool.and_eq_true, Bool.and_eq_true, Bool.and_eq_true, and_assoc, and_assoc,
    ← and_assoc (a := r = .fflags ∨ r = .frm ∨ r = .fcsr → _)]
  refine and_congr_right fun _ => and_congr ?readOnly (and_congr_left fun _ => ?field)
  case readOnly => rw [Bool.not_eq_true', Bool.eq_false_iff, ne_eq, Bool.and_eq_true]
  case field => cases r <;> simp [imp_iff_not_or]

/-- Settles O18: an access is a register of the table that exists and that every check allows. -/
theorem csrAccessRule : Obligations.CsrAccessRule := by
  intro s n writes r
  rw [csrAccess_eq_some_iff, lookupCsr_eq_some_iff, ofNum_eq_some_iff, present_iff, csrAllowed_iff, privGe_csrLevel_iff,
    csrReadOnly_iff, counterOk_iff]
  simp only [counterBit_eq_some_iff, and_assoc]
  rfl

end Sys2Proof.Machine
end

section
/-! The six CSR instructions (47_system_csr.md R632 to R639, R645; 10_state.md R44). -/

namespace Sys2Proof.Machine

/-! ## What a write leaves as it reads -/

section
variable {s : State} {v : Word}

theorem writeCsr_satp_of_accepted (h : s.cfg.satpModes.contains (satpMode s.cfg.xlen (s.cfg.xlen.norm v)) = true) :
    s.writeCsr .satp v
      = ({ s with csr := { s.csr with satp := satpStored s.cfg.xlen (s.cfg.xlen.norm v) } } : State).flushAll :=
  if_pos h

theorem writeCsr_satp_of_refused (h : ¬ s.cfg.satpModes.contains (satpMode s.cfg.xlen (s.cfg.xlen.norm v)) = true) :
    s.writeCsr .satp v = s :=
  if_neg h

end

/-- What a read of a register that shows no counter depends on. -/
theorem readCsr_congr {s t : State} {q : CsrName} (hq : q.showsCounter = false) (hcfg : t.cfg = s.cfg) (hcsr : t.csr = s.csr)
    (hhartid : t.hartid = s.hartid) (htime : t.timeIn = s.timeIn) : t.readCsr q = s.readCsr q := by
  unfold State.readCsr
  rw [hcfg, hcsr, hhartid, htime]
  cases q with
  | mcycle | mcycleh | cycle | cycleh | minstret | minstreth | instret | instreth => cases hq
  | _ => rfl

/-- A new fcsr, and FS dirty, show in five registers: in two of them only as far as their part of fcsr changed. -/
theorem readCsr_fcsr_dirtyFS (s : State) (x : BitVec 8) {q : CsrName} (hq : q ∉ [CsrName.fcsr, .mstatus, .sstatus])
    (hflags : q = .fflags → x.extractLsb' 0 5 = s.csr.fcsr.extractLsb' 0 5)
    (hfrm : q = .frm → x.extractLsb' 5 3 = s.csr.fcsr.extractLsb' 5 3) :
    ({ s with csr := { s.csr with fcsr := x } } : State).dirtyFS.readCsr q = s.readCsr q := by
  cases q with
  | fcsr | mstatus | sstatus => exact absurd (by decide) hq
  | fflags => exact congrArg (fun b : BitVec 5 => s.cfg.xlen.norm (b.setWidth 64)) (hflags rfl)
  | frm => exact congrArg (fun b : BitVec 3 => s.cfg.xlen.norm (b.setWidth 64)) (hfrm rfl)
  | _ => rfl

/-- A register that shares nothing with the one written reads as before. -/
theorem readCsr_writeCsr_of_not_mem_affects (s : State) {r q : CsrName} (v : Word) (hq : q ∉ r.affects) :
    (s.writeCsr r v).readCsr q = s.readCsr q := by
  cases r with
  | cycle | time | instret | cycleh | timeh | instreth | mvendorid | marchid | mimpid | mhartid | misa => rfl
  | mstatus | sstatus => cases q with
    | mstatus | sstatus => exact absurd (by decide) hq
    | _ => rfl
  | mie | sie => cases q with
    | mie | sie => exact absurd (by decide) hq
    | _ => rfl
  | mip | sip => cases q with
    | mip | sip => exact absurd (by decide) hq
    | _ => rfl
  | mideleg => cases q with
    | mideleg | sie | sip => exact absurd (by decide) hq
    | _ => rfl
  | mcycle | mcycleh => cases q with
    | mcycle | mcycleh | cycle | cycleh => exact absurd (by decide) hq
    | _ => rfl
  | minstret | minstreth => cases q with
    | minstret | minstreth | instret | instreth => exact absurd (by decide) hq
    | _ => rfl
  | fflags =>
    refine readCsr_fcsr_dirtyFS s _ (fun h => hq (List.mem_of_mem_tail h)) ?_ (fun _ => BitVec.extractLsb'_append_eq_left)
    rintro rfl
    exact absurd (by decide) hq
  | frm =>
    refine readCsr_fcsr_dirtyFS s _ (fun h => hq (List.mem_cons_of_mem _ h)) (fun _ => BitVec.extractLsb'_append_eq_right) ?_
    rintro rfl
    exact absurd (by decide) hq
  | fcsr =>
    refine readCsr_fcsr_dirtyFS s _ (fun h => hq (List.mem_of_mem_tail (List.mem_of_mem_tail h))) ?_ ?_ <;>
      (rintro rfl; exact absurd (by decide) hq)
  | satp =>
    by_cases haccepted : s.cfg.satpModes.contains (satpMode s.cfg.xlen (s.cfg.xlen.norm v)) = true
    · rw [writeCsr_satp_of_accepted haccepted]
      cases q with
      | satp => exact absurd (by decide) hq
      | _ => rfl
    · rw [writeCsr_satp_of_refused haccepted]
  | stvec | scounteren | sscratch | sepc | scause | stval | medeleg | mtvec | mcounteren | mscratch | mepc | mcause | mtval =>
    -- A register of its own: any other reads another field.
    cases q <;> first | rfl | exact absurd (by decide) hq

theorem CsrDone.readCsr {s t : State} {r q : CsrName} {rd : RegIdx} {writes : Bool} {new : Word} (h : CsrDone s t r rd writes new)
    (hq : q ∉ r.affects ∨ writes = false) (hcounter : q.showsCounter = false) : t.readCsr q = s.readCsr q := by
  have hretire : t.readCsr q = (if writes then s.writeCsr r new else s).readCsr q := by
    rw [h.frame]
    exact readCsr_congr hcounter rfl rfl rfl rfl
  rw [hretire]
  cases writes with
  | false => rfl
  | true => exact readCsr_writeCsr_of_not_mem_affects s new (hq.resolve_right (by decide))

/-! ## The translation caches -/

theorem writeCsr_caches (s : State) (r : CsrName) (v : Word) :
    if r = .satp ∧ s.cfg.satpModes.contains (satpMode s.cfg.xlen (s.cfg.xlen.norm v)) = true
      then (s.writeCsr r v).tlbCode = [] ∧ (s.writeCsr r v).tlbData = [] ∧ (s.writeCsr r v).tlbStore = []
      else (s.writeCsr r v).tlbCode = s.tlbCode ∧ (s.writeCsr r v).tlbData = s.tlbData
        ∧ (s.writeCsr r v).tlbStore = s.tlbStore := by
  split
  · next h =>
    obtain ⟨rfl, haccepted⟩ := h
    rw [writeCsr_satp_of_accepted haccepted]
    exact ⟨rfl, rfl, rfl⟩
  · next h =>
    cases r with
    | satp =>
      rw [writeCsr_satp_of_refused fun haccepted => h ⟨rfl, haccepted⟩]
      exact ⟨rfl, rfl, rfl⟩
    | _ => exact ⟨rfl, rfl, rfl⟩

theorem CsrDone.caches {s t : State} {r : CsrName} {rd : RegIdx} {writes : Bool} {v : Word} (h : CsrDone s t r rd writes v) :
    if r = .satp ∧ writes = true ∧ s.cfg.satpModes.contains (satpMode s.cfg.xlen (s.cfg.xlen.norm v)) = true
      then t.tlbCode = [] ∧ t.tlbData = [] ∧ t.tlbStore = []
      else t.tlbCode = s.tlbCode ∧ t.tlbData = s.tlbData ∧ t.tlbStore = s.tlbStore := by
  rw [h.frame]
  cases writes with
  | false =>
    rw [if_neg fun hwrites => Bool.false_ne_true hwrites.2.1]
    exact ⟨rfl, rfl, rfl⟩
  | true =>
    simp only [true_and]
    exact writeCsr_caches s r v

/-- Settles O17: each instruction is the shared operation with its new value, which answers `CsrDone` or a trap. -/
theorem csrInstructionsComplete : Obligations.CsrInstructionsComplete := by
  intro s rd rs1 uimm n r old z p hp
  have hexec : ∃ f, exec p.1 s = csrOp s p.1 n p.2.1 rd f ∧ f (s.readCsr r) = p.2.2 := by
    simp only [List.mem_cons, List.not_mem_nil, or_false] at hp
    rcases hp with rfl | rfl | rfl | rfl | rfl | rfl
    · exact ⟨fun _ => s.getX rs1, rfl, rfl⟩
    · exact ⟨fun x => x ||| s.getX rs1, rfl, rfl⟩
    · exact ⟨fun x => x &&& ~~~s.getX rs1, rfl, rfl⟩
    · exact ⟨fun _ => z, rfl, rfl⟩
    · exact ⟨fun x => x ||| z, rfl, rfl⟩
    · exact ⟨fun x => x &&& ~~~z, rfl, rfl⟩
  obtain ⟨f, hexec, hnew⟩ := hexec
  rw [hexec, ← hnew]
  refine ⟨fun hallowed => ?_, csrOp_denied _ _ _ _ _ _⟩
  obtain ⟨t, ht, hdone⟩ := csrOp_done s p.1 n p.2.1 rd f r hallowed
  exact ⟨t, ht, hdone, fun q => hdone.readCsr, hdone.caches⟩

end Sys2Proof.Machine
end

section
/-! What control registers read as after a write: the masked ones, fcsr and the counters (10_state.md R44, R55 to R76). -/

namespace Sys2Proof.Machine

/-! ## Words of XLEN bits -/

theorem and_eq_of_within {m a : Word} (h : within m a) : a &&& m = a := by
  refine BitVec.eq_of_getLsbD_eq fun k hk => ?_
  have hbit := congrArg (BitVec.getLsbD · k) h
  simp only [BitVec.getLsbD_and, BitVec.getLsbD_not, hk, decide_true, Bool.true_and] at hbit ⊢
  cases hm : m.getLsbD k <;> simp_all

section
variable {xl : Xlen} {a b m : Word}

/-- A register whose mask is below 2^32 fits both widths. -/
theorem fits_of_within (h : within m a) (hm : m.toNat < 2 ^ 32) : fits xl a := by
  rw [← and_eq_of_within h, BitVec.and_comm]
  exact fits_and xl m a (fits_of_lt (.inr hm))

theorem fits_or (ha : fits xl a) (hb : fits xl b) : fits xl (a ||| b) := by
  cases xl with
  | rv64 => rfl
  | rv32 =>
    unfold fits at *
    rw [← ha, ← hb]
    simp [Xlen.norm]

theorem fits_maskedWrite (ha : fits xl a) (hb : fits xl b) : fits xl (maskedWrite m a b) :=
  fits_or (fits_and _ _ _ ha) (fits_and _ _ _ hb)

end

/-- The low `n` bits of a word, as a mask. -/
theorem setWidth_setWidth_eq_and (n : Nat) (hn : n ≤ 64) (v : Word) :
    (v.setWidth n).setWidth 64 = v &&& BitVec.ofNat 64 (2 ^ n - 1) := by
  have hmask : 2 ^ n - 1 < 2 ^ 64 := by
    have hpow : 2 ^ n ≤ 2 ^ 64 := Nat.pow_le_pow_right (by decide) hn
    omega
  refine BitVec.eq_of_toNat_eq ?_
  rw [BitVec.toNat_setWidth_of_le hn, BitVec.toNat_setWidth, BitVec.toNat_and, BitVec.toNat_ofNat,
    Nat.mod_eq_of_lt hmask, Nat.and_two_pow_sub_one_eq_mod]

/-- A value of at most 32 bits reads as it is at both widths. -/
theorem norm_setWidth {xl : Xlen} {n : Nat} (hn : n ≤ 32) (b : BitVec n) : xl.norm (b.setWidth 64) = b.setWidth 64 := by
  refine fits_of_lt (.inr ?_)
  rw [BitVec.toNat_setWidth_of_le (by omega)]
  exact Nat.lt_of_lt_of_le b.isLt (Nat.pow_le_pow_right (by decide) hn)

theorem fits_satpStored (xl : Xlen) (v : Word) : fits xl (satpStored xl v) := by
  cases xl with
  | rv64 => rfl
  | rv32 => exact fits_of_within (within_and 0x803FFFFF v) (by decide)

/-! ## Masked writes read under the mask -/

/-- A write to a part `p` of the mask `m`, read under the mask. -/
theorem maskedWrite_and_mask (m a v p : Word) :
    maskedWrite (m &&& p) a v &&& m = (a &&& m &&& ~~~p) ||| (v &&& m &&& p) := by
  refine BitVec.eq_of_getLsbD_eq fun k hk => ?_
  simp only [maskedWrite, BitVec.getLsbD_and, BitVec.getLsbD_or, BitVec.getLsbD_not, hk, decide_true, Bool.true_and]
  cases m.getLsbD k <;> simp

theorem counteren_readsBack (xl : Xlen) (v : Word) : xl.norm ((v.setWidth 32 &&& 7).setWidth 64) = v &&& 7 := by
  rw [norm_setWidth (by decide), BitVec.setWidth_and, setWidth_setWidth_eq_and 32 (by decide), BitVec.and_assoc]
  rfl

/-! ## fcsr and its parts -/

section
variable (s : State) (v : Word)

theorem fcsr_readsBack : (s.writeCsr .fcsr v).readCsr .fcsr = s.cfg.xlen.norm v &&& 0xFF :=
  (norm_setWidth (by decide) _).trans (setWidth_setWidth_eq_and 8 (by decide) _)

theorem fflags_readsBack : (s.writeCsr .fflags v).readCsr .fflags = s.cfg.xlen.norm v &&& 0x1F :=
  calc (s.writeCsr .fflags v).readCsr .fflags
    _ = _ := norm_setWidth (n := 5) (by decide) _
    _ = ((s.cfg.xlen.norm v).setWidth 5).setWidth 64 := congrArg (BitVec.setWidth 64) BitVec.extractLsb'_append_eq_right
    _ = _ := setWidth_setWidth_eq_and 5 (by decide) _

theorem frm_readsBack : (s.writeCsr .frm v).readCsr .frm = s.cfg.xlen.norm v &&& 7 :=
  calc (s.writeCsr .frm v).readCsr .frm
    _ = _ := norm_setWidth (n := 3) (by decide) _
    _ = ((s.cfg.xlen.norm v).setWidth 3).setWidth 64 := congrArg (BitVec.setWidth 64) BitVec.extractLsb'_append_eq_left
    _ = _ := setWidth_setWidth_eq_and 3 (by decide) _

theorem fcsr_after_fflags :
    (s.writeCsr .fflags v).readCsr .fcsr = (s.csr.fcsr.setWidth 64 &&& 0xE0) ||| (s.cfg.xlen.norm v &&& 0x1F) := by
  have hfrm : ∀ b : BitVec 8, (b.extractLsb' 5 3).setWidth 64 <<< 5 = b.setWidth 64 &&& 0xE0#64 := by decide
  calc (s.writeCsr .fflags v).readCsr .fcsr
    _ = _ := norm_setWidth (n := 8) (by decide) _
    _ = (s.csr.fcsr.extractLsb' 5 3).setWidth 64 <<< 5 ||| ((s.cfg.xlen.norm v).setWidth 5).setWidth 64 :=
      BitVec.setWidth_append_eq_shiftLeft_setWidth_or
    _ = _ := congrArg₂ (· ||| ·) (hfrm _) (setWidth_setWidth_eq_and 5 (by decide) _)

theorem fcsr_after_frm : (s.writeCsr .frm v).readCsr .fcsr
    = (s.csr.fcsr.setWidth 64 &&& 0x1F) ||| ((s.cfg.xlen.norm v &&& 7) <<< 5) := by
  have hflags : ∀ b : BitVec 8, (b.extractLsb' 0 5).setWidth 64 = b.setWidth 64 &&& 0x1F#64 := by decide
  calc (s.writeCsr .frm v).readCsr .fcsr
    _ = _ := norm_setWidth (n := 8) (by decide) _
    _ = ((s.cfg.xlen.norm v).setWidth 3).setWidth 64 <<< 5 ||| (s.csr.fcsr.extractLsb' 0 5).setWidth 64 :=
      BitVec.setWidth_append_eq_shiftLeft_setWidth_or
    _ = (s.cfg.xlen.norm v &&& 7) <<< 5 ||| (s.csr.fcsr.setWidth 64 &&& 0x1F) := by
      rw [setWidth_setWidth_eq_and 3 (by decide), hflags]
      rfl
    _ = _ := BitVec.or_comm _ _

/-- A write of fcsr or a part of it changes fcsr and makes FS dirty (10_state.md R39). -/
theorem writeCsr_fcsr_eq {r : CsrName} (hr : r ∈ [CsrName.fflags, .frm, .fcsr]) :
    ∃ x, s.writeCsr r v = ({ s with csr := { s.csr with fcsr := x } } : State).dirtyFS := by
  simp only [List.mem_cons, List.not_mem_nil, or_false] at hr
  rcases hr with rfl | rfl | rfl <;> exact ⟨_, rfl⟩

end

/-! ## The counters in halves -/

section
variable (xl : Xlen) (c v : Word)

theorem counterLow_toNat : (xl.norm (counterLow xl c)).toNat = c.toNat % 2 ^ xl.bits := by
  rw [counterLow, norm_norm, norm_toNat]
  cases xl with
  | rv32 => exact BitVec.toNat_setWidth 32 c
  | rv64 => exact (Nat.mod_eq_of_lt c.isLt).symm

theorem counterLow_setCounterLow : xl.norm (counterLow xl (setCounterLow xl c (xl.norm v))) = xl.norm v := by
  rw [counterLow, norm_norm]
  cases xl with
  | rv64 => rfl
  | rv32 => exact (congrArg (BitVec.setWidth 64) BitVec.setWidth_append_eq_right).trans (norm_norm .rv32 v)

variable {xl} (hxl : xl = .rv32)
include hxl

/-- The `h` register shows the upper half as it is. -/
theorem norm_counterHigh : xl.norm (counterHigh c) = (c.extractLsb' 32 32).setWidth 64 := by
  subst hxl
  exact congrArg (BitVec.setWidth 64) BitVec.setWidth_ushiftRight_eq_extractLsb

theorem counterHigh_toNat : (xl.norm (counterHigh c)).toNat = c.toNat / 2 ^ 32 := by
  rw [norm_counterHigh c hxl, BitVec.toNat_setWidth_of_le (by decide), BitVec.extractLsb'_toNat, Nat.shiftRight_eq_div_pow]
  exact Nat.mod_eq_of_lt (Nat.div_lt_of_lt_mul c.isLt)

theorem counterLow_setCounterHigh : xl.norm (counterLow xl (setCounterHigh c v)) = xl.norm (counterLow xl c) := by
  rw [counterLow, counterLow, norm_norm, norm_norm]
  subst hxl
  exact congrArg (BitVec.setWidth 64) BitVec.setWidth_append_eq_right

theorem counterHigh_setCounterLow : xl.norm (counterHigh (setCounterLow xl c v)) = xl.norm (counterHigh c) := by
  rw [norm_counterHigh _ hxl, norm_counterHigh _ hxl]
  subst hxl
  exact congrArg (BitVec.setWidth 64) BitVec.extractLsb'_append_eq_left

theorem counterHigh_setCounterHigh : xl.norm (counterHigh (setCounterHigh c (xl.norm v))) = xl.norm v := by
  rw [norm_counterHigh _ hxl, setCounterHigh, BitVec.extractLsb'_append_eq_left]
  subst hxl
  exact norm_norm .rv32 v

end

end Sys2Proof.Machine
end

section
/-! mstatus, sstatus and misa, bit by bit (10_state.md R52 to R54). -/

namespace Sys2Proof.Machine

theorem getBit_norm {xl : Xlen} {k : Nat} (hk : k < xl.bits) (a : Word) : getBit k (xl.norm a) = getBit k a := by
  cases xl with
  | rv64 => rfl
  | rv32 =>
    have hk32 : k < 32 := hk
    simp [getBit, Xlen.norm, hk32, (by omega : k < 64)]

theorem lt_64_of_lt_SD {xl : Xlen} {k : Nat} (hk : k < xl.bits - 1) : k < 64 := by
  have hbits : xl.bits ≤ 64 := by cases xl <;> decide
  omega

theorem getBit_and (k : Nat) (a b : Word) : getBit k (a &&& b) = (getBit k a && getBit k b) := BitVec.getLsbD_and

theorem getBit_or (k : Nat) (a b : Word) : getBit k (a ||| b) = (getBit k a || getBit k b) := BitVec.getLsbD_or

theorem getBit_not {k : Nat} (hk : k < 64) (a : Word) : getBit k (~~~a) = !getBit k a := by simp [getBit, hk]

theorem getLsbD_zero_getField2 (i : Nat) (m : Word) : (getField2 i m).getLsbD 0 = getBit i m := by
  simp [getField2, getBit]

theorem getBit_maskedWrite (mask m v : Word) {k : Nat} (hk : k < 64) :
    getBit k (maskedWrite mask m v) = if getBit k mask = true then getBit k v else getBit k m := by
  rw [maskedWrite, getBit_or, getBit_and, getBit_and, getBit_not hk]
  cases getBit k mask <;> simp

/-! ## The mask -/

theorem mstatusMask_writable (c : Config) : 0x007E7FAA &&& mstatusMask c = mstatusMask c := by
  unfold mstatusMask
  split <;> split <;> decide

theorem getBit_mstatusMask_FS {c : Config} (h : c.flen ≠ .f0) :
    getBit posFS (mstatusMask c) = true ∧ getBit (posFS + 1) (mstatusMask c) = true := by
  unfold mstatusMask
  rw [if_neg h]
  split <;> decide

theorem getBit_mstatusMask_MPP (c : Config) :
    getBit posMPP (mstatusMask c) = true ∧ getBit (posMPP + 1) (mstatusMask c) = true := by
  unfold mstatusMask
  split <;> split <;> decide

/-- SD is not stored. -/
theorem getBit_mstatusMask_SD (c : Config) : getBit (c.xlen.bits - 1) (mstatusMask c) = false := by
  unfold mstatusMask
  cases c.xlen <;> split <;> split <;> decide

/-- XS is not implemented, so SD does not depend on it. -/
theorem getField2_XS_masked (c : Config) (m : Word) : getField2 posXS (m &&& mstatusMask c) ≠ 3#2 := by
  have hXS : getBit posXS (mstatusMask c) = false := by
    unfold mstatusMask
    split <;> split <;> decide
  intro h
  have hbit := getBit_and posXS m (mstatusMask c)
  rw [← getLsbD_zero_getField2, h, hXS, Bool.and_false] at hbit
  cases hbit

/-! ## A read -/

section
variable (c : Config) (m : Word)

theorem getBit_sdBit (xl : Xlen) {k : Nat} (hk : k < xl.bits - 1) : getBit k (sdBit xl m) = false := by
  unfold sdBit
  split
  · cases xl with
    | rv32 => exact (by decide : ∀ k < 31, getBit k 0x80000000 = false) k hk
    | rv64 => exact (by decide : ∀ k < 63, getBit k 0x8000000000000000 = false) k hk
  · exact getBit_of_zero k

/-- Below SD, mstatus reads as its stored bits and the constants UXL and SXL. -/
theorem getBit_mstatusRead {k : Nat} (hk : k < c.xlen.bits - 1) :
    getBit k (c.xlen.norm (mstatusRead c m)) = (getBit k (m &&& mstatusMask c) || getBit k (mstatusReset c.xlen)) := by
  rw [getBit_norm (by omega), mstatusRead, getBit_or, getBit_or, getBit_sdBit _ _ hk, Bool.or_false]

/-- The fields below the constants read as they are stored. -/
theorem getField2_mstatusRead {i : Nat} (hi : i < 30) :
    getField2 i (c.xlen.norm (mstatusRead c m)) = getField2 i (m &&& mstatusMask c) := by
  have hbit : ∀ k < 31, getBit k (c.xlen.norm (mstatusRead c m)) = getBit k (m &&& mstatusMask c) := by
    intro k hk
    have hreset : ∀ k < 31, getBit k (mstatusReset c.xlen) = false := by cases c.xlen <;> decide
    have hbits : 32 ≤ c.xlen.bits := by cases c.xlen <;> decide
    rw [getBit_mstatusRead _ _ (by omega), hreset k hk, Bool.or_false]
  exact getField2_eq_bits _ _ _ (hbit i (by omega)) (hbit (i + 1) (by omega))

/-- SD is set when a field it summarises is dirty. -/
theorem getBit_SD_mstatusRead :
    getBit (c.xlen.bits - 1) (c.xlen.norm (mstatusRead c m)) = true ↔
      fieldFS (c.xlen.norm (mstatusRead c m)) = 3#2 ∨ fieldVS (c.xlen.norm (mstatusRead c m)) = 3#2 := by
  have hsd : getBit (c.xlen.bits - 1) (c.xlen.norm (mstatusRead c m))
      = getBit (c.xlen.bits - 1) (sdBit c.xlen (m &&& mstatusMask c)) := by
    have hreset : getBit (c.xlen.bits - 1) (mstatusReset c.xlen) = false := by cases c.xlen <;> decide
    have hlt : c.xlen.bits - 1 < c.xlen.bits := by cases c.xlen <;> decide
    rw [getBit_norm hlt, mstatusRead, getBit_or, getBit_or, getBit_and, getBit_mstatusMask_SD, hreset, Bool.and_false,
      Bool.false_or, Bool.false_or]
  rw [hsd, fieldFS, fieldVS, getField2_mstatusRead c m (by decide), getField2_mstatusRead c m (by decide)]
  unfold sdBit
  simp only [getField2_XS_masked c m, decide_false, Bool.or_false, Bool.or_eq_true, decide_eq_true_eq]
  split
  · next hdirty => exact iff_of_true (by cases c.xlen <;> decide) hdirty
  · next hclean => exact iff_of_false (by rw [getBit_of_zero]; decide) hclean

end

/-! ## A write -/

/-- A bit of mstatus is written where the mask and the machine allow it, and MPP only when the value there names a level. -/
theorem getBit_mstatusWrite (c : Config) (mask m v : Word) {k : Nat} (hk : k < 64) :
    getBit k (mstatusWrite c mask m v) =
      if getBit k (mask &&& mstatusMask c) = true ∧ (getField2 posMPP v ≠ 2#2 ∨ (k ≠ posMPP ∧ k ≠ posMPP + 1))
        then getBit k v else getBit k m := by
  have hkeep : getBit k (if getField2 posMPP v = 2#2 then ~~~0x1800 else ~~~0)
      = decide (getField2 posMPP v ≠ 2#2 ∨ (k ≠ posMPP ∧ k ≠ posMPP + 1)) := by
    split
    · next h =>
      have hMPP : ∀ k < 64, getBit k (~~~0x1800) = decide (k ≠ posMPP ∧ k ≠ posMPP + 1) := by decide
      rw [hMPP k hk]
      simp [h]
    · next h =>
      rw [getBit_not hk, getBit_of_zero]
      simp [h]
  have hwrite : mstatusWrite c mask m v
      = maskedWrite (mask &&& mstatusMask c &&& (if getField2 posMPP v = 2#2 then ~~~0x1800 else ~~~0)) m v := rfl
  rw [hwrite, getBit_maskedWrite _ _ _ hk, getBit_and, hkeep]
  simp only [Bool.and_eq_true, decide_eq_true_eq]

/-! ## mstatus and sstatus after a write -/

section
variable {s : State} {v : Word} {k : Nat}

theorem getBit_writeCsr_mstatus (hk : k < 64) :
    getBit k (s.writeCsr .mstatus v).csr.mstatus =
      if getBit k (mstatusMask s.cfg) = true
          ∧ (getField2 posMPP (s.cfg.xlen.norm v) ≠ 2#2 ∨ (k ≠ posMPP ∧ k ≠ posMPP + 1))
        then getBit k (s.cfg.xlen.norm v) else getBit k s.csr.mstatus := by
  rw [← mstatusMask_writable s.cfg]
  exact getBit_mstatusWrite s.cfg 0x007E7FAA s.csr.mstatus _ hk

theorem getBit_mstatus_readsBack (hk : k < s.cfg.xlen.bits - 1)
    (hMPP : getField2 posMPP (s.cfg.xlen.norm v) ≠ 2#2 ∨ (k ≠ posMPP ∧ k ≠ posMPP + 1)) :
    getBit k ((s.writeCsr .mstatus v).readCsr .mstatus)
      = (getBit k (s.cfg.xlen.norm v &&& mstatusMask s.cfg) || getBit k (mstatusReset s.cfg.xlen)) := by
  refine (getBit_mstatusRead s.cfg _ hk).trans (congrArg (· || _) ?_)
  rw [getBit_and, getBit_and, getBit_writeCsr_mstatus (lt_64_of_lt_SD hk)]
  cases getBit k (mstatusMask s.cfg) <;> simp [hMPP]

/-- The value 2 is not stored in MPP. -/
theorem fieldMPP_mstatus_kept (hMPP : getField2 posMPP (s.cfg.xlen.norm v) = 2#2) :
    getField2 posMPP ((s.writeCsr .mstatus v).readCsr .mstatus) = getField2 posMPP s.csr.mstatus := by
  obtain ⟨hlow, hhigh⟩ := getBit_mstatusMask_MPP s.cfg
  refine (getField2_mstatusRead s.cfg _ (by decide)).trans (getField2_eq_bits _ _ _ ?_ ?_)
  · rw [getBit_and, hlow, Bool.and_true, getBit_writeCsr_mstatus (by decide), if_neg (by simp [hMPP])]
  · rw [getBit_and, hhigh, Bool.and_true, getBit_writeCsr_mstatus (by decide), if_neg (by simp [hMPP])]

/-- A write of sstatus replaces the bits of mstatus that sstatus may write and the machine implements. -/
theorem getBit_mstatus_after_sstatus (hk : k < s.cfg.xlen.bits - 1) :
    getBit k ((s.writeCsr .sstatus v).readCsr .mstatus) =
      if getBit k (0x000C6722 &&& mstatusMask s.cfg) then getBit k (s.cfg.xlen.norm v) else getBit k (s.readCsr .mstatus) := by
  have hk64 := lt_64_of_lt_SD hk
  have hread := getBit_mstatusRead s.cfg (s.writeCsr .sstatus v).csr.mstatus hk
  have hwrite := getBit_mstatusWrite s.cfg 0x000C6722 s.csr.mstatus (s.cfg.xlen.norm v) hk64
  refine hread.trans ?_
  rw [getBit_and]
  by_cases hwritable : getBit k (0x000C6722 &&& mstatusMask s.cfg) = true
  · have hapart : ∀ k < 64, getBit k 0x000C6722 = true →
        (k ≠ posMPP ∧ k ≠ posMPP + 1) ∧ getBit k (mstatusReset s.cfg.xlen) = false := by cases s.cfg.xlen <;> decide
    obtain ⟨hshown, hmask⟩ := Bool.and_eq_true_iff.1 ((getBit_and _ _ _).symm.trans hwritable)
    obtain ⟨hMPP, hreset⟩ := hapart k hk64 hshown
    rw [if_pos ⟨hwritable, .inr hMPP⟩] at hwrite
    rw [if_pos hwritable, hmask, hreset, Bool.and_true, Bool.or_false]
    exact hwrite
  · rw [if_neg fun h => hwritable h.1] at hwrite
    rw [if_neg hwritable]
    refine Eq.trans ?_ (getBit_mstatusRead s.cfg s.csr.mstatus hk).symm
    rw [getBit_and]
    exact congrArg (fun b => (b && _) || _) hwrite

/-- sstatus shows some bits of mstatus. -/
theorem getBit_readCsr_sstatus (s : State) (hk : k < s.cfg.xlen.bits - 1) :
    getBit k (s.readCsr .sstatus) = (getBit k 0x3000DE722 && getBit k (s.readCsr .mstatus)) := by
  have hmask : ∀ k < s.cfg.xlen.bits - 1, getBit k (sstatusMask s.cfg.xlen) = getBit k 0x3000DE722 := by
    cases s.cfg.xlen <;> decide
  have hsstatus : s.readCsr .sstatus = s.cfg.xlen.norm (mstatusRead s.cfg s.csr.mstatus &&& sstatusMask s.cfg.xlen) := rfl
  have hmstatus : s.readCsr .mstatus = s.cfg.xlen.norm (mstatusRead s.cfg s.csr.mstatus) := rfl
  rw [hsstatus, hmstatus, getBit_norm (by omega), getBit_norm (by omega), getBit_and, hmask k hk, Bool.and_comm]

end

/-! ## FS after a write of fcsr -/

theorem fieldFS_dirtyFS {s : State} (hflen : s.cfg.flen ≠ .f0) : fieldFS (s.dirtyFS.readCsr .mstatus) = 3#2 := by
  obtain ⟨hlow, hhigh⟩ := getBit_mstatusMask_FS hflen
  refine (getField2_mstatusRead s.cfg _ (by decide)).trans ?_
  rw [← getField2_setField2 posFS 3#2 s.csr.mstatus (by decide)]
  refine getField2_eq_bits _ _ _ ?_ ?_
  · rw [getBit_and, hlow, Bool.and_true, State.dirtyFS_csr]
  · rw [getBit_and, hhigh, Bool.and_true, State.dirtyFS_csr]

theorem getBit_mstatus_dirtyFS (s : State) {k : Nat} (hk : k < s.cfg.xlen.bits - 1) (hlow : k ≠ posFS) (hhigh : k ≠ posFS + 1) :
    getBit k (s.dirtyFS.readCsr .mstatus) = getBit k (s.readCsr .mstatus) := by
  refine (getBit_mstatusRead s.cfg _ hk).trans (Eq.trans ?_ (getBit_mstatusRead s.cfg _ hk).symm)
  rw [getBit_and, getBit_and, State.dirtyFS_csr, getBit_setField2 _ _ _ _ hlow hhigh]

/-! ## misa -/

theorem misa_mxl (c : Config) :
    (c.xlen.norm (misaValue c)).toNat / 2 ^ (c.xlen.bits - 2) = if c.xlen = .rv32 then 1 else 2 := by
  unfold misaValue
  generalize c.ext.a = a
  generalize c.ext.c = comp
  generalize c.ext.d = d
  generalize c.ext.f = f
  generalize c.ext.m = m
  revert a comp d f m
  cases c.xlen <;> decide

theorem getBit_twoPow (i : Nat) {k : Nat} (hk : k < 64) : getBit k (BitVec.twoPow 64 i) = (k == i) := by
  rw [BitVec.twoPow_eq]
  exact getLsbD_one_shiftLeft i hk

theorem getBit_flag (b : Bool) (i : Nat) {k : Nat} (hk : k < 64) :
    getBit k (if b then BitVec.twoPow 64 i else 0) = (k == i && b) := by
  cases b with
  | false => exact (getBit_of_zero k).trans (Bool.and_false _).symm
  | true => exact (getBit_twoPow i hk).trans (Bool.and_true _).symm

/-- Below the field MXL, misa has a bit for each extension. -/
theorem getBit_misaValue_iff (c : Config) {k : Nat} (hk : k < c.xlen.bits - 2) :
    getBit k (misaValue c) = true ↔
      (k = 0 ∧ c.ext.a = true) ∨ (k = 2 ∧ c.ext.c = true) ∨ (k = 3 ∧ c.ext.d = true) ∨ (k = 5 ∧ c.ext.f = true) ∨ k = 8
        ∨ (k = 12 ∧ c.ext.m = true) ∨ k = 18 ∨ k = 20 := by
  obtain ⟨mxl, hmisa, hmxl⟩ : ∃ mxl : Word,
      misaValue c = mxl ||| (BitVec.twoPow 64 8 ||| BitVec.twoPow 64 18 ||| BitVec.twoPow 64 20)
        ||| (if c.ext.a then BitVec.twoPow 64 0 else 0) ||| (if c.ext.c then BitVec.twoPow 64 2 else 0)
        ||| (if c.ext.d then BitVec.twoPow 64 3 else 0) ||| (if c.ext.f then BitVec.twoPow 64 5 else 0)
        ||| (if c.ext.m then BitVec.twoPow 64 12 else 0) ∧ ∀ k < c.xlen.bits - 2, getBit k mxl = false := by
    refine ⟨_, rfl, ?_⟩
    cases c.xlen <;> decide
  have hk64 : k < 64 := lt_64_of_lt_SD (xl := c.xlen) (by omega)
  simp only [hmisa, getBit_or, hmxl k hk, getBit_twoPow _ hk64, getBit_flag _ _ hk64, Bool.false_or, Bool.or_eq_true,
    Bool.and_eq_true, beq_iff_eq]
  exact Iff.of_eq (by ac_rfl)

end Sys2Proof.Machine
end

section
/-! What every control register reads as (47_system_csr.md R638; 10_state.md R53 to R76). -/

namespace Sys2Proof.Machine

/-- Settles O19: the plain and masked registers by what their write stores fitting XLEN bits; mstatus, sstatus and misa bit by bit. -/
theorem csrReadsBack : Obligations.CsrReadsBack := by
  intro s v hlegal w after back epc sd accepted fcsr
  have hw : fits s.cfg.xlen w := fits_norm s.cfg.xlen v
  have hcsrs := hlegal.active.csrs
  have hmip : fits s.cfg.xlen s.csr.mip := fits_of_within hcsrs.mip (by decide)
  have hmie : fits s.cfg.xlen s.csr.mie := fits_of_within hcsrs.mie (by decide)
  have hmideleg : s.csr.mideleg &&& 0x222 = s.csr.mideleg := and_eq_of_within hcsrs.mideleg
  have hwand (m : Word) : fits s.cfg.xlen (w &&& m) := fits_and _ _ _ hw
  have hepc : s.cfg.xlen.norm (epcMask s.cfg w) = epc := (epc_legal s.cfg v).2
  refine ⟨⟨hw, hw, hw, hw, hw, hw⟩, ⟨hwand _, hwand _, hwand _⟩, fits_maskedWrite hmip hw, ⟨?sie, ?sie_mie⟩,
    ⟨?sip, ?sip_mip⟩, ⟨?mideleg_sie, ?mideleg_sip⟩, ⟨hwand _, hwand _, hepc, hepc⟩,
    ⟨counteren_readsBack _ _, counteren_readsBack _ _⟩, ⟨fcsr_readsBack s v, fflags_readsBack s v, frm_readsBack s v⟩,
    ⟨fcsr_after_fflags s v, fcsr_after_frm s v⟩, ?dirty, ⟨rfl, rfl⟩, ?satp, ?satp_refused, ?misa, ⟨rfl, rfl, rfl, rfl⟩, ?counters,
    ⟨counterLow_setCounterLow _ _ _, counterLow_setCounterLow _ _ _⟩, fun hxl => ?halves,
    fun _ => getBit_mstatus_readsBack, fieldMPP_mstatus_kept, getBit_SD_mstatusRead _ _, fun k hk => ?sstatus⟩
  case sie =>
    have hback : back .sie = s.cfg.xlen.norm (maskedWrite (s.csr.mideleg &&& 0x222) s.csr.mie w &&& s.csr.mideleg) := rfl
    have hunwritable : s.csr.mideleg &&& ~~~0x222 = 0#64 := hcsrs.mideleg
    rw [hback, maskedWrite_and_mask, BitVec.and_assoc s.csr.mie, hunwritable, BitVec.and_zero, BitVec.zero_or,
      BitVec.and_assoc, hmideleg]
    exact hwand _
  case sie_mie =>
    have hafter : after .sie .mie = s.cfg.xlen.norm (maskedWrite (s.csr.mideleg &&& 0x222) s.csr.mie w) := rfl
    rw [hafter, hmideleg]
    exact fits_maskedWrite hmie hw
  case sip =>
    have hback : back .sip = s.cfg.xlen.norm (maskedWrite (s.csr.mideleg &&& 0x002) s.csr.mip w &&& s.csr.mideleg) := rfl
    rw [hback, maskedWrite_and_mask]
    exact fits_or (fits_and _ _ _ (fits_and _ _ _ hmip)) (fits_and _ _ _ (hwand _))
  case sip_mip =>
    rw [BitVec.and_assoc]
    exact fits_maskedWrite hmip hw
  case mideleg_sie =>
    rw [BitVec.and_assoc]
    exact fits_and _ _ _ hmie
  case mideleg_sip =>
    rw [BitVec.and_assoc]
    exact fits_and _ _ _ hmip
  case dirty =>
    intro r hr hflen
    obtain ⟨x, hx⟩ := writeCsr_fcsr_eq s v hr
    have hafter : after r .mstatus = ({ s with csr := { s.csr with fcsr := x } } : State).dirtyFS.readCsr .mstatus :=
      congrArg (State.readCsr · .mstatus) hx
    rw [hafter]
    exact ⟨fieldFS_dirtyFS hflen, fun k hk => getBit_mstatus_dirtyFS _ hk⟩
  case satp =>
    intro haccepted
    exact (congrArg (State.readCsr · .satp) (writeCsr_satp_of_accepted haccepted)).trans (fits_satpStored _ _)
  case satp_refused =>
    intro hrefused
    have hfits : fits s.cfg.xlen s.csr.satp := hcsrs.satp.1 ▸ fits_satpStored s.cfg.xlen s.csr.satp
    exact (congrArg (State.readCsr · .satp) (writeCsr_satp_of_refused hrefused)).trans hfits
  case misa =>
    refine ⟨(misa_mxl s.cfg).trans (by cases s.cfg.xlen <;> rfl), fun k hk => ?_⟩
    have hmisa : getBit k (s.readCsr .misa) = getBit k (misaValue s.cfg) := getBit_norm (by omega) _
    rw [hmisa]
    exact getBit_misaValue_iff s.cfg hk
  case counters =>
    have hcounter (c : Word) := And.intro (counterLow_toNat s.cfg.xlen c) (counterHigh_toNat c (xl := s.cfg.xlen))
    simp only [List.forall_mem_cons]
    exact ⟨hcounter _, hcounter _, hcounter _, hcounter _, hcounter _, List.forall_mem_nil _⟩
  case halves =>
    exact ⟨counterHigh_setCounterHigh _ _ hxl, counterHigh_setCounterHigh _ _ hxl, counterHigh_setCounterLow _ _ hxl,
      counterLow_setCounterHigh _ _ hxl, counterHigh_setCounterLow _ _ hxl, counterLow_setCounterHigh _ _ hxl⟩
  case sstatus =>
    have hmstatus := getBit_mstatus_after_sstatus (v := v) hk
    have hback := getBit_readCsr_sstatus (s.writeCsr .sstatus v) hk
    exact ⟨hback.trans (congrArg (getBit k 0x3000DE722 && ·) hmstatus), hmstatus⟩

end Sys2Proof.Machine
end

section
/-! The four division functions (49_arith_helpers.md R673): over a nonzero divisor they are the library's divisions. -/

namespace Sys2Proof.Machine

section
variable {w : Nat} {a b : BitVec w}

theorem divS_eq_sdiv (hb : b ≠ 0#w) : divS w a b = a.sdiv b := by
  rw [divS, if_neg hb]
  refine BitVec.eq_of_toInt_eq ?_
  rw [BitVec.toInt_ofInt, BitVec.toInt_sdiv]

theorem remS_eq_srem (hb : b ≠ 0#w) : remS w a b = a.srem b := by
  rw [remS, if_neg hb, ← BitVec.toInt_srem, BitVec.ofInt_toInt]

theorem divU_eq_udiv (hb : b ≠ 0#w) : divU w a b = a / b := by
  rw [divU, if_neg hb, ← BitVec.toNat_udiv, BitVec.ofNat_toNat, BitVec.setWidth_eq]

theorem remU_eq_umod (hb : b ≠ 0#w) : remU w a b = a % b := by
  rw [remU, if_neg hb, ← BitVec.toNat_umod, BitVec.ofNat_toNat, BitVec.setWidth_eq]

theorem div_rem_by_zero : divS w a 0#w = BitVec.allOnes w ∧ divU w a 0#w = BitVec.allOnes w ∧ remS w a 0#w = a ∧ remU w a 0#w = a :=
  ⟨if_pos rfl, if_pos rfl, if_pos rfl, if_pos rfl⟩

/-- The overflow, MIN by -1; at width 0 there is one value only. -/
theorem div_rem_overflow : divS w (BitVec.intMin w) (-1#w) = BitVec.intMin w ∧ remS w (BitVec.intMin w) (-1#w) = 0#w := by
  rcases Nat.eq_zero_or_pos w with rfl | hw
  · exact ⟨Subsingleton.elim _ _, Subsingleton.elim _ _⟩
  · have hone : (-1#w).toInt = -1 := by rw [BitVec.neg_one_eq_allOnes, BitVec.toInt_allOnes, if_pos hw]
    have hne : -1#w ≠ 0#w := fun h => by
      rw [h, BitVec.toInt_zero] at hone
      exact absurd hone (by decide)
    constructor
    · rw [divS, if_neg hne, hone, Int.tdiv_neg, Int.tdiv_one, BitVec.ofInt_neg, BitVec.ofInt_toInt, BitVec.neg_intMin]
    · rw [remS, if_neg hne, hone, Int.tmod_neg, Int.tmod_one]
      rfl

/-- Without overflow the quotient fits, and the remainder is what the quotient leaves, with the sign of the dividend. -/
theorem div_rem_toInt (hb : b ≠ 0#w) (h : a ≠ BitVec.intMin w ∨ b ≠ -1#w) :
    (divS w a b).toInt = a.toInt.tdiv b.toInt ∧ (remS w a b).toInt = a.toInt - b.toInt * (divS w a b).toInt
      ∧ (remS w a b).toInt.natAbs < b.toInt.natAbs
      ∧ (0 ≤ a.toInt → 0 ≤ (remS w a b).toInt) ∧ (a.toInt ≤ 0 → (remS w a b).toInt ≤ 0) := by
  have hquot : (divS w a b).toInt = a.toInt.tdiv b.toInt := by rw [divS_eq_sdiv hb, BitVec.toInt_sdiv_of_ne_or_ne _ _ h]
  have hrem : (remS w a b).toInt = a.toInt.tmod b.toInt := by rw [remS_eq_srem hb, BitVec.toInt_srem]
  have hne : b.toInt ≠ 0 := mt (toInt_eq_zero_iff b).1 hb
  rw [hquot, hrem]
  refine ⟨rfl, Int.tmod_def _ _, ?_, fun ha => Int.tmod_nonneg _ ha, fun ha => ?_⟩
  · rw [Int.natAbs_tmod]
    exact Nat.mod_lt _ (Int.natAbs_pos.2 hne)
  · have hneg : 0 ≤ (-a.toInt).tmod b.toInt := Int.tmod_nonneg _ (by omega)
    rw [Int.neg_tmod] at hneg
    omega

end

/-- Settles O34: the zero divisor, the overflow, and otherwise the library's division and remainder. -/
theorem divisionHelpers : Obligations.DivisionHelpers := by
  intro w a b
  refine ⟨?zero, ?overflow, fun hb h => div_rem_toInt hb (not_and_or.1 h), fun hb => ?unsigned⟩
  case zero =>
    rintro rfl
    exact div_rem_by_zero
  case overflow =>
    rintro rfl rfl
    exact div_rem_overflow
  case unsigned =>
    rw [divU_eq_udiv hb, remU_eq_umod hb]
    exact ⟨BitVec.toNat_udiv, BitVec.toNat_umod⟩

end Sys2Proof.Machine
end

section
/-! The carry-lookahead adder (49_arith_helpers.md R676): the carries and the sum bits, position by position. -/

namespace Sys2Proof.Machine

/-- The low `n + 1` bits of a vector are its low `n` bits and the bit at position `n`. -/
theorem toNat_mod_two_pow_succ {w : Nat} (x : BitVec w) (n : Nat) :
    x.toNat % 2 ^ (n + 1) = x.toNat % 2 ^ n + 2 ^ n * (x.getLsbD n).toNat := by
  rw [Nat.mod_pow_succ, ← Nat.toNat_testBit]
  rfl

section
variable {w : Nat} (a b : BitVec w) (c : Bool)

/-- The sum bits below position `n` and the carry into it are the sum of the low parts. -/
theorem sumBits_add_rippleCarry (n : Nat) :
    sumBits a b c n + 2 ^ n * (rippleCarry a b c n).toNat = a.toNat % 2 ^ n + b.toNat % 2 ^ n + c.toNat := by
  induction n with
  | zero => simp [sumBits, rippleCarry, Nat.mod_one]
  | succ n ih =>
    rw [toNat_mod_two_pow_succ, toNat_mod_two_pow_succ, sumBits, rippleCarry, Nat.pow_succ]
    revert ih
    generalize 2 ^ n = p
    cases a.getLsbD n <;> cases b.getLsbD n <;> cases rippleCarry a b c n <;> simp <;> omega

theorem sumBits_add_carryOut : sumBits a b c w + 2 ^ w * (rippleCarry a b c w).toNat = a.toNat + b.toNat + c.toNat := by
  rw [sumBits_add_rippleCarry, Nat.mod_eq_of_lt a.isLt, Nat.mod_eq_of_lt b.isLt]

theorem sumBits_lt (n : Nat) : sumBits a b c n < 2 ^ n := by
  induction n with
  | zero => exact Nat.one_pos
  | succ n ih =>
    rw [sumBits, Nat.pow_succ]
    split <;> omega

/-! ## Groups -/

theorem groupCarry_zero (lo : Nat) : groupCarry a b lo 0 c = c := by
  simp [groupCarry, groupGP]

/-- A group with one position more: the carry of that position from the carry of the group. -/
theorem groupCarry_succ (lo k : Nat) :
    groupCarry a b lo (k + 1) c = (a.getLsbD (lo + k) && b.getLsbD (lo + k)
      || (a.getLsbD (lo + k) != b.getLsbD (lo + k)) && groupCarry a b lo k c) := by
  simp only [groupCarry, groupGP, Bool.and_or_distrib_left, Bool.or_assoc, Bool.and_assoc]

theorem rippleCarry_add (lo k : Nat) : rippleCarry a b c (lo + k) = groupCarry a b lo k (rippleCarry a b c lo) := by
  induction k with
  | zero => rw [groupCarry_zero, Nat.add_zero]
  | succ k ih => rw [groupCarry_succ, ← ih, Nat.add_succ, rippleCarry]

/-- Two groups that follow each other are one. -/
theorem groupCarry_add (lo j k : Nat) : groupCarry a b lo (j + k) c = groupCarry a b (lo + j) k (groupCarry a b lo j c) := by
  induction k with
  | zero => rw [groupCarry_zero, Nat.add_zero]
  | succ k ih => rw [groupCarry_succ, ← ih, Nat.add_succ, groupCarry_succ, Nat.add_assoc]

/-! ## Addition, subtraction and the comparisons -/

theorem ofNat_sumBits_eq_add : BitVec.ofNat w (sumBits a b false w) = a + b := by
  refine BitVec.eq_of_toNat_eq ?_
  rw [BitVec.toNat_ofNat, BitVec.toNat_add, ← Nat.add_mul_mod_self_left, sumBits_add_carryOut]
  rfl

/-- `a + ~b + 1` is `a - b` modulo 2^w, and its carry out stands for 2^w. -/
theorem sumBits_not_add_carryOut :
    sumBits a (~~~b) true w + 2 ^ w * (rippleCarry a (~~~b) true w).toNat = 2 ^ w - b.toNat + a.toNat := by
  have hb := b.isLt
  rw [sumBits_add_carryOut, BitVec.toNat_not, Bool.toNat_true]
  omega

theorem ofNat_sumBits_eq_sub : BitVec.ofNat w (sumBits a (~~~b) true w) = a - b := by
  refine BitVec.eq_of_toNat_eq ?_
  rw [BitVec.toNat_ofNat, BitVec.toNat_sub, ← Nat.add_mul_mod_self_left, sumBits_not_add_carryOut]

theorem carryOut_eq_false_iff : rippleCarry a (~~~b) true w = false ↔ a.toNat < b.toNat := by
  have hsum := sumBits_not_add_carryOut a b
  have hlt := sumBits_lt a (~~~b) true w
  have hb := b.isLt
  revert hsum
  cases rippleCarry a (~~~b) true w <;> simp <;> omega

/-- The difference as a number: 2^w is added where it would be negative. -/
theorem toNat_sub_add_cases : (a - b).toNat + b.toNat = a.toNat ∨ (a - b).toNat + b.toNat = a.toNat + 2 ^ w := by
  have hsum := sumBits_not_add_carryOut a b
  have hb := b.isLt
  have hd : (a - b).toNat = sumBits a (~~~b) true w := by
    rw [← ofNat_sumBits_eq_sub, BitVec.toNat_ofNat, Nat.mod_eq_of_lt (sumBits_lt a (~~~b) true w)]
  rw [hd]
  revert hsum
  cases rippleCarry a (~~~b) true w <;> simp <;> omega

/-- The sign of the difference, corrected where the subtraction overflows: in each case of the three sign bits the difference says where
it lies. -/
theorem msb_sub_xor_overflow_iff (hw : 0 < w) :
    (((a - b).msb ^^ ((a.msb ^^ b.msb) && (a.msb ^^ (a - b).msb))) = true) ↔ a.toInt < b.toInt := by
  obtain ⟨n, rfl⟩ : ∃ n, w = n + 1 := ⟨w - 1, by omega⟩
  have ha := a.isLt
  have hb := b.isLt
  have hd := (a - b).isLt
  have hcases := toNat_sub_add_cases a b
  simp only [BitVec.toInt_eq_msb_cond, BitVec.msb_eq_decide, Nat.add_sub_cancel, Nat.pow_succ] at *
  generalize (a - b).toNat = d at *
  generalize 2 ^ n = p at *
  by_cases h1 : p ≤ a.toNat <;> by_cases h2 : p ≤ b.toNat <;> by_cases h3 : p ≤ d <;>
    simp [h1, h2, h3] <;> omega

end

/-- Settles O36: the sum and the carries by induction on the position, the rest from the sum. -/
theorem carryLookahead : Obligations.CarryLookahead := by
  intro w a b c
  refine ⟨sumBits_add_carryOut a b c, rippleCarry_add a b c, groupCarry_add a b c,
    ⟨ofNat_sumBits_eq_add a b, ofNat_sumBits_eq_sub a b⟩, carryOut_eq_false_iff a b, fun hw => ?_⟩
  rw [ofNat_sumBits_eq_sub]
  exact msb_sub_xor_overflow_iff a b hw

end Sys2Proof.Machine
end

section
/-! Radix-4 Booth recoding (49_arith_helpers.md R677): the first n partial products stand for the low 2n bits of the multiplier, the
highest of them counted negatively. -/

namespace Sys2Proof.Machine

section
variable {w : Nat} (b : BitVec w)

theorem boothBit_succ (i : Nat) : boothBit b (i + 1) = (b.getLsbD i).toNat := by
  cases h : b.getLsbD i <;> simp [boothBit, h]

theorem boothBit_bounds (i : Nat) : 0 ≤ boothBit b i ∧ boothBit b i ≤ 1 := by
  cases i with
  | zero => exact ⟨Int.le_refl 0, Int.zero_le_ofNat 1⟩
  | succ i =>
    rw [boothBit_succ]
    cases b.getLsbD i <;> decide

theorem boothDigit_bounds (j : Nat) : -2 ≤ boothDigit b j ∧ boothDigit b j ≤ 2 := by
  have h1 := boothBit_bounds b (2 * j + 2)
  have h2 := boothBit_bounds b (2 * j + 1)
  have h3 := boothBit_bounds b (2 * j)
  unfold boothDigit
  omega

theorem boothSum_eq (x : Int) (n : Nat) :
    boothSum b x n = x * ((b.toNat % 2 ^ (2 * n) : Nat) - 4 ^ n * boothBit b (2 * n)) := by
  induction n with
  | zero => simp [boothSum, boothBit, Nat.mod_one]
  | succ n ih =>
    have hpow : (2 : Int) ^ (2 * n) = 4 ^ n := by rw [Int.pow_mul]; rfl
    rw [boothSum, ih, boothDigit, show 2 * (n + 1) = 2 * n + 1 + 1 by omega, toNat_mod_two_pow_succ b (2 * n + 1),
      toNat_mod_two_pow_succ b (2 * n), boothBit_succ, boothBit_succ]
    push_cast
    rw [pow_succ 2 (2 * n), hpow]
    ring

end

section
variable {h : Nat} (b : BitVec (2 * h)) (x : Int)

/-- A signed multiplier: its top bit counts negatively. -/
theorem boothSum_eq_mul_toInt : boothSum b x h = x * b.toInt := by
  rw [boothSum_eq, Nat.mod_eq_of_lt b.isLt]
  cases h with
  | zero => simp [BitVec.eq_nil b, boothBit]
  | succ h =>
    have hpow : (4 : Int) ^ (h + 1) = 2 ^ (2 * (h + 1)) := by rw [Int.pow_mul]; rfl
    have htop : boothBit b (2 * (h + 1)) = b.msb.toNat := by
      rw [BitVec.msb_eq_getLsbD_last]
      exact boothBit_succ b (2 * h + 1)
    rw [htop, BitVec.toInt_eq_msb_cond, hpow]
    cases b.msb <;> simp

/-- An unsigned multiplier takes one digit more, whose bits are the zeros above it. -/
theorem boothSum_succ_eq_mul_toNat : boothSum b x (h + 1) = x * b.toNat := by
  have htop : boothBit b (2 * (h + 1)) = 0 := by
    rw [show 2 * (h + 1) = 2 * h + 1 + 1 by omega, boothBit_succ, BitVec.getLsbD_of_ge _ _ (by omega)]
    rfl
  have hlt : b.toNat < 2 ^ (2 * (h + 1)) := b.isLt.trans_le (Nat.pow_le_pow_right (by decide) (by omega))
  rw [boothSum_eq, htop, Nat.mod_eq_of_lt hlt, Int.mul_zero, Int.sub_zero]

end

/-- Settles O37: the digits by the bounds of their bits, the sums by induction on the number of digits. -/
theorem boothRecoding : Obligations.BoothRecoding :=
  fun _ b x => ⟨boothDigit_bounds b, boothSum_eq_mul_toInt b x, boothSum_succ_eq_mul_toNat b x⟩

end Sys2Proof.Machine
end

section
/-! The half-word multiplication (49_arith_helpers.md R674): the four partial products, put together, are the double-width product; the
signed and mixed upper halves are the unsigned one less a multiple of 2^w. -/

namespace Sys2Proof.Machine

/-! ## The four partial products, on natural numbers with base H -/

/-- The column of R674 whose carry goes to the upper half: the upper part of one product and the lower parts of two. -/
def midColumn (H a b : Nat) : Nat := a % H * (b % H) / H + a % H * (b / H) % H + a / H * (b % H) % H

theorem midColumn_def (H a b : Nat) : midColumn H a b = a % H * (b % H) / H + a % H * (b / H) % H + a / H * (b % H) % H := rfl

theorem mul_eq_halfword_parts (H a b : Nat) :
    a * b = H * H * (a / H * (b / H) + a % H * (b / H) / H + a / H * (b % H) / H + midColumn H a b / H)
      + (midColumn H a b % H * H + a % H * (b % H) % H) := by
  have ha : a = H * (a / H) + a % H := (Nat.div_add_mod a H).symm
  have hb : b = H * (b / H) + b % H := (Nat.div_add_mod b H).symm
  have h00 := (Nat.div_add_mod (a % H * (b % H)) H).symm
  have h01 := (Nat.div_add_mod (a % H * (b / H)) H).symm
  have h10 := (Nat.div_add_mod (a / H * (b % H)) H).symm
  have hmid := (Nat.div_add_mod (midColumn H a b) H).symm
  unfold midColumn at *
  linear_combination b * ha + (H * (a / H) + a % H) * hb + h00 + H * h01 + H * h10 + H * hmid

theorem lowPart_lt {H : Nat} (hH : 0 < H) (m p : Nat) : m % H * H + p % H < H * H := by
  have hm := Nat.mod_lt m hH
  have hp := Nat.mod_lt p hH
  nlinarith

theorem div_mod_halfword_parts {H : Nat} (hH : 0 < H) (a b : Nat) :
    a * b / (H * H) = a / H * (b / H) + a % H * (b / H) / H + a / H * (b % H) / H + midColumn H a b / H
      ∧ a * b % (H * H) = midColumn H a b % H * H + a % H * (b % H) % H :=
  (Nat.div_mod_unique (Nat.mul_pos hH hH)).2
    ⟨(Nat.add_comm _ _).trans (mul_eq_halfword_parts H a b).symm, lowPart_lt hH _ _⟩

/-- The column fits two half words. -/
theorem midColumn_lt {H : Nat} (hH : 2 ≤ H) (a b : Nat) : midColumn H a b < H * H := by
  have hpos : 0 < H := by omega
  have ha := Nat.mod_lt a hpos
  have hb := Nat.mod_lt b hpos
  have h00 : a % H * (b % H) / H ≤ H - 2 := by
    rw [← Nat.lt_succ_iff]
    refine Nat.div_lt_of_lt_mul ?_
    obtain ⟨k, rfl⟩ : ∃ k, H = k + 2 := ⟨H - 2, by omega⟩
    have hle := Nat.mul_le_mul (Nat.le_of_lt_succ ha) (Nat.le_of_lt_succ hb)
    simp only [Nat.add_sub_cancel] at *
    nlinarith
  have h01 := Nat.mod_lt (a % H * (b / H)) hpos
  have h10 := Nat.mod_lt (a / H * (b % H)) hpos
  have hle : midColumn H a b ≤ 3 * H - 4 := by
    unfold midColumn
    omega
  nlinarith [Nat.sub_add_cancel (show 4 ≤ 3 * H by omega)]

/-! ## The halves of a vector -/

section
variable {h : Nat} (a b : BitVec (2 * h))

theorem two_pow_two_mul (h : Nat) : 2 ^ (2 * h) = 2 ^ h * 2 ^ h := by
  rw [Nat.two_mul, Nat.pow_add]

/-- The mask of R674 keeps the lower half. -/
theorem toNat_and_lowMask : (a &&& BitVec.ofNat (2 * h) (2 ^ h - 1)).toNat = a.toNat % 2 ^ h := by
  have hle : 2 ^ h ≤ 2 ^ (2 * h) := Nat.pow_le_pow_right Nat.two_pos (by omega)
  have hpos : 0 < 2 ^ h := Nat.two_pow_pos h
  rw [BitVec.toNat_and, BitVec.toNat_ofNat, Nat.mod_eq_of_lt (by omega), Nat.and_two_pow_sub_one_eq_mod]

theorem toNat_upperHalf : (a >>> h).toNat = a.toNat / 2 ^ h := by
  rw [BitVec.toNat_ushiftRight, Nat.shiftRight_eq_div_pow]

theorem lowMask_lt : (a &&& BitVec.ofNat (2 * h) (2 ^ h - 1)).toNat < 2 ^ h :=
  toNat_and_lowMask a ▸ Nat.mod_lt _ (Nat.two_pow_pos h)

theorem upperHalf_lt : (a >>> h).toNat < 2 ^ h :=
  toNat_upperHalf a ▸ Nat.div_lt_of_lt_mul (two_pow_two_mul h ▸ a.isLt)

theorem toNat_mul_of_halves {x y : BitVec (2 * h)} (hx : x.toNat < 2 ^ h) (hy : y.toNat < 2 ^ h) :
    (x * y).toNat = x.toNat * y.toNat :=
  BitVec.toNat_mul_of_lt (two_pow_two_mul h ▸ Nat.mul_lt_mul'' hx hy)

/-! ## The two halves of the result -/

theorem halfwordMul_toNat (hh : 0 < h) :
    (halfwordMul h a b).1.toNat = a.toNat * b.toNat / 2 ^ (2 * h) ∧ (halfwordMul h a b).2.toNat = a.toNat * b.toNat % 2 ^ (2 * h) := by
  have hpos : 0 < 2 ^ h := Nat.two_pow_pos h
  have p00 := toNat_mul_of_halves (lowMask_lt a) (lowMask_lt b)
  have p01 := toNat_mul_of_halves (lowMask_lt a) (upperHalf_lt b)
  have p10 := toNat_mul_of_halves (upperHalf_lt a) (lowMask_lt b)
  have p11 := toNat_mul_of_halves (upperHalf_lt a) (upperHalf_lt b)
  have hmid : midColumn (2 ^ h) a.toNat b.toNat < 2 ^ (2 * h) :=
    two_pow_two_mul h ▸ midColumn_lt (Nat.pow_le_pow_right Nat.two_pos hh) _ _
  obtain ⟨hdiv, hmod⟩ := div_mod_halfword_parts hpos a.toNat b.toNat
  rw [← two_pow_two_mul] at hdiv hmod
  have hlt : a.toNat * b.toNat / 2 ^ (2 * h) < 2 ^ (2 * h) := Nat.div_lt_of_lt_mul (Nat.mul_lt_mul'' a.isLt b.isLt)
  simp only [toNat_and_lowMask, toNat_upperHalf] at p00 p01 p10 p11
  simp only [halfwordMul, BitVec.toNat_or, BitVec.toNat_shiftLeft, BitVec.toNat_add, toNat_upperHalf, toNat_and_lowMask, p00, p01, p10,
    p11, Nat.mod_add_mod, ← midColumn_def, Nat.mod_eq_of_lt hmid]
  constructor
  · rw [← hdiv, Nat.mod_eq_of_lt hlt]
  · rw [hmod, Nat.shiftLeft_eq, two_pow_two_mul, Nat.mul_mod_mul_right, ← Nat.shiftLeft_eq,
      ← Nat.shiftLeft_add_eq_or_of_lt (Nat.mod_lt _ hpos)]

theorem halfwordMul_fst (hh : 0 < h) : (halfwordMul h a b).1 = mulhUU (2 * h) a b := by
  rw [mulhUU, ← (halfwordMul_toNat a b hh).1, BitVec.ofNat_toNat, BitVec.setWidth_eq]

theorem halfwordMul_snd (hh : 0 < h) : (halfwordMul h a b).2 = a * b :=
  BitVec.eq_of_toNat_eq ((halfwordMul_toNat a b hh).2.trans (BitVec.toNat_mul a b).symm)

end

/-! ## The upper halves of a product, at every width -/

section
variable {w : Nat} (a b : BitVec w)

/-- A negative operand counts 2^w less than its bits say. -/
theorem toInt_eq_toNat_sub : a.toInt = a.toNat - 2 ^ w * (if a.msb then 1 else 0) := by
  rw [BitVec.toInt_eq_msb_cond]
  cases a.msb <;> simp

/-- The upper half of a value to which a multiple of 2^w is added. -/
theorem ofInt_add_two_pow_mul_ediv (p k : Int) :
    BitVec.ofInt w ((p + 2 ^ w * k) / 2 ^ w) = BitVec.ofInt w (p / 2 ^ w) + BitVec.ofInt w k := by
  rw [Int.add_mul_ediv_left _ _ (by positivity), BitVec.ofInt_add]

theorem mulhSU_eq_sub : mulhSU w a b = mulhUU w a b - (if a.msb then b else 0#w) := by
  have hsplit : a.toInt * b.toNat = (a.toNat * b.toNat : Nat) + 2 ^ w * (-(if a.msb then b.toNat else 0)) := by
    rw [toInt_eq_toNat_sub]
    split <;> push_cast <;> ring
  rw [mulhSU_eq_ofInt, hsplit, ofInt_add_two_pow_mul_ediv, mulhUU_eq_ofInt, BitVec.ofInt_neg, BitVec.sub_eq_add_neg]
  congr 2
  split <;> simp

theorem mulhSS_eq_sub : mulhSS w a b = mulhSU w a b - (if b.msb then a else 0#w) := by
  have hsplit : a.toInt * b.toInt = a.toInt * b.toNat + 2 ^ w * (-(if b.msb then a.toInt else 0)) := by
    rw [toInt_eq_toNat_sub b]
    split <;> ring
  rw [mulhSS_eq_ofInt, hsplit, ofInt_add_two_pow_mul_ediv, mulhSU_eq_ofInt, BitVec.ofInt_neg, BitVec.sub_eq_add_neg]
  congr 2
  split <;> simp

/-! ## The upper halves as integers -/

theorem mulhUU_toNat : (mulhUU w a b).toNat = a.toNat * b.toNat / 2 ^ w := by
  rw [mulhUU, BitVec.toNat_ofNat, Nat.mod_eq_of_lt]
  exact Nat.div_lt_of_lt_mul (Nat.mul_lt_mul'' a.isLt b.isLt)

theorem toInt_ofInt_of_bounds {z : Int} (h : -2 ^ (w - 1) ≤ z ∧ z < 2 ^ (w - 1)) (hw : 0 < w) : (BitVec.ofInt w z).toInt = z := by
  obtain ⟨n, rfl⟩ : ∃ n, w = n + 1 := ⟨w - 1, by omega⟩
  rw [Nat.add_sub_cancel] at h
  rw [BitVec.toInt_ofInt, Int.bmod_eq_of_le] <;> push_cast <;> rw [Int.pow_succ] <;> omega

/-- The upper half of the product of a signed operand and one below 2^w in magnitude fits. -/
theorem mul_ediv_two_pow_bounds {z : Int} (hz : |z| < 2 ^ w) :
    -2 ^ (w - 1) ≤ a.toInt * z / 2 ^ w ∧ a.toInt * z / 2 ^ w < 2 ^ (w - 1) := by
  have hlt := BitVec.toInt_lt (x := a)
  have hle := BitVec.le_toInt a
  have hpos : (0 : Int) < 2 ^ w := by positivity
  have habs : |a.toInt * z| < 2 ^ (w - 1) * 2 ^ w := by
    rw [abs_mul]
    exact mul_lt_mul' (abs_le.2 ⟨hle, hlt.le⟩) hz (abs_nonneg z) (by positivity)
  obtain ⟨hlow, hhigh⟩ := abs_lt.1 habs
  exact ⟨(Int.le_ediv_iff_mul_le hpos).2 (by linarith), (Int.ediv_lt_iff_lt_mul hpos).2 hhigh⟩

theorem mulhSS_toInt (hw : 0 < w) : (mulhSS w a b).toInt = a.toInt * b.toInt / 2 ^ w := by
  have hlt := BitVec.two_mul_toInt_lt (x := b)
  have hle := BitVec.le_two_mul_toInt (x := b)
  rw [mulhSS_eq_ofInt, toInt_ofInt_of_bounds (mul_ediv_two_pow_bounds a (abs_lt.2 ⟨by omega, by omega⟩)) hw]

theorem mulhSU_toInt (hw : 0 < w) : (mulhSU w a b).toInt = a.toInt * b.toNat / 2 ^ w := by
  have hb : |(b.toNat : Int)| < 2 ^ w := by
    rw [Nat.abs_cast]
    exact_mod_cast b.isLt
  rw [mulhSU_eq_ofInt, toInt_ofInt_of_bounds (mul_ediv_two_pow_bounds a hb) hw]

end

/-- Settles O35: the two halves from the four partial products, the signed and mixed ones from the unsigned one. -/
theorem halfwordMultiply : Obligations.HalfwordMultiply := by
  intro h a b hh
  have hw : 0 < 2 * h := by omega
  refine ⟨halfwordMul_fst a b hh, halfwordMul_snd a b hh, ?_, ?_, mulhUU_toNat a b, mulhSS_toInt a b hw, mulhSU_toInt a b hw⟩
  · rw [halfwordMulh, halfwordMul_fst a b hh, mulhSS_eq_sub, mulhSU_eq_sub]
    rfl
  · rw [halfwordMulhsu, halfwordMul_fst a b hh, mulhSU_eq_sub]
    rfl

end Sys2Proof.Machine
end

section
/-! Wallace reduction (49_arith_helpers.md R678): every layer keeps the sum of the vectors, and the sum of the partial products, plain or
Booth, is the product at width 2w. -/

namespace Sys2Proof.Machine

/-! ## The compressor, the layers, the tree -/

section
variable {w : Nat}

/-- A full adder in every position: what the low parts of the sum and of the carries add up to. -/
theorem fullAdder_mod (x y z : BitVec w) (n : Nat) :
    (x ^^^ y ^^^ z).toNat % 2 ^ n + 2 * (((x &&& y) ||| (x &&& z) ||| (y &&& z)).toNat % 2 ^ n)
      = x.toNat % 2 ^ n + y.toNat % 2 ^ n + z.toNat % 2 ^ n := by
  induction n with
  | zero => simp [Nat.mod_one]
  | succ n ih =>
    simp only [toNat_mod_two_pow_succ, BitVec.getLsbD_xor, BitVec.getLsbD_or, BitVec.getLsbD_and]
    generalize x ^^^ y ^^^ z = sum, (x &&& y) ||| (x &&& z) ||| (y &&& z) = carries at ih ⊢
    cases x.getLsbD n <;> cases y.getLsbD n <;> cases z.getLsbD n <;> simp <;> omega

theorem compress_add (x y z : BitVec w) : (compress x y z).1 + (compress x y z).2 = x + y + z := by
  have hsum := fullAdder_mod x y z w
  simp only [Nat.mod_eq_of_lt (BitVec.isLt _)] at hsum
  refine BitVec.eq_of_toNat_eq ?_
  simp only [compress, BitVec.toNat_add, BitVec.toNat_shiftLeft, Nat.shiftLeft_eq, Nat.add_mod_mod, Nat.mod_add_mod]
  rw [← hsum, Nat.mul_comm 2, Nat.pow_one]

/-- The sum of a list of vectors, as the statement writes it. -/
theorem foldl_add_eq_sum (vs : List (BitVec w)) : vs.foldl (· + ·) 0#w = vs.sum := List.sum_eq_foldl.symm

theorem compressLayer_sum (vs : List (BitVec w)) : (compressLayer vs).sum = vs.sum := by
  induction vs using compressLayer.induct with
  | case1 x y z rest ih =>
    simp only [compressLayer, List.sum_cons, ih, ← add_assoc, compress_add]
  | case2 vs h => rw [compressLayer.eq_2 vs h]

theorem wallaceLayers_sum (n : Nat) (vs : List (BitVec w)) : (wallaceLayers n vs).sum = vs.sum := by
  induction n generalizing vs with
  | zero => rfl
  | succ n ih => rw [wallaceLayers, ih, compressLayer_sum]

theorem compressLayer_length (vs : List (BitVec w)) : (compressLayer vs).length = vs.length - vs.length / 3 := by
  induction vs using compressLayer.induct with
  | case1 x y z rest ih => simp only [compressLayer, List.length_cons, ih]; omega
  | case2 vs h => match vs, h with
    | [], _ | [_], _ | [_, _], _ => simp [compressLayer]
    | x :: y :: z :: rest, h => exact (h x y z rest rfl).elim

/-- A layer of more than two vectors has at least one vector less. -/
theorem wallaceLayers_length (n : Nat) (vs : List (BitVec w)) (h : vs.length ≤ n + 2) : (wallaceLayers n vs).length ≤ 2 := by
  induction n generalizing vs with
  | zero => exact h
  | succ n ih => exact ih _ (by rw [compressLayer_length]; omega)

theorem finalAdd_eq_sum {vs : List (BitVec w)} (h : vs.length ≤ 2) : finalAdd vs = vs.sum := by
  match vs with
  | [] => rfl
  | [x] => simp [finalAdd]
  | [x, y] => simp [finalAdd, ofNat_sumBits_eq_add]
  | _ :: _ :: _ :: _ => simp at h

theorem wallaceTree_eq_sum (vs : List (BitVec w)) : wallaceTree vs = vs.sum := by
  rw [wallaceTree, finalAdd_eq_sum (wallaceLayers_length _ _ (by omega)), wallaceLayers_sum]

end

/-! ## Partial products as integers -/

theorem sum_map_ofInt {w : Nat} (f : Nat → Int) (l : List Nat) :
    (l.map fun i => BitVec.ofInt w (f i)).sum = BitVec.ofInt w (l.map f).sum := by
  induction l with
  | nil => rfl
  | cons i l ih => rw [List.map_cons, List.sum_cons, ih, List.map_cons, List.sum_cons, BitVec.ofInt_add]

theorem ofInt_shiftLeft {w : Nat} (z : Int) (i : Nat) : BitVec.ofInt w z <<< i = BitVec.ofInt w (z * 2 ^ i) := by
  have htwo : BitVec.twoPow w i = BitVec.ofInt w (2 ^ i : Nat) := by
    refine BitVec.eq_of_toNat_eq ?_
    rw [BitVec.toNat_twoPow, BitVec.ofInt_natCast, BitVec.toNat_ofNat]
  rw [BitVec.shiftLeft_eq_mul_twoPow, htwo, ← BitVec.ofInt_mul, Nat.cast_pow, Nat.cast_ofNat]

section
variable {w : Nat} (sa sb : Bool) (a b : BitVec w)

theorem operandWide_eq_ofInt : operandWide sa a = BitVec.ofInt (2 * w) (operandInt sa a) := by
  cases sa
  · simp [operandWide, operandInt]
  · rfl

theorem ofInt_operandInt : BitVec.ofInt w (operandInt sa a) = a := by
  cases sa
  · simp [operandInt]
  · simp [operandInt, BitVec.ofInt_toInt]

/-- What bit `i` of the second operand counts for: the top one negatively when the operand is signed. -/
def bitWeight (i : Nat) : Int := (if sb && i + 1 == w then -1 else 1) * ((b.getLsbD i).toNat * 2 ^ i)

/-- Below the top bit the weights are those of the unsigned value. -/
theorem sum_bitWeight_eq_mod {n : Nat} (h : sb = true → n < w) :
    ((List.range n).map (bitWeight sb b)).sum = (b.toNat % 2 ^ n : Nat) := by
  induction n with
  | zero => simp [Nat.mod_one]
  | succ n ih =>
    have hweight : bitWeight sb b n = (b.getLsbD n).toNat * 2 ^ n := by
      rw [bitWeight, if_neg, Int.one_mul]
      rw [Bool.and_eq_true, beq_iff_eq]
      exact fun ⟨hs, hn⟩ => (h hs).ne hn
    rw [List.sum_range_succ, ih fun hs => Nat.lt_of_succ_lt (h hs), hweight, toNat_mod_two_pow_succ]
    push_cast
    ring

theorem sum_bitWeight : ((List.range w).map (bitWeight sb b)).sum = operandInt sb b := by
  cases sb with
  | false => rw [sum_bitWeight_eq_mod false b (nofun), Nat.mod_eq_of_lt b.isLt]; rfl
  | true => cases w with
    | zero => simp [operandInt, BitVec.eq_nil b]
    | succ n =>
      have htop : bitWeight true b n = -(b.msb.toNat * 2 ^ n) := by
        simp [bitWeight, BitVec.msb_eq_getLsbD_last]
      have hsplit := toNat_mod_two_pow_succ b n
      have hmsb : b.getLsbD n = b.msb := by rw [BitVec.msb_eq_getLsbD_last]; rfl
      rw [Nat.mod_eq_of_lt b.isLt, hmsb] at hsplit
      rw [List.sum_range_succ, sum_bitWeight_eq_mod true b fun _ => Nat.lt_succ_self n, htop, operandInt, if_pos rfl,
        BitVec.toInt_eq_msb_cond, hsplit]
      cases b.msb with
      | false => simp
      | true =>
        simp [Int.pow_succ]
        ring

/-- A plain partial product is the first operand times a weight. -/
theorem plainProducts_eq :
    plainProducts w sa sb a b = (List.range w).map fun i => BitVec.ofInt (2 * w) (operandInt sa a * bitWeight sb b i) := by
  refine List.map_congr_left fun i _ => ?_
  simp only [operandWide_eq_ofInt, ofInt_shiftLeft, bitWeight]
  cases b.getLsbD i <;> split <;> simp [BitVec.ofInt_neg]

theorem wallaceTree_plainProducts :
    wallaceTree (plainProducts w sa sb a b) = BitVec.ofInt (2 * w) (operandInt sa a * operandInt sb b) := by
  rw [wallaceTree_eq_sum, plainProducts_eq, sum_map_ofInt, List.sum_map_mul_left, sum_bitWeight]

end

section
variable {h : Nat} (sa sb : Bool) (a b : BitVec (2 * h))

theorem boothSum_eq_sum (x : Int) (n : Nat) : ((List.range n).map fun j => boothDigit b j * x * 4 ^ j).sum = boothSum b x n := by
  induction n with
  | zero => rfl
  | succ n ih => rw [List.sum_range_succ, ih, boothSum]

theorem wallaceTree_boothProducts :
    wallaceTree (boothProducts h sa sb a b) = BitVec.ofInt (2 * (2 * h)) (operandInt sa a * operandInt sb b) := by
  rw [wallaceTree_eq_sum, boothProducts, sum_map_ofInt, boothSum_eq_sum]
  cases sb with
  | false => rw [if_neg (by decide), boothSum_succ_eq_mul_toNat]; rfl
  | true => rw [if_pos rfl, boothSum_eq_mul_toInt]; rfl

end

/-! ## The halves of the tree's result -/

section
variable {w : Nat}

theorem setWidth_ofInt_double (z : Int) : (BitVec.ofInt (2 * w) z).setWidth w = BitVec.ofInt w z := by
  refine BitVec.eq_of_toNat_eq ?_
  have hdvd : ((2 ^ w : Nat) : Int) ∣ (2 ^ (2 * w) : Nat) := Int.natCast_dvd_natCast.2 (Nat.pow_dvd_pow 2 (by omega))
  have hnonneg : 0 ≤ z % (2 ^ (2 * w) : Nat) := Int.emod_nonneg _ (by positivity)
  rw [BitVec.toNat_setWidth, BitVec.toNat_ofInt, BitVec.toNat_ofInt, ← Int.emod_emod_of_dvd z hdvd,
    Int.toNat_emod hnonneg (Int.natCast_nonneg _), Int.toNat_natCast]

theorem extractLsb'_ofInt_double (z : Int) : (BitVec.ofInt (2 * w) z).extractLsb' w w = BitVec.ofInt w (z / 2 ^ w) := by
  refine BitVec.eq_of_toNat_eq ?_
  have hpos : (0 : Int) < 2 ^ w := by positivity
  have hdouble : ((2 ^ (2 * w) : Nat) : Int) = 2 ^ w * 2 ^ w := by rw [two_pow_two_mul]; push_cast; rfl
  have hdiv : z % (2 ^ w * 2 ^ w) / 2 ^ w = z / 2 ^ w + 2 ^ w * -(z / (2 ^ w * 2 ^ w)) := by
    rw [← Int.add_mul_ediv_left _ _ hpos.ne', Int.emod_def]
    ring_nf
  have hnonneg : 0 ≤ z % (2 ^ w * 2 ^ w) := Int.emod_nonneg _ (by positivity)
  rw [BitVec.extractLsb'_toNat, BitVec.toNat_ofInt, BitVec.toNat_ofInt, Nat.shiftRight_eq_div_pow, hdouble]
  zify
  rw [Int.toNat_of_nonneg hnonneg, Int.toNat_of_nonneg (Int.emod_nonneg _ hpos.ne'), hdiv, Int.add_mul_emod_self_left]

variable (sa sb : Bool) (a b : BitVec w)

theorem setWidth_product_eq_mulLow :
    (BitVec.ofInt (2 * w) (operandInt sa a * operandInt sb b)).setWidth w = mulLow w a b := by
  rw [setWidth_ofInt_double, mulLow, BitVec.ofInt_mul, BitVec.ofInt_mul, ofInt_operandInt, ofInt_operandInt, BitVec.ofInt_toInt,
    BitVec.ofInt_toInt]

theorem high_of_unsigned : (BitVec.ofInt (2 * w) (operandInt false a * operandInt false b)).extractLsb' w w = mulhUU w a b := by
  rw [extractLsb'_ofInt_double, mulhUU_eq_ofInt]
  push_cast
  rfl

theorem high_of_mixed : (BitVec.ofInt (2 * w) (operandInt true a * operandInt false b)).extractLsb' w w = mulhSU w a b := by
  rw [extractLsb'_ofInt_double, mulhSU_eq_ofInt]
  rfl

theorem high_of_signed : (BitVec.ofInt (2 * w) (operandInt true a * operandInt true b)).extractLsb' w w = mulhSS w a b := by
  rw [extractLsb'_ofInt_double, mulhSS_eq_ofInt]
  rfl

/-- The product of two unsigned operands fits the double width. -/
theorem toNat_product_unsigned :
    (BitVec.ofInt (2 * w) (operandInt false a * operandInt false b)).toNat = a.toNat * b.toNat := by
  have hcast : operandInt false a * operandInt false b = (a.toNat * b.toNat : Nat) := by
    push_cast
    rfl
  rw [hcast, BitVec.ofInt_natCast, BitVec.toNat_ofNat, Nat.mod_eq_of_lt]
  rw [two_pow_two_mul]
  exact Nat.mul_lt_mul'' a.isLt b.isLt

/-- The product of two signed operands fits the double width. -/
theorem toInt_product_signed :
    (BitVec.ofInt (2 * w) (operandInt true a * operandInt true b)).toInt = a.toInt * b.toInt := by
  rcases Nat.eq_zero_or_pos w with rfl | hw
  · simp [BitVec.eq_nil a, BitVec.eq_nil b, operandInt]
  · have hle := BitVec.toInt_mul_toInt_le (x := a) (y := b)
    have hge := BitVec.le_toInt_mul_toInt (x := a) (y := b)
    have hpow : (2 : Int) ^ (2 * w - 1) = 2 * 2 ^ (w * 2 - 2) := by rw [← Int.pow_succ']; congr 1; omega
    have hpos : (0 : Int) < 2 ^ (w * 2 - 2) := by positivity
    exact toInt_ofInt_of_bounds (z := a.toInt * b.toInt) ⟨by rw [hpow]; linarith, by rw [hpow]; linarith⟩ (by omega)

end

/-- Settles O38: every part of the tree keeps the sum, and the partial products add up to the product. -/
theorem wallaceReduction : Obligations.WallaceReduction := by
  refine ⟨fun w => compress_add, fun w n vs => ?_, fun w vs => ⟨wallaceLayers_length _ _ (by omega), ?_⟩, ?plain, ?booth⟩
  · rw [foldl_add_eq_sum, foldl_add_eq_sum, wallaceLayers_sum]
  · rw [foldl_add_eq_sum, wallaceTree_eq_sum]
  case plain =>
    intro w sa sb a b tree
    have htree : tree = _ := wallaceTree_plainProducts sa sb a b
    rw [htree]
    refine ⟨rfl, setWidth_product_eq_mulLow sa sb a b, ?_, ?_, ?_⟩
    · rintro rfl rfl
      exact ⟨toNat_product_unsigned a b, high_of_unsigned a b⟩
    · rintro rfl rfl
      exact high_of_mixed a b
    · rintro rfl rfl
      exact ⟨toInt_product_signed a b, high_of_signed a b⟩
  case booth =>
    intro h sa sb a b w tree
    have htree : tree = _ := wallaceTree_boothProducts sa sb a b
    rw [htree]
    refine ⟨rfl, setWidth_product_eq_mulLow sa sb a b, ?_, ?_, ?_⟩ <;> rintro rfl rfl
    · exact high_of_unsigned a b
    · exact high_of_mixed a b
    · exact high_of_signed a b

end Sys2Proof.Machine
end

section
/-! Reset, and the step that runs a decoded word (70_reset_and_hazards.md R770, 60_exceptions.md R700). -/

namespace Sys2Proof.Machine

theorem hartid_of_mem_resetOf_others {c : Config} {g : Hart} (h : g ∈ (State.resetOf c).others) : g = Hart.reset c g.hartid := by
  obtain ⟨k, _, rfl⟩ := List.mem_map.1 h
  rfl

/-- Settles O1: each value stands in `Hart.reset`, and the other harts differ in their identity only. -/
theorem resetValues : Obligations.ResetValues := by
  intro c id h
  refine ⟨⟨rfl, rfl, rfl, ?x0⟩, ⟨rfl, rfl, rfl, rfl, rfl⟩, ⟨rfl, rfl, rfl, rfl, rfl⟩, ?mstatus, rfl, rfl, rfl, ?hartids,
    fun g => hartid_of_mem_resetOf_others⟩
  case x0 => exact Vector.getElem_replicate _
  case mstatus => cases hxl : c.xlen <;> simp [h, Hart.reset, Csrs.reset, mstatusReset, hxl]
  case hartids => exact List.map_map

/-- Settles O8: the fetch takes the state of `atFetch` to `u`, and the decoder gives `i`. -/
theorem stepRunsDecoded : Obligations.StepRunsDecoded := fun _ _ _ _ => step_of_decode

end Sys2Proof.Machine
end

section
/-! How every instruction ends: it retires, traps, or raises the terminate signal (60_exceptions.md R700 to R702, R730; 47_system_csr.md
R631). -/

namespace Sys2Proof.Machine

/-! ## The ways to end -/

/-- The CSR instructions are uses of one operation. -/
theorem exec_eq_csrOp {i : Instr} (h : i.isCsr = true) (s : State) : ∃ n writes rd new, exec i s = csrOp s i n writes rd new := by
  cases i with
  | csrrw | csrrs | csrrc | csrrwi | csrrsi | csrrci =>
    unfold exec
    exact ⟨_, _, _, _, rfl⟩
  | _ => cases h

theorem trapped_of_raise_eq {s t : State} {c : Nat} {v : Word} (h : raise s c v = .next t) : Trapped s t false c v := by
  obtain ⟨u, hu, hT⟩ := raise_spec s c v
  cases hu.symm.trans h
  exact hT

theorem ecall_cases {s t : State} (h : exec .ecall s = .next t) : (∃ c v, Trapped s t false c v) ∨ t = terminated s := by
  have hexec : exec .ecall s = if evalHook s s.cfg.shutdownHook then .next (terminated s) else raise s _ 0 := rfl
  rw [hexec] at h
  split at h
  · cases h
    exact .inr rfl
  · exact .inl ⟨_, _, trapped_of_raise_eq h⟩

/-- What any instruction can do, with what is known of the state it leaves. -/
inductive Ends (i : Instr) (s t : State) : Prop
  | finished (h : Finished i.writesMemory s t)
  | trapped (c : Nat) (v : Word) (h : Trapped s t false c v)
  | terminated (hi : i = .ecall) (h : t = terminated s)
  | csr (hi : i.isCsr = true) (n : BitVec 12) (r : CsrName) (rd : RegIdx) (writes : Bool) (v : Word)
      (hr : s.csrAccess n writes = some r) (h : CsrDone s t r rd writes v)

theorem exec_ends {i : Instr} {s t : State} (h : exec i s = .next t) : Ends i s t := by
  by_cases hcsr : i.isCsr = true
  · obtain ⟨n, writes, rd, new, hexec⟩ := exec_eq_csrOp hcsr s
    rw [hexec] at h
    cases hr : s.csrAccess n writes with
    | none =>
      obtain ⟨u, hu, hT⟩ := csrOp_denied s i n writes rd new hr
      cases hu.symm.trans h
      exact .trapped _ _ hT
    | some r =>
      obtain ⟨u, hu, hdone⟩ := csrOp_done s i n writes rd new r hr
      cases hu.symm.trans h
      exact .csr hcsr n r rd writes _ hr hdone
  · by_cases hecall : i = .ecall
    · subst hecall
      rcases ecall_cases h with ⟨c, v, hT⟩ | rfl
      · exact .trapped c v hT
      · exact .terminated rfl rfl
    · obtain ⟨u, hu, hfinished⟩ := exec_answersRes i s (by simpa using hcsr) hecall
      cases hu.symm.trans h
      exact .finished hfinished

/-- Settles O56: an instruction answers, and each way to end names its outcome. -/
theorem everyInstructionAnswers : Obligations.EveryInstructionAnswers := by
  intro i s
  obtain ⟨t, ht⟩ := exec_answers_next i s
  refine ⟨t, ht, ?_⟩
  cases exec_ends ht with
  | finished h => exact h.kind.elim (fun hr => .inl hr.1) (fun hT => .inr (.inl hT.1))
  | trapped c v h => exact .inr (.inl h.report.1)
  | terminated hi h => exact .inr (.inr ⟨hi, h ▸ rfl⟩)
  | csr _ _ _ _ _ _ _ h => exact .inl h.report.1

/-- Settles O57: a trap and the terminate signal keep the counters, and a retire of any but a CSR instruction advances them. -/
theorem retireCounts : Obligations.RetireCounts := by
  intro i s t hcsr hexec
  cases exec_ends hexec with
  | finished h =>
    rcases h.kind with ⟨ho, hcycle, hinstret, _⟩ | ⟨ho, hcycle, hinstret, _⟩
    · exact ⟨fun _ => ⟨hcycle, hinstret⟩, fun hne => absurd ho hne⟩
    · exact ⟨fun hr => absurd (ho.symm.trans hr) nofun, fun _ => ⟨hcycle, hinstret⟩⟩
  | trapped c v h =>
    refine ⟨fun hr => absurd (h.report.1.symm.trans hr) nofun, fun _ => ?_⟩
    rw [h.frame]
    exact ⟨rfl, rfl⟩
  | terminated _ h =>
    subst h
    exact ⟨nofun, fun _ => ⟨rfl, rfl⟩⟩
  | csr hi => rw [hcsr] at hi; cases hi

/-! ## U mode -/

/-- Of the registers whose number U mode may use, it may write only those of floating point (R631). -/
theorem fcsr_of_userWrite {s : State} {n : BitVec 12} {r : CsrName} (hU : s.priv = .U) (h : s.csrAccess n true = some r) :
    r ∈ [CsrName.fflags, .frm, .fcsr] := by
  have htable : ∀ p ∈ csrTable, privGe .U (csrLevel p.1) = true → csrReadOnly p.1 = false →
      p.2 ∈ [CsrName.fflags, .frm, .fcsr] := by decide
  obtain ⟨hlookup, hallowed⟩ := (csrAccess_eq_some_iff s n true r).1 h
  obtain ⟨hlevel, hwrite, _⟩ := (csrAllowed_iff s n r true).1 hallowed
  rw [hU] at hlevel
  exact htable (n, r) ((ofNum_eq_some_iff n r).1 ((lookupCsr_eq_some_iff s.cfg n r).1 hlookup).1) hlevel
    (Bool.eq_false_iff.2 fun hro => hwrite ⟨rfl, hro⟩)

/-- What a CSR instruction in U mode leaves of the control registers. -/
theorem csr_of_userCsrDone {s t : State} {n : BitVec 12} {r : CsrName} {rd : RegIdx} {writes : Bool} {v : Word} (hU : s.priv = .U)
    (hr : s.csrAccess n writes = some r) (h : CsrDone s t r rd writes v) :
    t.csr = { s.csr with fcsr := t.csr.fcsr, mstatus := t.csr.mstatus }
      ∧ ∀ k, k ≠ posFS → k ≠ posFS + 1 → getBit k t.csr.mstatus = getBit k s.csr.mstatus := by
  rw [h.frame]
  cases writes with
  | false => exact ⟨rfl, fun _ _ _ => rfl⟩
  | true =>
    obtain ⟨x, hx⟩ := writeCsr_fcsr_eq s v (fcsr_of_userWrite hU hr)
    rw [if_pos rfl, hx]
    exact ⟨rfl, fun k h0 h1 => getBit_setField2 _ _ _ _ h0 h1⟩

theorem CsrDone.priv {s t : State} {r : CsrName} {rd : RegIdx} {writes : Bool} {v : Word} (h : CsrDone s t r rd writes v) :
    t.priv = s.priv := by
  rw [h.frame]
  cases writes with
  | false => rfl
  | true => rw [if_pos rfl, writeCsr_frame]

/-- Settles O59: a retired instruction is `Finished`, which says it, or a CSR instruction, which in U mode writes at most fcsr. -/
theorem userModeIsolation : Obligations.UserModeIsolation := by
  intro i s t hU hexec hretired
  cases exec_ends hexec with
  | finished h => exact h.iso hretired hU
  | trapped c v h => exact absurd (h.report.1.symm.trans hretired) nofun
  | terminated _ h => subst h; cases hretired
  | csr _ n r rd writes v hr h => exact ⟨h.priv.trans hU, csr_of_userCsrDone hU hr h⟩

end Sys2Proof.Machine
end

section
/-! The level and the power-down flag: the level falls only by MRET and SRET, and only WFI sets the flag (60_exceptions.md R711, R731). -/

namespace Sys2Proof.Machine

/-- The level is no lower and the power-down flag is as it was: what every instruction but WFI, MRET and SRET leaves. -/
structure StaysUp (s t : State) : Prop where
  level : privLevel s.priv ≤ privLevel t.priv
  power : t.powerDown = s.powerDown

/-- The next state, if there is one, stays up from `s`. -/
def NextStaysUp (s : State) (r : StepResult) : Prop := ∀ t, r = .next t → StaysUp s t

/-- An access leaves a state that stays up from `s`, whether it is performed or raises. -/
def AccessStaysUp {α : Type} (s : State) : MemResult α → Prop
  | .ok _ t => StaysUp s t
  | .raise _ _ t => StaysUp s t

theorem StaysUp.refl (s : State) : StaysUp s s := ⟨Nat.le_refl _, rfl⟩

/-- Two fields alone count. -/
theorem StaysUp.of_eq {s u t : State} (h : StaysUp s u) (hpriv : t.priv = u.priv) (hpower : t.powerDown = u.powerDown) : StaysUp s t :=
  ⟨hpriv ▸ h.level, hpower.trans h.power⟩

theorem StaysUp.trapped {s u t : State} {interrupt : Bool} {c : Nat} {v : Word} (h : StaysUp s u) (T : Trapped u t interrupt c v) :
    StaysUp s t :=
  ⟨h.level.trans (trapped_level T), by rw [T.frame]; exact h.power⟩

section
variable {s u : State} {i : Instr} {len offset next a v : Word} {rd rs1 rs2 : RegIdx} {fl : FFlags} {n : Nat} {cls : TransferClass}

/-! ## The shared operations, from a state `u` that stays up from `s` -/

theorem staysUp_setX (h : StaysUp s u) : StaysUp s (u.setX rd v) := h.of_eq (by simp) (by simp)

theorem staysUp_accrue (h : StaysUp s u) : StaysUp s (u.accrue fl) := h.of_eq (by simp) (by simp)

theorem staysUp_raise {c : Nat} (h : StaysUp s u) : NextStaysUp s (raise u c v) :=
  fun _ ht => h.trapped (trapped_of_raise_eq ht)

theorem staysUp_retireTo {regs : Option (RegIdx × RegIdx)} (h : StaysUp s u) : NextStaysUp s (retireTo u next cls regs) := by
  intro t ht
  cases ht
  exact h.of_eq rfl rfl

theorem staysUp_retireX (h : StaysUp s u) : NextStaysUp s (retireX u len rd v) := staysUp_retireTo (staysUp_setX h)

theorem staysUp_retireF (h : StaysUp s u) : NextStaysUp s (retireF u len rd v fl) :=
  staysUp_retireTo (staysUp_accrue (h.of_eq rfl rfl))

theorem staysUp_retireXF (h : StaysUp s u) : NextStaysUp s (retireXF u len rd v fl) :=
  staysUp_retireTo (staysUp_accrue (staysUp_setX h))

theorem staysUp_branch {cond : Bool} (h : StaysUp s u) : NextStaysUp s (branch u len cond offset) := by
  unfold branch
  split <;> exact staysUp_retireTo h

/-- An instruction that is illegal in some modes and retires in the others. -/
theorem staysUp_unless {w : State} {illegal : Bool} (h : StaysUp s u) (hpriv : w.priv = u.priv) (hpower : w.powerDown = u.powerDown) :
    NextStaysUp s (if illegal then raiseIllegal u i else retireTo w next cls none) := by
  split
  · exact staysUp_raise h
  · exact staysUp_retireTo (h.of_eq hpriv hpower)

theorem staysUp_andThen {α : Type} {r : MemResult α} {k : α → State → StepResult} (hr : AccessStaysUp s r)
    (hk : ∀ v u, StaysUp s u → NextStaysUp s (k v u)) : NextStaysUp s (r.andThen k) := by
  cases r with
  | ok v u => exact hk v u hr
  | raise c v u => exact staysUp_raise hr

theorem staysUp_fpGate {k : StepResult} (h : StaysUp s u) (hk : NextStaysUp s k) : NextStaysUp s (fpGate u i k) := by
  unfold fpGate
  split
  · exact hk
  · exact staysUp_raise h

theorem staysUp_fpRounded {rm : BitVec 3} {k : RoundMode → StepResult} (h : StaysUp s u) (hk : ∀ m, NextStaysUp s (k m)) :
    NextStaysUp s (fpRounded u i rm k) := by
  unfold fpRounded
  split
  · split
    · exact hk _
    · exact staysUp_raise h
  · exact staysUp_raise h

/-! ## Memory accesses -/

theorem staysUp_layerRead {t : State} {kind : AccessKind} (h : StaysUp s u) (hr : layerRead u kind a n = .ok (v, t)) :
    StaysUp s t := by
  unfold layerRead at hr
  split at hr
  · cases hr
  · cases hr
    exact h.of_eq rfl rfl

theorem staysUp_layerWrite {t : State} (h : StaysUp s u) (hw : layerWrite u a n v = .ok t) : StaysUp s t := by
  unfold layerWrite at hw
  split at hw
  · cases hw
  · cases hw
    exact h.of_eq rfl rfl

theorem staysUp_memReadOnce (h : StaysUp s u) : AccessStaysUp s (memReadOnce u a n) := by
  unfold memReadOnce
  split
  · exact h
  · rename_i hr
    exact (staysUp_layerRead h hr).of_eq (by simp) (by simp)

theorem staysUp_memReadSplit (h : StaysUp s u) : AccessStaysUp s (memReadSplit u a n) := by
  induction n generalizing u a with
  | zero => exact h
  | succ n ih =>
    have hbyte : AccessStaysUp s (memReadOnce u a 1) := staysUp_memReadOnce h
    unfold memReadSplit
    split <;> rename_i he <;> rw [he] at hbyte
    · exact hbyte
    · have hrest := ih (a := a + 1) hbyte
      split <;> rename_i he' <;> rwa [he'] at hrest

theorem staysUp_memRead (h : StaysUp s u) : AccessStaysUp s (memRead u a n) := by
  unfold memRead
  split
  · exact staysUp_memReadOnce h
  · split
    · exact h
    · exact staysUp_memReadSplit h

theorem staysUp_memWriteOnce (h : StaysUp s u) : AccessStaysUp s (memWriteOnce u a n v) := by
  unfold memWriteOnce
  split
  · exact h
  · rename_i hw
    exact (staysUp_layerWrite h hw).of_eq rfl rfl

theorem staysUp_memWriteSplit (h : StaysUp s u) : AccessStaysUp s (memWriteSplit u a v n) := by
  induction n generalizing u a v with
  | zero => exact h
  | succ n ih =>
    have hbyte : AccessStaysUp s (memWriteOnce u a 1 v) := staysUp_memWriteOnce h
    unfold memWriteSplit
    split <;> rename_i he <;> rw [he] at hbyte
    · exact hbyte
    · exact ih hbyte

theorem staysUp_memWrite (h : StaysUp s u) : AccessStaysUp s (memWrite u a n v) := by
  unfold memWrite
  split
  · exact staysUp_memWriteOnce h
  · split
    · exact h
    · exact staysUp_memWriteSplit h

theorem staysUp_memAmo {op : Word → Word} (h : StaysUp s u) : AccessStaysUp s (memAmo u a n op) := by
  unfold memAmo
  split
  · exact h
  · rename_i hr
    split
    · exact h
    · rename_i hw
      exact (staysUp_layerWrite (staysUp_layerRead h hr) hw).of_eq rfl rfl

/-! ## Loads, stores, atomics and the system instructions -/

theorem staysUp_loadX {widen : Word → Word} (h : StaysUp s u) : NextStaysUp s (loadX u len rd rs1 offset n widen) :=
  staysUp_andThen (staysUp_memRead h) fun _ _ => staysUp_retireX

theorem staysUp_storeX (h : StaysUp s u) : NextStaysUp s (storeX u len rs1 offset n v) :=
  staysUp_andThen (staysUp_memWrite h) fun _ _ => staysUp_retireTo

theorem staysUp_loadS (h : StaysUp s u) : NextStaysUp s (loadS u i len rd rs1 offset) :=
  staysUp_fpGate h (staysUp_andThen (staysUp_memRead h) fun _ _ => staysUp_retireF)

theorem staysUp_loadD (h : StaysUp s u) : NextStaysUp s (loadD u i len rd rs1 offset) :=
  staysUp_fpGate h (staysUp_andThen (staysUp_memRead h) fun _ _ => staysUp_retireF)

theorem staysUp_fetchAndOp {op : BitVec (8 * n) → BitVec (8 * n) → BitVec (8 * n)} {src : Word} (h : StaysUp s u) :
    NextStaysUp s (fetchAndOp u rd rs1 n op src) := by
  unfold fetchAndOp
  split
  · exact staysUp_andThen (staysUp_memAmo h) fun _ _ => staysUp_retireX
  · exact staysUp_raise h

theorem staysUp_loadReserved (h : StaysUp s u) : NextStaysUp s (loadReserved u rd rs1 n) := by
  unfold loadReserved
  split
  · exact staysUp_andThen (staysUp_memRead h) fun _ _ hu => staysUp_retireX (hu.of_eq rfl rfl)
  · exact staysUp_raise h

theorem staysUp_storeConditional (h : StaysUp s u) : NextStaysUp s (storeConditional u rd rs1 n v) := by
  unfold storeConditional
  split
  · split
    · exact staysUp_andThen (staysUp_memWrite h) fun _ _ hu => staysUp_retireX (hu.of_eq rfl rfl)
    · exact staysUp_retireX (h.of_eq rfl rfl)
  · exact staysUp_raise h

end

theorem CsrDone.staysUp {s t : State} {r : CsrName} {rd : RegIdx} {writes : Bool} {v : Word} (h : CsrDone s t r rd writes v) :
    StaysUp s t := by
  refine (StaysUp.refl s).of_eq h.priv ?_
  rw [h.frame]
  cases writes with
  | false => rfl
  | true => rw [if_pos rfl, writeCsr_frame]

theorem csrOp_staysUp (s : State) (i : Instr) (n : BitVec 12) (writes : Bool) (rd : RegIdx) (new : Word → Word) :
    NextStaysUp s (csrOp s i n writes rd new) := by
  intro t ht
  cases hr : s.csrAccess n writes with
  | none =>
    obtain ⟨u, hu, hT⟩ := csrOp_denied s i n writes rd new hr
    cases hu.symm.trans ht
    exact (StaysUp.refl s).trapped hT
  | some r =>
    obtain ⟨u, hu, hdone⟩ := csrOp_done s i n writes rd new r hr
    cases hu.symm.trans ht
    exact hdone.staysUp

/-! ## Every instruction -/

theorem exec_staysUp (i : Instr) (s : State) (hwfi : i ≠ .wfi) (hmret : i ≠ .mret) (hsret : i ≠ .sret) :
    NextStaysUp s (exec i s) := by
  have h : StaysUp s s := StaysUp.refl s
  cases i with
  | lui | auipc | addi | slti | sltiu | xori | ori | andi | slli | srli | srai | add | sub | sll | slt | sltu | xor | srl | sra | or | and |
  addiw | slliw | srliw | sraiw | addw | subw | sllw | srlw | sraw | c_addi4spn | c_addi | c_addiw | c_li | c_addi16sp | c_lui | c_srli |
  c_srai | c_andi | c_sub | c_xor | c_or | c_and | c_subw | c_addw | c_slli | c_mv | c_add | mul | mulh | mulhsu | mulhu | div | divu | rem
  | remu | mulw | divw | divuw | remw | remuw | sh1add | sh2add | sh3add | add_uw | sh1add_uw | sh2add_uw | sh3add_uw | slli_uw | andn | orn
  | xnor | clz | ctz | cpop | clzw | ctzw | cpopw | max | maxu | min | minu | sext_b | sext_h | zext_h | rol | ror | rori | rolw | rorw |
  roriw | orc_b | rev8 | clmul | clmulh | clmulr | bclr | bclri | bext | bexti | binv | binvi | bset | bseti =>
    exact staysUp_retireX h
  | fence | c_nop => exact staysUp_retireTo h
  | fence_i => exact staysUp_retireTo (h.of_eq rfl rfl)
  | jal | c_jal | c_j | jalr | c_jr | c_jalr => exact staysUp_retireTo (staysUp_setX h)
  | beq | bne | blt | bge | bltu | bgeu | c_beqz | c_bnez => exact staysUp_branch h
  | lb | lh | lw | lbu | lhu | lwu | ld | c_lw | c_ld | c_lwsp | c_ldsp => exact staysUp_loadX h
  | sb | sh | sw | sd | c_sw | c_sd | c_swsp | c_sdsp => exact staysUp_storeX h
  | c_flw | c_flwsp | flw => exact staysUp_loadS h
  | c_fld | c_fldsp | fld => exact staysUp_loadD h
  | c_fsd | c_fsw | c_fsdsp | c_fswsp | fsw | fsd => exact staysUp_fpGate h (staysUp_storeX h)
  | amoswap_w | amoadd_w | amoxor_w | amoand_w | amoor_w | amomin_w | amomax_w | amominu_w | amomaxu_w | amoswap_d | amoadd_d | amoxor_d |
  amoand_d | amoor_d | amomin_d | amomax_d | amominu_d | amomaxu_d =>
    exact staysUp_fetchAndOp h
  | lr_w | lr_d => exact staysUp_loadReserved h
  | sc_w | sc_d => exact staysUp_storeConditional h
  | fmadd_s | fmsub_s | fnmsub_s | fnmadd_s | fadd_s | fsub_s | fmul_s | fdiv_s | fsqrt_s | fcvt_s_w | fcvt_s_wu | fcvt_s_l | fcvt_s_lu |
  fcvt_s_d | fmadd_d | fmsub_d | fnmsub_d | fnmadd_d | fadd_d | fsub_d | fmul_d | fdiv_d | fsqrt_d | fcvt_d_s | fcvt_d_w | fcvt_d_wu |
  fcvt_d_l | fcvt_d_lu =>
    exact staysUp_fpRounded h fun _ => staysUp_retireF h
  | fcvt_w_s | fcvt_wu_s | fcvt_l_s | fcvt_lu_s | fcvt_w_d | fcvt_wu_d | fcvt_l_d | fcvt_lu_d =>
    exact staysUp_fpRounded h fun _ => staysUp_retireXF h
  | fsgnj_s | fsgnjn_s | fsgnjx_s | fmin_s | fmax_s | fmv_w_x | fsgnj_d | fsgnjn_d | fsgnjx_d | fmin_d | fmax_d | fmv_d_x =>
    exact staysUp_fpGate h (staysUp_retireF h)
  | feq_s | flt_s | fle_s | feq_d | flt_d | fle_d => exact staysUp_fpGate h (staysUp_retireXF h)
  | fmv_x_w | fclass_s | fclass_d | fmv_x_d => exact staysUp_fpGate h (staysUp_retireX h)
  | ebreak | c_ebreak => exact staysUp_raise h
  | csrrw | csrrs | csrrc | csrrwi | csrrsi | csrrci =>
    unfold exec
    exact csrOp_staysUp _ _ _ _ _ _
  | ecall =>
    intro t ht
    rcases ecall_cases ht with ⟨c, v, hT⟩ | rfl
    · exact h.trapped hT
    · exact h.of_eq rfl rfl
  | sfence_vma => exact staysUp_unless h rfl rfl
  | wfi => exact absurd rfl hwfi
  | mret => exact absurd rfl hmret
  | sret => exact absurd rfl hsret

/-- The three that are left are illegal in some modes, and retire in the others. -/
theorem trapped_or_retired {s t u : State} {i : Instr} {illegal : Bool} {next : Word} {cls : TransferClass}
    (h : (if illegal then raiseIllegal s i else retireTo u next cls none) = .next t)
    (hinsn : u.out.insn = s.out.insn) (hcfg : u.cfg = s.cfg) :
    (∃ c v, Trapped s t false c v) ∨ (t.out.outcome = .retired ∧ t.out.insn = s.out.insn ∧ t.cfg = s.cfg) := by
  split at h
  · exact .inl ⟨_, _, trapped_of_raise_eq h⟩
  · cases h
    exact .inr ⟨rfl, hinsn, hcfg⟩

theorem exec_trapped_or_retired {i : Instr} {s t : State} (hi : i = .wfi ∨ i = .mret ∨ i = .sret) (h : exec i s = .next t) :
    (∃ c v, Trapped s t false c v) ∨ (t.out.outcome = .retired ∧ t.out.insn = s.out.insn ∧ t.cfg = s.cfg) := by
  rcases hi with rfl | rfl | rfl <;> exact trapped_or_retired h rfl rfl

theorem powerDown_of_unless {s t u : State} {i : Instr} {illegal : Bool} {next : Word} {cls : TransferClass}
    (h : (if illegal then raiseIllegal s i else retireTo u next cls none) = .next t) (hpower : u.powerDown = s.powerDown) :
    t.powerDown = s.powerDown := by
  split at h
  · rw [(trapped_of_raise_eq h).frame]
  · cases h
    exact hpower

theorem exec_powerDown {i : Instr} {s t : State} (hwfi : i ≠ .wfi) (h : exec i s = .next t) : t.powerDown = s.powerDown := by
  by_cases hreturn : i = .mret ∨ i = .sret
  · rcases hreturn with rfl | rfl <;> exact powerDown_of_unless h rfl
  · obtain ⟨hmret, hsret⟩ := not_or.1 hreturn
    exact (exec_staysUp i s hwfi hmret hsret t h).power

/-- A level that falls is one of a return that was legal. -/
theorem return_of_falls {i : Instr} {s t : State} (h : exec i s = .next t) (hfalls : privLevel t.priv < privLevel s.priv) :
    i = .mret ∨ i = .sret := by
  by_contra hne
  obtain ⟨hmret, hsret⟩ := not_or.1 hne
  by_cases hwfi : i = .wfi
  · subst hwfi
    obtain ⟨u, hu, hfinished, _, hpriv⟩ := answers_wfi false s
    cases hu.symm.trans h
    rcases hfinished.kind with ⟨ho, _⟩ | ⟨_, _, _, hle⟩
    · exact hfalls.ne (by rw [hpriv ho])
    · exact hfalls.not_ge hle
  · exact hfalls.not_ge (exec_staysUp i s hwfi hmret hsret t h).level

theorem trapped_of_rises {i : Instr} {s t : State} (h : exec i s = .next t) (hrises : privLevel s.priv < privLevel t.priv) :
    t.out.outcome = .trapped := by
  cases exec_ends h with
  | finished hf =>
    rcases hf.kind with ⟨_, _, _, hle⟩ | ⟨ho, _⟩
    · exact absurd hle hrises.not_ge
    · exact ho
  | trapped c v hT => exact hT.report.1
  | terminated _ ht => subst ht; exact absurd hrises (Nat.lt_irrefl _)
  | csr _ _ _ _ _ _ _ hdone => exact absurd hrises (by rw [hdone.priv]; exact Nat.lt_irrefl _)

end Sys2Proof.Machine
end

section
/-! Interrupt selection, power-down, and what a step does from the fetch on (60_exceptions.md R700, R711, R712). -/

namespace Sys2Proof.Machine

/-! ## The interrupt selected -/

theorem selectInterrupt_eq_or (s : State) : selectInterrupt s = (firstOf s.machineSet).or (firstOf s.supervisorSet) := by
  unfold selectInterrupt
  cases firstOf s.machineSet <;> rfl

/-- The bits of a set that counts under a condition only. -/
theorem getBit_ite_zero (c : Bool) (i : Nat) (m : Word) : getBit i (if c then m else 0) = (c && getBit i m) := by
  cases c
  · exact getBit_of_zero i
  · rfl

theorem getBit_machineSet (s : State) {i : Nat} (hi : i < 64) : getBit i s.machineSet =
    ((s.priv == .U || s.priv == .S || (s.priv == .M && getBit posMIE s.csr.mstatus)) && (getBit i s.csr.mip && getBit i s.csr.mie)
      && !getBit i s.csr.mideleg) := by
  have henabled : (s.priv != .M || getBit posMIE s.csr.mstatus)
      = (s.priv == .U || s.priv == .S || (s.priv == .M && getBit posMIE s.csr.mstatus)) := by cases s.priv <;> simp
  rw [State.machineSet, getBit_ite_zero, henabled, Bool.and_assoc]
  simp [State.pendEnabled, getBit, hi]

theorem getBit_supervisorSet (s : State) (i : Nat) : getBit i s.supervisorSet =
    ((s.priv == .U || (s.priv == .S && getBit posSIE s.csr.mstatus)) && (getBit i s.csr.mip && getBit i s.csr.mie)
      && getBit i s.csr.mideleg) := by
  rw [State.supervisorSet, getBit_ite_zero, Bool.and_assoc]
  simp [State.pendEnabled, getBit]

/-- The first of a set in the order of R712, where the set is given by its bits. -/
theorem firstOf_eq_find? {set : Word} {p : Nat → Bool} (h : ∀ i < 64, getBit i set = p i) :
    firstOf set = [11, 3, 7, 9, 1, 5].find? p := by
  simp only [firstOf, List.find?_cons, List.find?_nil, h 11 (by decide), h 3 (by decide), h 7 (by decide), h 9 (by decide),
    h 1 (by decide), h 5 (by decide)]

/-! ## The step from the fetch on -/

/-- A fetch that stops changes no more than one that gives a word. -/
theorem fetch_raise_frame {s u : State} {c : Nat} {v : Word} (h : fetch s = .raise c v u) :
    ∃ d o, u = { s with devSeq := d, out := o } := by
  unfold fetch at h
  split at h
  · split at h
    · rename_i hlow
      cases h
      exact ⟨_, _, fetch16_raise hlow⟩
    · rename_i hlow
      obtain ⟨d, o, rfl⟩ := fetch16_frame hlow
      split at h
      · split at h <;> cases h
        rename_i hhigh
        exact ⟨_, _, fetch16_raise hhigh⟩
      · split at h <;> cases h
        exact ⟨_, _, rfl⟩
  · cases h
    exact ⟨_, _, rfl⟩

/-- What follows the fetch: a trap or an instruction, in a state `u` that differs from `s` in the device counter and the record alone. -/
theorem stepFetch_cases {s t : State} (h : stepFetch s = .next t) :
    ∃ u, u = { s with devSeq := u.devSeq, out := u.out } ∧ ((∃ c v, Trapped u t false c v)
      ∨ ∃ n i, u.out.insn = some n ∧ decode u.cfg n = some i ∧ exec i u = .next t) := by
  unfold stepFetch at h
  split at h
  · rename_i u hf
    obtain ⟨d, o, rfl⟩ := fetch_raise_frame hf
    exact ⟨_, rfl, .inl ⟨_, _, trapped_of_raise_eq h⟩⟩
  · rename_i n u hf
    obtain ⟨d, o, rfl⟩ := fetch_frame hf
    refine ⟨noteInsn { s with devSeq := d, out := o } n, rfl, ?_⟩
    unfold stepInsn at h
    split at h
    · rename_i i hd
      exact .inr ⟨n, i, rfl, hd, h⟩
    · split at h
      · cases h
      · exact .inl ⟨_, _, trapped_of_raise_eq h⟩

theorem lastInstr_of_eq {u t : State} {n : Insn} {i : Instr} (hn : u.out.insn = some n) (hd : decode u.cfg n = some i)
    (hinsn : t.out.insn = u.out.insn) (hcfg : t.cfg = u.cfg) : lastInstr t = some i := by
  rw [lastInstr, hinsn, hn, hcfg]
  exact hd

/-- Only a WFI that retired leaves the flag set that the step cleared. -/
theorem wfi_of_powerDown {s t : State} (h : stepFetch s = .next t) (hs : s.powerDown = false) (ht : t.powerDown = true) :
    lastInstr t = some .wfi ∧ t.out.outcome = .retired := by
  obtain ⟨u, hu, hcases⟩ := stepFetch_cases h
  have hawake : u.powerDown = false := by rw [hu]; exact hs
  have hne : t.powerDown ≠ u.powerDown := by rw [ht, hawake]; decide
  have htrap {c : Nat} {v : Word} (hT : Trapped u t false c v) : t.powerDown = u.powerDown := by rw [hT.frame]
  rcases hcases with ⟨c, v, hT⟩ | ⟨n, i, hn, hd, hexec⟩
  · exact absurd (htrap hT) hne
  by_cases hwfi : i = .wfi
  · subst hwfi
    rcases exec_trapped_or_retired (.inl rfl) hexec with ⟨c, v, hT⟩ | ⟨hretired, hinsn, hcfg⟩
    · exact absurd (htrap hT) hne
    · exact ⟨lastInstr_of_eq hn hd hinsn hcfg, hretired⟩
  · exact absurd (exec_powerDown hwfi hexec) hne

/-- Settles O12: the three kinds of step, the flag by what each instruction does to it, and the selection by the bits of the two sets. -/
theorem stepBeforeFetch : Obligations.StepBeforeFetch := by
  refine ⟨fun s hrun => ⟨fun hd => ?idle, fun hd i hi => ?interrupt, fun hd t hstep hpower => ?power⟩, fun s => ?selection⟩
  case idle => exact ⟨_, step_of_dormant hrun hd, rfl, rfl⟩
  case interrupt =>
    obtain ⟨hframe, hlevel, htoM, htoS, hpending, hreport⟩ := takeInterrupt_spec (atFetch s) i
    exact ⟨_, step_of_interrupt hrun hd hi, hframe, hlevel, htoM, htoS, hpending, hreport⟩
  case power =>
    cases hi : selectInterrupt (takeInputs s) with
    | some i =>
      rw [step_of_interrupt hrun hd hi] at hstep
      cases hstep
      rw [(takeInterrupt_spec (atFetch s) i).frame] at hpower
      cases hpower
    | none =>
      rw [step_of_reaches ⟨hrun, hd, hi⟩] at hstep
      exact wfi_of_powerDown hstep rfl hpower
  case selection =>
    rw [selectInterrupt_eq_or, firstOf_eq_find? fun i hi => getBit_machineSet s hi,
      firstOf_eq_find? fun i _ => getBit_supervisorSet s i]

end Sys2Proof.Machine
end

section
/-! The level over a whole step: its inputs move no hart's level, and each of its parts does what the rule lets it (60_exceptions.md R731). -/

namespace Sys2Proof.Machine

/-! ## The inputs -/

/-- A hart by its identity and its level. -/
abbrev idAndLevel (h : Hart) : Word × Priv := (h.hartid, h.priv)

theorem idAndLevel_onInput (h : Hart) (a : Input) : idAndLevel (h.onInput a) = idAndLevel h := by
  unfold Hart.onInput
  cases a with
  | mip => dsimp only; split <;> rfl
  | cacheFill id kind e =>
    dsimp only
    split
    · cases kind <;> rfl
    · rfl
  | time | writeRam | switchHart => rfl

theorem idAndLevel_drops (h : Hart) (tss : List (List Place)) : idAndLevel (tss.foldl Hart.dropRange h) = idAndLevel h := by
  induction tss generalizing h with
  | nil => rfl
  | cons ts tss ih => exact ih _

theorem switchTo_perm {active g : Hart} {id : Word} {hs rest : List Hart} (h : switchTo active id hs = some (g, rest)) :
    (g :: rest).Perm (active :: hs) := by
  induction hs generalizing g rest with
  | nil => cases h
  | cons x hs ih =>
    unfold switchTo at h
    split at h
    · cases h
      exact .swap _ _ _
    · split at h
      · rename_i he
        cases h
        exact (List.Perm.swap _ _ _).trans (((ih he).cons x).trans (.swap _ _ _))
      · cases h

/-- Every hart by its identity and its level, the active one first. -/
def idsAndLevels (s : State) : List (Word × Priv) := (s.toHart :: s.others).map idAndLevel

theorem idsAndLevels_applyInput (s : State) (a : Input) : (idsAndLevels (applyInput s a)).Perm (idsAndLevels s) := by
  have honInput : idsAndLevels { s with toHart := Hart.onInput s.toHart a, others := s.others.map fun h => Hart.onInput h a }
      = idsAndLevels s := by
    simp [idsAndLevels, idAndLevel_onInput, Function.comp_def]
  rw [← honInput]
  unfold applyInput
  generalize { s with toHart := Hart.onInput s.toHart a, others := s.others.map fun h => Hart.onInput h a } = u
  cases a with
  | mip | cacheFill | writeRam => exact .refl _
  | time => dsimp only; split <;> exact .refl _
  | switchHart id =>
    dsimp only
    split
    · rename_i hswitch
      exact (switchTo_perm hswitch).map _
    · exact .refl _

theorem idsAndLevels_takeInputs (s : State) : (idsAndLevels (takeInputs s)).Perm (idsAndLevels s) := by
  have hall (acts : List Input) (u : State) : (idsAndLevels (acts.foldl applyInput u)).Perm (idsAndLevels u) := by
    induction acts generalizing u with
    | nil => exact .refl _
    | cons a acts ih => exact (ih _).trans (idsAndLevels_applyInput u a)
  unfold takeInputs
  split
  · exact .refl _
  · exact hall _ _

/-! ## An instruction, and the step -/

theorem map_idAndLevel_others {i : Instr} {s t : State} (h : exec i s = .next t) :
    t.others.map idAndLevel = s.others.map idAndLevel := by
  obtain ⟨tss, htss⟩ := (exec_preserves h).kept.oth
  rw [htss, List.map_map]
  exact List.map_congr_left fun h _ => idAndLevel_drops h tss

/-- What a part of a step may do to the levels, with the trap or the return that stands in the record for it. -/
structure LevelStep (s t : State) : Prop where
  rises : privLevel s.priv < privLevel t.priv → t.out.outcome = .trapped
  falls : privLevel t.priv < privLevel s.priv → t.out.outcome = .retired ∧ (lastInstr t = some .mret ∨ lastInstr t = some .sret)
  others : t.others.map idAndLevel = s.others.map idAndLevel

theorem levelStep_trapped {s t : State} {interrupt : Bool} {c : Nat} {v : Word} (T : Trapped s t interrupt c v) : LevelStep s t :=
  ⟨fun _ => T.report.1, fun h => absurd (trapped_level T) h.not_ge, by rw [T.frame]⟩

theorem levelStep_exec {i : Instr} {n : Insn} {s t : State} (hn : s.out.insn = some n) (hd : decode s.cfg n = some i)
    (h : exec i s = .next t) : LevelStep s t := by
  refine ⟨trapped_of_rises h, fun hfalls => ?_, map_idAndLevel_others h⟩
  have hreturn := return_of_falls h hfalls
  rcases exec_trapped_or_retired (.inr hreturn) h with ⟨c, v, T⟩ | ⟨hretired, hinsn, hcfg⟩
  · exact absurd (trapped_level T) hfalls.not_ge
  · rw [lastInstr_of_eq hn hd hinsn hcfg]
    exact ⟨hretired, hreturn.imp (congrArg some) (congrArg some)⟩

theorem step_levelStep {s t : State} (h : step s = .next t) : LevelStep (takeInputs s) t := by
  rcases step_cases h with rfl | ⟨i, _, rfl⟩ | hfetch
  · exact ⟨fun hlt => absurd hlt (Nat.lt_irrefl _), fun hlt => absurd hlt (Nat.lt_irrefl _), rfl⟩
  · obtain ⟨hrises, hfalls, hothers⟩ := levelStep_trapped (takeInterrupt_spec (atFetch s) i)
    exact ⟨hrises, hfalls, hothers⟩
  · obtain ⟨u, hu, hcases⟩ := stepFetch_cases hfetch
    have hpriv : u.priv = (takeInputs s).priv := by rw [hu]; rfl
    have hothers : u.others = (takeInputs s).others := by rw [hu]; rfl
    have hlevel : LevelStep u t := by
      rcases hcases with ⟨c, v, T⟩ | ⟨n, i, hn, hd, hexec⟩
      · exact levelStep_trapped T
      · exact levelStep_exec hn hd hexec
    exact ⟨hpriv ▸ hlevel.rises, hpriv ▸ hlevel.falls, hothers ▸ hlevel.others⟩

/-- Settles O16: of an instruction by the ways it can end, of a step by its parts; inputs put the harts in another order at most. -/
theorem privilegeChanges : Obligations.PrivilegeChanges := by
  refine ⟨fun _ _ _ => trapped_of_rises, fun _ _ _ => return_of_falls, fun s k => trapped_level (takeInterrupt_spec s k), fun s r v => ?_,
    fun _ _ => rfl, fun s t hstep => ?_, idsAndLevels_takeInputs⟩
  · rw [writeCsr_frame]
  · obtain ⟨hrises, hfalls, hothers⟩ := step_levelStep hstep
    exact ⟨hrises, hfalls, hothers⟩

end Sys2Proof.Machine
end
